-- ==== Sys2Proof/Word.lean ====
section
/-! DEFINITION. The word types of CORE (spec/00_scope.md rule R9: every value is an unsigned number of a stated width). -/

namespace Sys2Proof

/-- 8 bits: one byte of physical memory (R80). -/
abbrev Byte := BitVec 8

/-- 32 bits: a general register of the 32-bit state, a command word, a registry key. -/
abbrev Word := BitVec 32

/-- 64 bits: a command operand, a result, a register of the 64-bit state. -/
abbrev DWord := BitVec 64

end Sys2Proof
end

