-- ==== Sys2Proof/Config.lean ====
section
/-! DEFINITION. The parameters of one CORE build (spec/00_scope.md rule R7), the feature numbers (R141), and the free
values: what the spec leaves to an oracle or to a draw (R81, R93, R207). -/

namespace Sys2Proof

/-- The features the rules test, by the numbers of rule R141. -/
inductive Feature where
  | m | mSecurity | aarch64 | el2 | el3 | lpae | pmsa | v8 | v7 | v6k | v6 | pxn
  deriving DecidableEq, Repr, Inhabited

/-- Feature number of rule R141. -/
def Feature.num : Feature → Nat
  | .m => 0 | .mSecurity => 1 | .aarch64 => 2 | .el2 => 3 | .el3 => 4 | .lpae => 5
  | .pmsa => 6 | .v8 => 7 | .v7 => 8 | .v6k => 9 | .v6 => 10 | .pxn => 11

/-- One range of the external attribution function `IDAU` (R358).  A total function of a 32-bit address is a finite
list of such ranges, the first match deciding; log entry 6. -/
structure IdauRange where
  base   : Word
  limit  : Word
  exempt : Bool
  ns     : Bool
  nsc    : Bool
  deriving DecidableEq, Repr, Inhabited

/-- The parameters of rule R7.  `CATALOG` is presented as `CR_DEFINE` commands during construction (R181); `HOOKS` is
the list of hook ids the parameter gives a behaviour to (the behaviours are the free functions of
`Sys2Proof/Machine/Hooks.lean`). -/
structure Params where
  /-- `FEATURES`, closed under R142: a set of feature numbers below `FEAT_BITS`, bit `i` for feature `i`. -/
  features   : Nat
  /-- `FEAT_BITS`, at least 64. -/
  featBits   : Nat
  /-- the catalog hook ids (64 and above) that `HOOKS` defines (R122, R186). -/
  hookIds    : List Nat
  /-- `MPU_NREGION`, 0..255. -/
  mpuNregion : Nat
  /-- `SAU_NREGION`, 0..255. -/
  sauNregion : Nat
  /-- `PAMAX`, 32..48. -/
  pamax      : Nat
  /-- `RESET_PC`. -/
  resetPc    : DWord
  /-- `INIT_VTOR_S`, low 7 bits 0. -/
  initVtorS  : Word
  /-- `INIT_VTOR_NS`, low 7 bits 0. -/
  initVtorNs : Word
  /-- `IDAU`, default none. -/
  idau       : List IdauRange
  deriving DecidableEq, Repr, Inhabited

/-- The default column of rule R7 with a feature set given. -/
def Params.withFeatures (features : Nat) : Params :=
  { features := features, featBits := 64, hookIds := [], mpuNregion := 16, sauNregion := 8, pamax := 40,
    resetPc := 0, initVtorS := 0, initVtorNs := 0, idau := [] }

namespace Config

/-- FREE VALUE (R81, R93, U24): the MEM port's answer to the `n`-th request the backing store of the state does not
settle, a read; `none` is the answer `err`.  Log entry 2. -/
opaque memRead : Nat → Option DWord

/-- FREE VALUE (R81, R93, U24): whether the MEM port accepts the `n`-th request the backing store of the state does not
settle, a write.  Log entry 2. -/
opaque memWrite : Nat → Bool

/-- FREE VALUE (R207, S2): the reset value drawn for a register whose descriptor has the `NONDET` flag.  Log entry 3. -/
opaque nondetReset : Nat → DWord

/-- FREE VALUE: what a read of an entry, or of a region view whose region number names no region, returns when no rule
gives it storage or a read behaviour; a function of the registry key.  Log entry 4. -/
opaque unreadable : Nat → DWord

end Config

end Sys2Proof
end

