-- ==== Sys2Proof/Syntax.lean ====
section
/-! DEFINITION. The operations of CORE as syntax (spec/30_encoding.md rule R113), and the descriptor record that
`CR_DEFINE` takes on the side input (R118 to R122). -/

namespace Sys2Proof

/-- A privilege level that has registers of its own: 1, 2 or 3. -/
inductive Lvl where
  | l1 | l2 | l3
  deriving DecidableEq, Repr, Inhabited

/-- Which execution states a template is visible in (R118 `state`). -/
inductive RegState where
  | a32 | a64 | both | mprofile
  deriving DecidableEq, Repr, Inhabited

/-- Hook ids (R122).  `catalog n` is an id of the parameter `HOOKS`, 64 and above. -/
inductive Hook where
  | none | storeInv | inv | w1c | nzcv | daif | currentEl | spSel | secureOnly | daifAccess | spEl0Access
  | regionView | mSpecial | ignoreOutOfRange | hcr | catalog (id : Nat)
  deriving DecidableEq, Repr, Inhabited

/-- The number of a hook id (R122). -/
def Hook.num : Hook → Nat
  | .none => 0 | .storeInv => 1 | .inv => 2 | .w1c => 3 | .nzcv => 4 | .daif => 5 | .currentEl => 6 | .spSel => 7
  | .secureOnly => 8 | .daifAccess => 9 | .spEl0Access => 10 | .regionView => 11 | .mSpecial => 12
  | .ignoreOutOfRange => 13 | .hcr => 14 | .catalog id => id

/-- Behaviour of an entry referenced from the security bank it does not exist in (R118 `absent`, R197). -/
inductive Absent where
  | trap
  | const (v : DWord)
  deriving DecidableEq, Repr, Inhabited

/-- Field ids (R118 `field`): the state fields of spec/10_state.md, any of which a descriptor may name as storage.
`secure` selects the Secure copy of a banked field; the `Hi` ids are the half-views of R46, R47, R50; the region-table
ids name one entry (R57, R59); `xpsr` is the status word without `IPSR`, which is `mException` (R28).  `catalog n` is
storage of the catalog's own (R63, R505).  Log entry 9. -/
inductive FieldId where
  | none
  | gpr (i : Nat) | bankR13 (b : Nat) | bankR14 (b : Nat) | bankSpsr (b : Nat) | usrR8 (i : Nat) | fiqR8 (i : Nat)
  | spsr | xreg (i : Nat) | pc64 | spEl (i : Nat) | elrEl (l : Lvl)
  | vLo (i : Nat) | vHi (i : Nat) | fpscr | fpexc | exclAddr | exclVal
  | msp (secure process : Bool) | control (secure : Bool) | primask (secure : Bool) | faultmask (secure : Bool)
  | basepri (secure : Bool)
  | sctlr (l : Lvl) | ttbr0 (l : Lvl) | ttbr1 (secure : Bool) | vttbr | tcr (l : Lvl) | vtcr | dacr (secure : Bool)
  | mair (l : Lvl) | mairHi (l : Lvl) | hcr | hcrHi | scr | vbar (l : Lvl) | mvbar | esr (l : Lvl)
  | ifsr (secure : Bool) | far (l : Lvl) | farHi (l : Lvl) | hpfar | cpacr | cptr2 | cptr3 | mdscr | mdcr
  | mpuRnr (secure : Bool) | mpuCtrl (secure : Bool) | mpuMair0 (secure : Bool) | mpuMair1 (secure : Bool)
  | sauCtrl | sauRnr | sfsr | sfar
  | cfsr (secure : Bool) | hfsr | dfsr | mmfar (secure : Bool) | bfar | vtor (secure : Bool) | aircr
  | ccr (secure : Bool)
  | cpsr | pstate | xpsr | mException | mSecure | aarch64 | locked | phase
  | excIndex | excSyndrome | excFsr | excVaddress | excTargetEl | excMSecure | excMNumber | excMDerived | excMLr | excIpa
  | excFr
  | rgnr
  | mpuRbarAt (secure : Bool) (n : Nat) | mpuRsrAt (secure : Bool) (n : Nat) | mpuRacrAt (secure : Bool) (n : Nat)
  | mpuRlarAt (secure : Bool) (n : Nat) | sauRbarAt (n : Nat) | sauRlarAt (n : Nat)
  | catalog (n : Nat)
  deriving DecidableEq, Repr, Inhabited

/-- A ControlRegisterDescriptor template as presented on `D` to `CR_DEFINE` (R118).  `0xFF` in `crm`, `opc1` or `opc2`
is the wildcard `ANY`.  `bankS`, `bankNs` are `bank_field[0]`, `bank_field[1]`. -/
structure Template where
  name : String
  cp : BitVec 8
  crn : BitVec 8
  crm : BitVec 8
  opc0 : BitVec 8
  opc1 : BitVec 8
  opc2 : BitVec 8
  state : RegState
  typ : BitVec 16
  access : BitVec 8
  secure : BitVec 2
  absent : Option Absent
  resetvalue : DWord
  field : FieldId
  bankS : FieldId
  bankNs : FieldId
  accessfn : Hook
  readfn : Hook
  writefn : Hook
  resetfn : Hook
  rawReadfn : Hook
  rawWritefn : Hook
  deriving DecidableEq, Repr, Inhabited

/-- The all-zero descriptor: what the side input `D` holds when nothing is presented on it. -/
def Template.zero : Template :=
  { name := "", cp := 0, crn := 0, crm := 0, opc0 := 0, opc1 := 0, opc2 := 0, state := .a32, typ := 0, access := 0,
    secure := 0, absent := none, resetvalue := 0, field := .none, bankS := .none, bankNs := .none,
    accessfn := .none, readfn := .none, writefn := .none, resetfn := .none, rawReadfn := .none, rawWritefn := .none }

/-- A concrete registry entry (R118 "as stored in `REG`", R184). -/
structure Entry where
  key : Word
  name : String
  typ : BitVec 16
  access : BitVec 8
  secure : BitVec 2
  absent : Option Absent
  resetvalue : DWord
  field : FieldId
  accessfn : Hook
  readfn : Hook
  writefn : Hook
  resetfn : Hook
  rawReadfn : Hook
  rawWritefn : Hook
  deriving DecidableEq, Repr, Inhabited

/-- The 26 operations (R113), one constructor per row of spec/opcode_table.json, with the operands the row names.
Small operands are the 8-bit fields `f1`, `f2` as presented (R111); the meanings check their ranges. -/
inductive Instr where
  | nop
  | cpuReset
  | hasFeature (n : BitVec 8)
  | curEl
  | isSecure
  | packMode
  | gprRead (idx : BitVec 8)
  | gprWrite (idx : BitVec 8) (val : DWord)
  | psrRead
  | psrWrite (wt : BitVec 8) (val mask : DWord)
  | crDefine (d : Template)
  | crLookup (key : DWord)
  | crRead (key : DWord)
  | crWrite (key val : DWord)
  | crResetAll
  | crRawRead (key : DWord)
  | crRawWrite (key val : DWord)
  | exportState
  | importState (l : List (Word × DWord))
  | tlbiLocal
  | resolve (kind : BitVec 8) (va : DWord)
  | translate (kind regime : BitVec 8) (va : DWord)
  | secAttr (kind asker : BitVec 8) (addr : DWord)
  | recognize (kind flags : BitVec 8) (a b c : DWord)
  | takeException
  | excReturn (a b : DWord)
  deriving DecidableEq, Repr

/-- What the translator presents on the command port (R110): the command word, the three operands and the side input
`D` (a descriptor for `CR_DEFINE`, a list for `IMPORT_STATE`). -/
structure Command where
  w : Word
  a : DWord
  b : DWord
  c : DWord
  desc : Template
  list : List (Word × DWord)
  deriving DecidableEq, Repr, Inhabited

/-- The command with word `w` and nothing on the other inputs. -/
def Command.ofWord (w : Word) : Command := { w := w, a := 0, b := 0, c := 0, desc := .zero, list := [] }

end Sys2Proof
end

