-- ==== Sys2Proof/WellFormed.lean ====
section
/-! DEFINITION. Static operand ranges (spec/30_encoding.md rule R114: "an operand outside the range its rule states" is
answered `ILLEGAL_CMD`).  `Instr.wellFormed` is the part of those ranges that depends on no state and no parameter. -/

namespace Sys2Proof

/-- The access kinds of R11 are 0, 1, 2. -/
def accessKindInRange (kind : BitVec 8) : Bool := decide (kind.toNat ≤ 2)

/-- The event kinds of R470: 1 to 14 and 32 to 42. -/
def eventKindInRange (kind : BitVec 8) : Bool :=
  (decide (1 ≤ kind.toNat) && decide (kind.toNat ≤ 14)) || (decide (32 ≤ kind.toNat) && decide (kind.toNat ≤ 42))

/-- Static checks of one operation's operands. -/
def Instr.wellFormed : Instr → Bool
  | .nop => true
  | .cpuReset => true
  | .hasFeature _ => true
  | .curEl => true
  | .isSecure => true
  | .packMode => true
  | .gprRead idx => decide (idx.toNat ≤ 32)
  | .gprWrite idx _ => decide (idx.toNat ≤ 32)
  | .psrRead => true
  | .psrWrite wt _ _ => decide (wt.toNat ≤ 2)
  | .crDefine d => decide (d.typ.toNat < 512) && decide (d.secure ≠ 0)
  | .crLookup _ => true
  | .crRead _ => true
  | .crWrite _ _ => true
  | .crResetAll => true
  | .crRawRead _ => true
  | .crRawWrite _ _ => true
  | .exportState => true
  | .importState _ => true
  | .tlbiLocal => true
  | .resolve kind _ => accessKindInRange kind
  | .translate kind regime _ => accessKindInRange kind && decide (regime.toNat ≤ 16)
  | .secAttr kind asker addr => accessKindInRange kind && decide (asker.toNat ≤ 1) && decide (addr.toNat < 2 ^ 32)
  | .recognize kind flags _ _ _ => eventKindInRange kind && decide (flags.toNat < 16)
  | .takeException => true
  | .excReturn _ _ => true

end Sys2Proof
end

