-- ==== Sys2Proof/Decode.lean ====
section
/-! DEFINITION. The command decoder, total and rejecting by name, and the encoder (spec/30_encoding.md rules R110, R113,
R114; spec/opcode_table.json). -/

namespace Sys2Proof

/-- Why a command is no operation (R114). -/
inductive DecodeError where
  /-- `op` is not in the table of R113. -/
  | reservedOp
  /-- `f3` (bits 31:24) is not 0. -/
  | reservedField
  /-- a small field the operation does not use is not 0. -/
  | unusedField
  deriving DecidableEq, Repr, Inhabited

/-- Field `op`, bits 7:0 (R110). -/
def opField (w : Word) : BitVec 8 := w.extractLsb' 0 8
/-- Field `f1`, bits 15:8 (R110). -/
def f1Field (w : Word) : BitVec 8 := w.extractLsb' 8 8
/-- Field `f2`, bits 23:16 (R110). -/
def f2Field (w : Word) : BitVec 8 := w.extractLsb' 16 8
/-- Field `f3`, bits 31:24 (R110). -/
def f3Field (w : Word) : BitVec 8 := w.extractLsb' 24 8

/-- The operation of a command whose small fields have been found legal (R113); `none` for a reserved `op`. -/
def operation (c : Command) : Option Instr :=
  match (opField c.w).toNat with
  | 0x00 => some .nop
  | 0x01 => some .cpuReset
  | 0x02 => some (.hasFeature (f1Field c.w))
  | 0x03 => some .curEl
  | 0x04 => some .isSecure
  | 0x05 => some .packMode
  | 0x08 => some (.gprRead (f1Field c.w))
  | 0x09 => some (.gprWrite (f1Field c.w) c.a)
  | 0x0A => some .psrRead
  | 0x0B => some (.psrWrite (f1Field c.w) c.a c.b)
  | 0x10 => some (.crDefine c.desc)
  | 0x11 => some (.crLookup c.a)
  | 0x12 => some (.crRead c.a)
  | 0x13 => some (.crWrite c.a c.b)
  | 0x14 => some .crResetAll
  | 0x15 => some (.crRawRead c.a)
  | 0x16 => some (.crRawWrite c.a c.b)
  | 0x17 => some .exportState
  | 0x18 => some (.importState c.list)
  | 0x19 => some .tlbiLocal
  | 0x20 => some (.resolve (f1Field c.w) c.a)
  | 0x21 => some (.translate (f1Field c.w) (f2Field c.w) c.a)
  | 0x22 => some (.secAttr (f1Field c.w) (f2Field c.w) c.a)
  | 0x30 => some (.recognize (f1Field c.w) (f2Field c.w) c.a c.b c.c)
  | 0x31 => some .takeException
  | 0x32 => some (.excReturn c.a c.b)
  | _ => none

/-- Whether the operation `op` uses `f1` (R113). -/
def usesF1 (op : Nat) : Bool :=
  [0x02, 0x08, 0x09, 0x0B, 0x20, 0x21, 0x22, 0x30].contains op

/-- Whether the operation `op` uses `f2` (R113). -/
def usesF2 (op : Nat) : Bool := [0x21, 0x22, 0x30].contains op

/-- The decoder (R110, R113, R114). -/
def decode (c : Command) : Except DecodeError Instr :=
  match operation c with
  | none => .error .reservedOp
  | some i =>
    if f3Field c.w ≠ 0 then .error .reservedField
    else if (!usesF1 (opField c.w).toNat && decide (f1Field c.w ≠ 0)) ||
            (!usesF2 (opField c.w).toNat && decide (f2Field c.w ≠ 0)) then .error .unusedField
    else .ok i

/-- A command word from its fields: `op | (f1 << 8) | (f2 << 16)`, `f3 = 0` (R110). -/
def wordOf (op f1 f2 : BitVec 8) : Word :=
  op.setWidth 32 ||| (f1.setWidth 32 <<< 8) ||| (f2.setWidth 32 <<< 16)

/-- The command of an operation (R110, R113): unused operands 0, unused side input empty. -/
def encode : Instr → Command
  | .nop => .ofWord (wordOf 0x00 0 0)
  | .cpuReset => .ofWord (wordOf 0x01 0 0)
  | .hasFeature n => .ofWord (wordOf 0x02 n 0)
  | .curEl => .ofWord (wordOf 0x03 0 0)
  | .isSecure => .ofWord (wordOf 0x04 0 0)
  | .packMode => .ofWord (wordOf 0x05 0 0)
  | .gprRead idx => .ofWord (wordOf 0x08 idx 0)
  | .gprWrite idx val => { Command.ofWord (wordOf 0x09 idx 0) with a := val }
  | .psrRead => .ofWord (wordOf 0x0A 0 0)
  | .psrWrite wt val mask => { Command.ofWord (wordOf 0x0B wt 0) with a := val, b := mask }
  | .crDefine d => { Command.ofWord (wordOf 0x10 0 0) with desc := d }
  | .crLookup key => { Command.ofWord (wordOf 0x11 0 0) with a := key }
  | .crRead key => { Command.ofWord (wordOf 0x12 0 0) with a := key }
  | .crWrite key val => { Command.ofWord (wordOf 0x13 0 0) with a := key, b := val }
  | .crResetAll => .ofWord (wordOf 0x14 0 0)
  | .crRawRead key => { Command.ofWord (wordOf 0x15 0 0) with a := key }
  | .crRawWrite key val => { Command.ofWord (wordOf 0x16 0 0) with a := key, b := val }
  | .exportState => .ofWord (wordOf 0x17 0 0)
  | .importState l => { Command.ofWord (wordOf 0x18 0 0) with list := l }
  | .tlbiLocal => .ofWord (wordOf 0x19 0 0)
  | .resolve kind va => { Command.ofWord (wordOf 0x20 kind 0) with a := va }
  | .translate kind regime va => { Command.ofWord (wordOf 0x21 kind regime) with a := va }
  | .secAttr kind asker addr => { Command.ofWord (wordOf 0x22 kind asker) with a := addr }
  | .recognize kind flags a b c => { Command.ofWord (wordOf 0x30 kind flags) with a := a, b := b, c := c }
  | .takeException => .ofWord (wordOf 0x31 0 0)
  | .excReturn a b => { Command.ofWord (wordOf 0x32 0 0) with a := a, b := b }

/-- The command of an opcode-table word: bits 31:0 are `W`, and the operands `A`, `B`, `C` follow it, 64 bits each
(all 0 for a 32-bit table word); the side input is empty.  Log entry 7. -/
def commandOfTableWord (nbits w : Nat) : Command :=
  let v := w % 2 ^ nbits
  { w := BitVec.ofNat 32 v, a := BitVec.ofNat 64 (v / 2 ^ 32), b := BitVec.ofNat 64 (v / 2 ^ 96),
    c := BitVec.ofNat 64 (v / 2 ^ 160), desc := .zero, list := [] }

/-- The operation the decoder reads from an opcode-table word. -/
def decodeTableWord (nbits w : Nat) : Option Instr :=
  match decode (commandOfTableWord nbits w) with
  | .ok i => some i
  | .error _ => none

/-- One row of spec/opcode_table.json: a word `w` is an operation of the row iff `w &&& mask = pattern`. -/
structure OpRow where
  mnemonic : String
  pattern : Word
  mask : Word
  deriving DecidableEq, Repr

/-- spec/opcode_table.json. -/
def opRows : List OpRow :=
  [⟨"NOP", 0x00000000, 0xFFFFFFFF⟩, ⟨"CPU_RESET", 0x00000001, 0xFFFFFFFF⟩, ⟨"HAS_FEATURE", 0x00000002, 0xFFFF00FF⟩,
   ⟨"CUR_EL", 0x00000003, 0xFFFFFFFF⟩, ⟨"IS_SECURE", 0x00000004, 0xFFFFFFFF⟩, ⟨"PACK_MODE", 0x00000005, 0xFFFFFFFF⟩,
   ⟨"GPR_READ", 0x00000008, 0xFFFF00FF⟩, ⟨"GPR_WRITE", 0x00000009, 0xFFFF00FF⟩, ⟨"PSR_READ", 0x0000000A, 0xFFFFFFFF⟩,
   ⟨"PSR_WRITE", 0x0000000B, 0xFFFF00FF⟩, ⟨"CR_DEFINE", 0x00000010, 0xFFFFFFFF⟩, ⟨"CR_LOOKUP", 0x00000011, 0xFFFFFFFF⟩,
   ⟨"CR_READ", 0x00000012, 0xFFFFFFFF⟩, ⟨"CR_WRITE", 0x00000013, 0xFFFFFFFF⟩, ⟨"CR_RESET_ALL", 0x00000014, 0xFFFFFFFF⟩,
   ⟨"CR_RAW_READ", 0x00000015, 0xFFFFFFFF⟩, ⟨"CR_RAW_WRITE", 0x00000016, 0xFFFFFFFF⟩,
   ⟨"EXPORT_STATE", 0x00000017, 0xFFFFFFFF⟩, ⟨"IMPORT_STATE", 0x00000018, 0xFFFFFFFF⟩,
   ⟨"TLBI_LOCAL", 0x00000019, 0xFFFFFFFF⟩, ⟨"RESOLVE", 0x00000020, 0xFFFF00FF⟩, ⟨"TRANSLATE", 0x00000021, 0xFF0000FF⟩,
   ⟨"SEC_ATTR", 0x00000022, 0xFF0000FF⟩, ⟨"RECOGNIZE", 0x00000030, 0xFF0000FF⟩,
   ⟨"TAKE_EXCEPTION", 0x00000031, 0xFFFFFFFF⟩, ⟨"EXC_RETURN", 0x00000032, 0xFFFFFFFF⟩]

/-- Whether a word belongs to a row. -/
def OpRow.matchesWord (r : OpRow) (w : Word) : Bool := decide (w &&& r.mask = r.pattern)

/-- Two rows of which no word belongs to both: their patterns differ on a bit both masks fix. -/
def OpRow.disjoint (r q : OpRow) : Bool := decide (r.pattern &&& (r.mask &&& q.mask) ≠ q.pattern &&& (r.mask &&& q.mask))

end Sys2Proof
end

