-- ==== Sys2Proof/Machine/Bits.lean ====
section
/-! DEFINITION. Bit, byte and table helpers (spec/00_scope.md rule R9; byte order of spec/20_memory.md rule R84). -/

namespace Sys2Proof.Machine

/-- `v[i]` of rule R9 as a truth value. -/
def bit {w : Nat} (v : BitVec w) (i : Nat) : Bool := v.getLsbD i

/-- `v` with bit `i` set to `b`. -/
def setBit {w : Nat} (v : BitVec w) (i : Nat) (b : Bool) : BitVec w :=
  if b then v ||| BitVec.twoPow w i else v &&& ~~~ BitVec.twoPow w i

/-- The field `v[lo + len - 1 : lo]` of rule R9 as a number. -/
def field {w : Nat} (v : BitVec w) (lo len : Nat) : Nat := (v.extractLsb' lo len).toNat

/-- `old` with the bits of `mask` taken from `new`. -/
def merge {w : Nat} (old new mask : BitVec w) : BitVec w := (old &&& ~~~ mask) ||| (new &&& mask)

/-- The 64-bit number of a truth value. -/
def flag64 (b : Bool) : DWord := if b then 1 else 0

/-- The 32-bit number of a truth value. -/
def flag32 (b : Bool) : Word := if b then 1 else 0

/-- Bits 31:0 of a 64-bit value (R111). -/
def lo32 (v : DWord) : Word := v.extractLsb' 0 32

/-- Bits 63:32 of a 64-bit value. -/
def hi32 (v : DWord) : Word := v.extractLsb' 32 32

/-- `zext_64` of a 32-bit value (R9). -/
def zext (v : Word) : DWord := v.setWidth 64

/-- `v` with its low half replaced. -/
def withLo (v : DWord) (l : Word) : DWord := merge v (zext l) 0x00000000FFFFFFFF

/-- `v` with its high half replaced. -/
def withHi (v : DWord) (h : Word) : DWord := merge v (zext h <<< 32) 0xFFFFFFFF00000000

/-- The `n` bytes of `v`, least significant first (R84, little-endian). -/
def bytesLE (n : Nat) (v : DWord) : List Byte := (List.range n).map fun i => v.extractLsb' (8 * i) 8

/-- The value whose bytes are `bs`, least significant first (R84, little-endian). -/
def ofBytesLE : List Byte → DWord
  | [] => 0
  | b :: bs => b.setWidth 64 ||| (ofBytesLE bs <<< 8)

/-- R84: the value of the bytes `b[0] .. b[n-1]` in memory order, big-endian if `be`. -/
def assemble (be : Bool) (bs : List Byte) : DWord := ofBytesLE (if be then bs.reverse else bs)

/-- R84: the bytes of an `n`-byte value in memory order, big-endian if `be`. -/
def layOut (be : Bool) (n : Nat) (v : DWord) : List Byte :=
  if be then (bytesLE n v).reverse else bytesLE n v

/-- Element `i` of a register file; 0 outside it. -/
def vget {α : Type} [Inhabited α] {n : Nat} (v : Vector α n) (i : Nat) : α := v[i]?.getD default

/-- The register file with element `i` replaced; unchanged outside it. -/
def vset {α : Type} {n : Nat} (v : Vector α n) (i : Nat) (a : α) : Vector α n := v.setIfInBounds i a

/-- Element `i` of a region table; 0 outside it. -/
def tget (t : List Word) (i : Nat) : Word := t.getD i 0

/-- The region table with entry `i` replaced; unchanged outside it, and its length kept. -/
def tset (t : List Word) (i : Nat) (v : Word) : List Word := t.set i v

/-- One copy for each of the levels 1, 2, 3. -/
structure Lv3 (α : Type) where
  l1 : α
  l2 : α
  l3 : α
  deriving DecidableEq, Repr, Inhabited

/-- The copy of a level. -/
def Lv3.get {α : Type} (v : Lv3 α) : Lvl → α
  | .l1 => v.l1
  | .l2 => v.l2
  | .l3 => v.l3

/-- The copy of one level replaced. -/
def Lv3.set {α : Type} (v : Lv3 α) (l : Lvl) (a : α) : Lv3 α :=
  match l with
  | .l1 => { v with l1 := a }
  | .l2 => { v with l2 := a }
  | .l3 => { v with l3 := a }

/-- One copy for each security state (R40). -/
structure Banked (α : Type) where
  s  : α
  ns : α
  deriving DecidableEq, Repr, Inhabited

/-- The copy of a security state. -/
def Banked.get {α : Type} (v : Banked α) (secure : Bool) : α := if secure then v.s else v.ns

/-- The copy of one security state replaced. -/
def Banked.set {α : Type} (v : Banked α) (secure : Bool) (a : α) : Banked α :=
  if secure then { v with s := a } else { v with ns := a }

/-- The level with registers of its own that a level number names; level 0 has none and shares level 1's (R150, R233). -/
def lvlOf (n : Nat) : Lvl :=
  match n with
  | 2 => .l2
  | 3 => .l3
  | _ => .l1

/-- The number of a level. -/
def lvlNum : Lvl → Nat
  | .l1 => 1
  | .l2 => 2
  | .l3 => 3

end Sys2Proof.Machine
end

