-- ==== Sys2Proof/Machine/Features.lean ====
section
/-! DEFINITION. The feature set and the parameters of an instance (spec/40_mode_feature_bank.md rules R141 to R144;
spec/00_scope.md rules R7, R14). -/

namespace Sys2Proof.Machine

/-- Why a configuration is refused (R14): the instance does not come into being. -/
inductive FatalReason where
  /-- the closed feature set violates a check of R142. -/
  | featureConflict
  /-- a parameter is outside the range of R7. -/
  | badParameter
  /-- a descriptor template violates a check of R183 or R185. -/
  | badTemplate
  /-- two descriptors define one key and neither has `OVERRIDE` (R188). -/
  | redefined
  /-- a reset of a register does not repeat (R206). -/
  | inconsistentReset
  deriving DecidableEq, Repr, Inhabited

/-- R143: the bit test `FEATURES[f]`. -/
def hasBit (features : Nat) (f : Feature) : Bool := features.testBit f.num

/-- A feature set with a feature added. -/
def addFeature (features : Nat) (f : Feature) : Nat := features ||| 2 ^ f.num

/-- The set of the features of a list. -/
def featureSet (l : List Feature) : Nat := l.foldl addFeature 0

/-- Whether an instance has a feature. -/
def has (p : Params) (f : Feature) : Bool := hasBit p.features f

/-- One implication of R142: `f` adds `g`. -/
def implies (f g : Feature) (s : Nat) : Nat := if hasBit s f then addFeature s g else s

/-- One implication of R142 that holds without `F_M` only. -/
def impliesUnlessM (f g : Feature) (s : Nat) : Nat :=
  if hasBit s .m then s else implies f g s

/-- R142: the closure.  The implications are applied in an order in which each comes after those that could enable it
(`F_M` before the two that depend on its absence), so one pass reaches the fixed point. -/
def closeFeatures (s : Nat) : Nat :=
  let s := implies .mSecurity .m s
  let s := implies .mSecurity .v8 s
  let s := implies .aarch64 .v8 s
  let s := implies .v8 .v7 s
  let s := impliesUnlessM .v8 .lpae s
  let s := implies .v7 .v6 s
  let s := impliesUnlessM .v7 .v6k s
  let s := implies .v6k .v6 s
  let s := implies .lpae .pxn s
  implies .m .pmsa s

/-- R142: the checks of a closed feature set. -/
def featuresOk (s : Nat) : Bool :=
  !(hasBit s .m && (hasBit s .aarch64 || hasBit s .el2 || hasBit s .el3 || hasBit s .lpae)) &&
  !(hasBit s .el2 && !hasBit s .v7) &&
  !(hasBit s .pmsa && hasBit s .lpae)

/-- The ranges of R7; `FEATURES` has `FEAT_BITS` bits. -/
def paramsOk (p : Params) : Bool :=
  decide (64 ≤ p.featBits) && decide (p.features >>> p.featBits = 0) && decide (p.mpuNregion ≤ 255) && decide (p.sauNregion ≤ 255) &&
  decide (32 ≤ p.pamax) && decide (p.pamax ≤ 48) && decide (p.initVtorS.extractLsb' 0 7 = 0) &&
  decide (p.initVtorNs.extractLsb' 0 7 = 0) && p.hookIds.all (fun i => decide (64 ≤ i))

/-- Steps 1 of R181: close the feature set, check it and the parameters. -/
def closeParams (p : Params) : Except FatalReason Params :=
  let f := closeFeatures p.features
  if !paramsOk p then .error .badParameter
  else if !featuresOk f then .error .featureConflict
  else .ok { p with features := f }

/-- R144: the highest implemented privilege level. -/
def highestEl (p : Params) : Nat :=
  if has p .m then 1 else if has p .el3 then 3 else if has p .el2 then 2 else 1

end Sys2Proof.Machine
end

