-- ==== Sys2Proof/Machine/Flags.lean ====
section
/-! DEFINITION. The status words and the modes of the 32-bit state (spec/10_state.md rules R26 to R29). -/

namespace Sys2Proof.Machine

/-- The modes of the 32-bit state (R29). -/
inductive Mode where
  | usr | fiq | irq | svc | mon | abt | hyp | und | sys
  deriving DecidableEq, Repr, Inhabited

/-- The mode number `M` of R29. -/
def Mode.num : Mode → BitVec 5
  | .usr => 0b10000 | .fiq => 0b10001 | .irq => 0b10010 | .svc => 0b10011 | .mon => 0b10110
  | .abt => 0b10111 | .hyp => 0b11010 | .und => 0b11011 | .sys => 0b11111

/-- The mode of a mode number; every other value is not a mode (R29, R158). -/
def modeOf? (m : BitVec 5) : Option Mode :=
  match m.toNat with
  | 0b10000 => some .usr
  | 0b10001 => some .fiq
  | 0b10010 => some .irq
  | 0b10011 => some .svc
  | 0b10110 => some .mon
  | 0b10111 => some .abt
  | 0b11010 => some .hyp
  | 0b11011 => some .und
  | 0b11111 => some .sys
  | _ => none

/-- The bank of a mode for `R13` and `SPSR` (R29). -/
def Mode.bank : Mode → BitVec 3
  | .usr => 0 | .fiq => 5 | .irq => 4 | .svc => 1 | .mon => 7 | .abt => 2 | .hyp => 6 | .und => 3 | .sys => 0

/-- The bank of a mode for `R14` (R29): Hypervisor mode shares the User-like link register. -/
def Mode.bank14 : Mode → BitVec 3
  | .hyp => 0
  | m => m.bank

end Sys2Proof.Machine

namespace Sys2Proof.Config

/-- FREE VALUE: the bank that a live mode field which names no mode would select (a `RAW` write can store such a value,
R156, and R29 gives it no bank).  Log entry 20. -/
opaque strayBank : BitVec 5 → BitVec 3

end Sys2Proof.Config

namespace Sys2Proof.Machine

/-- `b(m)` of R160. -/
def bankOf (m : BitVec 5) : Nat :=
  match modeOf? m with
  | some k => k.bank.toNat
  | none => (Config.strayBank m).toNat

/-- `b14(m)` of R160. -/
def bank14Of (m : BitVec 5) : Nat :=
  match modeOf? m with
  | some k => k.bank14.toNat
  | none => (Config.strayBank m).toNat

/-- The writable bits of the 32-bit state's status word: bits 23:22 read 0 and ignore writes (R26). -/
def cpsrBits : Word := 0xFF3FFFFF

/-- The bits of the 64-bit state's status word that are stored (R27, R157). -/
def pstateBits : Word := 0xF03003CD

/-- The bits of the microcontroller profile's status word other than `IPSR` (R28). -/
def xpsrBits : Word := 0xFF0FFC00

/-- `IT[7:0]`: bits 26:25 and 15:10 (R26, R28). -/
def itBits : Word := 0x0600FC00

/-- `N Z C V`: bits 31:28. -/
def nzcvBits : Word := 0xF0000000

/-- `D A I F`: bits 9:6 of the 64-bit state's status word (R27). -/
def daifBits : Word := 0x000003C0

/-- `A`: bit 8. -/
def aBit : Word := 0x100
/-- `I`: bit 7. -/
def iBit : Word := 0x080
/-- `F`: bit 6. -/
def fBit : Word := 0x040

/-- The bit number of `SS` (R26, R27). -/
def ssPos : Nat := 21
/-- The bit number of `IL` (R26, R27). -/
def ilPos : Nat := 20
/-- The bit number of `J` (R26). -/
def jPos : Nat := 24
/-- The bit number of `E` (R26). -/
def ePos : Nat := 9
/-- The bit number of `T` in the 32-bit state (R26). -/
def tPos : Nat := 5
/-- The bit number of `T` in the microcontroller profile (R28). -/
def xtPos : Nat := 24
/-- The bit number of `SPREALIGN` (R28). -/
def spRealignPos : Nat := 9

/-- The mode field `M` of a 32-bit status word (R26). -/
def modeField (w : Word) : BitVec 5 := w.extractLsb' 0 5

/-- A status word with its mode field replaced. -/
def setModeField (w : Word) (m : BitVec 5) : Word := merge w (m.setWidth 32) 0x1F

/-- The level field `EL` of a 64-bit-state status word (R27). -/
def elField (w : Word) : Nat := field w 2 2

/-- The stack-select bit `SP` of a 64-bit-state status word (R27). -/
def spField (w : Word) : Bool := bit w 0

/-- R25, R408: the alignment forced on a restored 32-bit program counter, `t` the restored state bit. -/
def alignPc (t : Bool) (pc : Word) : Word := if t then pc &&& 0xFFFFFFFE else pc &&& 0xFFFFFFFC

end Sys2Proof.Machine
end

