-- ==== Sys2Proof/Machine/Memory.lean ====
section
/-! DEFINITION. The physical byte array behind the MEM port (spec/20_memory.md rules R80, R81, R84), and the port.

CORE contains no memory (R81).  The model keeps, as plain data, the bytes the backing store is known to hold, the
answers it is going to give (an oracle, R93), and the requests CORE has issued; log entry 2. -/

namespace Sys2Proof.Machine

/-- The bytes the backing store is known to hold: addresses strictly rising, each at most once.  An address that is not
listed holds no known value (`none`). -/
abbrev Memory := List Host.Cell

/-- The key of one byte: the physical space is split in two by the security tag (R80). -/
def byteKey (secure : Bool) (pa : DWord) : Nat := pa.toNat + (if secure then 2 ^ 64 else 0)

/-- What a byte is known to hold; an unlisted byte holds no known value. -/
def Memory.read : Memory → Nat → Option Byte
  | [], _ => none
  | (k, b) :: m, a => if a = k then some b else Memory.read m a

/-- One byte written; the canonical form is kept. -/
def Memory.write : Memory → Nat → Byte → Memory
  | [], a, v => [(a, v)]
  | (k, b) :: m, a, v =>
    if a < k then (a, v) :: (k, b) :: m
    else if a = k then (a, v) :: m
    else (k, b) :: Memory.write m a v

/-- The canonical form: addresses strictly rising.  (An unlisted address holds no value, so no entry can equal what an
unlisted address reads as.) -/
def Memory.wf : Memory → Bool
  | [] => true
  | [_] => true
  | (k, _) :: (k', b') :: m => decide (k < k') && Memory.wf ((k', b') :: m)

/-- The keys of the `n` bytes of a request at `pa` (R81, R84). -/
def byteKeys (secure : Bool) (pa : DWord) (n : Nat) : List Nat :=
  (List.range n).map fun i => byteKey secure (pa + BitVec.ofNat 64 i)

/-- The bytes at a list of keys, if every one is known. -/
def Memory.readAll (m : Memory) : List Nat → Option (List Byte)
  | [] => some []
  | k :: ks =>
    match m.read k, Memory.readAll m ks with
    | some b, some bs => some (b :: bs)
    | _, _ => none

/-- Bytes written at a list of keys. -/
def Memory.writeAll (m : Memory) : List (Nat × Byte) → Memory
  | [] => m
  | (k, b) :: kbs => Memory.writeAll (m.write k b) kbs

/-- One answer of the MEM port (R81): `ok` with the bytes read (least significant byte of `data` first in memory; a write
ignores `data`), or `err`. -/
inductive Answer where
  | ok (data : DWord)
  | err
  deriving DecidableEq, Repr, Inhabited

/-- One request on the MEM port (R81). -/
structure Request where
  write  : Bool
  pa     : DWord
  size   : Nat
  secure : Bool
  wdata  : DWord
  deriving DecidableEq, Repr, Inhabited

/-- The MEM port and what is behind it. -/
structure Bus where
  /-- the bytes the backing store is known to hold. -/
  mem    : Memory
  /-- the answers the backing store is going to give, first first: the oracle of R93, U24. -/
  script : List Answer
  /-- the model's own counter of answers drawn from the free values `Config.memRead`, `Config.memWrite`. -/
  draws  : Nat
  /-- the requests of the command in progress, or of the last command, in the order issued (R93). -/
  reqs   : List Request
  deriving DecidableEq, Repr, Inhabited

/-- R84 `PhysRead` before the byte order: the `n` bytes at `pa` in memory order, `none` for `err`.  R93 and U24 leave
the answer free.  DESIGN CHOICE (log entry 2): the script answers first; then the known bytes, if all `n` are known; else the
free value `Config.memRead`. -/
def Bus.readBytes (b : Bus) (pa : DWord) (n : Nat) (secure : Bool) : Option (List Byte) × Bus :=
  let b := { b with reqs := b.reqs ++ [(⟨false, pa, n, secure, 0⟩ : Request)] }
  match b.script with
  | .ok d :: rest => (some (bytesLE n d), { b with script := rest })
  | .err :: rest => (none, { b with script := rest })
  | [] =>
    match b.mem.readAll (byteKeys secure pa n) with
    | some bs => (some bs, b)
    | none => ((Config.memRead b.draws).map (bytesLE n), { b with draws := b.draws + 1 })

/-- R84 `PhysRead(pa, n, secure, be)`. -/
def Bus.physRead (b : Bus) (pa : DWord) (n : Nat) (secure be : Bool) : Option DWord × Bus :=
  let (r, b) := b.readBytes pa n secure
  (r.map (assemble be), b)

/-- The backing store after it has accepted a write. -/
def Bus.store (b : Bus) (pa : DWord) (secure : Bool) (bs : List Byte) : Bus :=
  { b with mem := b.mem.writeAll ((byteKeys secure pa bs.length).zip bs) }

/-- R84 `PhysWrite(pa, n, v, secure, be)`: whether the port answered `ok`.  An accepted write changes exactly the `n`
bytes at `pa`, a refused one none.  R93 and U24 leave the answer free.  DESIGN CHOICE (log entry 2): the script answers
first; with no script answer waiting, a write to `n` bytes that are all known is answered `ok`, and any other write by the
free value `Config.memWrite`. -/
def Bus.physWrite (b : Bus) (pa : DWord) (n : Nat) (v : DWord) (secure be : Bool) : Bool × Bus :=
  let bs := layOut be n v
  let known := (b.mem.readAll (byteKeys secure pa n)).isSome
  let b := { b with reqs := b.reqs ++ [(⟨true, pa, n, secure, ofBytesLE bs⟩ : Request)] }
  match b.script with
  | .ok _ :: rest => (true, { b.store pa secure bs with script := rest })
  | .err :: rest => (false, { b with script := rest })
  | [] =>
    if known then (true, b.store pa secure bs)
    else if Config.memWrite b.draws then (true, { b.store pa secure bs with draws := b.draws + 1 })
    else (false, { b with draws := b.draws + 1 })

end Sys2Proof.Machine
end

