-- ==== Sys2Proof/Machine/Descriptors.lean ====
section
/-! DEFINITION. Keys, descriptor flags, the checks of a template and its expansion into concrete entries
(spec/30_encoding.md rules R116 to R122, spec/41_control_registers.md rules R182 to R188).  No machine state is read. -/

namespace Sys2Proof.Machine

/-! ## Keys -/

/-- `CP32(cp, CRn, opc1, CRm, opc2, ns)` of R116. -/
def keyCp32 (cp crn opc1 crm opc2 ns : Nat) : Word :=
  BitVec.ofNat 32 (ns * 2 ^ 29 + cp * 2 ^ 16 + crn * 2 ^ 11 + crm * 2 ^ 7 + opc1 * 2 ^ 3 + opc2)

/-- `CP32_64(cp, opc1, CRm, ns)` of R116. -/
def keyCp32Wide (cp opc1 crm ns : Nat) : Word :=
  BitVec.ofNat 32 (ns * 2 ^ 29 + cp * 2 ^ 16 + 2 ^ 15 + crm * 2 ^ 7 + opc1 * 2 ^ 3)

/-- `SYS64(op0, op1, CRn, CRm, op2)` of R116. -/
def keySys64 (op0 op1 crn crm op2 : Nat) : Word :=
  BitVec.ofNat 32 (2 ^ 28 + 0x13 * 2 ^ 16 + op0 * 2 ^ 14 + op1 * 2 ^ 11 + crn * 2 ^ 7 + crm * 2 ^ 3 + op2)

/-- `MSYS(offset, s)` of R117. -/
def keyMsys (offset : Nat) (s : Bool) : Word :=
  BitVec.ofNat 32 (0b0100 * 2 ^ 28 + (if s then 2 ^ 27 else 0) + offset)

/-- `MSPEC(sysm, s)` of R117. -/
def keyMspec (sysm : Nat) (s : Bool) : Word :=
  BitVec.ofNat 32 (0b0101 * 2 ^ 28 + (if s then 2 ^ 27 else 0) + sysm)

/-- The class field `key[31:28]` (R116). -/
def keyClass (k : Word) : Nat := field k 28 4

/-- A key of the 32-bit encoding, either bank (R116). -/
def isCp32Key (k : Word) : Bool := decide (keyClass k = 0b0000) || decide (keyClass k = 0b0010)

/-- A key of the 64-bit encoding (R116). -/
def isSys64Key (k : Word) : Bool := decide (keyClass k = 0b0001)

/-- An `MSYS` key (R117). -/
def isMsysKey (k : Word) : Bool := decide (keyClass k = 0b0100)

/-- An `MSYS` or `MSPEC` key (R117). -/
def isMKey (k : Word) : Bool := decide (keyClass k = 0b0100) || decide (keyClass k = 0b0101)

/-- The bit that selects the security bank: bit 29 (set = Non-secure) of a 32-bit-encoding key, bit 27 (set = Secure) of
an `MSYS` or `MSPEC` key (R116, R117); a key of the 64-bit encoding has none. -/
def flipBank (k : Word) : Word :=
  if isCp32Key k then k ^^^ 0x20000000 else if isMKey k then k ^^^ 0x08000000 else k

/-! ## Type flags (R119) -/

def tSpecial : Nat := 0
def tConst : Nat := 1
def tWide64 : Nat := 2
def tOverride : Nat := 3
def tAlias : Nat := 4
def tNoRaw : Nat := 5
def tNonDet : Nat := 6
def tNop : Nat := 7
def tIo : Nat := 8

/-- Whether an entry has a type flag. -/
def entryIs (e : Entry) (flag : Nat) : Bool := bit e.typ flag

/-! ## Access masks (R120) -/

def pl3R : BitVec 8 := 0x80
def pl3W : BitVec 8 := 0x40
def pl2R : BitVec 8 := 0xA0
def pl2W : BitVec 8 := 0x50
def pl1R : BitVec 8 := 0xA8
def pl1W : BitVec 8 := 0x54
def pl0R : BitVec 8 := 0xAA
def pl0W : BitVec 8 := 0x55
def pl3RW : BitVec 8 := pl3R ||| pl3W
def pl2RW : BitVec 8 := pl2R ||| pl2W
def pl1RW : BitVec 8 := pl1R ||| pl1W
def pl0RW : BitVec 8 := pl0R ||| pl0W

/-- Whether a mask grants reads at some level. -/
def grantsRead (access : BitVec 8) : Bool := decide (access &&& pl0R ≠ 0)

/-- Whether a mask grants writes at some level. -/
def grantsWrite (access : BitVec 8) : Bool := decide (access &&& pl0W ≠ 0)

/-- R185 check 3: the most a coordinate's `opc1` allows; 5 allows nothing. -/
def opc1Allows (opc1 : Nat) : BitVec 8 :=
  match opc1 with
  | 3 => pl0RW
  | 4 => pl2RW
  | 5 => 0
  | 6 => pl3RW
  | _ => pl1RW

/-! ## Fields -/

/-- The width of a state field: 64, 32 for a narrower field or a half-view, `none` if no such field exists (R118, R185
check 4; log entry 9). -/
def fieldWidth : FieldId → Option Nat
  | .none => none
  | .gpr i => if i < 16 then some 32 else none
  | .bankR13 b => if b < 8 then some 32 else none
  | .bankR14 b => if b < 8 then some 32 else none
  | .bankSpsr b => if b < 8 then some 64 else none
  | .usrR8 i => if i < 5 then some 32 else none
  | .fiqR8 i => if i < 5 then some 32 else none
  | .spsr => some 64
  | .xreg i => if i < 32 then some 64 else none
  | .pc64 => some 64
  | .spEl i => if i < 4 then some 64 else none
  | .elrEl _ => some 64
  | .vLo i => if i < 32 then some 64 else none
  | .vHi i => if i < 32 then some 64 else none
  | .fpscr => some 32
  | .fpexc => some 32
  | .exclAddr => some 64
  | .exclVal => some 64
  | .msp _ _ => some 32
  | .control _ => some 32
  | .primask _ => some 32
  | .faultmask _ => some 32
  | .basepri _ => some 32
  | .sctlr _ => some 64
  | .ttbr0 _ => some 64
  | .ttbr1 _ => some 64
  | .vttbr => some 64
  | .tcr _ => some 64
  | .vtcr => some 32
  | .dacr _ => some 32
  | .mair _ => some 64
  | .mairHi _ => some 32
  | .hcr => some 64
  | .hcrHi => some 32
  | .scr => some 32
  | .vbar _ => some 64
  | .mvbar => some 32
  | .esr _ => some 64
  | .ifsr _ => some 32
  | .far _ => some 64
  | .farHi _ => some 32
  | .hpfar => some 64
  | .cpacr => some 32
  | .cptr2 => some 32
  | .cptr3 => some 32
  | .mdscr => some 32
  | .mdcr => some 32
  | .mpuRnr _ => some 32
  | .mpuCtrl _ => some 32
  | .mpuMair0 _ => some 32
  | .mpuMair1 _ => some 32
  | .sauCtrl => some 32
  | .sauRnr => some 32
  | .sfsr => some 32
  | .sfar => some 32
  | .cfsr _ => some 32
  | .hfsr => some 32
  | .dfsr => some 32
  | .mmfar _ => some 32
  | .bfar => some 32
  | .vtor _ => some 32
  | .aircr => some 32
  | .ccr _ => some 32
  | .cpsr => some 32
  | .pstate => some 32
  | .xpsr => some 32
  | .mException => some 32
  | .mSecure => some 32
  | .aarch64 => some 32
  | .locked => some 32
  | .phase => some 32
  | .excIndex => some 32
  | .excSyndrome => some 32
  | .excFsr => some 32
  | .excVaddress => some 64
  | .excTargetEl => some 32
  | .excMSecure => some 32
  | .excMNumber => some 32
  | .excMDerived => some 32
  | .excMLr => some 32
  | .excIpa => some 64
  | .excFr => some 32
  | .rgnr => some 32
  | .mpuRbarAt _ _ => some 32
  | .mpuRsrAt _ _ => some 32
  | .mpuRacrAt _ _ => some 32
  | .mpuRlarAt _ _ => some 32
  | .sauRbarAt _ => some 32
  | .sauRlarAt _ => some 32
  | .catalog _ => some 64

/-- The bank of a field that is banked by security state exists: the Secure copy with `F_M_SECURITY` only (R23, R57 to
R62). -/
def bankExists (p : Params) (secure : Bool) : Bool := !secure || has p .mSecurity

/-- Entry `n` of the protection unit's tables exists in bank `secure` (R57). -/
def mpuEntryExists (p : Params) (secure : Bool) (n : Nat) : Bool :=
  has p .pmsa && decide (n < p.mpuNregion) && bankExists p secure

/-- The instance has a field: those for which spec/10_state.md names a feature, a profile, a variant or a count (R21 to R23,
R28, R30, R36, R40 to R44, R47 to R49, R56 to R62; log entry 9).  `ELR_EL[2]` also exists where Hypervisor mode keeps its
return address in it (R391). -/
def fieldExists (p : Params) : FieldId → Bool
  | .bankR13 _ | .bankR14 _ | .bankSpsr _ | .usrR8 _ | .fiqR8 _ | .spsr => !has p .m
  | .xreg _ | .pc64 | .spEl _ => has p .aarch64
  | .elrEl l => has p .aarch64 || (decide (l = .l2) && has p .el2)
  | .sctlr l | .ttbr0 l | .tcr l => decide (l ≠ .l2) || has p .el2
  | .vttbr | .vtcr | .hcr | .hcrHi => has p .el2
  | .scr | .mvbar => has p .el3
  | .msp secure _ | .control secure | .primask secure | .faultmask secure | .basepri secure | .mpuCtrl secure
  | .cfsr secure | .mmfar secure | .vtor secure | .ccr secure => has p .m && bankExists p secure
  | .xpsr | .mException | .mSecure | .hfsr | .dfsr | .bfar | .aircr => has p .m
  | .rgnr => has p .pmsa && !has p .m
  | .mpuRnr secure => has p .pmsa && bankExists p secure
  | .mpuMair0 secure | .mpuMair1 secure => has p .pmsa && has p .v8 && bankExists p secure
  | .sauCtrl | .sauRnr | .sfsr | .sfar => has p .mSecurity
  | .mpuRbarAt secure n => mpuEntryExists p secure n
  | .mpuRsrAt secure n | .mpuRacrAt secure n => mpuEntryExists p secure n && !has p .v8
  | .mpuRlarAt secure n => mpuEntryExists p secure n && has p .v8
  | .sauRbarAt n | .sauRlarAt n => has p .mSecurity && decide (n < p.sauNregion)
  | _ => true

/-- A field id is absent or names existing state. -/
def fieldOk (p : Params) (f : FieldId) : Bool := decide (f = .none) || ((fieldWidth f).isSome && fieldExists p f)

/-- A 32-bit field that spec/10_state.md itself shows through the 64-bit encoding (R44, R48, R52, R53), and through no
`WIDE64` one. -/
def has64View : FieldId → Bool
  | .vtcr | .scr | .cpacr | .cptr2 | .cptr3 | .mdscr | .mdcr => true
  | _ => false

/-- R185 check 4: the storage a `WIDE64` view may name is 64 bits wide, never less. -/
def wideOk (f : FieldId) : Bool := decide (f = .none) || decide (fieldWidth f = some 64)

/-- R185 check 4: the storage a view of the 64-bit encoding may name is 64 bits wide, or a 32-bit field that
spec/10_state.md itself shows so (log entry 10). -/
def a64Ok (f : FieldId) : Bool := wideOk f || has64View f

/-- R185 check 4: a hook id is built in or in `HOOKS` (R122, R186). -/
def hookIdOk (p : Params) : Hook → Bool
  | .catalog id => decide (64 ≤ id) && p.hookIds.contains id
  | _ => true

/-! ## Template checks (R183, R185) -/

/-- The wildcard value `ANY` of a coordinate (R118). -/
def anyCoord : BitVec 8 := 0xFF

/-- The values of a coordinate that may be a wildcard over `0 .. n-1` (R183). -/
def coordValues (c : BitVec 8) (n : Nat) : List Nat := if c = anyCoord then List.range n else [c.toNat]

/-- A coordinate that may be a wildcard is in `0 .. n-1` or `ANY`. -/
def wildOk (c : BitVec 8) (n : Nat) : Bool := decide (c = anyCoord) || decide (c.toNat < n)

/-- The 32-bit encoding is among the template's states. -/
def inA32 (d : Template) : Bool := decide (d.state = .a32) || decide (d.state = .both)

/-- The 64-bit encoding is among the template's states. -/
def inA64 (d : Template) : Bool := decide (d.state = .a64) || decide (d.state = .both)

/-- Both `bank_field` are given: the register is banked (R184). -/
def isBanked (d : Template) : Bool := decide (d.bankS ≠ .none) && decide (d.bankNs ≠ .none)

/-- The template names storage (R185 check 1). -/
def hasStorage (d : Template) : Bool := decide (d.field ≠ .none) || isBanked d

/-- R185 check 1: a constant, a storage location, or a callback for everything the access mask grants. -/
def checkStorage (d : Template) : Bool :=
  bit d.typ tSpecial || bit d.typ tConst || bit d.typ tNop ||
  ((!grantsRead d.access || hasStorage d || decide (d.readfn ≠ .none)) &&
   (!grantsWrite d.access || hasStorage d || decide (d.writefn ≠ .none)))

/-- R185 check 2. -/
def checkWide (d : Template) : Bool :=
  !bit d.typ tWide64 || (decide (d.state = .a32) && decide (d.crn = 0) && decide (d.opc2 = 0))

/-- R183: which coordinates may be wildcards (`cp` is ignored for a 64-bit-only template, R118), and R116, R117: the ranges
the keys admit. -/
def checkCoords (d : Template) : Bool :=
  match d.state with
  | .mprofile =>
    decide (d.cp ≠ anyCoord) && decide (d.crn.toNat < 16) &&
    ((decide (d.opc0 = 0) && (decide (d.crm = anyCoord) || decide (d.crm.toNat % 4 = 0))) ||
     (decide (d.opc0 = 1) && decide (d.crn = 0)))
  | _ =>
    (!(inA32 d) || decide (d.cp.toNat < 16)) && decide (d.opc0 ≠ anyCoord) && decide (d.crn.toNat < 16) && wildOk d.crm 16 && wildOk d.opc1 8 &&
    wildOk d.opc2 8

/-- R185 check 3. -/
def checkA64 (d : Template) : Bool :=
  !(inA64 d) ||
  (decide (d.opc0.toNat ≤ 3) &&
   (coordValues d.opc1 8).all fun o => decide (o ≠ 5) && decide (d.access &&& ~~~ opc1Allows o = 0))

/-- R185 check 4: reserved bits, banks, hook ids, field ids and their widths: the 64-bit encoding shows `field` (`a64Ok`), a
`WIDE64` entry any of the three (`wideOk`). -/
def checkIds (p : Params) (d : Template) : Bool :=
  decide (d.typ.toNat < 512) && decide (d.secure ≠ 0) &&
  [d.accessfn, d.readfn, d.writefn, d.resetfn, d.rawReadfn, d.rawWritefn].all (hookIdOk p) &&
  [d.field, d.bankS, d.bankNs].all (fieldOk p) &&
  (!inA64 d || a64Ok d.field) &&
  (!bit d.typ tWide64 || [d.field, d.bankS, d.bankNs].all wideOk)

/-- R185 check 5. -/
def checkAbsent (d : Template) : Bool := decide (d.secure = 3) || d.absent.isSome

/-- R185 check 6. -/
def checkFunctions (d : Template) : Bool :=
  (!(bit d.typ tConst || bit d.typ tNop) || decide (d.writefn = .none)) &&
  (!bit d.typ tSpecial || decide (d.readfn ≠ .none) || decide (d.writefn ≠ .none))

/-- R185, R183: `check_template(D)`. -/
def checkTemplate (p : Params) (d : Template) : Bool :=
  checkStorage d && checkWide d && checkCoords d && checkA64 d && checkIds p d && checkAbsent d && checkFunctions d

/-! ## Expansion (R183, R184) -/

/-- `typ` with a flag added when `b`. -/
def addFlag (typ : BitVec 16) (flag : Nat) (b : Bool) : BitVec 16 := if b then setBit typ flag true else typ

/-- The concrete copy of a template at one key, before the flags of its place in the expansion. -/
def entryAt (d : Template) (key : Word) (field : FieldId) (typ : BitVec 16) : Entry :=
  { key := key, name := d.name, typ := typ, access := d.access, secure := d.secure, absent := d.absent,
    resetvalue := d.resetvalue, field := field, accessfn := d.accessfn, readfn := d.readfn, writefn := d.writefn,
    resetfn := d.resetfn, rawReadfn := d.rawReadfn, rawWritefn := d.rawWritefn }

/-- The security banks a template's `secure` includes, Non-secure bank bit first to last: `true` is Secure. -/
def banksOf (d : Template) : List Bool :=
  (if bit d.secure 0 then [true] else []) ++ (if bit d.secure 1 then [false] else [])

/-- The `bank_field` of one bank. -/
def bankOwn (d : Template) (secure : Bool) : FieldId := if secure then d.bankS else d.bankNs

/-- The storage of one bank in the 32-bit encoding (R184): `bank_field` if both are given, else `field`. -/
def bankFieldOf (d : Template) (secure : Bool) : FieldId := if isBanked d then bankOwn d secure else d.field

/-- The storage of one bank of the microcontroller profile (R184): its `bank_field` if given, else `field`. -/
def mBankFieldOf (d : Template) (secure : Bool) : FieldId :=
  if bankOwn d secure ≠ .none then bankOwn d secure else d.field

/-- The entries of one concrete coordinate (R184); `extra` says that a wildcard stood for a value other than 0 (R183). -/
def entriesAt (d : Template) (crm opc1 opc2 : Nat) (extra : Bool) : List Entry :=
  let typ := addFlag d.typ tNoRaw (extra || bit d.typ tSpecial)
  let a64 : List Entry :=
    if inA64 d then [entryAt d (keySys64 d.opc0.toNat opc1 d.crn.toNat crm opc2) d.field typ] else []
  let a32 : List Entry :=
    if inA32 d then
      (banksOf d).map fun secure =>
        let ns := if secure then 0 else 1
        let key := if bit d.typ tWide64 then keyCp32Wide d.cp.toNat opc1 crm ns
                   else keyCp32 d.cp.toNat d.crn.toNat opc1 crm opc2 ns
        entryAt d key (bankFieldOf d secure)
          (addFlag typ tAlias (decide (d.state = .both) && (!isBanked d || !secure)))
    else []
  let m : List Entry :=
    if d.state = .mprofile then
      (banksOf d).map fun secure =>
        let number := d.crn.toNat * 256 + crm
        entryAt d (if d.opc0 = 0 then keyMsys number secure else keyMspec number secure) (mBankFieldOf d secure) typ
    else []
  a64 ++ a32 ++ m

/-- The values of `opc1` or `opc2`; an `MPROFILE` key has neither (R117), so a wildcard there multiplies nothing: "two members
of one template's expansion can never collide" (R188; DEDUCED, log entry 49). -/
def opcValues (d : Template) (c : BitVec 8) : List Nat := if d.state = .mprofile then [0] else coordValues c 8

/-- R183: the concrete entries of a template, wildcards multiplied out. -/
def expand (d : Template) : List Entry :=
  (coordValues d.crm 16).flatMap fun crm =>
    (opcValues d d.opc1).flatMap fun opc1 =>
      (opcValues d d.opc2).flatMap fun opc2 =>
        entriesAt d crm opc1 opc2
          ((decide (d.crm = anyCoord) && decide (crm ≠ 0)) || (decide (d.opc1 = anyCoord) && decide (opc1 ≠ 0)) ||
           (decide (d.opc2 = anyCoord) && decide (opc2 ≠ 0)))

/-! ## The registry as a table (R38) -/

/-- The entry at a key number. -/
def findKey : List Entry → Nat → Option Entry
  | [], _ => none
  | e :: es, k =>
    match Nat.beq e.key.toNat k with
    | true => some e
    | false => findKey es k

/-- The entry at a key. -/
def findEntry (es : List Entry) (k : Word) : Option Entry := findKey es k.toNat

/-- The registry with an entry added, or replaced, at its key number; keys stay in ascending order. -/
def insertKey : List Entry → Entry → Nat → List Entry
  | [], e, _ => [e]
  | x :: xs, e, k =>
    match Nat.beq x.key.toNat k, Nat.ble x.key.toNat k with
    | true, _ => e :: xs
    | false, true => x :: insertKey xs e k
    | false, false => e :: x :: xs

/-- The registry with an entry added, or replaced, at its key. -/
def insertEntry (es : List Entry) (e : Entry) : List Entry := insertKey es e e.key.toNat

/-- R182, R188: one concrete entry defined. -/
def defineEntry (reg : List Entry) (e : Entry) : Except FatalReason (List Entry) :=
  match findEntry reg e.key with
  | none => .ok (insertEntry reg e)
  | some old => if entryIs e tOverride || entryIs old tOverride then .ok (insertEntry reg e) else .error .redefined

/-- R182: a list of concrete entries defined in order. -/
def defineEntries (reg : List Entry) : List Entry → Except FatalReason (List Entry)
  | [] => .ok reg
  | e :: es =>
    match defineEntry reg e with
    | .ok reg => defineEntries reg es
    | .error r => .error r

/-- R182: `define(descriptor)` on the registry: the new registry and the number of entries inserted. -/
def defineTemplate (p : Params) (reg : List Entry) (d : Template) : Except FatalReason (List Entry × Nat) :=
  if checkTemplate p d then
    match defineEntries reg (expand d) with
    | .ok reg => .ok (reg, (expand d).length)
    | .error r => .error r
  else .error .badTemplate

/-- R181 steps 2 and 3: a list of templates defined in order. -/
def defineAll (p : Params) (reg : List Entry) : List Template → Except FatalReason (List Entry)
  | [] => .ok reg
  | d :: ds =>
    match defineTemplate p reg d with
    | .ok (reg, _) => defineAll p reg ds
    | .error r => .error r

end Sys2Proof.Machine
end

