-- ==== Sys2Proof/Machine/Builtins.lean ====
section
/-! DEFINITION. The built-in registers (spec/10_state.md rules R40 to R62; spec/41_control_registers.md rule R181 step 2),
one template per register or per view, in the order of those rules. -/

namespace Sys2Proof.Machine

/-- A register of the 32-bit encoding, coprocessor 15: `CRn, opc1, CRm, opc2` (R40). -/
def b32 (name : String) (crn opc1 crm opc2 : BitVec 8) (access : BitVec 8) : Template :=
  { Template.zero with
    name := name, cp := 15, crn := crn, opc1 := opc1, crm := crm, opc2 := opc2, state := .a32, access := access, secure := 3 }

/-- A register of the 64-bit encoding: `op0, op1, CRn, CRm, op2` (R40). -/
def b64 (name : String) (op0 op1 crn crm op2 : BitVec 8) (access : BitVec 8) : Template :=
  { Template.zero with
    name := name, opc0 := op0, opc1 := op1, crn := crn, crm := crm, opc2 := op2, state := .a64, access := access, secure := 3 }

/-- A register visible at one coordinate in both encodings (R184). -/
def bBoth (name : String) (op0 opc1 crn crm opc2 : BitVec 8) (access : BitVec 8) : Template :=
  { b64 name op0 opc1 crn crm opc2 access with cp := 15, state := .both }

/-- A 64-bit-wide register of the 32-bit encoding: `opc1, CRm` (R40). -/
def bWide (name : String) (opc1 crm : BitVec 8) (access : BitVec 8) : Template :=
  { b32 name 0 opc1 crm 0 access with typ := setBit 0 tWide64 true }

/-- With one storage field. -/
def stored (d : Template) (f : FieldId) : Template := { d with field := f }

/-- Banked by security state: the Secure storage, then the Non-secure one (R40). -/
def bankedAs (d : Template) (s ns : FieldId) : Template := { d with field := ns, bankS := s, bankNs := ns }

/-- With the write hook `H_STORE_INV` (R187). -/
def storeInv (d : Template) : Template := { d with writefn := .storeInv }

/-- With more type flags. -/
def flagged (d : Template) (flags : List Nat) : Template :=
  { d with typ := flags.foldl (fun t f => setBit t f true) d.typ }

/-- R41. -/
def builtinsR41 (p : Params) : List Template :=
  [storeInv (bankedAs (bBoth "SCTLR" 3 0 1 0 0 pl1RW) (.sctlr .l3) (.sctlr .l1))] ++
  (if has p .el2 then [storeInv (stored (bBoth "SCTLR_EL2" 3 4 1 0 0 pl2RW) (.sctlr .l2))] else []) ++
  (if has p .el3 then [storeInv (stored (b64 "SCTLR_EL3" 3 6 1 0 0 pl3RW) (.sctlr .l3))] else [])

/-- R42. -/
def builtinsR42 (p : Params) : List Template :=
  [storeInv (bankedAs (bBoth "TTBR0" 3 0 2 0 0 pl1RW) (.ttbr0 .l3) (.ttbr0 .l1)),
   storeInv (flagged (bankedAs (bWide "TTBR0" 0 2 pl1RW) (.ttbr0 .l3) (.ttbr0 .l1)) [tAlias]),
   storeInv (bankedAs (bBoth "TTBR1" 3 0 2 0 1 pl1RW) (.ttbr1 true) (.ttbr1 false)),
   storeInv (flagged (bankedAs (bWide "TTBR1" 1 2 pl1RW) (.ttbr1 true) (.ttbr1 false)) [tAlias])] ++
  (if has p .el2 then
    [storeInv (stored (b64 "TTBR0_EL2" 3 4 2 0 0 pl2RW) (.ttbr0 .l2)),
     storeInv (flagged (stored (bWide "HTTBR" 4 2 pl2RW) (.ttbr0 .l2)) [tAlias])] else []) ++
  (if has p .el3 then [storeInv (stored (b64 "TTBR0_EL3" 3 6 2 0 0 pl3RW) (.ttbr0 .l3))] else []) ++
  (if has p .el2 then
    [storeInv (stored (b64 "VTTBR_EL2" 3 4 2 1 0 pl2RW) .vttbr),
     storeInv (flagged (stored (bWide "VTTBR" 6 2 pl2RW) .vttbr) [tAlias])] else [])

/-- R43. -/
def builtinsR43 (p : Params) : List Template :=
  [storeInv (bankedAs (bBoth "TTBCR" 3 0 2 0 2 pl1RW) (.tcr .l3) (.tcr .l1))] ++
  (if has p .el2 then [storeInv (stored (bBoth "TCR_EL2" 3 4 2 0 2 pl2RW) (.tcr .l2))] else []) ++
  (if has p .el3 then [storeInv (stored (b64 "TCR_EL3" 3 6 2 0 2 pl3RW) (.tcr .l3))] else [])

/-- R44. -/
def builtinsR44 (p : Params) : List Template :=
  if has p .el2 then [storeInv (stored (bBoth "VTCR_EL2" 3 4 2 1 2 pl2RW) .vtcr)] else []

/-- R45. -/
def builtinsR45 : List Template :=
  [storeInv (bankedAs (b32 "DACR" 3 0 0 0 pl1RW) (.dacr true) (.dacr false))]

/-- R46; the access masks are log entry 11's. -/
def builtinsR46 : List Template :=
  [storeInv (bankedAs (bBoth "MAIR_EL1" 3 0 10 2 0 pl1RW) (.mair .l3) (.mair .l1)),
   storeInv (flagged (bankedAs (b32 "MAIR1" 10 0 2 1 pl1RW) (.mairHi .l3) (.mairHi .l1)) [tAlias]),
   storeInv (stored (bBoth "MAIR_EL2" 3 4 10 2 0 pl2RW) (.mair .l2)),
   storeInv (flagged (stored (b32 "HMAIR1" 10 4 2 1 pl2RW) (.mairHi .l2)) [tAlias]),
   storeInv (stored (b64 "MAIR_EL3" 3 6 10 2 0 pl3RW) (.mair .l3))]

/-- R47. -/
def builtinsR47 (p : Params) : List Template :=
  if has p .el2 then
    [{ stored (bBoth "HCR_EL2" 3 4 1 1 0 pl2RW) .hcr with writefn := .hcr },
     flagged (stored (b32 "HCR2" 1 4 1 4 pl2RW) .hcrHi) [tAlias]] else []

/-- R48. -/
def builtinsR48 (p : Params) : List Template :=
  if has p .el3 then
    [storeInv (stored (b64 "SCR_EL3" 3 6 1 1 0 pl3RW) .scr),
     storeInv { flagged (stored (b32 "SCR" 1 0 1 0 pl1RW) .scr) [tAlias] with accessfn := .secureOnly }] else []

/-- R49. -/
def builtinsR49 (p : Params) : List Template :=
  [bankedAs (bBoth "VBAR" 3 0 12 0 0 pl1RW) (.vbar .l3) (.vbar .l1),
   stored (bBoth "VBAR_EL2" 3 4 12 0 0 pl2RW) (.vbar .l2),
   stored (b64 "VBAR_EL3" 3 6 12 0 0 pl3RW) (.vbar .l3)] ++
  (if has p .el3 then [{ stored (b32 "MVBAR" 12 0 0 1 pl1RW) .mvbar with accessfn := .secureOnly }] else [])

/-- R50. -/
def builtinsR50 : List Template :=
  [flagged (bankedAs (b32 "DFSR" 5 0 0 0 pl1RW) (.esr .l3) (.esr .l1)) [tAlias],
   bankedAs (b32 "IFSR" 5 0 0 1 pl1RW) (.ifsr true) (.ifsr false),
   bankedAs (bBoth "FAR_EL1" 3 0 6 0 0 pl1RW) (.far .l3) (.far .l1),
   flagged (bankedAs (b32 "IFAR" 6 0 0 2 pl1RW) (.farHi .l3) (.farHi .l1)) [tAlias],
   stored (b64 "ESR_EL1" 3 0 5 2 0 pl1RW) (.esr .l1),
   stored (bBoth "ESR_EL2" 3 4 5 2 0 pl2RW) (.esr .l2),
   stored (b64 "ESR_EL3" 3 6 5 2 0 pl3RW) (.esr .l3),
   stored (bBoth "FAR_EL2" 3 4 6 0 0 pl2RW) (.far .l2),
   flagged (stored (b32 "HIFAR" 6 4 0 2 pl2RW) (.farHi .l2)) [tAlias],
   stored (b64 "FAR_EL3" 3 6 6 0 0 pl3RW) (.far .l3),
   stored (bBoth "HPFAR_EL2" 3 4 6 0 4 pl2RW) .hpfar]

/-- R51: the saved status words (storage of R21), and with `F_AARCH64` the views of the banks R22 gives that instance. -/
def builtinsR51 (p : Params) : List Template :=
  [flagged (stored (b64 "SPSR_EL1" 3 0 4 0 0 pl1RW) (.bankSpsr 1)) [tAlias],
   flagged (stored (b64 "SPSR_EL2" 3 4 4 0 0 pl2RW) (.bankSpsr 6)) [tAlias],
   flagged (stored (b64 "SPSR_EL3" 3 6 4 0 0 pl3RW) (.bankSpsr 7)) [tAlias]] ++
  (if has p .aarch64 then
    [flagged (stored (b64 "ELR_EL1" 3 0 4 0 1 pl1RW) (.elrEl .l1)) [tAlias],
     { flagged (stored (b64 "SP_EL0" 3 0 4 1 0 pl1RW) (.spEl 0)) [tAlias] with accessfn := .spEl0Access },
     flagged (stored (b64 "ELR_EL2" 3 4 4 0 1 pl2RW) (.elrEl .l2)) [tAlias],
     flagged (stored (b64 "SP_EL1" 3 4 4 1 0 pl2RW) (.spEl 1)) [tAlias],
     flagged (stored (b64 "ELR_EL3" 3 6 4 0 1 pl3RW) (.elrEl .l3)) [tAlias],
     flagged (stored (b64 "SP_EL2" 3 6 4 1 0 pl3RW) (.spEl 2)) [tAlias]] else [])

/-- R52. -/
def builtinsR52 : List Template :=
  [stored (bBoth "CPACR_EL1" 3 0 1 0 2 pl1RW) .cpacr,
   stored (bBoth "CPTR_EL2" 3 4 1 1 2 pl2RW) .cptr2,
   stored (b64 "CPTR_EL3" 3 6 1 1 2 pl3RW) .cptr3]

/-- R53. -/
def builtinsR53 : List Template :=
  [{ stored (bBoth "MDSCR_EL1" 2 0 0 2 2 pl1RW) .mdscr with cp := 14 },
   stored (bBoth "MDCR_EL2" 3 4 1 1 1 pl2RW) .mdcr]

/-- R54. -/
def builtinsR54 : List Template :=
  [{ flagged (b64 "NZCV" 3 3 4 2 0 pl0RW) [tAlias, tNoRaw] with readfn := .nzcv, writefn := .nzcv },
   { flagged (b64 "DAIF" 3 3 4 2 1 pl0RW) [tAlias, tNoRaw] with
     readfn := .daif, writefn := .daif, accessfn := .daifAccess },
   { flagged (b64 "CurrentEL" 3 0 4 2 2 pl1R) [tAlias, tNoRaw] with readfn := .currentEl },
   { flagged (b64 "SPSel" 3 0 4 2 0 pl1RW) [tAlias, tNoRaw] with readfn := .spSel, writefn := .spSel }]

/-- A translation-cache maintenance register (R55): write-only, no storage. -/
def maintenance (d : Template) : Template := { flagged d [tNoRaw] with writefn := .inv }

/-- R55. -/
def builtinsR55 : List Template :=
  [maintenance (b32 "TLBIALL" 8 0 7 0 pl1W), maintenance (b32 "TLBIALLIS" 8 0 3 0 pl1W),
   maintenance (b32 "TLBIMVA" 8 0 7 1 pl1W), maintenance (b32 "TLBIASID" 8 0 7 2 pl1W),
   maintenance (b32 "TLBIMVAA" 8 0 7 3 pl1W), maintenance (b32 "TLBIALLH" 8 4 7 0 pl2W),
   maintenance (b32 "TLBIALLNSNH" 8 4 7 4 pl2W), maintenance (b64 "TLBI_VMALLE1" 1 0 8 7 0 pl1W),
   maintenance (b64 "TLBI_VMALLE1IS" 1 0 8 3 0 pl1W), maintenance (b64 "TLBI_VAE1" 1 0 8 7 1 pl1W),
   maintenance (b64 "TLBI_ASIDE1" 1 0 8 7 2 pl1W), maintenance (b64 "TLBI_ALLE2" 1 4 8 7 0 pl2W),
   maintenance (b64 "TLBI_ALLE3" 1 6 8 7 0 pl3W)]

/-- A view of the region that a region-number register selects: hooks and no storage field of its own (R56, R58, R59,
R504). -/
def regionView (d : Template) : Template := { d with readfn := .regionView, writefn := .regionView }

/-- A constant register (R119 `CONST`). -/
def constant (d : Template) (v : DWord) : Template := { flagged d [tConst] with resetvalue := v }

/-- R56. -/
def builtinsR56 (p : Params) : List Template :=
  if has p .pmsa then
    [regionView (b32 "DRBAR" 6 0 1 0 pl1RW), regionView (b32 "DRSR" 6 0 1 2 pl1RW), regionView (b32 "DRACR" 6 0 1 4 pl1RW),
     { stored (b32 "RGNR" 6 0 2 0 pl1RW) .rgnr with writefn := .ignoreOutOfRange },
     constant (b32 "MPUIR" 0 0 0 4 pl1R) (BitVec.ofNat 64 (p.mpuNregion * 256))] else []

/-- An `MSYS` register (R117): `offset` is its byte offset from `0xE000E000`; privileged access (R194).  It exists in
both banks with `F_M_SECURITY`, else in the Non-secure bank only (log entry 12). -/
def bMsys (p : Params) (name : String) (offset : Nat) : Template :=
  { Template.zero with
    name := name, state := .mprofile, crn := BitVec.ofNat 8 (offset / 256), crm := BitVec.ofNat 8 offset, access := pl1RW,
    secure := if has p .mSecurity then 3 else 2, absent := some .trap }

/-- An `MSYS` register of the Secure bank only, read as 0 from the other (R59, R197). -/
def bMsysSecure (p : Params) (name : String) (offset : Nat) : Template :=
  { bMsys p name offset with secure := 1, absent := some (.const 0) }

/-- A special register (R62, R117), reached with the `MSPEC` key. -/
def bMspec (p : Params) (name : String) (sysm : BitVec 8) : Template :=
  { bMsys p name 0 with
    name := name, opc0 := 1, crm := sysm, access := pl0RW, readfn := .mSpecial, writefn := .mSpecial }

/-- Banked by security state where the instance has the security extension, else the Non-secure copy alone (R23, R57 to
R62). -/
def mBanked (p : Params) (d : Template) (f : Bool → FieldId) : Template :=
  if has p .mSecurity then bankedAs d (f true) (f false) else stored d (f false)

/-- R58. -/
def builtinsR58 (p : Params) : List Template :=
  [constant (bMsys p "MPU_TYPE" 0xD90) (BitVec.ofNat 64 (p.mpuNregion * 256)),
   { mBanked p (bMsys p "MPU_CTRL" 0xD94) .mpuCtrl with writefn := .regionView },
   { mBanked p (bMsys p "MPU_RNR" 0xD98) .mpuRnr with writefn := .ignoreOutOfRange },
   regionView (bMsys p "MPU_RBAR" 0xD9C),
   regionView (bMsys p (if has p .v8 then "MPU_RLAR" else "MPU_RASR") 0xDA0)] ++
  (if has p .v8 then
    [{ mBanked p (bMsys p "MPU_MAIR0" 0xDC0) .mpuMair0 with writefn := .regionView },
     { mBanked p (bMsys p "MPU_MAIR1" 0xDC4) .mpuMair1 with writefn := .regionView }] else [])

/-- R59. -/
def builtinsR59 (p : Params) : List Template :=
  if has p .mSecurity then
    [{ stored (bMsysSecure p "SAU_CTRL" 0xDD0) .sauCtrl with writefn := .regionView },
     constant (bMsysSecure p "SAU_TYPE" 0xDD4) (BitVec.ofNat 64 p.sauNregion),
     { stored (bMsysSecure p "SAU_RNR" 0xDD8) .sauRnr with writefn := .ignoreOutOfRange },
     regionView (bMsysSecure p "SAU_RBAR" 0xDDC),
     regionView (bMsysSecure p "SAU_RLAR" 0xDE0),
     { stored (bMsysSecure p "SFSR" 0xDE4) .sfsr with writefn := .w1c },
     stored (bMsysSecure p "SFAR" 0xDE8) .sfar] else []

/-- R60. -/
def builtinsR60 (p : Params) : List Template :=
  [{ mBanked p (bMsys p "CFSR" 0xD28) .cfsr with writefn := .w1c },
   { stored (bMsys p "HFSR" 0xD2C) .hfsr with writefn := .w1c },
   stored (bMsys p "DFSR" 0xD30) .dfsr,
   mBanked p (bMsys p "MMFAR" 0xD34) .mmfar,
   stored (bMsys p "BFAR" 0xD38) .bfar]

/-- R61.  The two banks of `VTOR` have reset values of their own, so they are two templates. -/
def builtinsR61 (p : Params) : List Template :=
  (if has p .mSecurity then
    [{ stored (bMsys p "VTOR" 0xD08) (.vtor true) with secure := 1, resetvalue := zext p.initVtorS }] else []) ++
  [{ stored (bMsys p "VTOR" 0xD08) (.vtor false) with secure := 2, resetvalue := zext p.initVtorNs },
   stored (bMsys p "AIRCR" 0xD0C) .aircr,
   { mBanked p (bMsys p "CCR" 0xD14) .ccr with resetvalue := 0x200 }]

/-- R62.  `MSP` and `PSP` are views of the stack-pointer slots of R23, hence `ALIAS`. -/
def builtinsR62 (p : Params) : List Template :=
  [flagged (mBanked p (bMspec p "MSP" 8) (.msp · false)) [tAlias],
   flagged (mBanked p (bMspec p "PSP" 9) (.msp · true)) [tAlias],
   mBanked p (bMspec p "PRIMASK" 16) .primask,
   mBanked p (bMspec p "BASEPRI" 17) .basepri,
   mBanked p (bMspec p "FAULTMASK" 19) .faultmask,
   mBanked p (bMspec p "CONTROL" 20) .control]

/-- R181 step 2: the built-in registers of an instance, in the order of the rules. -/
def builtins (p : Params) : List Template :=
  if has p .m then
    builtinsR58 p ++ builtinsR59 p ++ builtinsR60 p ++ builtinsR61 p ++ builtinsR62 p
  else
    builtinsR41 p ++ builtinsR42 p ++ builtinsR43 p ++ builtinsR44 p ++ builtinsR45 ++ builtinsR46 ++ builtinsR47 p ++
    builtinsR48 p ++ builtinsR49 p ++ builtinsR50 ++ builtinsR51 p ++ builtinsR52 ++ builtinsR53 ++ builtinsR54 ++
    builtinsR55 ++ builtinsR56 p

/-- The built-in registry of an instance (R38, R181 step 2). -/
def builtinRegistry (p : Params) : Except FatalReason (List Entry) := defineAll p [] (builtins p)

end Sys2Proof.Machine
end

