-- ==== Sys2Proof/Machine/State.lean ====
section
/-! DEFINITION. The state of CORE as plain data (spec/10_state.md), the reasons a step can stop, and the state after
reset (spec/70_reset_and_hazards.md rules R500 to R505). -/

namespace Sys2Proof.Machine

/-- A fault of the machine itself: there is none.  Every failure the spec describes is an answer on RSP, an exception
record or lockup (R13; spec/93_implementation_defined.md S5), so no constructor exists.  Safe: nothing stops. -/
inductive Fault where
  deriving DecidableEq, Repr

/-- Why a step has no next state. -/
inductive Refusal where
  /-- raised by an arm of `exec` whose instruction has no meaning yet.  Safe: the step stops. -/
  | notModelled (mnemonic : String)
  /-- raised by `CR_DEFINE` and by the first `CPU_RESET`, during construction only: the configuration is `FATAL` and the
  instance does not come into being (R14).  Safe: the step stops, and the spec gives such a configuration no machine. -/
  | fatal (reason : FatalReason)
  deriving DecidableEq, Repr

/-- Response status (R112). -/
inductive Status where
  | ok | fault | accessFault | absent | illegalCmd | locked | notTaken | fatal | failures
  deriving DecidableEq, Repr, Inhabited

/-- The status code of R112. -/
def Status.code : Status → BitVec 4
  | .ok => 0 | .fault => 1 | .accessFault => 2 | .absent => 3 | .illegalCmd => 4 | .locked => 5 | .notTaken => 6
  | .fatal => 7 | .failures => 8

/-- What is on RSP and its side output (R112, R219). -/
structure Response where
  status : Status
  r0     : DWord
  r1     : DWord
  out    : List (Word × DWord)
  deriving DecidableEq, Repr, Inhabited

/-- The phases of the exception state machine (R35, R472). -/
inductive Phase where
  | none | pending | taking | active | returning
  deriving DecidableEq, Repr, Inhabited

/-- General registers of the 32-bit state and the microcontroller profile, and the banks of the 32-bit state
(R20, R21, R26). -/
structure A32Regs where
  r        : Vector Word 16
  bankR13  : Vector Word 8
  bankR14  : Vector Word 8
  bankSpsr : Vector DWord 8
  usrR8    : Vector Word 5
  fiqR8    : Vector Word 5
  spsr     : DWord
  cpsr     : Word
  deriving DecidableEq, Repr, Inhabited

/-- Registers of the 64-bit state and their banks (R22, R27).  `x` holds `X[0..30]` and, at 31, the active stack
pointer. -/
structure A64Regs where
  x      : Vector DWord 32
  pc     : DWord
  spEl   : Vector DWord 4
  elrEl  : Lv3 DWord
  pstate : Word
  deriving DecidableEq, Repr, Inhabited

/-- The floating/vector register file (R31). -/
structure FpRegs where
  v     : Vector (BitVec 128) 32
  fpscr : Word
  fpexc : Word
  deriving DecidableEq, Repr, Inhabited

/-- Banks and special registers of the microcontroller profile (R23, R28, R30, R62).  `xpsr` is the status word without
`IPSR`, which is `exception`. -/
structure MRegs where
  mainSp    : Banked Word
  processSp : Banked Word
  xpsr      : Word
  exception : BitVec 9
  secure    : Bool
  control   : Banked (BitVec 4)
  primask   : Banked (BitVec 1)
  faultmask : Banked (BitVec 1)
  basepri   : Banked Byte
  deriving DecidableEq, Repr, Inhabited

/-- System and control registers of the general profile (R41 to R53).  `cptr2`, `cptr3` (`CPTR_EL[2]`, `CPTR_EL[3]`),
whose width R52 does not state, are 32 bits as `CPACR_EL1` beside them (DESIGN CHOICE, log entry 38). -/
structure SysRegs where
  sctlr : Lv3 DWord
  ttbr0 : Lv3 DWord
  ttbr1 : Banked DWord
  vttbr : DWord
  tcr   : Lv3 DWord
  vtcr  : Word
  dacr  : Banked Word
  mair  : Lv3 DWord
  hcr   : DWord
  scr   : Word
  vbar  : Lv3 DWord
  mvbar : Word
  esr   : Lv3 DWord
  ifsr  : Banked Word
  far   : Lv3 DWord
  hpfar : DWord
  cpacr : Word
  cptr2 : Word
  cptr3 : Word
  mdscr : Word
  mdcr  : Word
  deriving DecidableEq, Repr, Inhabited

/-- Fault status and system control registers of the microcontroller profile (R59 to R61).  `cfsr` holds bits 31:16 and
7:0 of each bank, `bfsr` the one shared copy of bits 15:8. -/
structure MSysRegs where
  cfsr  : Banked Word
  bfsr  : Byte
  hfsr  : Word
  dfsr  : Word
  mmfar : Banked Word
  bfar  : Word
  sfsr  : Byte
  sfar  : Word
  vtor  : Banked Word
  aircr : Word
  ccr   : Banked Word
  deriving DecidableEq, Repr, Inhabited

/-- The region tables and the registers that select and enable their entries (R56 to R59).  The tables have
`MPU_NREGION`, `SAU_NREGION` entries; `rgnr` is the general profile's `RGNR`, `mpuRnr` the microcontroller profile's
`MPU_RNR`. -/
structure Regions where
  rbar     : Banked (List Word)
  rsr      : Banked (List Word)
  racr     : Banked (List Word)
  rlar     : Banked (List Word)
  rgnr     : Word
  mpuRnr   : Banked Byte
  mpuCtrl  : Banked (BitVec 3)
  mpuMair0 : Banked Word
  mpuMair1 : Banked Word
  sauCtrl  : BitVec 2
  sauRnr   : Byte
  sauRbar  : List Word
  sauRlar  : List Word
  deriving DecidableEq, Repr, Inhabited

/-- The phase, the pending record and the exception bookkeeping (R35, R37). -/
structure ExcState where
  phase     : Phase
  index     : BitVec 8
  syndrome  : Word
  fsr       : Word
  vaddress  : DWord
  targetEl  : BitVec 2
  mSecure   : Bool
  mNumber   : BitVec 9
  mDerived  : Bool
  mLr       : Word
  ipa       : DWord
  fr        : BitVec 16
  deriving DecidableEq, Repr, Inhabited

/-- What CORE drives and receives at its ports other than MEM (R3): the response of the last command, its TLBINV pulses,
and the commands waiting on CMD, first first.  The LOCKUP output is `State.locked`. -/
structure Ports where
  rsp    : Option Response
  tlbinv : Nat
  cmds   : List Command
  deriving DecidableEq, Repr, Inhabited

end Sys2Proof.Machine

namespace Sys2Proof.Machine

/-- The whole machine. -/
structure State where
  /-- the parameters (R7), the same for the life of the instance. -/
  params  : Params
  /-- `REG` (R38): concrete entries, keys ascending. -/
  reg     : List Entry
  /-- construction has not ended (R181): `CR_DEFINE` is accepted.  Operations other than `CR_DEFINE` and `CPU_RESET` are
  executed as after construction (DESIGN CHOICE, log entry 14). -/
  constructing : Bool
  /-- `AARCH64` (R30). -/
  aarch64 : Bool
  a32     : A32Regs
  a64     : A64Regs
  fp      : FpRegs
  m       : MRegs
  sys     : SysRegs
  msys    : MSysRegs
  regions : Regions
  /-- storage that catalog descriptors name (R63): value by number, 0 where not listed, numbers ascending. -/
  catalog : List (Nat × DWord)
  /-- `EXCL_ADDR` (R32). -/
  exclAddr : DWord
  /-- `EXCL_VAL` (R501). -/
  exclVal : DWord
  exc     : ExcState
  /-- `LOCKED` (R36), the LOCKUP output. -/
  locked  : Bool
  /-- the MEM port and what is behind it. -/
  bus     : Bus
  /-- the model's own counter of draws for `NONDET` registers (R207). -/
  draws   : Nat
  ports   : Ports
  deriving DecidableEq, Repr, Inhabited

/-- The region tables with every entry 0, `MPU_NREGION` and `SAU_NREGION` of them (R39, R504). -/
def Regions.zero (p : Params) : Regions :=
  let mpu := List.replicate p.mpuNregion (0 : Word)
  let sau := List.replicate p.sauNregion (0 : Word)
  { rbar := ⟨mpu, mpu⟩, rsr := ⟨mpu, mpu⟩, racr := ⟨mpu, mpu⟩, rlar := ⟨mpu, mpu⟩, rgnr := 0, mpuRnr := ⟨0, 0⟩, mpuCtrl := ⟨0, 0⟩,
    mpuMair0 := ⟨0, 0⟩, mpuMair1 := ⟨0, 0⟩, sauCtrl := 0, sauRnr := 0, sauRbar := sau, sauRlar := sau }

/-- `A32Regs` with everything 0 (R501). -/
def A32Regs.zero : A32Regs :=
  { r := Vector.replicate 16 0, bankR13 := Vector.replicate 8 0, bankR14 := Vector.replicate 8 0,
    bankSpsr := Vector.replicate 8 0, usrR8 := Vector.replicate 5 0, fiqR8 := Vector.replicate 5 0, spsr := 0, cpsr := 0 }

/-- `A32Regs` at reset: every register 0 (R501), `CPSR` Supervisor mode with `A`, `I` and `F` set (R26). -/
def A32Regs.reset : A32Regs := { A32Regs.zero with cpsr := 0x1D3 }

/-- `A64Regs` with everything 0 (R501). -/
def A64Regs.zero : A64Regs :=
  { x := Vector.replicate 32 0, pc := 0, spEl := Vector.replicate 4 0, elrEl := ⟨0, 0, 0⟩, pstate := 0 }

/-- `FpRegs` with everything 0 (R501). -/
def FpRegs.zero : FpRegs := { v := Vector.replicate 32 0, fpscr := 0, fpexc := 0 }

/-- `MRegs` with everything 0 (R501). -/
def MRegs.zero : MRegs :=
  { mainSp := ⟨0, 0⟩, processSp := ⟨0, 0⟩, xpsr := 0, exception := 0, secure := false, control := ⟨0, 0⟩,
    primask := ⟨0, 0⟩, faultmask := ⟨0, 0⟩, basepri := ⟨0, 0⟩ }

/-- `SysRegs` with everything 0 (R40). -/
def SysRegs.zero : SysRegs :=
  { sctlr := ⟨0, 0, 0⟩, ttbr0 := ⟨0, 0, 0⟩, ttbr1 := ⟨0, 0⟩, vttbr := 0, tcr := ⟨0, 0, 0⟩, vtcr := 0, dacr := ⟨0, 0⟩,
    mair := ⟨0, 0, 0⟩, hcr := 0, scr := 0, vbar := ⟨0, 0, 0⟩, mvbar := 0, esr := ⟨0, 0, 0⟩, ifsr := ⟨0, 0⟩,
    far := ⟨0, 0, 0⟩, hpfar := 0, cpacr := 0, cptr2 := 0, cptr3 := 0, mdscr := 0, mdcr := 0 }

/-- `MSysRegs` with everything 0 (R40); the reset values of `VTOR` and `CCR` come from the registry. -/
def MSysRegs.zero : MSysRegs :=
  { cfsr := ⟨0, 0⟩, bfsr := 0, hfsr := 0, dfsr := 0, mmfar := ⟨0, 0⟩, bfar := 0, sfsr := 0, sfar := 0, vtor := ⟨0, 0⟩,
    aircr := 0, ccr := ⟨0, 0⟩ }

/-- `ExcState` with everything 0 and the phase `NONE` (R35, R37). -/
def ExcState.zero : ExcState :=
  { phase := .none, index := 0, syndrome := 0, fsr := 0, vaddress := 0, targetEl := 0, mSecure := false, mNumber := 0,
    mDerived := false, mLr := 0, ipa := 0, fr := 0 }

/-- No exclusive reservation (R32). -/
def noReservation : DWord := 0xFFFFFFFFFFFFFFFF

/-- A MEM port behind which nothing is known. -/
def Bus.empty : Bus := { mem := [], script := [], draws := 0, reqs := [] }

/-- No command waiting, no response given. -/
def Ports.empty : Ports := { rsp := none, tlbinv := 0, cmds := [] }

/-- The features of the reset state's instance: {`F_AARCH64`, `F_EL2`, `F_EL3`} and their closure (R142).  The spec
gives `FEATURES` no default (R7): DESIGN CHOICE, log entry 1. -/
def resetFeatures : Nat := closeFeatures (featureSet [.aarch64, .el2, .el3])

/-- The parameters of the reset state: the default column of R7. -/
def resetParams : Params := Params.withFeatures resetFeatures

/-- A built-in registry, empty should it be refused. -/
def registryOf (p : Params) : List Entry :=
  match builtinRegistry p with
  | .ok reg => reg
  | .error _ => []

/-- The machine right after reset (R500 to R505) of an instance with the default parameters and the features
`resetFeatures`: 64-bit state, level 3, Secure, `PSTATE = 0x3CD`, `PC64 = RESET_PC`, every other register 0, no
reservation, phase `NONE`, not locked, nothing in memory, no command waiting. -/
def State.reset : State :=
  { params := resetParams
    reg := registryOf resetParams
    constructing := false
    aarch64 := true
    a32 := A32Regs.reset
    a64 := { A64Regs.zero with pc := resetParams.resetPc, pstate := 0x3CD }
    fp := FpRegs.zero
    m := MRegs.zero
    sys := SysRegs.zero
    msys := MSysRegs.zero
    regions := Regions.zero resetParams
    catalog := []
    exclAddr := noReservation
    exclVal := 0
    exc := ExcState.zero
    locked := false
    bus := Bus.empty
    draws := 0
    ports := Ports.empty }

end Sys2Proof.Machine
end

