-- ==== Sys2Proof/Machine/Mode.lean ====
section
/-! DEFINITION. Privilege level, security state, execution width, mode descriptor (spec/40_mode_feature_bank.md rules
R144 to R154).  Pure functions of the state (R12). -/

namespace Sys2Proof.Machine

/-- Whether the instance has a feature (R143). -/
def State.has (s : State) (f : Feature) : Bool := Sys2Proof.Machine.has s.params f

/-- A bit of `SCR`; 0 without `F_EL3` (R48, R376). -/
def scrBit (s : State) (i : Nat) : Bool := s.has .el3 && bit s.sys.scr i

/-- A bit of `HCR`; 0 without `F_EL2` (R47, R376). -/
def hcrBit (s : State) (i : Nat) : Bool := s.has .el2 && bit s.sys.hcr i

/-- The mode field of the live 32-bit status word. -/
def liveMode (s : State) : BitVec 5 := modeField s.a32.cpsr

/-- Whether the live mode field names the mode. -/
def inMode (s : State) (m : Mode) : Bool := decide (liveMode s = m.num)

/-- `SCTLR_EL[el]` (R41). -/
def sctlr (s : State) (el : Nat) : DWord := s.sys.sctlr.get (lvlOf el)

/-- R145: the security state of levels 0 to 2. -/
def secureBelowEl3 (s : State) : Bool := s.has .el3 && !bit s.sys.scr 0

/-- R147: whether level `el` (1 to 3) runs the 64-bit state. -/
def elIsA64 (s : State) (el : Nat) : Bool :=
  if !s.has .aarch64 then false
  else if el = highestEl s.params then true
  else
    let a := if s.has .el3 then bit s.sys.scr 10 else true
    if el = 2 then a
    else if s.has .el2 && !secureBelowEl3 s then a && bit s.sys.hcr 31
    else a

/-- R151 `m_priv`: execution is privileged on the microcontroller profile. -/
def mPriv (s : State) : Bool :=
  decide (s.m.exception ≠ 0) || !bit (s.m.control.get s.m.secure) 0

/-- R151 `m_negpri`: execution priority is negative on the microcontroller profile. -/
def mNegPri (s : State) : Bool :=
  decide (s.m.faultmask.get s.m.secure = 1) || decide (s.m.exception = 2) || decide (s.m.exception = 3)

/-- R146 `cur_el`: the current privilege level. -/
def curEl (s : State) : Nat :=
  if s.has .m then (if mPriv s then 1 else 0)
  else if s.aarch64 then elField s.a64.pstate
  else if inMode s .usr then 0
  else if inMode s .hyp then 2
  else if inMode s .mon then 3
  else if s.has .el3 && secureBelowEl3 s && !elIsA64 s 3 then 3
  else 1

/-- R148 `is_secure`: the current security state. -/
def isSecure (s : State) : Bool :=
  if s.has .m then s.m.secure
  else if s.has .el3 && s.aarch64 && decide (elField s.a64.pstate = 3) then true
  else if s.has .el3 && !s.aarch64 && inMode s .mon then true
  else secureBelowEl3 s

/-- R150: data accesses are big-endian. -/
def beData (s : State) : Bool :=
  if s.has .m then false
  else if s.aarch64 then
    (if curEl s = 0 then bit (sctlr s 1) 24 else bit (sctlr s (curEl s)) 25)
  else bit s.a32.cpsr ePos

/-- R152: the level floating-point instructions trap to; 0 = they do not trap. -/
def fpEl (s : State) : Nat :=
  if s.has .m || !s.has .v6 then 0
  else
    let fpen := field s.sys.cpacr 20 2
    let el := curEl s
    let pl1 := if isSecure s && s.has .el3 && !elIsA64 s 3 then 3 else 1
    if (decide (fpen = 0) || decide (fpen = 2)) &&
       (decide (el = 0) || decide (el = 1) || (decide (el = 3) && decide (pl1 = 3))) then pl1
    else if decide (fpen = 1) && decide (el = 0) then pl1
    else if s.has .el2 && decide (el ≤ 2) && !secureBelowEl3 s && bit s.sys.cptr2 10 then 2
    else if s.has .el3 && bit s.sys.cptr3 10 then 3
    else 0

/-- R153: the level that software single-step debugging belongs to. -/
def debugTargetEl (s : State) : Nat :=
  if s.has .el2 && !isSecure s && (bit s.sys.hcr 27 || bit s.sys.mdcr 8) then 2
  else if s.has .el3 && !elIsA64 s 3 && isSecure s then 3
  else 1

/-- R153: software single-step is active. -/
def ssActive (s : State) : Bool :=
  !s.has .m && bit s.sys.mdscr 0 && elIsA64 s (debugTargetEl s) &&
  (decide (curEl s < debugTargetEl s) ||
   (decide (curEl s = debugTargetEl s) && bit s.sys.mdscr 13 && !bit s.a64.pstate 9))

/-- R28: the assembled status word of the microcontroller profile, `IPSR` = the live exception number. -/
def xpsrWord (s : State) : Word := s.m.xpsr ||| s.m.exception.setWidth 32

/-- The live status word (R26 to R28, R168). -/
def liveStatus (s : State) : Word :=
  if s.has .m then xpsrWord s else if s.aarch64 then s.a64.pstate else s.a32.cpsr

/-- The `SS` bit of the live status word (R33); the microcontroller profile has none. -/
def liveSs (s : State) : Bool := !s.has .m && bit (liveStatus s) ssPos

/-- The program counter (R25), zero-extended. -/
def livePc (s : State) : DWord :=
  if s.has .m then zext (vget s.a32.r 15) else if s.aarch64 then s.a64.pc else zext (vget s.a32.r 15)

/-- R128, R154: the mode descriptor. -/
def packMode (s : State) : DWord :=
  BitVec.ofNat 64 (curEl s) ||| (flag64 (isSecure s) <<< 2) ||| (flag64 s.aarch64 <<< 3) ||| (flag64 (beData s) <<< 4) |||
  (BitVec.ofNat 64 (fpEl s) <<< 5) ||| (flag64 (ssActive s) <<< 7) ||| (flag64 (liveSs s) <<< 8)

end Sys2Proof.Machine
end

