-- ==== Sys2Proof/Machine/Banks.lean ====
section
/-! DEFINITION. Register files and their banks, status-word writes, bank and stack switches
(spec/40_mode_feature_bank.md rules R156 to R165). -/

namespace Sys2Proof.Machine

/-! ## Register files -/

/-- `R[i]` (R20). -/
def rget (s : State) (i : Nat) : Word := vget s.a32.r i

/-- `R[i] <- v`, as stored: bits 1:0 of the stack pointer of the microcontroller profile ignore writes (R23). -/
def rset (s : State) (i : Nat) (v : Word) : State :=
  let v := if s.has .m && decide (i = 13) then v &&& 0xFFFFFFFC else v
  { s with a32 := { s.a32 with r := vset s.a32.r i v } }

/-- Registers written in the order of a list. -/
def rsetAll (s : State) : List (Nat × Word) → State
  | [] => s
  | (i, v) :: rest => rsetAll (rset s i v) rest

/-- `X[i]` (R22). -/
def xget (s : State) (i : Nat) : DWord := vget s.a64.x i

/-- `X[i] <- v`. -/
def xset (s : State) (i : Nat) (v : DWord) : State := { s with a64 := { s.a64 with x := vset s.a64.x i v } }

/-- The live 32-bit status word replaced; bits 23:22 stay 0 (R26). -/
def withCpsr (s : State) (w : Word) : State := { s with a32 := { s.a32 with cpsr := w &&& cpsrBits } }

/-- R157 `pstate_write(val)`. -/
def pstateWrite (s : State) (w : Word) : State := { s with a64 := { s.a64 with pstate := w &&& pstateBits } }

/-- The microcontroller profile's status word without `IPSR` replaced (R28). -/
def withXpsr (s : State) (w : Word) : State := { s with m := { s.m with xpsr := w &&& xpsrBits } }

/-! ## Bank switch of the 32-bit state -/

/-- Registers `R[8..12]` of a register array. -/
def window (r : Vector Word 16) : Vector Word 5 := #v[vget r 8, vget r 9, vget r 10, vget r 11, vget r 12]

/-- A register array with `R[8..12]` replaced. -/
def withWindow (r : Vector Word 16) (w : Vector Word 5) : Vector Word 16 :=
  vset (vset (vset (vset (vset r 8 (vget w 0)) 9 (vget w 1)) 10 (vget w 2)) 11 (vget w 3)) 12 (vget w 4)

/-- The five-register part of R160: leaving or entering the FIQ-like mode exchanges `R[8..12]`. -/
def switchWindow (a : A32Regs) (old new : BitVec 5) : A32Regs :=
  if old = Mode.fiq.num then { a with fiqR8 := window a.r, r := withWindow a.r a.usrR8 }
  else if new = Mode.fiq.num then { a with usrR8 := window a.r, r := withWindow a.r a.fiqR8 }
  else a

/-- The part of R160 that stores the active `R13`, `SPSR`, `R14` in the bank of mode `m`. -/
def saveBank (a : A32Regs) (m : BitVec 5) : A32Regs :=
  { a with
    bankR13 := vset a.bankR13 (bankOf m) (vget a.r 13)
    bankSpsr := vset a.bankSpsr (bankOf m) a.spsr
    bankR14 := vset a.bankR14 (bank14Of m) (vget a.r 14) }

/-- The part of R160 that loads `R13`, `SPSR`, `R14` from the bank of mode `m`. -/
def loadBank (a : A32Regs) (m : BitVec 5) : A32Regs :=
  { a with
    r := vset (vset a.r 13 (vget a.bankR13 (bankOf m))) 14 (vget a.bankR14 (bank14Of m))
    spsr := vget a.bankSpsr (bankOf m) }

/-- R160 on the register file: the swap of the active bank from mode `old` to mode `new`. -/
def swapBank (a : A32Regs) (old new : BitVec 5) : A32Regs :=
  if new = old then a else loadBank (saveBank (switchWindow a old new) old) new

/-- R160 `switch_mode(new)`; the caller writes `CPSR.M`. -/
def switchMode (s : State) (new : BitVec 5) : State := { s with a32 := swapBank s.a32 (liveMode s) new }

/-! ## Status-word writes -/

/-- Write types of R156. -/
inductive WriteType where
  | raw | byInstr | excReturn
  deriving DecidableEq, Repr, Inhabited

/-- The write type of `f1` of `PSR_WRITE` (R169). -/
def writeTypeOf (f1 : BitVec 8) : Option WriteType :=
  match f1.toNat with
  | 0 => some .raw
  | 1 => some .byInstr
  | 2 => some .excReturn
  | _ => none

/-- R158 `bad_mode_switch(m, wt)`.  A return within the 32-bit state makes these tests and no other (R406), where the summary D33 of
spec/92_eei_decisions.md also names level 1 under `HCR.TGE` (DEDUCED, log entry 50). -/
def badModeSwitch (s : State) (m : BitVec 5) (wt : WriteType) : Bool :=
  if decide (wt = .byInstr) && (inMode s .hyp || decide (m = Mode.hyp.num)) then true
  else
    match modeOf? m with
    | some .usr => false
    | some .hyp => !s.has .el2 || decide (curEl s < 2) || isSecure s
    | some .mon => decide (curEl s < 3)
    | some _ => decide (wt = .byInstr) && inMode s .mon && s.has .el2 && bit s.sys.hcr 27 && !secureBelowEl3 s
    | none => true

/-- The mask of R156 after its first part: what Non-secure state may not change of `A` and `F`; it holds for the write of an
exception return too (log entry 45). -/
def maskAllowed (s : State) (val mask : Word) (wt : WriteType) : Word :=
  if decide (wt ≠ .raw) && !s.has .v8 && s.has .el3 && !s.has .el2 && !isSecure s then
    let changed := (s.a32.cpsr ^^^ val) &&& mask
    let mask := if bit changed 8 && !bit s.sys.scr 5 then setBit mask 8 false else mask
    if bit changed 6 then
      let mask := if !bit s.sys.scr 4 then setBit mask 6 false else mask
      if bit (sctlr s 1) 27 && bit val 6 then setBit mask 6 false else mask
    else mask
  else mask

/-- R156 `cpsr_write(val, mask, wt)`. -/
def cpsrWrite (s : State) (val mask : Word) (wt : WriteType) : State :=
  let mask := maskAllowed s val mask wt
  if decide (wt ≠ .raw) && decide (((s.a32.cpsr ^^^ val) &&& mask) &&& 0x1F ≠ 0) then
    if inMode s .usr then withCpsr s (merge s.a32.cpsr val (mask &&& ~~~ 0x1F))
    else if badModeSwitch s (modeField val) wt then
      if s.has .v8 then
        withCpsr s (merge s.a32.cpsr (setBit val ilPos true) (setBit (mask &&& ~~~ 0x1F) ilPos true))
      else withCpsr s (merge s.a32.cpsr val (mask &&& ~~~ 0x1F))
    else withCpsr (switchMode s (modeField val)) (merge s.a32.cpsr val mask)
  else withCpsr s (merge s.a32.cpsr val mask)

/-! ## Stack-pointer banks of the 64-bit state -/

/-- The slot of `SP_EL` that `X[31]` mirrors at level `el` (R22). -/
def spSlot (s : State) (el : Nat) : Nat := if spField s.a64.pstate then el else 0

/-- R161 `save_sp(el)`. -/
def saveSp (s : State) (el : Nat) : State :=
  { s with a64 := { s.a64 with spEl := vset s.a64.spEl (spSlot s el) (xget s 31) } }

/-- R161 `restore_sp(el)`. -/
def restoreSp (s : State) (el : Nat) : State := xset s 31 (vget s.a64.spEl (spSlot s el))

/-- R162: the stack-select write. -/
def selectSp (s : State) (v : Bool) : State :=
  let s := saveSp s (curEl s)
  let s := pstateWrite s (setBit s.a64.pstate 0 v)
  restoreSp s (curEl s)

/-- R22: the saved-status bank of a level of the 64-bit state. -/
def spsrBankOfEl (el : Nat) : Nat :=
  match el with
  | 2 => 6
  | 3 => 7
  | _ => 1

/-! ## 32/64 mapping -/

/-- R163, the first part of `sync_32_to_64`: the active 32-bit bank saved as `switch_mode` would. -/
def saveActive (a : A32Regs) (m : BitVec 5) : A32Regs :=
  let a := if m = Mode.fiq.num then { a with fiqR8 := window a.r } else { a with usrR8 := window a.r }
  saveBank a m

/-- R163: what `X[0..30]` receive, in order, from a 32-bit register file whose active bank has been saved. -/
def mapped (a : A32Regs) : List Word :=
  [vget a.r 0, vget a.r 1, vget a.r 2, vget a.r 3, vget a.r 4, vget a.r 5, vget a.r 6, vget a.r 7,
   vget a.usrR8 0, vget a.usrR8 1, vget a.usrR8 2, vget a.usrR8 3, vget a.usrR8 4,
   vget a.bankR13 0, vget a.bankR14 0, vget a.bankR13 6,
   vget a.bankR14 4, vget a.bankR13 4, vget a.bankR14 1, vget a.bankR13 1, vget a.bankR14 2, vget a.bankR13 2,
   vget a.bankR14 3, vget a.bankR13 3,
   vget a.fiqR8 0, vget a.fiqR8 1, vget a.fiqR8 2, vget a.fiqR8 3, vget a.fiqR8 4,
   vget a.bankR13 5, vget a.bankR14 5]

/-- Elements written from index `i` on. -/
def vsetFrom {n : Nat} (x : Vector DWord n) (i : Nat) : List Word → Vector DWord n
  | [] => x
  | w :: ws => vsetFrom (vset x i (zext w)) (i + 1) ws

/-- R163 `sync_32_to_64`. -/
def sync32To64 (s : State) : State :=
  { s with
    a32 := saveActive s.a32 (liveMode s)
    a64 := { s.a64 with
      x := vsetFrom s.a64.x 0 (mapped (saveActive s.a32 (liveMode s)))
      pc := zext (rget s 15) } }

/-- The low half of `X[n]` (R163). -/
def xlo (s : State) (n : Nat) : Word := lo32 (xget s n)

/-- R163, the first part of `sync_64_to_32`: the low halves of `X[0..30]` written back to the same places. -/
def unmapped (s : State) : A32Regs :=
  { s.a32 with
    r := vset (vset (vset (vset (vset (vset (vset (vset s.a32.r 0 (xlo s 0)) 1 (xlo s 1)) 2 (xlo s 2)) 3 (xlo s 3))
           4 (xlo s 4)) 5 (xlo s 5)) 6 (xlo s 6)) 7 (xlo s 7)
    usrR8 := #v[xlo s 8, xlo s 9, xlo s 10, xlo s 11, xlo s 12]
    fiqR8 := #v[xlo s 24, xlo s 25, xlo s 26, xlo s 27, xlo s 28]
    bankR13 := #v[xlo s 13, xlo s 19, xlo s 21, xlo s 23, xlo s 17, xlo s 29, xlo s 15, vget s.a32.bankR13 7]
    bankR14 := #v[xlo s 14, xlo s 18, xlo s 20, xlo s 22, xlo s 16, xlo s 30, vget s.a32.bankR14 6,
                  vget s.a32.bankR14 7] }

/-- R163, the second part of `sync_64_to_32`: the active bank loaded for mode `m`, and the program counter. -/
def reloaded (a : A32Regs) (m : BitVec 5) (pc : Word) : A32Regs :=
  let a := loadBank { a with r := withWindow a.r (if m = Mode.fiq.num then a.fiqR8 else a.usrR8) } m
  { a with r := vset a.r 15 pc }

/-- R163 `sync_64_to_32`, after `CPSR.M` has its new value. -/
def sync64To32 (s : State) : State := { s with a32 := reloaded (unmapped s) (liveMode s) (lo32 s.a64.pc) }

/-! ## Stack switch of the microcontroller profile -/

/-- R23: whether the process stack is in use. -/
def usesPsp (s : State) : Bool := decide (s.m.exception = 0) && bit (s.m.control.get s.m.secure) 1

/-- A stack-pointer slot `M_SP[s][p]` (R23). -/
def spGet (m : MRegs) (secure process : Bool) : Word :=
  if process then m.processSp.get secure else m.mainSp.get secure

/-- A stack-pointer slot written; bits 1:0 ignore writes (R23). -/
def spSet (m : MRegs) (secure process : Bool) (v : Word) : MRegs :=
  let v := v &&& 0xFFFFFFFC
  if process then { m with processSp := m.processSp.set secure v } else { m with mainSp := m.mainSp.set secure v }

/-- Whether a slot is the active one (R23). -/
def slotActive (s : State) (secure process : Bool) : Bool :=
  decide (s.m.secure = secure) && decide (usesPsp s = process)

/-- The stack pointer of a slot: `R[13]` if it is the active one (R23, R62, R453). -/
def stackOf (s : State) (secure process : Bool) : Word :=
  if slotActive s secure process then rget s 13 else spGet s.m secure process

/-- The stack pointer of a slot written. -/
def setStackOf (s : State) (secure process : Bool) (v : Word) : State :=
  if slotActive s secure process then rset s 13 v else { s with m := spSet s.m secure process v }

/-- R164: a change `f` of `M_EXCEPTION`, `CONTROL.SPSEL` or `M_SECURE`, with the active stack moved if the slot
changes. -/
def withStackSwitch (s : State) (f : MRegs → MRegs) : State :=
  let m := f s.m
  let s' := { s with m := m }
  if decide (s'.m.secure = s.m.secure) && decide (usesPsp s' = usesPsp s) then s'
  else
    let m := spSet m s.m.secure (usesPsp s) (rget s 13)
    rset { s with m := m } 13 (spGet m s'.m.secure (usesPsp s'))

/-- R165 `m_switch_security(s)`; `M_SECURE` is always 0 without `F_M_SECURITY` (R30). -/
def mSwitchSecurity (s : State) (secure : Bool) : State :=
  withStackSwitch s fun m => { m with secure := secure && s.has .mSecurity }

/-- `M_EXCEPTION <- n` (R164). -/
def setException (s : State) (n : BitVec 9) : State := withStackSwitch s fun m => { m with exception := n }

/-- A write of `CONTROL[k]` (R62, R164). -/
def setControl (s : State) (secure : Bool) (v : BitVec 4) : State :=
  withStackSwitch s fun m => { m with control := m.control.set secure v }

end Sys2Proof.Machine
end

