-- ==== Sys2Proof/Machine/Storage.lean ====
section
/-! DEFINITION. Storage of registry entries (spec/41_control_registers.md rule R193; the storage columns of
spec/10_state.md rules R41 to R62). -/

namespace Sys2Proof.Machine

/-- A number of the catalog storage; 0 where not listed. -/
def catalogGet : List (Nat × DWord) → Nat → DWord
  | [], _ => 0
  | (k, v) :: rest, n => if n = k then v else catalogGet rest n

/-- A number of the catalog storage written; numbers stay in ascending order. -/
def catalogSet : List (Nat × DWord) → Nat → DWord → List (Nat × DWord)
  | [], n, v => [(n, v)]
  | (k, x) :: rest, n, v =>
    if n < k then (n, v) :: (k, x) :: rest
    else if n = k then (n, v) :: rest
    else (k, x) :: catalogSet rest n v

/-- `CFSR[k]`: the banked bits and the one shared copy of bits 15:8 (R60). -/
def cfsrGet (s : State) (secure : Bool) : Word :=
  (s.msys.cfsr.get secure &&& 0xFFFF00FF) ||| (s.msys.bfsr.setWidth 32 <<< 8)

/-- `CFSR[k]` written (R60). -/
def cfsrSet (s : State) (secure : Bool) (v : Word) : State :=
  { s with msys := { s.msys with
      cfsr := s.msys.cfsr.set secure (v &&& 0xFFFF00FF), bfsr := v.extractLsb' 8 8 } }

/-- A vector register with its low half replaced. -/
def vecWithLo (v : BitVec 128) (d : DWord) : BitVec 128 := v.extractLsb' 64 64 ++ d

/-- A vector register with its high half replaced. -/
def vecWithHi (v : BitVec 128) (d : DWord) : BitVec 128 := d ++ v.extractLsb' 0 64

/-- The number of a phase as a storage field, in the order R35 lists them (log entry 9). -/
def phaseNum : Phase → DWord
  | .none => 0
  | .pending => 1
  | .taking => 2
  | .active => 3
  | .returning => 4

/-- `PHASE` as a storage field written: a number that names no phase seen between operations (R35, R472) leaves it. -/
def phaseSet (old : Phase) (v : DWord) : Phase :=
  if v = 0 then .none else if v = 1 then .pending else if v = 3 then .active else old

/-- The content of a storage field, zero-extended; half-views give their half (R193). -/
def fieldGet (s : State) : FieldId → DWord
  | .none => 0
  | .gpr i => zext (rget s i)
  | .bankR13 b => zext (vget s.a32.bankR13 b)
  | .bankR14 b => zext (vget s.a32.bankR14 b)
  | .bankSpsr b => vget s.a32.bankSpsr b
  | .usrR8 i => zext (vget s.a32.usrR8 i)
  | .fiqR8 i => zext (vget s.a32.fiqR8 i)
  | .spsr => s.a32.spsr
  | .xreg i => xget s i
  | .pc64 => s.a64.pc
  | .spEl i => vget s.a64.spEl i
  | .elrEl l => s.a64.elrEl.get l
  | .vLo i => (vget s.fp.v i).extractLsb' 0 64
  | .vHi i => (vget s.fp.v i).extractLsb' 64 64
  | .fpscr => zext s.fp.fpscr
  | .fpexc => zext s.fp.fpexc
  | .exclAddr => s.exclAddr
  | .exclVal => s.exclVal
  | .msp k p => zext (spGet s.m k p)
  | .control k => (s.m.control.get k).setWidth 64
  | .primask k => (s.m.primask.get k).setWidth 64
  | .faultmask k => (s.m.faultmask.get k).setWidth 64
  | .basepri k => (s.m.basepri.get k).setWidth 64
  | .sctlr l => s.sys.sctlr.get l
  | .ttbr0 l => s.sys.ttbr0.get l
  | .ttbr1 k => s.sys.ttbr1.get k
  | .vttbr => s.sys.vttbr
  | .tcr l => s.sys.tcr.get l
  | .vtcr => zext s.sys.vtcr
  | .dacr k => zext (s.sys.dacr.get k)
  | .mair l => s.sys.mair.get l
  | .mairHi l => zext (hi32 (s.sys.mair.get l))
  | .hcr => s.sys.hcr
  | .hcrHi => zext (hi32 s.sys.hcr)
  | .scr => zext s.sys.scr
  | .vbar l => s.sys.vbar.get l
  | .mvbar => zext s.sys.mvbar
  | .esr l => s.sys.esr.get l
  | .ifsr k => zext (s.sys.ifsr.get k)
  | .far l => s.sys.far.get l
  | .farHi l => zext (hi32 (s.sys.far.get l))
  | .hpfar => s.sys.hpfar
  | .cpacr => zext s.sys.cpacr
  | .cptr2 => zext s.sys.cptr2
  | .cptr3 => zext s.sys.cptr3
  | .mdscr => zext s.sys.mdscr
  | .mdcr => zext s.sys.mdcr
  | .mpuRnr k => (s.regions.mpuRnr.get k).setWidth 64
  | .mpuCtrl k => (s.regions.mpuCtrl.get k).setWidth 64
  | .mpuMair0 k => zext (s.regions.mpuMair0.get k)
  | .mpuMair1 k => zext (s.regions.mpuMair1.get k)
  | .sauCtrl => s.regions.sauCtrl.setWidth 64
  | .sauRnr => s.regions.sauRnr.setWidth 64
  | .sfsr => s.msys.sfsr.setWidth 64
  | .sfar => zext s.msys.sfar
  | .cfsr k => zext (cfsrGet s k)
  | .hfsr => zext s.msys.hfsr
  | .dfsr => zext s.msys.dfsr
  | .mmfar k => zext (s.msys.mmfar.get k)
  | .bfar => zext s.msys.bfar
  | .vtor k => zext (s.msys.vtor.get k)
  | .aircr => zext s.msys.aircr
  | .ccr k => zext (s.msys.ccr.get k)
  | .cpsr => zext s.a32.cpsr
  | .pstate => zext s.a64.pstate
  | .xpsr => zext s.m.xpsr
  | .mException => s.m.exception.setWidth 64
  | .mSecure => flag64 s.m.secure
  | .aarch64 => flag64 s.aarch64
  | .locked => flag64 s.locked
  | .phase => phaseNum s.exc.phase
  | .excIndex => s.exc.index.setWidth 64
  | .excSyndrome => zext s.exc.syndrome
  | .excFsr => zext s.exc.fsr
  | .excVaddress => s.exc.vaddress
  | .excTargetEl => s.exc.targetEl.setWidth 64
  | .excMSecure => flag64 s.exc.mSecure
  | .excMNumber => s.exc.mNumber.setWidth 64
  | .excMDerived => flag64 s.exc.mDerived
  | .excMLr => zext s.exc.mLr
  | .excIpa => s.exc.ipa
  | .excFr => s.exc.fr.setWidth 64
  | .rgnr => zext s.regions.rgnr
  | .mpuRbarAt k n => zext (tget (s.regions.rbar.get k) n)
  | .mpuRsrAt k n => zext (tget (s.regions.rsr.get k) n)
  | .mpuRacrAt k n => zext (tget (s.regions.racr.get k) n)
  | .mpuRlarAt k n => zext (tget (s.regions.rlar.get k) n)
  | .sauRbarAt n => zext (tget s.regions.sauRbar n)
  | .sauRlarAt n => zext (tget s.regions.sauRlar n)
  | .catalog n => catalogGet s.catalog n

/-- The exception record with one change. -/
def withExc (s : State) (f : ExcState → ExcState) : State := { s with exc := f s.exc }

/-- The region tables and registers with one change. -/
def withRegions (s : State) (f : Regions → Regions) : State := { s with regions := f s.regions }

/-- The bits a region base holds: in the older unit of the microcontroller profile "the base stored is `value & ~0x1F`"
(R58). -/
def baseBits (s : State) : Word := if s.has .m && !s.has .v8 then ~~~ 0x1F else 0xFFFFFFFF

/-- A storage field written with the low bits of `v`, as many as it holds; bits the field's table says read as 0 are
written as 0, and a half-view leaves the other half untouched (R193).  A status word is written as plain storage, so no
bank of the general profile is switched; `M_EXCEPTION` and `M_SECURE` move the active stack as any write of them does
(R164).  `AARCH64`, `M_SECURE` and `LOCKED` stay 0 where R30 and R490 say they are always 0. -/
def fieldSet (s : State) (f : FieldId) (v : DWord) : State :=
  match f with
  | .none => s
  | .gpr i => rset s i (lo32 v)
  | .bankR13 b => { s with a32 := { s.a32 with bankR13 := vset s.a32.bankR13 b (lo32 v) } }
  | .bankR14 b => { s with a32 := { s.a32 with bankR14 := vset s.a32.bankR14 b (lo32 v) } }
  | .bankSpsr b => { s with a32 := { s.a32 with bankSpsr := vset s.a32.bankSpsr b v } }
  | .usrR8 i => { s with a32 := { s.a32 with usrR8 := vset s.a32.usrR8 i (lo32 v) } }
  | .fiqR8 i => { s with a32 := { s.a32 with fiqR8 := vset s.a32.fiqR8 i (lo32 v) } }
  | .spsr => { s with a32 := { s.a32 with spsr := v } }
  | .xreg i => xset s i v
  | .pc64 => { s with a64 := { s.a64 with pc := v } }
  | .spEl i => { s with a64 := { s.a64 with spEl := vset s.a64.spEl i v } }
  | .elrEl l => { s with a64 := { s.a64 with elrEl := s.a64.elrEl.set l v } }
  | .vLo i => { s with fp := { s.fp with v := vset s.fp.v i (vecWithLo (vget s.fp.v i) v) } }
  | .vHi i => { s with fp := { s.fp with v := vset s.fp.v i (vecWithHi (vget s.fp.v i) v) } }
  | .fpscr => { s with fp := { s.fp with fpscr := lo32 v } }
  | .fpexc => { s with fp := { s.fp with fpexc := lo32 v } }
  | .exclAddr => { s with exclAddr := v }
  | .exclVal => { s with exclVal := v }
  | .msp k p => { s with m := spSet s.m k p (lo32 v) }
  | .control k => setControl s k (v.extractLsb' 0 4)
  | .primask k => { s with m := { s.m with primask := s.m.primask.set k (v.extractLsb' 0 1) } }
  | .faultmask k => { s with m := { s.m with faultmask := s.m.faultmask.set k (v.extractLsb' 0 1) } }
  | .basepri k => { s with m := { s.m with basepri := s.m.basepri.set k (v.extractLsb' 0 8) } }
  | .sctlr l => { s with sys := { s.sys with sctlr := s.sys.sctlr.set l (zext (lo32 v)) } }
  | .ttbr0 l => { s with sys := { s.sys with ttbr0 := s.sys.ttbr0.set l v } }
  | .ttbr1 k => { s with sys := { s.sys with ttbr1 := s.sys.ttbr1.set k v } }
  | .vttbr => { s with sys := { s.sys with vttbr := v } }
  | .tcr l => { s with sys := { s.sys with tcr := s.sys.tcr.set l v } }
  | .vtcr => { s with sys := { s.sys with vtcr := lo32 v } }
  | .dacr k => { s with sys := { s.sys with dacr := s.sys.dacr.set k (lo32 v) } }
  | .mair l => { s with sys := { s.sys with mair := s.sys.mair.set l v } }
  | .mairHi l => { s with sys := { s.sys with mair := s.sys.mair.set l (withHi (s.sys.mair.get l) (lo32 v)) } }
  | .hcr => { s with sys := { s.sys with hcr := v } }
  | .hcrHi => { s with sys := { s.sys with hcr := withHi s.sys.hcr (lo32 v) } }
  | .scr => { s with sys := { s.sys with scr := lo32 v } }
  | .vbar l => { s with sys := { s.sys with vbar := s.sys.vbar.set l v } }
  | .mvbar => { s with sys := { s.sys with mvbar := lo32 v } }
  | .esr l => { s with sys := { s.sys with esr := s.sys.esr.set l (zext (lo32 v)) } }
  | .ifsr k => { s with sys := { s.sys with ifsr := s.sys.ifsr.set k (lo32 v) } }
  | .far l => { s with sys := { s.sys with far := s.sys.far.set l v } }
  | .farHi l => { s with sys := { s.sys with far := s.sys.far.set l (withHi (s.sys.far.get l) (lo32 v)) } }
  | .hpfar => { s with sys := { s.sys with hpfar := v } }
  | .cpacr => { s with sys := { s.sys with cpacr := lo32 v } }
  | .cptr2 => { s with sys := { s.sys with cptr2 := lo32 v } }
  | .cptr3 => { s with sys := { s.sys with cptr3 := lo32 v } }
  | .mdscr => { s with sys := { s.sys with mdscr := lo32 v } }
  | .mdcr => { s with sys := { s.sys with mdcr := lo32 v } }
  | .mpuRnr k => { s with regions := { s.regions with mpuRnr := s.regions.mpuRnr.set k (v.extractLsb' 0 8) } }
  | .mpuCtrl k => { s with regions := { s.regions with mpuCtrl := s.regions.mpuCtrl.set k (v.extractLsb' 0 3) } }
  | .mpuMair0 k => { s with regions := { s.regions with mpuMair0 := s.regions.mpuMair0.set k (lo32 v) } }
  | .mpuMair1 k => { s with regions := { s.regions with mpuMair1 := s.regions.mpuMair1.set k (lo32 v) } }
  | .sauCtrl => { s with regions := { s.regions with sauCtrl := v.extractLsb' 0 2 } }
  | .sauRnr => { s with regions := { s.regions with sauRnr := v.extractLsb' 0 8 } }
  | .sfsr => { s with msys := { s.msys with sfsr := v.extractLsb' 0 8 } }
  | .sfar => { s with msys := { s.msys with sfar := lo32 v } }
  | .cfsr k => cfsrSet s k (lo32 v)
  | .hfsr => { s with msys := { s.msys with hfsr := lo32 v } }
  | .dfsr => { s with msys := { s.msys with dfsr := lo32 v } }
  | .mmfar k => { s with msys := { s.msys with mmfar := s.msys.mmfar.set k (lo32 v) } }
  | .bfar => { s with msys := { s.msys with bfar := lo32 v } }
  | .vtor k => { s with msys := { s.msys with vtor := s.msys.vtor.set k (lo32 v &&& 0xFFFFFF80) } }
  | .aircr => { s with msys := { s.msys with aircr := lo32 v &&& 0x6000 } }
  | .ccr k => { s with msys := { s.msys with ccr := s.msys.ccr.set k (lo32 v) } }
  | .cpsr => withCpsr s (lo32 v)
  | .pstate => pstateWrite s (lo32 v)
  | .xpsr => withXpsr s (lo32 v)
  | .mException => setException s (v.extractLsb' 0 9)
  | .mSecure => mSwitchSecurity s (bit v 0)
  | .aarch64 => { s with aarch64 := bit v 0 && s.has .aarch64 }
  | .locked => { s with locked := bit v 0 && s.has .m }
  | .phase => withExc s fun x => { x with phase := phaseSet x.phase v }
  | .excIndex => withExc s fun x => { x with index := v.extractLsb' 0 8 }
  | .excSyndrome => withExc s fun x => { x with syndrome := lo32 v }
  | .excFsr => withExc s fun x => { x with fsr := lo32 v }
  | .excVaddress => withExc s fun x => { x with vaddress := v }
  | .excTargetEl => withExc s fun x => { x with targetEl := v.extractLsb' 0 2 }
  | .excMSecure => withExc s fun x => { x with mSecure := bit v 0 }
  | .excMNumber => withExc s fun x => { x with mNumber := v.extractLsb' 0 9 }
  | .excMDerived => withExc s fun x => { x with mDerived := bit v 0 }
  | .excMLr => withExc s fun x => { x with mLr := lo32 v }
  | .excIpa => withExc s fun x => { x with ipa := v }
  | .excFr => withExc s fun x => { x with fr := v.extractLsb' 0 16 }
  | .rgnr => withRegions s fun r => { r with rgnr := lo32 v }
  | .mpuRbarAt k n =>
    withRegions s fun r => { r with rbar := r.rbar.set k (tset (r.rbar.get k) n (lo32 v &&& baseBits s)) }
  | .mpuRsrAt k n => withRegions s fun r => { r with rsr := r.rsr.set k (tset (r.rsr.get k) n (lo32 v)) }
  | .mpuRacrAt k n => withRegions s fun r => { r with racr := r.racr.set k (tset (r.racr.get k) n (lo32 v)) }
  | .mpuRlarAt k n => withRegions s fun r => { r with rlar := r.rlar.set k (tset (r.rlar.get k) n (lo32 v)) }
  | .sauRbarAt n => withRegions s fun r => { r with sauRbar := tset r.sauRbar n (lo32 v &&& ~~~ 0x1F) }
  | .sauRlarAt n => withRegions s fun r => { r with sauRlar := tset r.sauRlar n (lo32 v &&& ~~~ 0x1C) }
  | .catalog n => { s with catalog := catalogSet s.catalog n v }

/-- Whether an entry is a 32-bit view of its field (R193). -/
def is32View (e : Entry) : Bool := !isSys64Key e.key && !(isCp32Key e.key && entryIs e tWide64)

/-- The low bits that a vector-base view does not show: 5 for a 32-bit view, 11 for a 64-bit view (R49, R193). -/
def hiddenBits (e : Entry) : DWord :=
  match e.field with
  | .vbar _ | .mvbar => if is32View e then 0x1F else 0x7FF
  | _ => 0

/-- The register an entry shows is a 32-bit one: its encoding is 32 bits wide, or its storage is (`VTCR_EL2`, `SCR_EL3`: R44,
R48). -/
def is32Reg (e : Entry) : Bool := is32View e || (fieldWidth e.field).any (· ≤ 32)

/-- R111: the operand of a write through an entry: where it is "a 32-bit register value", bits 31:0, the rest ignored. -/
def operand (e : Entry) (v : DWord) : DWord := if is32Reg e then zext (lo32 v) else v

/-- FREE VALUE: what an entry reads where the rules state no value, zero-extended from 32 bits for a 32-bit view (R111; log
entry 4). -/
def freeRead (e : Entry) : DWord := operand e (Config.unreadable e.key.toNat)

/-- `field_read(e)` of R193; an entry without storage gives a free value (log entry 4). -/
def entryRead (s : State) (e : Entry) : DWord :=
  if e.field = .none then freeRead e
  else
    let v := fieldGet s e.field &&& ~~~ hiddenBits e
    if is32View e then zext (lo32 v) else v

/-- `AIRCR` is writable from Secure state only: a write through the Non-secure view is ignored (R61, R197). -/
def writeMasked (e : Entry) : Bool := decide (e.field = .aircr) && isMKey e.key && !bit e.key 27

/-- What `field_write` stores: a 32-bit view of a 64-bit field keeps bits 63:32 (R193); the bits the view does not show
are `low`. -/
def written (s : State) (e : Entry) (v low : DWord) : DWord :=
  let v := merge v low (hiddenBits e)
  if is32View e && decide (fieldWidth e.field = some 64) then withLo (fieldGet s e.field) (lo32 v) else v

/-- `field_write(e, v)` of R193: a write to the bits the view does not show is ignored (R49; log entry 26). -/
def entryWrite (s : State) (e : Entry) (v : DWord) : State :=
  if writeMasked e then s else fieldSet s e.field (written s e v (fieldGet s e.field))

/-- R42, R192: a `CR_WRITE` through a 32-bit `TTBR0` or `TTBR1` entry clears bits 63:32. -/
def clearsHigh (e : Entry) : Bool :=
  is32View e && (match e.field with | .ttbr0 _ | .ttbr1 _ => true | _ => false)

/-- `field_write(e, v)` as `CR_WRITE` does it (R192): the bits a vector-base view does not show are written as 0
(R49; log entry 26). -/
def entryStore (s : State) (e : Entry) (v : DWord) : State :=
  if clearsHigh e then fieldSet s e.field (zext (lo32 v))
  else if writeMasked e then s
  else fieldSet s e.field (written s e v 0)

/-- `storage(e) <- v` of R205: the full width of the field. -/
def storageSet (s : State) (e : Entry) (v : DWord) : State := fieldSet s e.field v

end Sys2Proof.Machine
end

