-- ==== Sys2Proof/Machine/Hooks.lean ====
section
/-! DEFINITION. Hooks: the built-in behaviours (spec/41_control_registers.md rules R187, R194) and the catalog's, which are
the parameter `HOOKS` (R186) and so free functions here. -/

namespace Sys2Proof.Machine

/-- Access-check results (R121). -/
inductive AccessResult where
  | ok | trap | trapUncategorized | trapEl2 | trapEl3 | trapUncategorizedEl2 | trapUncategorizedEl3
  deriving DecidableEq, Repr, Inhabited

/-- The code of R121. -/
def AccessResult.code : AccessResult → DWord
  | .ok => 0 | .trap => 1 | .trapUncategorized => 2 | .trapEl2 => 3 | .trapEl3 => 4 | .trapUncategorizedEl2 => 5
  | .trapUncategorizedEl3 => 6

end Sys2Proof.Machine

namespace Sys2Proof.Config

open Sys2Proof.Machine

/-- FREE VALUE (R186): `read` of the catalog hook with an id.  Log entry 5. -/
opaque hookRead : Nat → State → Entry → DWord

/-- FREE VALUE (R186): `write` of the catalog hook with an id; the truth value is the pulse.  Log entry 5. -/
opaque hookWrite : Nat → State → Entry → DWord → State × Bool

/-- FREE VALUE (R186): `access` of the catalog hook with an id; the truth value says that the access is a read.  Log
entry 5. -/
opaque hookAccess : Nat → State → Entry → Bool → AccessResult

/-- FREE VALUE (R186): `reset` of the catalog hook with an id.  Log entry 5. -/
opaque hookReset : Nat → State → Entry → State

/-- FREE VALUE (R186): `raw_read` of the catalog hook with an id.  Log entry 5. -/
opaque hookRawRead : Nat → State → Entry → DWord

/-- FREE VALUE (R186): `raw_write` of the catalog hook with an id.  Log entry 5. -/
opaque hookRawWrite : Nat → State → Entry → DWord → State

end Sys2Proof.Config

namespace Sys2Proof.Machine

/-- What a catalog hook may not touch (R186: any state field, and nothing else): the parameters, the registry, the MEM
port and the model's own fields are kept from `s`. -/
def splice (s t : State) : State :=
  { t with
    params := s.params, reg := s.reg, constructing := s.constructing, bus := s.bus, draws := s.draws, ports := s.ports }

/-! ## Region views -/

/-- The security bank of an `MSYS` or `MSPEC` key (R117). -/
def keySecure (k : Word) : Bool := bit k 27

/-- A 32-bit-encoding key without its bank bit (R116). -/
def unbankedKey (k : Word) : Word := k &&& ~~~ 0x20000000

/-- The offset of an `MSYS` key (R117). -/
def msysOffset (k : Word) : Nat := field k 0 12

/-- The registers that are views of the region a region-number register selects (R56, R58, R59). -/
inductive RegionReg where
  | drbar | drsr | dracr
  | mpuRbar (secure : Bool) | mpuSecond (secure : Bool)
  | sauRbar | sauRlar
  | other
  deriving DecidableEq, Repr, Inhabited

/-- The region view at a key: those of R58 and R59 on the microcontroller profile (`m`), those of R56 on the general one.  At any
other key R187 names no table for `H_REGION_VIEW`: without storage such an entry reads as a free value, and a write stores
nothing and pulses TLBINV like any other write of a view (DESIGN CHOICE, log entry 10). -/
def regionRegOf (m : Bool) (k : Word) : RegionReg :=
  if m then
    if isMsysKey k then
      (match msysOffset k with
       | 0xD9C => .mpuRbar (keySecure k)
       | 0xDA0 => .mpuSecond (keySecure k)
       | 0xDDC => .sauRbar
       | 0xDE0 => .sauRlar
       | _ => .other)
    else .other
  else if unbankedKey k = keyCp32 15 6 0 1 0 0 then .drbar
  else if unbankedKey k = keyCp32 15 6 0 1 2 0 then .drsr
  else if unbankedKey k = keyCp32 15 6 0 1 4 0 then .dracr
  else .other

/-- The region that `MPU_RNR[k]` selects. -/
def mpuSelected (s : State) (secure : Bool) : Nat := (s.regions.mpuRnr.get secure).toNat

/-- The region that `RGNR` selects (R56). -/
def rgnrSelected (s : State) : Nat := s.regions.rgnr.toNat

/-- The region that `SAU_RNR` selects. -/
def sauSelected (s : State) : Nat := s.regions.sauRnr.toNat

/-- The entry of a table at the selected number; `none` if the number names no region. -/
def selected (t : List Word) (n : Nat) : Option Word := if n < t.length then some (tget t n) else none

/-- `MPU_RASR` (R58): `MPU_RSR` in bits 15:0, `MPU_RACR` in bits 31:16. -/
def rasrOf (rsr racr : Word) : Word := (rsr &&& 0xFFFF) ||| (racr <<< 16)

/-- What a region view selects of the tables (R56, R58, R59); `none` if its region number names no region. -/
def regionGet (s : State) (r : RegionReg) : Option Word :=
  match r with
  | .drbar => selected s.regions.rbar.ns (rgnrSelected s)
  | .drsr => selected s.regions.rsr.ns (rgnrSelected s)
  | .dracr => selected s.regions.racr.ns (rgnrSelected s)
  | .mpuRbar b => selected (s.regions.rbar.get b) (mpuSelected s b)
  | .mpuSecond b =>
    if s.has .v8 then selected (s.regions.rlar.get b) (mpuSelected s b)
    else
      match selected (s.regions.rsr.get b) (mpuSelected s b), selected (s.regions.racr.get b) (mpuSelected s b) with
      | some rsr, some racr => some (rasrOf rsr racr)
      | _, _ => none
  | .sauRbar => selected s.regions.sauRbar (sauSelected s)
  | .sauRlar => selected s.regions.sauRlar (sauSelected s)
  | .other => none

/-- What a region view reads of the word it selects: the older `MPU_RBAR` shows `BASE | RNR[3:0]` (R58), the attribution
unit's registers read 0 in their reserved bits (R59). -/
def regionShape (s : State) (r : RegionReg) (w : Word) : Word :=
  match r with
  | .mpuRbar b => if s.has .v8 then w else (w &&& ~~~ 0x1F) ||| BitVec.ofNat 32 (mpuSelected s b % 16)
  | .sauRbar => w &&& ~~~ 0x1F
  | .sauRlar => w &&& ~~~ 0x1C
  | _ => w

/-- A region view read.  Where its number names no region the word selected is a free value, of which the view shows the
bits it would show of any other (log entry 4); at a key that is no region register's it is a free value (log entry 10). -/
def regionRead (s : State) (e : Entry) : DWord :=
  match regionRegOf (s.has .m) e.key with
  | .other => freeRead e
  | r => zext (regionShape s r ((regionGet s r).getD (lo32 (freeRead e))))

/-- `MPU_RNR[k] <- n` when `n` names a region (R58). -/
def selectRegion (s : State) (secure : Bool) (n : Nat) : State :=
  if n < s.params.mpuNregion then
    { s with regions := { s.regions with mpuRnr := s.regions.mpuRnr.set secure (BitVec.ofNat 8 n) } }
  else s

/-- The older variant's `MPU_RBAR` write (R58). -/
def writeOlderRbar (s : State) (secure : Bool) (v : Word) : State :=
  let s := if bit v 4 then selectRegion s secure (field v 0 4) else s
  let t := tset (s.regions.rbar.get secure) (mpuSelected s secure) (v &&& ~~~ 0x1F)
  { s with regions := { s.regions with rbar := s.regions.rbar.set secure t } }

/-- Bits 15:0 of an entry of a table replaced. -/
def tsetLow (t : List Word) (n : Nat) (v : Word) : List Word := tset t n (merge (tget t n) v 0xFFFF)

/-- The older variant's `MPU_RASR` write (R58): bits 15:0 of both words, the others kept. -/
def writeRasr (s : State) (secure : Bool) (v : Word) : State :=
  let r := s.regions
  let n := mpuSelected s secure
  { s with regions := { r with
      rsr := r.rsr.set secure (tsetLow (r.rsr.get secure) n v)
      racr := r.racr.set secure (tsetLow (r.racr.get secure) n (v >>> 16)) } }

/-- R56, R58, R59: a region view written; a number that names no region stores nothing (log entry 4), and neither does a key that
is no region register's (log entry 10). -/
def regionWrite (s : State) (k : Word) (v : Word) : State :=
  let r := s.regions
  match regionRegOf (s.has .m) k with
  | .drbar => { s with regions := { r with rbar := r.rbar.set false (tset r.rbar.ns (rgnrSelected s) v) } }
  | .drsr => { s with regions := { r with rsr := r.rsr.set false (tset r.rsr.ns (rgnrSelected s) v) } }
  | .dracr => { s with regions := { r with racr := r.racr.set false (tset r.racr.ns (rgnrSelected s) v) } }
  | .mpuRbar b =>
    if s.has .v8 then
      { s with regions := { r with rbar := r.rbar.set b (tset (r.rbar.get b) (mpuSelected s b) v) } }
    else writeOlderRbar s b v
  | .mpuSecond b =>
    if s.has .v8 then
      { s with regions := { r with rlar := r.rlar.set b (tset (r.rlar.get b) (mpuSelected s b) v) } }
    else writeRasr s b v
  | .sauRbar => { s with regions := { r with sauRbar := tset r.sauRbar (sauSelected s) (v &&& ~~~ 0x1F) } }
  | .sauRlar => { s with regions := { r with sauRlar := tset r.sauRlar (sauSelected s) (v &&& ~~~ 0x1C) } }
  | .other => s

/-- The table length that bounds a region-number register (R187 `H_IGNORE_OUT_OF_RANGE`).  For a field that is no
region-number register the rule names no table, and the model takes `MPU_NREGION` (DESIGN CHOICE, log entry 10). -/
def numberLimit (s : State) (f : FieldId) : Nat :=
  match f with
  | .sauRnr => s.params.sauNregion
  | _ => s.params.mpuNregion

/-! ## Special registers of the microcontroller profile -/

/-- R62: what `H_M_SPECIAL` reads. -/
def specialRead (s : State) (e : Entry) : DWord :=
  match e.field with
  | .control _ => entryRead s e
  | .msp k p => if mPriv s then zext (stackOf s k p) else 0
  | _ => if mPriv s then entryRead s e else 0

/-- R62: what `H_M_SPECIAL` writes; an unprivileged write is ignored.  On a field that is none of R62's registers it is the plain
storage behind the same check (DESIGN CHOICE, log entry 10). -/
def specialWrite (s : State) (e : Entry) (v : DWord) : State :=
  if !mPriv s then s
  else
    match e.field with
    | .msp k p => setStackOf s k p (lo32 v)
    | _ => entryWrite s e v

/-! ## Dispatch -/

/-- The read behaviour of a hook (R187); one that the rule gives no read behaviour reads as a free value (log entry 10).
`H_REGION_VIEW` on an entry that also names storage reads that storage, and `hookWrite` writes it: R187 gives the hook the
table entry only, and R193 gives an entry with a field its field (DESIGN CHOICE, log entry 10). -/
def hookRead (s : State) (e : Entry) (h : Hook) : DWord :=
  match h with
  | .nzcv => zext (s.a64.pstate &&& nzcvBits)
  | .daif => zext (s.a64.pstate &&& daifBits)
  | .currentEl => BitVec.ofNat 64 (curEl s * 4)
  | .spSel => flag64 (spField s.a64.pstate)
  | .regionView => if e.field = .none then regionRead s e else entryRead s e
  | .mSpecial => specialRead s e
  | .catalog id => Config.hookRead id s e
  | _ => freeRead e

/-- The write behaviour of a hook (R187): the state after it, and whether it pulses TLBINV; `v` is the operand of R111.
`H_STORE_INV` pulses when `v` is not the value before (R187) and when the storage changes (R42; log entry 18).  A hook that
the rule gives no write behaviour does nothing (log entry 10). -/
def hookWrite (s : State) (e : Entry) (h : Hook) (v : DWord) : State × Bool :=
  match h with
  | .storeInv =>
    let s' := entryStore s e v
    (s', decide (v ≠ entryRead s e) || decide (fieldGet s' e.field ≠ fieldGet s e.field))
  | .inv => (s, true)
  | .w1c => (entryWrite s e (entryRead s e &&& ~~~ v), false)
  | .nzcv => (pstateWrite s (merge s.a64.pstate (lo32 v) nzcvBits), false)
  | .daif => (pstateWrite s (merge s.a64.pstate (lo32 v) daifBits), false)
  | .spSel => (selectSp s (bit v 0), false)
  | .hcr => (entryWrite s e v, decide ((v ^^^ entryRead s e) &&& 0x1005 ≠ 0))
  | .regionView => (if e.field = .none then regionWrite s e.key (lo32 v) else entryWrite s e v, true)
  | .mSpecial => (specialWrite s e v, false)
  | .ignoreOutOfRange =>
    ((if v.toNat < numberLimit s e.field then entryWrite s e v else s), isMsysKey e.key)
  | .catalog id =>
    let (t, pulse) := Config.hookWrite id s e v
    (splice s t, pulse)
  | _ => (s, false)

/-- R194 and R186: the result of an access-check hook; no hook means no further check, and so does one that R194 gives no
check (log entry 10). -/
def hookAccess (s : State) (e : Entry) (h : Hook) (isread : Bool) : AccessResult :=
  match h with
  | .secureOnly => if isSecure s then .ok else if elIsA64 s 3 then .trapEl3 else .trapUncategorized
  | .daifAccess => if decide (curEl s = 0) && !bit (sctlr s 1) 9 then .trap else .ok
  | .spEl0Access => if spField s.a64.pstate then .ok else .trapUncategorized
  | .catalog id => Config.hookAccess id s e isread
  | _ => .ok

/-- The reset behaviour of a catalog hook (R186); a built-in hook has none and does nothing (log entry 10). -/
def hookReset (s : State) (e : Entry) (h : Hook) : State :=
  match h with
  | .catalog id => splice s (Config.hookReset id s e)
  | _ => s

/-- The raw-read behaviour of a hook: a catalog's own (R186), a built-in one's plain storage access (R187). -/
def hookRawRead (s : State) (e : Entry) (h : Hook) : DWord :=
  match h with
  | .catalog id => Config.hookRawRead id s e
  | _ => entryRead s e

/-- The raw-write behaviour of a hook: a catalog's own, with no effect outside the entry's storage (R186), a built-in
one's plain storage access (R187). -/
def hookRawWrite (s : State) (e : Entry) (h : Hook) (v : DWord) : State :=
  match h with
  | .catalog id => fieldSet s e.field (fieldGet (Config.hookRawWrite id s e v) e.field)
  | _ => entryWrite s e v

end Sys2Proof.Machine
end

