-- ==== Sys2Proof/Machine/Registry.lean ====
section
/-! DEFINITION. The registry's shared operations: lookup with banking, access checks, read and write dispatch, reset,
raw access (spec/41_control_registers.md rules R190 to R212). -/

namespace Sys2Proof.Machine

/-- The entry at a key, used exactly as given (R189). -/
def lookup (s : State) (k : Word) : Option Entry := findEntry s.reg k

/-- A raised TLBINV pulse (R83). -/
def pulse (s : State) : State := { s with ports := { s.ports with tlbinv := s.ports.tlbinv + 1 } }

/-- A TLBINV pulse if `b`. -/
def pulseIf (s : State) (b : Bool) : State := if b then pulse s else s

/-- What R196 and R197 answer for a key. -/
inductive Resolved where
  | entry (e : Entry)
  | const (v : DWord)
  | trap
  | absent
  deriving DecidableEq, Repr, Inhabited

/-- R196: the key with the bank the current security state allows. -/
def bankKey (s : State) (k : Word) : Word :=
  if isCp32Key k then (if isSecure s then k &&& ~~~ 0x20000000 else k ||| 0x20000000)
  else if isMKey k then (if isSecure s then k else k &&& ~~~ 0x08000000)
  else k

/-- R196 `resolve_bank(A)`, with R197 for the bank a register does not exist in. -/
def resolveBank (s : State) (a : Word) : Resolved :=
  let k := bankKey s a
  match lookup s k with
  | some e => .entry e
  | none =>
    match lookup s (flipBank k) with
    | some e =>
      if e.secure ≠ 3 then
        (match e.absent with
         | some (.const v) => .const v
         | _ => .trap)
      else .absent
    | none => .absent

/-- R191 `mask_ok(e, el, isread)`: a bit per level and direction (R120), none per security state, which D11 of
spec/92_eei_decisions.md speaks of (DEDUCED, log entry 50). -/
def maskOk (access : BitVec 8) (el : Nat) (isread : Bool) : Bool := bit access (2 * el + (if isread then 1 else 0))

/-- R195 `check_access(e, isread)`: the generic mask, then the access-check hook. -/
def checkAccess (s : State) (e : Entry) (isread : Bool) : AccessResult :=
  if maskOk e.access (curEl s) isread then hookAccess s e e.accessfn isread else .trapUncategorized

/-- R190: what an access that has passed its checks reads. -/
def dispatchRead (s : State) (e : Entry) : DWord :=
  if entryIs e tNop then 0
  else if entryIs e tConst then e.resetvalue
  else if e.readfn ≠ .none then hookRead s e e.readfn
  else entryRead s e

/-- R192, R111: the effect of a write that has passed its checks, and whether it pulses TLBINV. -/
def dispatchWrite (s : State) (e : Entry) (v : DWord) : State × Bool :=
  if entryIs e tNop || entryIs e tConst then (s, false)
  else if e.writefn ≠ .none then hookWrite s e e.writefn (operand e v)
  else (entryStore s e (operand e v), false)

/-- R205, R207 `reset_one(e)`: a `NONDET` register receives a draw. -/
def resetOne (s : State) (e : Entry) : State :=
  if entryIs e tSpecial || entryIs e tAlias || entryIs e tNop || entryIs e tConst then s
  else if e.resetfn ≠ .none then hookReset s e e.resetfn
  else if e.field = .none then s
  else if entryIs e tNonDet then storageSet { s with draws := s.draws + 1 } e (Config.nondetReset s.draws)
  else storageSet s e e.resetvalue

/-- R204: every entry of a list reset in order. -/
def resetEntries (s : State) : List Entry → State
  | [] => s
  | e :: es => resetEntries (resetOne s e) es

/-- R210: raw access is refused. -/
def rawRefused (e : Entry) : Bool := entryIs e tNoRaw || entryIs e tSpecial

/-- R210 `raw_read(e)` of an entry whose raw access is not refused. -/
def rawRead (s : State) (e : Entry) : DWord :=
  if entryIs e tConst then e.resetvalue
  else if entryIs e tNop then 0
  else if e.rawReadfn ≠ .none then hookRawRead s e e.rawReadfn
  else if e.field ≠ .none then entryRead s e
  else hookRead s e e.readfn

/-- R212 `raw_write(e, v)` of an entry whose raw access is not refused: never a pulse; `v` is the operand of R111. -/
def rawWrite (s : State) (e : Entry) (v : DWord) : State :=
  if entryIs e tConst || entryIs e tNop then s
  else if e.rawWritefn ≠ .none then hookRawWrite s e e.rawWritefn (operand e v)
  else if e.field ≠ .none then entryWrite s e (operand e v)
  else (hookWrite s e e.writefn (operand e v)).1

/-- R216: an entry the snapshot exports. -/
def exported (e : Entry) : Bool := !(entryIs e tNoRaw || entryIs e tSpecial || entryIs e tAlias)

/-- R216: the exported list of a list of entries. -/
def exportEntries (s : State) (es : List Entry) : List (Word × DWord) :=
  (es.filter exported).map fun e => (e.key, rawRead s e)

/-- `UNKNOWN_KEY` of R219. -/
def unknownKey : DWord := 1

/-- `READBACK_MISMATCH` of R219. -/
def readbackMismatch : DWord := 2

/-- R218: one pair imported: the state after it, and the failure it reports. -/
def importOne (s : State) (k : Word) (v : DWord) : State × List (Word × DWord) :=
  match lookup s k with
  | none => (s, [(k, unknownKey)])
  | some e =>
    if !exported e then (s, [])
    else
      let s' := rawWrite s e v
      (s', if rawRead s' e ≠ v then [(k, readbackMismatch)] else [])

/-- R218: a list imported in order, every entry attempted, with all failures. -/
def importAll (s : State) : List (Word × DWord) → State × List (Word × DWord)
  | [] => (s, [])
  | (k, v) :: rest =>
    let (s', f) := importOne s k v
    let (s'', fs) := importAll s' rest
    (s'', f ++ fs)

/-- R206: the self-check of the entries of a list: the state after it, and whether every reset repeated. -/
def selfCheck (s : State) : List Entry → State × Bool
  | [] => (s, true)
  | e :: es =>
    if entryIs e tSpecial || entryIs e tNoRaw || entryIs e tNonDet then selfCheck s es
    else
      let s' := resetOne s e
      let (s'', ok) := selfCheck s' es
      (s'', decide (rawRead s e = rawRead s' e) && ok)

end Sys2Proof.Machine
end

