-- ==== Sys2Proof/Machine/Operands.lean ====
section
/-! DEFINITION. Operand forms and records: access kinds (spec/00_scope.md rule R11), regime ids
(spec/30_encoding.md rule R123, spec/42_translate_flat_short.md rules R232, R233), the FaultRecord (R124, R125), the
translation result (R126), the flags of the event record (R129). -/

namespace Sys2Proof.Machine

/-! ## Access kinds and protection -/

/-- Access kinds (R11). -/
inductive Access where
  | load | store | fetch
  deriving DecidableEq, Repr, Inhabited

/-- The number of an access kind (R11). -/
def Access.num : Access → Nat
  | .load => 0 | .store => 1 | .fetch => 2

/-- The access kind of `f1` (R230). -/
def accessOf (f1 : BitVec 8) : Option Access :=
  match f1.toNat with
  | 0 => some .load
  | 1 => some .store
  | 2 => some .fetch
  | _ => none

/-- A protection set: bit 0 = R, bit 1 = W, bit 2 = X (R11). -/
abbrev Prot := BitVec 3

def protR : Prot := 1
def protW : Prot := 2
def protX : Prot := 4
def protRW : Prot := 3
def protRX : Prot := 5
/-- `full_permissions` (R11). -/
def protAll : Prot := 7

/-- The access kind is allowed by the protection set (R11). -/
def allows (prot : Prot) (kind : Access) : Bool := bit prot kind.num

/-- R264 `simple_ap(ap21)` for a privileged or an unprivileged access. -/
def simpleAp (ap21 : Nat) (user : Bool) : Prot :=
  match ap21 with
  | 0 => if user then 0 else protRW
  | 1 => protRW
  | 2 => if user then 0 else protR
  | _ => protR

/-! ## Regimes -/

/-- Translation regimes (R123).  `m secure priv negpri` are the protection-unit regimes 9 to 16. -/
inductive Regime where
  | e10Ns (user : Bool)
  | e2
  | e3
  | e10S (user : Bool)
  | stage2
  | s1Ns (user : Bool)
  | m (secure priv negpri : Bool)
  deriving DecidableEq, Repr, Inhabited

/-- The regime of an id (R123). -/
def regimeOf (id : BitVec 8) : Option Regime :=
  match id.toNat with
  | 0 => some (.e10Ns true)
  | 1 => some (.e10Ns false)
  | 2 => some .e2
  | 3 => some .e3
  | 4 => some (.e10S true)
  | 5 => some (.e10S false)
  | 6 => some .stage2
  | 7 => some (.s1Ns true)
  | 8 => some (.s1Ns false)
  | 9 => some (.m false false false)
  | 10 => some (.m false true false)
  | 11 => some (.m true false false)
  | 12 => some (.m true true false)
  | 13 => some (.m false false true)
  | 14 => some (.m false true true)
  | 15 => some (.m true false true)
  | 16 => some (.m true true true)
  | _ => none

/-- The instance has the regime (R123). -/
def regimeExists (s : State) : Regime → Bool
  | .e10Ns _ => !s.has .m
  | .e2 => !s.has .m && s.has .el2
  | .e3 => !s.has .m && s.has .el3
  | .e10S user => !s.has .m && s.has .el3 && (user || elIsA64 s 3)
  | .stage2 => !s.has .m && s.has .el2
  | .s1Ns _ => !s.has .m && s.has .el2
  | .m secure _ _ => s.has .m && (!secure || s.has .mSecurity)

/-- R233: the controlling level `rel`. -/
def controllingLevel (s : State) : Regime → Nat
  | .e10Ns _ | .s1Ns _ | .e10S false | .m _ _ _ => 1
  | .e2 | .stage2 => 2
  | .e3 => 3
  | .e10S true => if elIsA64 s 3 then 1 else 3

/-- R233: `ruser`. -/
def regimeUser : Regime → Bool
  | .e10Ns user | .s1Ns user | .e10S user => user
  | .m _ priv _ => !priv
  | _ => false

/-- R233: `rsec`. -/
def regimeSecure : Regime → Bool
  | .e3 | .e10S _ => true
  | .m secure _ _ => secure
  | _ => false

/-- R233: the regime is 64-bit. -/
def regimeA64 (s : State) (r : Regime) : Bool := elIsA64 s (controllingLevel s r)

/-- R233: `SCTLR(regime)`. -/
def regimeSctlr (s : State) (r : Regime) : DWord := sctlr s (controllingLevel s r)

/-- R233: `TCR(regime)`; `VTCR_EL2` for `STAGE2`. -/
def regimeTcr (s : State) (r : Regime) : DWord :=
  match r with
  | .stage2 => zext s.sys.vtcr
  | _ => s.sys.tcr.get (lvlOf (controllingLevel s r))

/-- R233: `TTBR0(regime)`; `VTTBR_EL2` for `STAGE2`. -/
def regimeTtbr0 (s : State) (r : Regime) : DWord :=
  match r with
  | .stage2 => s.sys.vttbr
  | _ => s.sys.ttbr0.get (lvlOf (controllingLevel s r))

/-- R233: `TTBR1(regime)`, for `rel` = 1 or 3. -/
def regimeTtbr1 (s : State) (r : Regime) : DWord := s.sys.ttbr1.get (decide (controllingLevel s r = 3))

/-- R233: `MAIR(regime)`. -/
def regimeMair (s : State) (r : Regime) : DWord := s.sys.mair.get (lvlOf (controllingLevel s r))

/-- R233: `DACR(regime)`. -/
def regimeDacr (s : State) (r : Regime) : Word := s.sys.dacr.get (decide (controllingLevel s r = 3))

/-- R232: the regime of the current state; no "unprivileged access" flag (log entry 50). -/
def currentRegime (s : State) : Regime :=
  if s.has .m then .m s.m.secure (mPriv s) (mNegPri s)
  else
    let el := curEl s
    if decide (el < 2) && secureBelowEl3 s then .e10S (decide (el = 0))
    else if el = 2 then .e2
    else if el = 3 then .e3
    else .e10Ns (decide (el = 0))

/-! ## FaultRecords -/

/-- Fault kinds (R125). -/
inductive FaultKind where
  | none | alignment | permission | translation | accessFlag | domain | addressSize | external | syncParity | asyncParity
  | background | secAmbiguous | nscExec | secViolation
  deriving DecidableEq, Repr, Inhabited

/-- The value of a fault kind (R125). -/
def FaultKind.num : FaultKind → Nat
  | .none => 0 | .alignment => 1 | .permission => 2 | .translation => 3 | .accessFlag => 4 | .domain => 5
  | .addressSize => 6 | .external => 7 | .syncParity => 8 | .asyncParity => 9 | .background => 10 | .secAmbiguous => 11
  | .nscExec => 12 | .secViolation => 13

/-- The fault kind of a value; 14 to 31 are reserved (R125). -/
def faultKindOf (n : Nat) : Option FaultKind :=
  match n with
  | 0 => some .none | 1 => some .alignment | 2 => some .permission | 3 => some .translation | 4 => some .accessFlag
  | 5 => some .domain | 6 => some .addressSize | 7 => some .external | 8 => some .syncParity | 9 => some .asyncParity
  | 10 => some .background | 11 => some .secAmbiguous | 12 => some .nscExec | 13 => some .secViolation
  | _ => Option.none

/-- A FaultRecord (R124). -/
structure FaultRec where
  kind       : FaultKind
  level      : Nat
  domain     : Nat
  stage2     : Bool
  s1ptw      : Bool
  eaWalk     : Bool
  formatLong : Bool
  ipa        : DWord
  deriving DecidableEq, Repr, Inhabited

/-- A FaultRecord of the short-descriptor and protection-unit families (R267, R330). -/
def shortFault (kind : FaultKind) (level domain : Nat) : FaultRec :=
  { kind := kind, level := level, domain := domain, stage2 := false, s1ptw := false, eaWalk := false,
    formatLong := false, ipa := 0 }

/-- `r0` of R124. -/
def packFault (f : FaultRec) : DWord :=
  BitVec.ofNat 64 f.kind.num ||| (BitVec.ofNat 64 (f.level % 8) <<< 5) ||| (BitVec.ofNat 64 (f.domain % 16) <<< 8) |||
  (flag64 f.stage2 <<< 12) ||| (flag64 f.s1ptw <<< 13) ||| (flag64 f.eaWalk <<< 14) ||| (flag64 f.formatLong <<< 15)

/-- R124 unpacked; `none` for a reserved kind. -/
def unpackFault (w : BitVec 16) (ipa : DWord) : Option FaultRec :=
  (faultKindOf (field w 0 5)).map fun k =>
    { kind := k, level := field w 5 3, domain := field w 8 4, stage2 := bit w 12, s1ptw := bit w 13, eaWalk := bit w 14,
      formatLong := bit w 15, ipa := ipa }

/-! ## Translation results -/

/-- A successful translation (R126). -/
structure XOk where
  phys     : DWord
  prot     : Prot
  secure   : Bool
  log2size : Nat
  attrs    : Byte
  sh       : BitVec 2
  deriving DecidableEq, Repr, Inhabited

/-- What a translation returns (R230). -/
abbrev XResult := Except FaultRec XOk

/-- `r1` of R126. -/
def packXOk (x : XOk) : DWord :=
  x.prot.setWidth 64 ||| (flag64 x.secure <<< 3) ||| (BitVec.ofNat 64 (x.log2size % 64) <<< 4) |||
  (x.attrs.setWidth 64 <<< 10) ||| (x.sh.setWidth 64 <<< 18)

/-- A walked physical address has bits `PAMAX-1:0` only (R126). -/
def clipPa (s : State) (pa : DWord) : DWord := pa &&& (BitVec.ofNat 64 (2 ^ s.params.pamax - 1))

/-! ## The event record (R129) -/

/-- `min_el` of `f2`. -/
def minElOf (f2 : BitVec 8) : Nat := field f2 0 2
/-- `is_write` of `f2`. -/
def isWriteOf (f2 : BitVec 8) : Bool := bit f2 2
/-- `m_target_secure` of `f2`. -/
def mTargetSecureOf (f2 : BitVec 8) : Bool := bit f2 3

end Sys2Proof.Machine
end

