-- ==== Sys2Proof/Machine/XlateShort.lean ====
section
/-! DEFINITION. Flat mapping and the short-descriptor format (spec/42_translate_flat_short.md rules R236 to R268).  A walk
changes nothing but the MEM port, which it takes and returns. -/

namespace Sys2Proof.Machine

/-- R237: stage 2 is enabled. -/
def stage2Enabled (s : State) : Bool := s.has .el2 && (bit s.sys.hcr 0 || bit s.sys.hcr 12)

/-- R236 `regime_disabled(regime)`, general profile. -/
def regimeDisabled (s : State) (r : Regime) : Bool :=
  if r = .stage2 then !bit s.sys.hcr 0 && !bit s.sys.hcr 12
  else if !regimeSecure r && decide (controllingLevel s r = 1) && s.has .el2 && (bit s.sys.hcr 27 || bit s.sys.hcr 12) then
    true
  else !bit (regimeSctlr s r) 0

/-- R238: the flat mapping. -/
def flat (r : Regime) (va : DWord) : XOk :=
  { phys := va, prot := protAll, secure := regimeSecure r, log2size := 12, attrs := 0xFF, sh := 0 }

/-- R250 `uses_long_format(regime)`; `STAGE2` always uses it. -/
def usesLongFormat (s : State) (r : Regime) : Bool :=
  decide (r = .stage2) || regimeA64 s r || decide (controllingLevel s r = 2) ||
  (s.has .lpae && bit (regimeTcr s r) 31)

/-- A descriptor load (R242): the level a fault is tagged with, the address, the security tag. -/
abbrev Loader := Bus → Nat → DWord → Bool → Except FaultRec DWord × Bus

/-- R242 without the stage-2 step: a load of `n` bytes at a physical address.  The record of a failed load has domain 0
at either level (DESIGN CHOICE, log entry 39); a stage-2 walk adds the address it translates (`longLoop`). -/
def physLoad (s : State) (r : Regime) (n : Nat) (long : Bool) : Loader := fun b level pa sec =>
  match b.physRead pa n sec (bit (regimeSctlr s r) 25) with
  | (some d, b) => (.ok d, b)
  | (none, b) =>
    (.error { kind := .external, level := level, domain := 0, stage2 := decide (r = .stage2), s1ptw := false,
              eaWalk := true, formatLong := long, ipa := 0 }, b)

/-- R262 `legacy_ap(ap, dp)`. -/
def legacyAp (s : State) (r : Regime) (ap dp : Nat) : Prot :=
  let user := regimeUser r
  let sBit := bit (regimeSctlr s r) 8
  let rBit := bit (regimeSctlr s r) 9
  if dp = 3 then protRW
  else
    match ap with
    | 0 =>
      if s.has .v7 then 0
      else if user then (if !sBit && rBit then protR else 0)
      else if sBit != rBit then protR else 0
    | 1 => if user then 0 else protRW
    | 2 => if user then protR else protRW
    | 3 => protRW
    | 4 => 0
    | 5 => if user then 0 else protR
    | 6 => protR
    | _ => if s.has .v6k then protR else 0

/-- R260: the access field of a domain. -/
def domainAccess (s : State) (r : Regime) (domain : Nat) : Nat := field (regimeDacr s r) (2 * domain) 2

/-- R251, R252: the first-level descriptor's address; `none` if the table walk is disabled. -/
def firstLevelAddr (s : State) (r : Regime) (va : Word) : Option Word :=
  let tcr := regimeTcr s r
  let n := field tcr 0 3
  let index := (va >>> 18) &&& 0x3FFC
  if decide (n ≠ 0) && decide (va >>> (32 - n) ≠ 0) then
    if bit tcr 5 then none else some ((lo32 (regimeTtbr1 s r) &&& 0xFFFFC000) ||| index)
  else
    if bit tcr 4 then none else some ((lo32 (regimeTtbr0 s r) &&& ~~~ ((0x3FFF : Word) >>> n)) ||| index)

/-- R256: the second-level descriptor's address. -/
def secondLevelAddr (d1 va : Word) (fine : Bool) : Word :=
  if fine then (d1 &&& 0xFFFFF000) ||| ((va >>> 8) &&& 0xFFC)
  else (d1 &&& 0xFFFFFC00) ||| ((va >>> 10) &&& 0x3FC)

/-- The physical address of a page or section: the base bits of the descriptor, the low `size` bits of the address. -/
def joinAddr (d va : Word) (size : Nat) : Word :=
  (d &&& ~~~ BitVec.ofNat 32 (2 ^ size - 1)) ||| (va &&& BitVec.ofNat 32 (2 ^ size - 1))

/-- The result record of a short-format walk: no attributes are computed (R127).  The 40-bit address of a supersection is
cut to `PAMAX` bits here (R126), also where stage 2 translates it further (DESIGN CHOICE, log entry 25). -/
def shortOk (s : State) (phys : DWord) (prot : Prot) (secure : Bool) (size : Nat) : XOk :=
  { phys := clipPa s phys, prot := prot, secure := secure, log2size := size, attrs := 0xFF, sh := 0 }

/-- R255, last three lines: the permissions of the legacy variant. -/
def legacyFinish (s : State) (r : Regime) (kind : Access) (level domain dp ap : Nat) (phys : Word) (size : Nat) :
    XResult :=
  let prot := legacyAp s r ap dp
  let prot := if prot ≠ 0 then prot ||| protX else prot
  if !allows prot kind then .error (shortFault .permission level domain)
  else .ok (shortOk s (zext phys) prot (regimeSecure r) size)

/-- R255: the legacy variant's second-level descriptor. -/
def legacySecond (s : State) (r : Regime) (va : Word) (kind : Access) (domain dp : Nat) (fine : Bool) (d2 : Word) :
    XResult :=
  match field d2 0 2 with
  | 0 => .error (shortFault .translation 2 domain)
  | 1 => legacyFinish s r kind 2 domain dp (field d2 (4 + 2 * field va 14 2) 2) (joinAddr d2 va 16) 16
  | 2 => legacyFinish s r kind 2 domain dp (field d2 (4 + 2 * field va 10 2) 2) (joinAddr d2 va 12) 12
  | _ =>
    if fine then legacyFinish s r kind 2 domain dp (field d2 4 2) (joinAddr d2 va 10) 10
    else if s.has .v6 then legacyFinish s r kind 2 domain dp (field d2 4 2) (joinAddr d2 va 12) 12
    else .error (shortFault .translation 2 domain)

/-- R254: the legacy variant. -/
def walkShortLegacy (s : State) (ld : Loader) (r : Regime) (va : Word) (kind : Access) (b : Bus) : XResult × Bus :=
  match firstLevelAddr s r va with
  | none => (.error (shortFault .translation 1 0), b)
  | some l1 =>
    match ld b 1 (zext l1) (regimeSecure r) with
    | (.error f, b) => (.error f, b)
    | (.ok d, b) =>
      let d1 := lo32 d
      let type := field d1 0 2
      let domain := field d1 5 4
      let dp := domainAccess s r domain
      if type = 0 then (.error (shortFault .translation 1 domain), b)
      else if dp = 0 ∨ dp = 2 then (.error (shortFault .domain (if type = 2 then 1 else 2) domain), b)
      else if type = 2 then
        (legacyFinish s r kind 1 domain dp (field d1 10 2) (joinAddr d1 va 20) 20, b)
      else
        match ld b 2 (zext (secondLevelAddr d1 va (decide (type = 3)))) (regimeSecure r) with
        | (.error f, b) => (.error f, b)
        | (.ok d, b) => (legacySecond s r va kind domain dp (decide (type = 3)) (lo32 d), b)

/-- R261: the permissions of the extended variant.  `WXN` is applied and `UWXN` is not: R266 leaves `UWXN` to the long format,
where D18 of spec/92_eei_decisions.md says "in both formats" (DEDUCED, log entry 50). -/
def extendedFinish (s : State) (r : Regime) (kind : Access) (level domain dp ap : Nat) (xn pxn ns : Bool) (phys : DWord)
    (size : Nat) : XResult :=
  let secure := regimeSecure r && !ns
  if dp = 3 then .ok (shortOk s phys protAll secure size)
  else
    let xn := xn || (pxn && !regimeUser r)
    let afe := s.has .v6k && bit (regimeSctlr s r) 29
    if xn && decide (kind = .fetch) then .error (shortFault .permission level domain)
    else if afe && decide (ap % 2 = 0) then .error (shortFault .accessFlag level domain)
    else
      let prot := if afe then simpleAp (ap / 2) (regimeUser r) else legacyAp s r ap dp
      let prot := if decide (prot ≠ 0) && !xn then prot ||| protX else prot
      let prot := if bit (regimeSctlr s r) 19 && bit prot 1 then prot &&& ~~~ protX else prot
      if !allows prot kind then .error (shortFault .permission level domain)
      else .ok (shortOk s phys prot secure size)

/-- R259: the extended variant's second-level descriptor. -/
def extendedSecond (s : State) (r : Regime) (va : Word) (kind : Access) (domain dp : Nat) (pxn ns : Bool) (d2 : Word) :
    XResult :=
  let ap := field d2 9 1 * 4 + field d2 4 2
  match field d2 0 2 with
  | 0 => .error (shortFault .translation 2 domain)
  | 1 => extendedFinish s r kind 2 domain dp ap (bit d2 15) pxn ns (zext (joinAddr d2 va 16)) 16
  | _ => extendedFinish s r kind 2 domain dp ap (bit d2 0) pxn ns (zext (joinAddr d2 va 12)) 12

/-- R258: the 40-bit physical address of a supersection. -/
def superAddr (d1 va : Word) : DWord :=
  zext (joinAddr d1 va 24) ||| (BitVec.ofNat 64 (field d1 20 4) <<< 32) ||| (BitVec.ofNat 64 (field d1 5 4) <<< 36)

/-- R258: the extended variant. -/
def walkShortExtended (s : State) (ld : Loader) (r : Regime) (va : Word) (kind : Access) (b : Bus) : XResult × Bus :=
  match firstLevelAddr s r va with
  | none => (.error (shortFault .translation 1 0), b)
  | some l1 =>
    match ld b 1 (zext l1) (regimeSecure r) with
    | (.error f, b) => (.error f, b)
    | (.ok d, b) =>
      let d1 := lo32 d
      let type := field d1 0 2
      let super := decide (type ≠ 1) && bit d1 18
      let domain := if super then 0 else field d1 5 4
      let dp := domainAccess s r domain
      let pxnBit := s.has .pxn
      if type = 0 ∨ (type = 3 ∧ pxnBit = false) then (.error (shortFault .translation 1 0), b)
      else if dp = 0 ∨ dp = 2 then (.error (shortFault .domain (if type = 1 then 2 else 1) domain), b)
      else if type ≠ 1 then
        (extendedFinish s r kind 1 domain dp (field d1 15 1 * 4 + field d1 10 2) (bit d1 4) (pxnBit && bit d1 0)
          (bit d1 19) (if super then superAddr d1 va else zext (joinAddr d1 va 20)) (if super then 24 else 20), b)
      else
        match ld b 2 (zext (secondLevelAddr d1 va false)) (regimeSecure r) with
        | (.error f, b) => (.error f, b)
        | (.ok d, b) => (extendedSecond s r va kind domain dp (pxnBit && bit d1 2) (bit d1 3) (lo32 d), b)

end Sys2Proof.Machine
end

