-- ==== Sys2Proof/Machine/XlateLong.lean ====
section
/-! DEFINITION. The long-descriptor format, stage 2, attributes (spec/43_translate_long.md rules R280 to R326). -/

namespace Sys2Proof.Machine

/-- A FaultRecord of the long-descriptor format (R280); `ipa` is the input of a stage-2 walk. -/
def longFault (s2 : Bool) (kind : FaultKind) (level : Nat) (input : DWord) : FaultRec :=
  { kind := kind, level := level, domain := 0, stage2 := s2, s1ptw := false, eaWalk := false, formatLong := true,
    ipa := if s2 then input else 0 }

/-- R281 `clamp(v, 16, 39)`. -/
def clampSize (v : Nat) : Nat := if v < 16 then 16 else if 39 < v then 39 else v

/-- The regions of a regime (R280, R281). -/
structure LongSizes where
  addrsize : Nat
  t0sz     : Nat
  t1sz     : Nat
  /-- a second base register exists. -/
  ttbr1    : Bool
  /-- `tb = 8 * tbi`. -/
  tb       : Nat
  deriving DecidableEq, Repr, Inhabited

/-- R281 `tbi` (top-byte-ignore, 64-bit regimes only). -/
def topByteIgnored (s : State) (r : Regime) (va : DWord) : Bool :=
  let tcr := regimeTcr s r
  if !regimeA64 s r || decide (r = .stage2) then false
  else if controllingLevel s r = 1 then (if bit va 55 then bit tcr 38 else bit tcr 37)
  else bit tcr 20

/-- R280, R281; `none` when the sign bit of a 32-bit stage-2 size field is not replicated, a fault (R281, U7) although D19 of
spec/92_eei_decisions.md has size fields clamped and never faulted (DEDUCED, log entry 50). -/
def longSizes (s : State) (r : Regime) (va : DWord) : Option LongSizes :=
  let tcr := regimeTcr s r
  let s2 := decide (r = .stage2)
  let rel := controllingLevel s r
  if regimeA64 s r then
    some { addrsize := 64, t0sz := clampSize (field tcr 0 6), t1sz := clampSize (field tcr 16 6),
           ttbr1 := !s2 && decide (rel = 1), tb := if topByteIgnored s r va then 8 else 0 }
  else if s2 then
    if bit tcr 4 != bit tcr 3 then none
    else some { addrsize := 40, t0sz := (field tcr 0 4 + 8) % 16, t1sz := 0, ttbr1 := false, tb := 0 }
  else
    some { addrsize := 32, t0sz := field tcr 0 3, t1sz := field tcr 16 3, ttbr1 := decide (rel = 1) || decide (rel = 3),
           tb := 0 }

/-- R282: bits `addrsize-1-tb : addrsize-tsz` of the address, and how many they are. -/
def topBits (z : LongSizes) (tsz : Nat) (va : DWord) : Nat := (va.toNat / 2 ^ (z.addrsize - tsz)) % 2 ^ (tsz - z.tb)

/-- R282 `sel`: `true` for the second base register; `none` in the gap between the two regions. -/
def selectBase (z : LongSizes) (va : DWord) : Option Bool :=
  if decide (z.t0sz ≠ 0) && decide (topBits z z.t0sz va = 0) then some false
  else if z.ttbr1 && decide (z.t1sz ≠ 0) && decide (topBits z z.t1sz va = 2 ^ (z.t1sz - z.tb) - 1) then some true
  else if z.t0sz = 0 then some false
  else if z.ttbr1 && decide (z.t1sz = 0) then some true
  else none

/-- R283: the stride of a granule. -/
def strideOf (a64 sel : Bool) (tg : Nat) : Nat :=
  if !a64 then 9
  else if sel then (match tg with | 1 => 11 | 3 => 13 | _ => 9)
  else (match tg with | 1 => 13 | 2 => 11 | _ => 9)

/-- R286: the output size. -/
def outputSize (s : State) (r : Regime) : Nat :=
  let tcr := regimeTcr s r
  let bits :=
    if !regimeA64 s r then 40
    else
      match field tcr (if controllingLevel s r = 1 then 32 else 16) 3 with
      | 0 => 32 | 1 => 36 | 2 => 40 | 3 => 42 | 4 => 44 | _ => 48
  min s.params.pamax bits

/-- R285: the stage-2 configuration check of a start level. -/
def stage2ConfigOk (s : State) (a64 : Bool) (stride inputsize : Nat) (level : Int) : Bool :=
  let pamax := s.params.pamax
  let grain := stride + 3
  let c : Int := (inputsize : Int) - ((3 - level) * (stride : Int) + (grain : Int))
  if level < 0 then false
  else if a64 && decide (stride = 13) && (decide (level = 0) || (decide (level = 1) && decide (pamax ≤ 42))) then false
  else if a64 && decide (stride = 11) && (decide (level = 0) || (decide (level = 1) && decide (pamax ≤ 40))) then false
  else if a64 && decide (stride = 9) && decide (level = 0) && decide (pamax ≤ 42) then false
  else if a64 && decide (pamax < inputsize) && (elIsA64 s 1 || decide (40 < inputsize)) then false
  else if !a64 && decide (level = 0) then false
  else if c < 1 ∨ (stride : Int) + 4 < c then false
  else true

/-- The parameters of a walk (R282 to R286, R296, R298). -/
structure LongWalk where
  s2         : Bool
  a64        : Bool
  /-- the start level. -/
  level      : Nat
  stride     : Nat
  inputsize  : Nat
  outputsize : Nat
  ttbr       : DWord
  deriving DecidableEq, Repr, Inhabited

/-- R284: the start level of stage 2 before its check. -/
def stage2Start (s : State) (a64 : Bool) (stride : Nat) : Int :=
  let sl0 : Int := field s.sys.vtcr 6 2
  if !a64 || decide (stride = 9) then 2 - sl0 else 3 - sl0

/-- R281 to R286: the parameters of a walk, or the fault of its configuration; a bad start level of stage 2 is a level-0
fault in either width (spec/93_implementation_defined.md U8, spec/92_eei_decisions.md D20), where R284 with R282 has level
1 for a 32-bit one (DEDUCED, log entry 52). -/
def longSetup (s : State) (r : Regime) (va : DWord) : Except FaultRec LongWalk :=
  let a64 := regimeA64 s r
  let s2 := decide (r = .stage2)
  let tcr := regimeTcr s r
  let rel := controllingLevel s r
  let l0 := if a64 then 0 else 1
  match longSizes s r va with
  | none => .error (longFault s2 .translation 1 va)
  | some z =>
    match selectBase z va with
    | none => .error (longFault s2 .translation l0 va)
    | some sel =>
      let epd := if sel then bit tcr 23
                 else if decide (rel = 1) || (decide (rel = 3) && !a64) then bit tcr 7 else false
      let inputsize := z.addrsize - (if sel then z.t1sz else z.t0sz)
      let ttbr := if sel then regimeTtbr1 s r else regimeTtbr0 s r
      let stride := strideOf a64 sel (if sel then field tcr 30 2 else field tcr 14 2)
      if epd then .error (longFault s2 .translation l0 va)
      else if s2 then
        let level := stage2Start s a64 stride
        if stage2ConfigOk s a64 stride inputsize level then
          .ok { s2 := s2, a64 := a64, level := level.toNat, stride := stride, inputsize := inputsize,
                outputsize := outputSize s r, ttbr := ttbr }
        else .error (longFault s2 .translation 0 va)
      else
        .ok { s2 := s2, a64 := a64, level := 4 - (inputsize - 4) / stride, stride := stride, inputsize := inputsize,
              outputsize := outputSize s r, ttbr := ttbr }

/-- `grain` of R283. -/
def LongWalk.grain (w : LongWalk) : Nat := w.stride + 3

/-- The number of low address bits a level resolves above (R298): `stride * (4 - level)`. -/
def LongWalk.shift (w : LongWalk) (level : Nat) : Nat := w.stride * (4 - level)

/-- A mask of the low `n` bits. -/
def lowMask (n : Nat) : DWord := BitVec.ofNat 64 (2 ^ n - 1)

/-- R296 `indexmask` of the first table. -/
def LongWalk.firstMask (w : LongWalk) : DWord := lowMask (w.inputsize - w.shift w.level)

/-- R296: the first table's address. -/
def LongWalk.base (w : LongWalk) : DWord := (w.ttbr &&& lowMask 48) &&& ~~~ w.firstMask

/-- R298 `amask`. -/
def LongWalk.amask (w : LongWalk) : DWord := lowMask (if w.a64 then 48 else 40) &&& ~~~ lowMask w.grain

/-- R296, R298: an address has bits at or above the output size. -/
def LongWalk.tooBig (w : LongWalk) (pa : DWord) : Bool :=
  decide (w.outputsize < 48) && decide (pa >>> w.outputsize ≠ 0)

/-- Where a walk ends: the leaf descriptor, its level, and the accumulated table attributes (R298). -/
structure Leaf where
  desc  : DWord
  level : Nat
  tattr : BitVec 5
  /-- `nstable` at the level of the leaf. -/
  nstable : Bool
  deriving DecidableEq, Repr, Inhabited

/-- The record of a failed descriptor load of a walk whose input is `input`: stage 2 reports the address it translates
(R124). -/
def LongWalk.loadFault (w : LongWalk) (f : FaultRec) (input : DWord) : FaultRec := if w.s2 then { f with ipa := input } else f

/-- R298: the loop, `fuel` = 3 - level. -/
def longLoop (w : LongWalk) (ld : Loader) (va : DWord) :
    (fuel : Nat) → (table : DWord) → (tattr : BitVec 5) → (indexmask : DWord) → Bus → Except FaultRec Leaf × Bus
  | fuel, table, tattr, indexmask, b =>
    let level := 3 - fuel
    let nstable := bit tattr 4
    let daddr := (table ||| ((va >>> w.shift level) &&& indexmask)) &&& ~~~ 7
    match ld b level daddr (!nstable) with
    | (.error f, b) => (.error (w.loadFault f va), b)
    | (.ok d, b) =>
      let out := d &&& w.amask
      if !bit d 0 || (!bit d 1 && decide (level = 3)) then (.error (longFault w.s2 .translation level va), b)
      else if w.tooBig out then (.error (longFault w.s2 .addressSize level va), b)
      else
        match fuel with
        | 0 => (.ok { desc := d, level := level, tattr := tattr, nstable := nstable }, b)
        | fuel + 1 =>
          if bit d 1 then
            longLoop w ld va fuel out (if w.s2 then tattr else tattr ||| d.extractLsb' 59 5) (lowMask w.grain) b
          else (.ok { desc := d, level := level, tattr := tattr, nstable := nstable }, b)

/-- R312 `s1prot(regime, ap[2:1], ns, xn, pxn)`. -/
def s1Prot (s : State) (r : Regime) (ap : Nat) (ns xn pxn : Bool) : Prot :=
  let user := regimeUser r
  let rel := controllingLevel s r
  let a64 := regimeA64 s r
  let userRw := simpleAp ap true
  let protRw := simpleAp ap user
  if ns && regimeSecure r && s.has .el3 && bit s.sys.scr 9 then protRw
  else
    let wxn := bit (regimeSctlr s r) 19
    let uwxn := bit (regimeSctlr s r) 20
    let xn :=
      if a64 then
        if decide (rel = 1) && !user then pxn || bit userRw 1 else xn
      else if rel = 1 ∨ rel = 3 then
        if user then xn || !bit userRw 0
        else xn || !bit protRw 0 || pxn || (uwxn && bit userRw 1)
      else xn
    if xn || (wxn && bit protRw 1) then protRw else protRw ||| protX

/-- R313 `s2prot(s2ap, xn)`. -/
def s2Prot (s : State) (s2ap : Nat) (xn : Bool) : Prot :=
  let rd := decide (s2ap % 2 = 1)
  let wr := decide (s2ap / 2 % 2 = 1)
  (if rd then protR else 0) ||| (if wr then protW else 0) |||
  (if !xn && (elIsA64 s 2 || rd) then protX else 0)

/-- R318: the attributes of a stage-2 `MemAttr`.  The reserved inner value 0 is as the rule's pseudocode has it, both hints
set; its prose says no hint (DESIGN CHOICE, log entry 40). -/
def s2Attrs (s : State) (memAttr : Nat) : Byte :=
  let hi := memAttr / 4
  let lo := memAttr % 4
  if hi = 0 then BitVec.ofNat 8 (lo * 4)
  else if bit s.sys.hcr 32 then 0x44
  else BitVec.ofNat 8 (hi * 64 + (if hi ≠ 1 then 3 else 0) * 16 + lo * 4 + (if lo ≠ 1 then 3 else 0))

/-- R298: the output address of a leaf.  The offset bits of a large block may reach above `PAMAX`, which R286 does not check:
`leafResult` cuts the address to `PAMAX` bits, also where it is an IPA that stage 2 translates further (DESIGN CHOICE, log
entry 25). -/
def leafAddr (w : LongWalk) (l : Leaf) (va : DWord) : DWord :=
  let size := w.shift l.level + 3
  (l.desc &&& w.amask &&& ~~~ lowMask size) ||| (va &&& lowMask size)

/-- R300 to R318: the checks and the result of a leaf.  The page size is that of R298, which has 2^47 for a level-0 block of the
16 KB granule, where R126 bounds page sizes by 2^42 (DEDUCED, log entry 25). -/
def leafResult (s : State) (r : Regime) (w : LongWalk) (va : DWord) (kind : Access) (l : Leaf) : XResult :=
  let d := l.desc
  let size := w.shift l.level + 3
  if !bit d 10 then .error (longFault w.s2 .accessFlag l.level va)
  else if w.s2 then
    let prot := s2Prot s (field d 6 2) (bit d 54)
    if !allows prot kind then .error (longFault w.s2 .permission l.level va)
    else .ok { phys := clipPa s (leafAddr w l va), prot := prot, secure := false, log2size := size,
               attrs := s2Attrs s (field d 2 4), sh := d.extractLsb' 8 2 }
  else
    let xn := bit d 54 || bit l.tattr 1
    let pxn := bit d 53 || bit l.tattr 0
    let ap := (if bit d 7 || bit l.tattr 3 then 2 else 0) + (if bit d 6 && !bit l.tattr 2 then 1 else 0)
    let ns := bit d 5 || l.nstable
    let prot := s1Prot s r ap ns xn pxn
    if !allows prot kind then .error (longFault w.s2 .permission l.level va)
    else .ok { phys := clipPa s (leafAddr w l va), prot := prot, secure := regimeSecure r && !ns, log2size := size,
               attrs := (regimeMair s r).extractLsb' (8 * field d 2 3) 8, sh := d.extractLsb' 8 2 }

/-- R284 `walk_long(regime, va, kind)` with a descriptor loader. -/
def walkLong (s : State) (ld : Loader) (r : Regime) (va : DWord) (kind : Access) (b : Bus) : XResult × Bus :=
  match longSetup s r va with
  | .error f => (.error f, b)
  | .ok w =>
    if w.tooBig w.base then (.error (longFault w.s2 .addressSize 0 va), b)
    else
      match longLoop w ld va (3 - w.level) w.base (if regimeSecure r then 0 else 0b10000) w.firstMask b with
      | (.error f, b) => (.error f, b)
      | (.ok l, b) => (leafResult s r w va kind l, b)

/-- The stage-2 walk (R284 for `STAGE2`): its descriptor loads are physical. -/
def walkStage2 (s : State) (ipa : DWord) (kind : Access) (b : Bus) : XResult × Bus :=
  walkLong s (physLoad s .stage2 8 true) .stage2 ipa kind b

/-- R242: a descriptor load of a stage-1 walk of the Non-secure level-0/1 regime, itself subject to stage 2. -/
def nestedLoad (s : State) (r : Regime) (n : Nat) (long : Bool) : Loader := fun b level pa sec =>
  match walkStage2 s pa .load b with
  | (.error f, b) => (.error { f with stage2 := true, s1ptw := true, ipa := pa }, b)
  | (.ok x, b) => physLoad s r n long b level x.phys sec

/-- R242 `ld_desc`: which loader a regime's walk uses. -/
def loaderOf (s : State) (r : Regime) (n : Nat) (long : Bool) : Loader :=
  match r with
  | .s1Ns _ => if stage2Enabled s then nestedLoad s r n long else physLoad s r n long
  | _ => physLoad s r n long

/-- R319 `nib(a, b)`. -/
def attrNibble (a b : BitVec 4) : BitVec 4 :=
  if a = 4 ∨ b = 4 then 4
  else if field a 2 2 = 0 ∨ field a 2 2 = 2 then a
  else if field b 2 2 = 2 then 0b1000 ||| (a &&& 0b0011)
  else a

/-- R319: the combined attributes and shareability of the two stages. -/
def combineAttrs (a1 : Byte) (h1 : BitVec 2) (a2 : Byte) (h2 : BitVec 2) : Byte × BitVec 2 :=
  let dev1 := decide (field a1 4 4 = 0)
  let dev2 := decide (field a2 4 4 = 0)
  if dev1 || dev2 then
    let t1 := field a1 2 2
    let t2 := field a2 2 2
    let t := if dev1 && dev2 then min t1 t2 else if dev1 then t1 else t2
    (BitVec.ofNat 8 (t * 4), 2)
  else
    let attrs : Byte :=
      attrNibble (a1.extractLsb' 4 4) (a2.extractLsb' 4 4) ++ attrNibble (a1.extractLsb' 0 4) (a2.extractLsb' 0 4)
    let sh : BitVec 2 := if h1 = 2 ∨ h2 = 2 then 2 else if h1 = 3 ∨ h2 = 3 then 3 else 0
    (attrs, if attrs = 0x44 then 2 else sh)

end Sys2Proof.Machine
end

