-- ==== Sys2Proof/Machine/XlateMpu.lean ====
section
/-! DEFINITION. Region protection units and security attribution (spec/44_translate_mpu_sau.md rules R330 to R358).  They
read the region tables only: no memory request (R87). -/

namespace Sys2Proof.Machine

/-- A FaultRecord of rule R330: level 1 for `PERMISSION`, 0 otherwise. -/
def unitFault (kind : FaultKind) : FaultRec := shortFault kind (if kind = .permission then 1 else 0) 0

/-! ## Security attribution -/

/-- Whether an address is in a range, both ends included. -/
def inRange (lo hi : Nat) (a : Word) : Bool := decide (lo ≤ a.toNat) && decide (a.toNat ≤ hi)

/-- R355 `sau_exempt(addr, kind)`. -/
def sauExempt (a : Word) (kind : Access) : Bool :=
  (decide (kind = .fetch) && inRange 0xE0000000 0xFFFFFFFF a) ||
  inRange 0xE0000000 0xE0002FFF a || inRange 0xE000E000 0xE000EFFF a || inRange 0xE002E000 0xE002EFFF a ||
  inRange 0xE0040000 0xE0041FFF a || inRange 0xE00FF000 0xE00FFFFF a

/-- What `IDAU` says of an address (R358): the first range that holds it; by default not exempt, Non-secure, not
callable. -/
def idauAt : List IdauRange → Word → IdauRange
  | [], _ => { base := 0, limit := 0, exempt := false, ns := true, nsc := false }
  | r :: rs, a => if decide (r.base ≤ a) && decide (a ≤ r.limit) then r else idauAt rs a

/-- The result of R353. -/
structure SecAttr where
  ns      : Bool
  nsc     : Bool
  srvalid : Bool
  sregion : Nat
  deriving DecidableEq, Repr, Inhabited

/-- Secure, in no region. -/
def SecAttr.secure : SecAttr := { ns := false, nsc := false, srvalid := false, sregion := 0 }

/-- R353: region `r` of the attribution unit is enabled and holds the address. -/
def sauHit (s : State) (a : Word) (r : Nat) : Bool :=
  let rlar := tget s.regions.sauRlar r
  bit rlar 0 && decide (tget s.regions.sauRbar r &&& ~~~ 0x1F ≤ a) && decide (a ≤ rlar ||| 0x1F)

/-- The attribution regions that hold an address. -/
def sauHits (s : State) (a : Word) : List Nat := (List.range s.params.sauNregion).filter (sauHit s a)

/-- R353, the case analysis on `SAU_CTRL`. -/
def sauLookup (s : State) (a : Word) : Except FaultRec SecAttr :=
  if !bit s.regions.sauCtrl 0 then .ok { SecAttr.secure with ns := bit s.regions.sauCtrl 1 }
  else
    match sauHits s a with
    | [] => .ok .secure
    | [r] =>
      let nsc := bit (tget s.regions.sauRlar r) 1
      .ok { ns := !nsc, nsc := nsc, srvalid := true, sregion := r }
    | _ :: _ :: _ => .error (unitFault .secAmbiguous)

/-- R353, the last step: the external function can only raise the security. -/
def idauRaise (i : IdauRange) (x : SecAttr) : SecAttr :=
  if !i.ns && (x.ns || (!i.nsc && x.nsc)) then { x with ns := false, nsc := i.nsc } else x

/-- R353 `sec_attr(addr, kind, asker_secure)`. -/
def secAttr (s : State) (a : Word) (kind : Access) (asker : Bool) : Except FaultRec SecAttr :=
  let i := idauAt s.params.idau a
  if decide (kind = .fetch) && decide (a.extractLsb' 28 4 = 0xF) then .ok .secure
  else if i.exempt || sauExempt a kind then .ok { SecAttr.secure with ns := !asker }
  else (sauLookup s a).map (idauRaise i)

/-- `r0` of R352. -/
def packSecAttr (x : SecAttr) : DWord :=
  flag64 x.ns ||| (flag64 x.nsc <<< 1) ||| (flag64 x.srvalid <<< 2) ||| (BitVec.ofNat 64 x.sregion <<< 8)

/-! ## Protection units -/

/-- R335 `mpu_disabled(regime)`; `k` is the bank of the region tables. -/
def mpuDisabled (s : State) (r : Regime) (k : Bool) : Bool :=
  match r with
  | .m _ _ negpri =>
    let c := s.regions.mpuCtrl.get k
    !bit c 0 || (!bit c 1 && negpri)
  | _ => !bit (regimeSctlr s r) 0

/-- R343 `background_enabled(regime)`. -/
def backgroundEnabled (s : State) (r : Regime) (k : Bool) : Bool :=
  if regimeUser r then false
  else if s.has .m then bit (s.regions.mpuCtrl.get k) 2
  else bit (regimeSctlr s r) 17

/-- R344, R345 `default_map`. -/
def defaultMap (s : State) (r : Regime) (va : Word) : Prot :=
  let exec :=
    if s.has .m then inRange 0 0x3FFFFFFF va || inRange 0x60000000 0x9FFFFFFF va
    else inRange 0 0x7FFFFFFF va || (bit (regimeSctlr s r) 13 && inRange 0xF0000000 0xFFFFFFFF va)
  if exec then protAll else protRW

/-- R339 `older_ap(ap, user)`. -/
def olderAp (s : State) (ap : Nat) (user : Bool) : Prot :=
  match ap with
  | 1 => if user then 0 else protAll
  | 2 => if user then protRX else protAll
  | 3 => protAll
  | 5 => if user then 0 else protRX
  | 6 => protRX
  | 7 => if s.has .m then protRX else 0
  | _ => 0

/-- R336 to R338: region `n` of the older variant is enabled, well programmed, and holds the address in a sub-region that
is not disabled. -/
def olderHit (s : State) (k : Bool) (va : Word) (n : Nat) : Bool :=
  let rsr := tget (s.regions.rsr.get k) n
  let base := (tget (s.regions.rbar.get k) n).toNat
  let rsize := field rsr 1 5
  let span := 2 ^ (rsize + 1)
  let snd := (va.toNat - base) / 2 ^ (rsize + 1 - 3) % 8
  bit rsr 0 && decide (rsize ≠ 0) && !(s.has .m && decide (rsize < 4)) && decide (base % span = 0) &&
  decide (base ≤ va.toNat) && decide (va.toNat ≤ base + span - 1) && !(decide (256 ≤ span) && bit rsr (8 + snd))

/-- R340: region `n` of the newer variant is enabled and holds the address. -/
def newerHit (s : State) (k : Bool) (va : Word) (n : Nat) : Bool :=
  let rlar := tget (s.regions.rlar.get k) n
  bit rlar 0 && decide (tget (s.regions.rbar.get k) n &&& ~~~ 0x1F ≤ va) && decide (va ≤ rlar ||| 0x1F)

/-- Region numbers, the highest first. -/
def regionsDown (s : State) : List Nat := (List.range s.params.mpuNregion).reverse

/-- The private peripheral block of the microcontroller profile (R336, R340). -/
def inPrivateBlock (s : State) (va : Word) : Bool := s.has .m && decide (va.extractLsb' 20 12 = 0xE00)

/-- System space of the microcontroller profile is never executable (R336, R340). -/
def inSystemSpace (s : State) (va : Word) : Bool := s.has .m && decide (va.extractLsb' 29 3 = 0b111)

/-- What a unit answers when no region matches (R336, R340, R343). -/
def onMiss (s : State) (r : Regime) (k : Bool) (va : Word) : Except FaultRec Prot :=
  if backgroundEnabled s r k then .ok (defaultMap s r va) else .error (unitFault .background)

/-- R336 `mpu_older(k, regime, va)`. -/
def mpuOlder (s : State) (r : Regime) (k : Bool) (va : Word) : Except FaultRec Prot :=
  if inPrivateBlock s va then .ok (defaultMap s r va)
  else
    match (regionsDown s).find? (olderHit s k va) with
    | none => onMiss s r k va
    | some n =>
      let racr := tget (s.regions.racr.get k) n
      let prot := olderAp s (field racr 8 3) (regimeUser r)
      .ok (if bit racr 12 || inSystemSpace s va then prot &&& ~~~ protX else prot)

/-- R340 `mpu_newer(k, regime, va)`. -/
def mpuNewer (s : State) (r : Regime) (k : Bool) (va : Word) : Except FaultRec Prot :=
  if inPrivateBlock s va then .ok (defaultMap s r va)
  else
    match (regionsDown s).filter (newerHit s k va) with
    | [] => onMiss s r k va
    | [n] =>
      let rbar := tget (s.regions.rbar.get k) n
      let prot := simpleAp (field rbar 1 2) (regimeUser r)
      .ok (if decide (prot ≠ 0) && !(bit rbar 0 || inSystemSpace s va) then prot ||| protX else prot)
    | _ :: _ :: _ => .error (unitFault .permission)

/-- R330, R357: the security tag of the output, or the fault of the attribution. -/
def attributedTag (s : State) (r : Regime) (va : Word) (kind : Access) : Except FaultRec Bool :=
  let rsec := regimeSecure r
  if !s.has .mSecurity then .ok rsec
  else
    match secAttr s va kind rsec with
    | .error f => .error f
    | .ok a =>
      if kind = .fetch then
        if a.ns = rsec then .error (unitFault (if a.nsc then .nscExec else .secViolation)) else .ok rsec
      else if a.ns then .ok false
      else if !rsec then .error (unitFault .secViolation)
      else .ok rsec

/-- R330: the protection of an address. -/
def unitProt (s : State) (r : Regime) (va : Word) : Except FaultRec Prot :=
  let k := regimeSecure r && s.has .mSecurity
  if mpuDisabled s r k then .ok protAll
  else if s.has .v8 then mpuNewer s r k va
  else mpuOlder s r k va

/-- R330 `translate_mpu(regime, va, kind)`.  The attributes are not computed (R340), in the newer unit either, for which D23 of
spec/92_eei_decisions.md speaks of the indirection registers (DEDUCED, log entry 50). -/
def translateMpu (s : State) (r : Regime) (va : Word) (kind : Access) : XResult :=
  match attributedTag s r va kind with
  | .error f => .error f
  | .ok secure =>
    match unitProt s r va with
    | .error f => .error f
    | .ok prot =>
      if !allows prot kind then .error (unitFault .permission)
      else .ok { phys := zext va, prot := prot, secure := secure, log2size := 5, attrs := 0xFF, sh := 0 }

end Sys2Proof.Machine
end

