-- ==== Sys2Proof/Machine/Xlate.lean ====
section
/-! DEFINITION. The translation dispatcher, the nested regime and the accesses CORE makes through it
(spec/42_translate_flat_short.md rules R230 to R232; spec/43_translate_long.md rules R324 to R327; spec/20_memory.md rule
R86). -/

namespace Sys2Proof.Machine

/-- R230 after the protection units and the nested regimes: one stage of a paged regime. -/
def translateStage (s : State) (r : Regime) (va : DWord) (kind : Access) (b : Bus) : XResult × Bus :=
  if regimeDisabled s r then (.ok (flat r va), b)
  else if usesLongFormat s r then walkLong s (loaderOf s r 8 true) r va kind b
  else if bit (regimeSctlr s r) 23 || s.has .v7 then
    walkShortExtended s (loaderOf s r 4 false) r (lo32 va) kind b
  else walkShortLegacy s (loaderOf s r 4 false) r (lo32 va) kind b

/-- R324, R326: the attributes stage 1 brings to the combination. -/
def stage1Attrs (s : State) (r : Regime) (kind : Access) (x : XOk) : Byte × BitVec 2 :=
  if bit s.sys.hcr 12 then (0xFF, 0)
  else if regimeDisabled s r then (if kind = .fetch then (0x44, 2) else (0x00, 2))
  else (x.attrs, x.sh)

/-- R324, R325: the combined result of the two stages. -/
def combineStages (s : State) (r : Regime) (kind : Access) (x1 x2 : XOk) : XOk :=
  let (a1, h1) := stage1Attrs s r kind x1
  let (a, h) := combineAttrs a1 h1 x2.attrs x2.sh
  { phys := x2.phys, prot := x1.prot &&& x2.prot, secure := false, log2size := min x1.log2size x2.log2size, attrs := a,
    sh := h }

/-- R324 `translate_nested(regime, va, kind)`; `user` selects the privilege of the stage-1 regime. -/
def translateNested (s : State) (user : Bool) (va : DWord) (kind : Access) (b : Bus) : XResult × Bus :=
  match translateStage s (.s1Ns user) va kind b with
  | (.error f, b) => (.error f, b)
  | (.ok x1, b) =>
    if !stage2Enabled s then (.ok x1, b)
    else
      match walkStage2 s x1.phys kind b with
      | (.error f, b) => (.error { f with stage2 := true, s1ptw := false, ipa := x1.phys }, b)
      | (.ok x2, b) => (.ok (combineStages s (.s1Ns user) kind x1 x2), b)

/-- R230 `translate(regime, va, kind)` on the MEM port. -/
def translateOn (s : State) (r : Regime) (va : DWord) (kind : Access) (b : Bus) : XResult × Bus :=
  if s.has .m || s.has .pmsa then (translateMpu s r (lo32 va) kind, b)
  else
    match r with
    | .e10Ns user =>
      if s.has .el2 then translateNested s user va kind b else translateStage s (.s1Ns user) va kind b
    | _ => translateStage s r va kind b

/-- R230 `translate(regime, va, kind)`: nothing but the MEM port changes. -/
def translate (s : State) (r : Regime) (va : DWord) (kind : Access) : XResult × State :=
  let (x, b) := translateOn s r va kind s.bus
  (x, { s with bus := b })

/-- R230: the input address is outside a 32-bit regime, which the command refuses, although R111 has the upper half of a
32-bit virtual address ignored (DEDUCED, log entry 25). -/
def vaTooBig (s : State) (r : Regime) (va : DWord) : Bool := !regimeA64 s r && decide (hi32 va ≠ 0)

/-- The three outcomes of R86. -/
inductive MemOutcome (α : Type) where
  | ok (v : α)
  | xlateFault (f : FaultRec)
  | busFault
  deriving DecidableEq, Repr, Inhabited

/-- R86 `MemRead(addr, 4, r)`. -/
def memRead32 (s : State) (addr : Word) (r : Regime) : MemOutcome Word × State :=
  match translate s r (zext addr) .load with
  | (.error f, s) => (.xlateFault f, s)
  | (.ok t, s) =>
    match s.bus.physRead t.phys 4 t.secure false with
    | (some v, b) => (.ok (lo32 v), { s with bus := b })
    | (none, b) => (.busFault, { s with bus := b })

/-- R86 `MemWrite(addr, 4, v, r)`. -/
def memWrite32 (s : State) (addr v : Word) (r : Regime) : MemOutcome Unit × State :=
  match translate s r (zext addr) .store with
  | (.error f, s) => (.xlateFault f, s)
  | (.ok t, s) =>
    match s.bus.physWrite t.phys 4 (zext v) t.secure false with
    | (true, b) => (.ok (), { s with bus := b })
    | (false, b) => (.busFault, { s with bus := b })

end Sys2Proof.Machine
end

