-- ==== Sys2Proof/Machine/Respond.lean ====
section
/-! DEFINITION. Responses (spec/30_encoding.md rule R112). -/

namespace Sys2Proof.Machine

/-- The state with a response on RSP and a list on its side output. -/
def respondList (s : State) (st : Status) (r0 r1 : DWord) (out : List (Word × DWord)) : State :=
  { s with ports := { s.ports with rsp := some { status := st, r0 := r0, r1 := r1, out := out } } }

/-- The state with a response on RSP.  A caller whose rule names no value for `r0` or `r1` (R167, R169, R192, R204, R212,
R218; the statuses beside OK) passes 0 (DESIGN CHOICE, log entry 48). -/
def respond (s : State) (st : Status) (r0 r1 : DWord) : State := respondList s st r0 r1 []

/-- `OK r0 r1`. -/
def ok (s : State) (r0 r1 : DWord) : State := respond s .ok r0 r1

/-- `ILLEGAL_CMD`: no state changes (R112, R114). -/
def illegal (s : State) : State := respond s .illegalCmd 0 0

/-- `LOCKED` (R490). -/
def lockedOut (s : State) : State := respond s .locked 0 0

/-- An operation that lockup refuses (R490). -/
def unlessLocked (s : State) (t : State) : State := if s.locked then lockedOut s else t

/-- The answer of a translation (R230): `OK` with R126, or `FAULT` with R124. -/
def answerXlate (s : State) : XResult → State
  | .ok x => respond s .ok x.phys (packXOk x)
  | .error f => respond s .fault (packFault f) f.ipa

end Sys2Proof.Machine
end

