-- ==== Sys2Proof/Machine/ExcGeneral.lean ====
section
/-! DEFINITION. Recognising, taking and returning from an exception on the general profile
(spec/45_exception_ops_general.md rules R370 to R410; spec/60_exceptions.md rules R470, R471). -/

namespace Sys2Proof.Config

/-- FREE VALUE: `EXC_FSR` after the `RECOGNIZE` of an event for which no rule gives a fault status code: a function of
the event kind and of the word held before.  Log entry 30. -/
opaque unstatedFsr : BitVec 8 → BitVec 32 → BitVec 32

end Sys2Proof.Config

namespace Sys2Proof.Machine

/-! ## Events -/

/-- Event kinds of the general profile (R470). -/
inductive Event where
  | udef | svc | prefetchAbort | dataAbort | irq | fiq | bkpt | hvc | hypTrap | smc | virq | vfiq | sysregTrap | serror
  deriving DecidableEq, Repr, Inhabited

/-- The event kind of a number (R470). -/
def eventOf (k : BitVec 8) : Option Event :=
  match k.toNat with
  | 1 => some .udef | 2 => some .svc | 3 => some .prefetchAbort | 4 => some .dataAbort | 5 => some .irq
  | 6 => some .fiq | 7 => some .bkpt | 8 => some .hvc | 9 => some .hypTrap | 10 => some .smc | 11 => some .virq
  | 12 => some .vfiq | 13 => some .sysregTrap | 14 => some .serror
  | _ => none

/-- A general-profile kind the instance implements (R470). -/
def eventExists (s : State) : Event → Bool
  | .hvc | .hypTrap | .virq | .vfiq => s.has .el2
  | .smc => s.has .el3
  | _ => true

/-- The aborts: the events that carry a FaultRecord. -/
def isAbort : Event → Bool
  | .prefetchAbort | .dataAbort => true
  | _ => false

/-! ## Fault status codes -/

/-- R272: the code of a kind by level, without the domain; `none` for the kinds that are never folded. -/
def shortCode (f : FaultRec) : Option Word :=
  let by2 (l1 l2 : Word) : Option Word := some (if f.level = 1 then l1 else l2)
  match f.kind with
  | .alignment => some 0x001
  | .accessFlag => by2 0x003 0x006
  | .translation => by2 0x005 0x007
  | .domain => by2 0x009 0x00B
  | .permission => by2 0x00D 0x00F
  | .external => if f.eaWalk then by2 0x00C 0x00E else some 0x008
  | .syncParity => some 0x409
  | .asyncParity => some 0x408
  | .background => some 0x000
  | .addressSize => by2 0x005 0x007
  | .none | .secAmbiguous | .nscExec | .secViolation => none

/-- R272 `fsr_short(fr)`. -/
def fsrShort (f : FaultRec) : Option Word := (shortCode f).map fun c => c ||| BitVec.ofNat 32 (f.domain % 16 * 16)

/-- R322: the 6-bit code of a kind; `none` for the kinds without a long-format code. -/
def longCode (f : FaultRec) : Option Word :=
  let withLevel (c : Word) : Option Word := some (c ||| BitVec.ofNat 32 (f.level % 4))
  match f.kind with
  | .addressSize => withLevel 0x00
  | .translation => withLevel 0x04
  | .accessFlag => withLevel 0x08
  | .permission => withLevel 0x0C
  | .external => if f.eaWalk then withLevel 0x14 else some 0x10
  | .syncParity => some 0x18
  | .asyncParity => some 0x19
  | .alignment => some 0x21
  | .none | .domain | .background | .secAmbiguous | .nscExec | .secViolation => none

/-- R322 `fsr_long(fr)`. -/
def fsrLong (f : FaultRec) : Option Word := (longCode f).map fun c => c ||| 0x200

/-- R471: a FaultRecord a caller may present. -/
def faultRecordOk (s : State) (f : FaultRec) : Bool :=
  let synthetic := decide (f.kind = .secAmbiguous) || decide (f.kind = .nscExec) || decide (f.kind = .secViolation)
  decide (f.kind ≠ .none) && decide (f.level ≤ 3) &&
  !((f.stage2 || f.s1ptw) && (!s.has .el2 || s.has .m)) &&
  !(f.s1ptw && !f.stage2) &&
  !(f.eaWalk && decide (f.kind ≠ .external)) &&
  !(decide (f.domain ≠ 0) && f.formatLong) &&
  !((synthetic || decide (f.kind = .background)) && !(s.has .m || s.has .pmsa)) &&
  !(synthetic && !s.has .mSecurity)

/-- The FaultRecord of an abort's operands (R124, R129, R471); `none` if it is refused. -/
def presentedFault (s : State) (b c : DWord) : Option FaultRec :=
  match unpackFault (b.extractLsb' 32 16) c with
  | none => none
  | some f => if faultRecordOk s f then some f else none

/-! ## RECOGNIZE -/

/-- R374 `abort_target(fr, base)`. -/
def abortTarget (s : State) (f : FaultRec) (base : Nat) : Nat :=
  if f.stage2 then 2
  else if decide (f.kind = .external) && scrBit s 3 then 3
  else base

/-- R373: `base`. -/
def baseTarget (s : State) : Nat :=
  let base := max 1 (curEl s)
  if decide (base = 1) && isSecure s && s.has .el3 && !elIsA64 s 3 then 3 else base

/-- R373: the target before the redirection by `HCR.TGE`. -/
def plainTarget (s : State) (e : Event) (minEl : Nat) (f : Option FaultRec) : Nat :=
  match e with
  | .hvc | .hypTrap => 2
  | .smc => 3
  | .prefetchAbort | .dataAbort =>
    (match f with
     | some f => abortTarget s f (baseTarget s)
     | none => baseTarget s)
  | _ => max (baseTarget s) minEl

/-- R373: the redirection applies. -/
def tgeRedirects (s : State) (t : Nat) : Bool := decide (t = 1) && s.has .el2 && !isSecure s && bit s.sys.hcr 27

/-- R373: `min_el` names a level the instance lacks. -/
def minElMissing (s : State) (minEl : Nat) : Bool :=
  (decide (minEl = 2) && !s.has .el2) || (decide (minEl = 3) && !s.has .el3)

/-- R376 `phys_target_el(k)` for the `SCR` and `HCR` bits that route the event. -/
def physTarget (s : State) (scrPos hcrPos : Nat) : Nat :=
  let rw := if s.has .el3 then bit s.sys.scr 10 else s.has .aarch64
  if scrBit s scrPos then 3
  else if isSecure s then (if s.has .aarch64 then 1 else 3)
  else if hcrBit s hcrPos || hcrBit s 27 then 2
  else if decide (curEl s = 2) && !(s.has .aarch64 && rw) then 2
  else 1

/-- R378: the masks of the current level are overridden. -/
def maskOverride (s : State) (e : Event) (t : Nat) : Bool :=
  if decide (curEl s < t) && decide (t ≠ 1) then
    if s.has .aarch64 then decide (t = 3) || !isSecure s
    else
      let granted (hPos sPos wPos : Nat) : Bool :=
        let h := hcrBit s hPos
        let r := scrBit s sPos && !(scrBit s wPos && !h)
        (r || h) && !isSecure s
      match e with
      | .fiq => granted 3 2 4
      | .irq => hcrBit s 4 && !isSecure s
      | .serror => granted 5 3 5
      | _ => false
  else false

/-- R378 `unmasked(k, t)`. -/
def unmasked (s : State) (e : Event) (t : Nat) : Bool :=
  let st := liveStatus s
  if t < curEl s then false
  else
    match e with
    | .vfiq => !isSecure s && hcrBit s 3 && !bit st 6
    | .virq => !isSecure s && hcrBit s 4 && !bit st 7
    | .fiq => maskOverride s e t || !bit st 6
    | .irq => maskOverride s e t || !bit st 7
    | .serror => maskOverride s e t || !bit st 8
    | _ => true

/-- R386: the current stage-1 regime uses the long-descriptor format (R250). -/
def currentRegimeLong (s : State) : Bool := usesLongFormat s (currentRegime s)

/-- R386: `EXC_FSR` of an event that is not an abort, target level `t`. -/
def plainFsr (s : State) (e : Event) (kind : BitVec 8) (t : Nat) : Word :=
  match e with
  | .serror => if currentRegimeLong s then 0x211 else 0x406
  | .bkpt =>
    if decide (t = 2) || elIsA64 s t then Config.unstatedFsr kind s.exc.fsr
    else if currentRegimeLong s then 0x222 else 0x002
  | _ => Config.unstatedFsr kind s.exc.fsr

/-- R386, R388: the syndrome and the fault status code of an abort; `none` if the kind has no code in the format, which is
long for level 2, a 64-bit target or a record of the long format (D37's "the target's translation format": log entry 50). -/
def abortWords (s : State) (e : Event) (t : Nat) (isWrite : Bool) (f : FaultRec) : Option (Word × Word) :=
  let long := decide (t = 2) || elIsA64 s t || f.formatLong
  let same : Word := if t = curEl s then 1 else 0
  let folded := if long then (fsrLong f).map (fun w => (w, w &&& 0x3F)) else (fsrShort f).map (fun w => (w, 0x3F))
  folded.map fun (fsr, fsc) =>
    let common := (1 <<< 25) ||| (flag32 f.s1ptw <<< 7) ||| fsc
    match e with
    | .prefetchAbort => (((0x20 + same) <<< 26) ||| common, fsr)
    | _ => (((0x24 + same) <<< 26) ||| common ||| (flag32 isWrite <<< 6), if isWrite then fsr ||| 0x800 else fsr)

/-- R386: the syndrome of an event that is not an abort; `tge` says that the redirection of R373 was applied. -/
def plainSyndrome (e : Event) (tge : Bool) (b : DWord) : Word :=
  let w := lo32 b
  if tge && decide (e ≠ .hvc) && decide (e ≠ .smc) && decide (field w 26 6 = 0x07) then 0x02000000 else w

/-- R372, the last five lines: the record of the event, the answer. -/
def pend (s : State) (kind : BitVec 8) (t : Nat) (a c : DWord) (fr : BitVec 16) (syn fsr : Word) : State :=
  let exc := { s.exc with
    index := kind, targetEl := BitVec.ofNat 2 t, vaddress := a, ipa := c, fr := fr, syndrome := syn, fsr := fsr,
    phase := .pending }
  ok { s with exc := exc } (BitVec.ofNat 64 t) (zext syn)

/-- R372 for an interrupt or an asynchronous abort with target `t`. -/
def recognizeAsync (s : State) (e : Event) (kind : BitVec 8) (t : Nat) (a b c : DWord) : State :=
  if unmasked s e t then pend s kind t a c 0 (lo32 b) (plainFsr s e kind t)
  else respond s .notTaken 0 0

/-- R372 for a synchronous event.  The target is that of the steps of R373, which do not look at the security state for
level 2 (log entry 41). -/
def recognizeSync (s : State) (e : Event) (kind f2 : BitVec 8) (a b c : DWord) : State :=
  let f := if isAbort e then presentedFault s b c else none
  let t0 := plainTarget s e (minElOf f2) f
  let tge := tgeRedirects s t0
  let t := if tge then 2 else t0
  if (isAbort e && f.isNone) || minElMissing s (minElOf f2) || decide (t < curEl s) then illegal s
  else
    match f with
    | none => pend s kind t a c 0 (plainSyndrome e tge b) (plainFsr s e kind t)
    | some f =>
      match abortWords s e t (isWriteOf f2) f with
      | none => illegal s
      | some (syn, fsr) => pend s kind t a c (b.extractLsb' 32 16) syn fsr

/-- R372 `RECOGNIZE` on the general profile, the operands in range. -/
def recognizeGeneral (s : State) (kind f2 : BitVec 8) (a b c : DWord) : State :=
  if s.exc.phase = .pending then illegal s
  else
    match eventOf kind with
    | none => illegal s
    | some e =>
      if !eventExists s e then illegal s
      else
        match e with
        | .irq => recognizeAsync s e kind (physTarget s 1 4) a b c
        | .fiq => recognizeAsync s e kind (physTarget s 2 3) a b c
        | .serror => recognizeAsync s e kind (physTarget s 3 5) a b c
        | .virq | .vfiq => recognizeAsync s e kind 1 a b c
        | _ => recognizeSync s e kind f2 a b c

/-! ## TAKE_EXCEPTION -/

/-- `fr` of R390 to R395: `stage2` of `EXC_FR`. -/
def pendStage2 (s : State) : Bool := bit s.exc.fr 12

/-- `fr.kind = EXTERNAL` of `EXC_FR`. -/
def pendExternal (s : State) : Bool := decide (faultKindOf (field s.exc.fr 0 5) = some .external)

/-- R395: the value written to `HPFAR_EL2`. -/
def hpfarOf (ipa : DWord) : DWord := ((ipa >>> 12) &&& 0xFFFFFFFFF) <<< 4

/-- R395: `HPFAR_EL2` written if the pending abort arose in stage 2. -/
def writeHpfar (s : State) : State :=
  if pendStage2 s then { s with sys := { s.sys with hpfar := hpfarOf s.exc.ipa } } else s

/-- `FAR_EL[l]` with the half that is `IFAR` or `HIFAR` replaced (R50). -/
def writeIfar (s : State) (l : Lvl) (v : Word) : State :=
  { s with sys := { s.sys with far := s.sys.far.set l (withHi (s.sys.far.get l) v) } }

/-- `FAR_EL[l]` with the half that is `DFAR` or `HDFAR` replaced (R50). -/
def writeDfar (s : State) (l : Lvl) (v : Word) : State :=
  { s with sys := { s.sys with far := s.sys.far.set l (withLo (s.sys.far.get l) v) } }

/-- `ESR_EL[l] <- zext(v)`. -/
def writeEsr (s : State) (l : Lvl) (v : Word) : State :=
  { s with sys := { s.sys with esr := s.sys.esr.set l (zext v) } }

/-- `IFSR` of a bank. -/
def writeIfsr (s : State) (secure : Bool) (v : Word) : State :=
  { s with sys := { s.sys with ifsr := s.sys.ifsr.set secure v } }

/-- The level whose storage a security bank of the 32-bit state uses (R40). -/
def bankLvl (secure : Bool) : Lvl := if secure then .l3 else .l1

/-- Which fault registers a row of R390 writes. -/
inductive FaultRegs where
  | none | instr | data | dataStatus
  deriving DecidableEq, Repr, Inhabited

/-- A row of the entry table of R390. -/
structure EntryRow where
  mode : Mode
  off  : Word
  mask : Word
  link : Word
  regs : FaultRegs
  deriving DecidableEq, Repr, Inhabited

/-- The entry table of R390; `HVC` has no row. -/
def entryRow (s : State) : Event → Option EntryRow
  | .udef | .sysregTrap | .hypTrap =>
    some { mode := .und, off := 0x04, mask := iBit, link := if bit s.a32.cpsr tPos then 2 else 4, regs := .none }
  | .svc => some { mode := .svc, off := 0x08, mask := iBit, link := 0, regs := .none }
  | .prefetchAbort | .bkpt => some { mode := .abt, off := 0x0C, mask := aBit ||| iBit, link := 4, regs := .instr }
  | .dataAbort => some { mode := .abt, off := 0x10, mask := aBit ||| iBit, link := 8, regs := .data }
  | .serror => some { mode := .abt, off := 0x10, mask := aBit ||| iBit, link := 8, regs := .dataStatus }
  | .irq | .virq => some { mode := .irq, off := 0x18, mask := aBit ||| iBit, link := 4, regs := .none }
  | .fiq | .vfiq => some { mode := .fiq, off := 0x1C, mask := aBit ||| iBit ||| fBit, link := 4, regs := .none }
  | .smc => some { mode := .mon, off := 0x08, mask := aBit ||| iBit ||| fBit, link := 0, regs := .none }
  | .hvc => none

/-- The fault registers of a row written in bank `fb` (R390, R396). `SERROR` writes the status word: R390 is followed over
the table of R396 (DESIGN CHOICE, log entry 42). -/
def writeFaultRegs (s : State) (regs : FaultRegs) (fb : Bool) : State :=
  match regs with
  | .none => s
  | .instr => writeIfar (writeIfsr s fb s.exc.fsr) (bankLvl fb) (lo32 s.exc.vaddress)
  | .data => writeDfar (writeEsr s (bankLvl fb) s.exc.fsr) (bankLvl fb) (lo32 s.exc.vaddress)
  | .dataStatus => writeEsr s (bankLvl fb) s.exc.fsr

/-- R392: the status word of the handler before `E`, `T` and the masks: `IT`, `IL`, `J` cleared, the new mode. -/
def handlerCpsr (w : Word) (m : Mode) : Word :=
  setBit (setBit (setModeField (w &&& ~~~ itBits) m.num) ilPos false) jPos false

/-- What an entry saves of the state it leaves: "exactly the program counter and status word present when it is called"
(R473), `PSTATE` with `nRW` = 0 and `PC64` in the 64-bit state (R25, R27, R394), `CPSR` and `R[15]` in the 32-bit state. -/
structure Outgoing where
  status : Word
  pc     : DWord
  deriving DecidableEq, Repr, Inhabited

/-- R473: what an entry from the state saves. -/
def outgoing (s : State) : Outgoing :=
  if s.aarch64 then { status := s.a64.pstate &&& ~~~ 0x10, pc := s.a64.pc }
  else { status := s.a32.cpsr, pc := zext (rget s 15) }

/-- The 32-bit mode in which the mapping of R163 presents a level of the 64-bit state; R404 leaves level 0 alone to be in that
state under a 32-bit level. -/
def modeOfLevel : Nat → Mode
  | 0 => .usr
  | 1 => .svc
  | 2 => .hyp
  | _ => .mon

/-- An entry to a 32-bit level from the 64-bit state changes the execution state, so the views are brought into agreement
(R24) as R404 does it: the stack pointer saved, `AARCH64` 0, the status word with the mode of the level, R163
`sync_64_to_32` (DEDUCED, log entry 43). -/
def leave64 (s : State) : State :=
  let m := modeOfLevel (curEl s)
  sync64To32 (withCpsr { saveSp s (curEl s) with aarch64 := false } (setModeField s.a64.pstate m.num))

/-- R392 `take_aarch32(mode, mask, link, newpc)`, `o` the status word and program counter that it saves (R473). -/
def takeAarch32 (s : State) (o : Outgoing) (m : Mode) (mask link newpc : Word) : State :=
  let s := switchMode s m.num
  let s := withCpsr s (setBit s.a32.cpsr ssPos false)
  let s := { s with a32 := { s.a32 with spsr := zext (setBit o.status ssPos false) } }
  let s := withCpsr s (handlerCpsr s.a32.cpsr m)
  let s := withCpsr s (setBit s.a32.cpsr ePos (bit (sctlr s (curEl s)) 25) ||| mask)
  let s :=
    if m = .hyp then
      let s := withCpsr s (setBit s.a32.cpsr tPos (bit (sctlr s 2) 30))
      { s with a64 := { s.a64 with elrEl := s.a64.elrEl.set .l2 o.pc } }
    else
      let s := withCpsr s (setBit s.a32.cpsr tPos (bit (s.sys.sctlr.get (bankLvl (isSecure s))) 30))
      rset s 14 (lo32 o.pc + link)
  rset s 15 newpc

/-- R390, R393: the entry goes to Monitor mode. -/
def toMonitor (s : State) (e : Event) (t : Nat) : Bool :=
  decide (e = .smc) ||
  (decide (t = 3) &&
    ((decide (e = .irq) && scrBit s 1) || (decide (e = .fiq) && scrBit s 2) ||
     (scrBit s 3 && (decide (e = .serror) || (isAbort e && pendExternal s))) || !isSecure s))

/-- R390 `take_to_32(k, t)`. -/
def takeTo32 (s : State) (o : Outgoing) (e : Event) (t : Nat) (row : EntryRow) : State :=
  let mon := toMonitor s e t
  let mode := if mon then .mon else row.mode
  let mask := if mon then aBit ||| iBit ||| fBit else row.mask
  let fb := mon || isSecure s
  let s := writeFaultRegs s row.regs fb
  let s := if inMode s .mon then { s with sys := { s.sys with scr := setBit s.sys.scr 0 false } } else s
  let base :=
    if mon then s.sys.mvbar
    else if bit (s.sys.sctlr.get (bankLvl fb)) 13 then 0xFFFF0000
    else lo32 (s.sys.vbar.get (bankLvl fb))
  takeAarch32 s o mode mask row.link (base + row.off)

/-- R391: the vector offset of an event; the events never routed to level 2 have none. -/
def hypOffset : Event → Option Word
  | .udef => some 0x04
  | .hvc => some 0x08
  | .prefetchAbort | .bkpt => some 0x0C
  | .dataAbort | .serror => some 0x10
  | .svc | .hypTrap | .sysregTrap => some 0x14
  | .irq => some 0x18
  | .fiq => some 0x1C
  | .smc | .virq | .vfiq => none

/-- R391: the word written to `ESR_EL[2]`. -/
def hypSyndrome (s : State) (e : Event) : Word :=
  let syn := s.exc.syndrome
  if !s.has .v8 && (decide (e = .prefetchAbort) || (decide (e = .dataAbort) && !bit syn 24) || decide (field syn 26 6 = 0))
  then setBit syn 25 false else syn

/-- R391: the fault registers of an entry to Hypervisor mode.  `SERROR` writes the syndrome as R391 says, although the table
of R396 lists none for it (DESIGN CHOICE, log entry 42). -/
def hypFaultRegs (s : State) (e : Event) : State :=
  let s := if e = .prefetchAbort ∨ e = .bkpt then writeIfar s .l2 (lo32 s.exc.vaddress) else s
  let s := if e = .dataAbort then writeDfar s .l2 (lo32 s.exc.vaddress) else s
  let s := if e = .irq ∨ e = .fiq then s else writeEsr s .l2 (hypSyndrome s e)
  writeHpfar s

/-- R391 `take_to_hyp(k)`. -/
def takeToHyp (s : State) (o : Outgoing) (e : Event) (off : Word) : State :=
  let off := if decide (curEl s ≠ 2) && decide (off < 0x14) then 0x14 else off
  let s := hypFaultRegs s e
  let mask := (if scrBit s 3 then 0 else aBit) ||| (if scrBit s 1 then 0 else iBit) ||| (if scrBit s 2 then 0 else fBit)
  takeAarch32 s o .hyp mask 0 (lo32 (s.sys.vbar.get .l2) + off)

/-- R394: the slot of the level being left. -/
def slotOffset (s : State) (t : Nat) : DWord :=
  if curEl s < t then (if s.aarch64 then 0x400 else 0x600)
  else if spField s.a64.pstate then 0x200
  else 0

/-- R394: the offset of the event. -/
def eventOffset : Event → DWord
  | .irq | .virq => 0x080
  | .fiq | .vfiq => 0x100
  | .serror => 0x180
  | _ => 0

/-- R394: the word written to `ESR_EL[t]` by a synchronous event. -/
def syndrome64 (syn : Word) : Word := if field syn 26 6 = 0x07 then syn &&& ~~~ 0xFFFFF else syn

/-- R394, R395: the fault registers of an entry to a 64-bit level.  `BKPT` leaves the fault address as R394 says, although
the table of R396 lists one for it (DESIGN CHOICE, log entry 42). -/
def faultRegs64 (s : State) (e : Event) (t : Nat) : State :=
  let l := lvlOf t
  let s := if isAbort e then { s with sys := { s.sys with far := s.sys.far.set l s.exc.vaddress } } else s
  let s :=
    match e with
    | .irq | .virq | .fiq | .vfiq => s
    | .serror => writeEsr s l s.exc.syndrome
    | _ => writeEsr s l (syndrome64 s.exc.syndrome)
  if t = 2 then writeHpfar s else s

/-- `BANK_SPSR[j] <- v`. -/
def writeBankSpsr (s : State) (j : Nat) (v : DWord) : State :=
  { s with a32 := { s.a32 with bankSpsr := vset s.a32.bankSpsr j v } }

/-- `ELR_EL[t] <- v`. -/
def writeElr (s : State) (t : Nat) (v : DWord) : State :=
  { s with a64 := { s.a64 with elrEl := s.a64.elrEl.set (lvlOf t) v } }

/-- R394: what entry to level `t` saves of the state it leaves.  The status word and the return address are saved last, so
`BANK_SPSR[j]` holds the status word present (R473, R476) also where the live 32-bit mode has that bank, whose older content
`sync_32_to_64` saves there (log entry 24). -/
def saveOutgoing (s : State) (t : Nat) : State :=
  let o := outgoing s
  let s :=
    if s.aarch64 then saveSp s (curEl s)
    else
      let s := sync32To64 s
      withCpsr s (s.a32.cpsr &&& ~~~ itBits)
  writeElr (writeBankSpsr s (spsrBankOfEl t) (zext o.status)) t o.pc

/-- R394: the status word of the handler at level `t`. -/
def handlerPstate (w : Word) (t : Nat) : Word := (w &&& nzcvBits) ||| daifBits ||| (BitVec.ofNat 32 t <<< 2) ||| 1

/-- R394 `take_to_64(k, t)`. -/
def takeTo64 (s : State) (e : Event) (t : Nat) : State :=
  let addr := s.sys.vbar.get (lvlOf t) + slotOffset s t + eventOffset e
  let status := liveStatus s
  let s := faultRegs64 s e t
  let s := saveOutgoing s t
  let s := pstateWrite s (handlerPstate status t)
  let s := { s with aarch64 := true }
  let s := restoreSp s t
  { s with a64 := { s.a64 with pc := addr } }

/-- R382: the entry of the pending event; `none` for an event that no table routes to the target.  What a 32-bit entry saves
is taken before the views are brought into agreement (R473; log entry 43). -/
def entered (s : State) (e : Event) (t : Nat) : Option State :=
  if elIsA64 s t then some (takeTo64 s e t)
  else
    let o := outgoing s
    let s := if s.aarch64 then leave64 s else s
    if t = 2 then (hypOffset e).map (takeToHyp s o e) else (entryRow s e).map (takeTo32 s o e t)

/-- The exclusive reservation cleared (R32). -/
def clearExclusive (s : State) : State := { s with exclAddr := noReservation }

/-- The phase replaced. -/
def withPhase (s : State) (p : Phase) : State := { s with exc := { s.exc with phase := p } }

/-- The answer of R382 and R402: the new program counter and the new live status word, of the width that `AARCH64` names. -/
def answerPc (s : State) : State := ok s (livePc s) (zext (liveStatus s))

/-- R382 `TAKE_EXCEPTION` on the general profile. Its steps refuse a target below the current level and no other: an event
recorded for level 2 is entered in Secure state too (DEDUCED, log entry 41). -/
def takeGeneral (s : State) : State :=
  let t := s.exc.targetEl.toNat
  if s.exc.phase ≠ .pending then illegal s
  else
    match eventOf s.exc.index with
    | none => illegal s
    | some e =>
      if t < curEl s then illegal s
      else
        match entered s e t with
        | none => illegal s
        | some s' => answerPc (withPhase (clearExclusive s') .active)

/-! ## EXC_RETURN -/

/-- R406 `el_from_spsr(spsr)`; `none` = not a level. -/
def elFromSpsr (spsr : Word) : Option Nat :=
  if bit spsr 4 then
    match modeOf? (modeField spsr) with
    | some .usr => some 0
    | some .hyp => some 2
    | some .mon => none
    | some _ => some 1
    | none => none
  else if bit spsr 1 then none
  else if field spsr 0 4 = 1 then none
  else some (field spsr 2 2)

/-- R404: the return from level `c` to level `el` is legal. -/
def returnLegal (s : State) (c el : Nat) (to64 : Bool) : Bool :=
  decide (el ≤ c) && !(decide (el = 2) && !s.has .el2) && !(decide (el = 2) && secureBelowEl3 s) &&
  !(decide (el ≠ 0) && (elIsA64 s el != to64)) &&
  !(decide (el = 1) && s.has .el2 && bit s.sys.hcr 27 && !secureBelowEl3 s)

/-- R409: `PSTATE.SS` cleared unless single-step is active. -/
def dropSs64 (s : State) : State :=
  if ssActive s then s else { s with a64 := { s.a64 with pstate := setBit s.a64.pstate ssPos false } }

/-- R409: `CPSR.SS` cleared unless single-step is active. -/
def dropSs32 (s : State) : State :=
  if ssActive s then s else withCpsr s (setBit s.a32.cpsr ssPos false)

/-- `PC64 <- v`. -/
def withPc64 (s : State) (v : DWord) : State := { s with a64 := { s.a64 with pc := v } }

/-- R404, the illegal return from level `c` with saved word `spsr`, the stack pointer saved. -/
def illegalReturn64 (s : State) (c : Nat) (spsr : Word) : State :=
  let pc := s.a64.elrEl.get (lvlOf c)
  let w := merge (setBit s.a64.pstate ilPos true) spsr (nzcvBits ||| daifBits)
  let s := withPc64 { s with a64 := { s.a64 with pstate := w } } pc
  restoreSp (dropSs64 s) c

/-- R404, the return to level `el` in the 64-bit state. -/
def returnTo64 (s : State) (c el : Nat) (spsr : Word) : State :=
  let pc := s.a64.elrEl.get (lvlOf c)
  withPc64 (restoreSp (dropSs64 (pstateWrite s spsr)) el) pc

/-- R404, R408: the return to the 32-bit state. -/
def returnTo32 (s : State) (c : Nat) (spsr : Word) : State :=
  let pc := lo32 (s.a64.elrEl.get (lvlOf c))
  let s := cpsrWrite { s with aarch64 := false } spsr 0xFFFFFFFF .raw
  rset (sync64To32 (dropSs32 s)) 15 (alignPc (bit spsr tPos) pc)

/-- R404 `return_64`. -/
def return64 (s : State) : State :=
  let c := curEl s
  let spsr := lo32 (vget s.a32.bankSpsr (spsrBankOfEl c))
  let s := saveSp s c
  let to64 := !bit spsr 4
  match elFromSpsr spsr with
  | none => illegalReturn64 s c spsr
  | some el =>
    if !returnLegal s c el to64 then illegalReturn64 s c spsr
    else if to64 then returnTo64 s c el spsr
    else returnTo32 s c spsr

/-- R405 `return_32(pc)`.  Its status-word write keeps `A` and `F` where R156 does not let the current state change them,
also in a return from the handler that masked them (against R411's sentence on the round trip: DESIGN CHOICE, log entry
45). -/
def return32 (s : State) (pc : Word) : State :=
  let spsr := lo32 s.a32.spsr
  let s := cpsrWrite s spsr 0xFF1FFFFF .excReturn
  let s := withCpsr s (setBit s.a32.cpsr ssPos (bit spsr ssPos && ssActive s))
  rset s 15 (alignPc (bit s.a32.cpsr tPos) pc)

/-- R402: `A` is used. -/
def returnUsesA (s : State) : Bool := !s.aarch64 && !inMode s .hyp

/-- R402 `EXC_RETURN` on the general profile. -/
def returnGeneral (s : State) (a : DWord) : State :=
  if s.exc.phase = .pending then illegal s
  else if curEl s = 0 then illegal s
  else if !s.aarch64 && inMode s .sys then illegal s
  else if !returnUsesA s && decide (a ≠ 0) then illegal s
  else
    let s := clearExclusive s
    let s :=
      if s.aarch64 then return64 s
      else if inMode s .hyp then return32 s (lo32 (s.a64.elrEl.get .l2))
      else return32 s (lo32 a)
    answerPc (withPhase s .none)

end Sys2Proof.Machine
end

