-- ==== Sys2Proof/Machine/ExcMicro.lean ====
section
/-! DEFINITION. Recognising, taking and returning from an exception on the microcontroller profile
(spec/46_exception_ops_micro.md rules R420 to R455). -/

namespace Sys2Proof.Machine

/-! ## Fault status bits -/

/-- Bits of `CFSR[k]` set (R60). -/
def setCfsr (s : State) (secure : Bool) (bits : Word) : State := cfsrSet s secure (cfsrGet s secure ||| bits)

/-- Bits of `SFSR` set (R59). -/
def setSfsr (s : State) (bits : Byte) : State := { s with msys := { s.msys with sfsr := s.msys.sfsr ||| bits } }

/-- Bits of `HFSR` set (R60). -/
def setHfsr (s : State) (bits : Word) : State := { s with msys := { s.msys with hfsr := s.msys.hfsr ||| bits } }

/-- `SFAR <- v`. -/
def withSfar (s : State) (v : Word) : State := { s with msys := { s.msys with sfar := v } }

/-- `BFAR <- v`. -/
def withBfar (s : State) (v : Word) : State := { s with msys := { s.msys with bfar := v } }

/-- `MMFAR[k] <- v`. -/
def withMmfar (s : State) (secure : Bool) (v : Word) : State :=
  { s with msys := { s.msys with mmfar := s.msys.mmfar.set secure v } }

def iaccviol : Word := 0x00000001
def daccviol : Word := 0x00000002
def munstkerr : Word := 0x00000008
def mstkerr : Word := 0x00000010
def mmarvalid : Word := 0x00000080
def ibuserr : Word := 0x00000100
def preciserr : Word := 0x00000200
def impreciserr : Word := 0x00000400
def unstkerr : Word := 0x00000800
def stkerr : Word := 0x00001000
def bfarvalid : Word := 0x00008000
def undefinstr : Word := 0x00010000
def invstate : Word := 0x00020000
def invpc : Word := 0x00040000
def nocp : Word := 0x00080000
def stkof : Word := 0x00100000
def unaligned : Word := 0x01000000
def divbyzero : Word := 0x02000000
def vecttbl : Word := 0x00000002
def forced : Word := 0x40000000
def invep : Byte := 0x01
def invis : Byte := 0x02
def inver : Byte := 0x04
def auviol : Byte := 0x08
def invtran : Byte := 0x10
def sfarvalid : Byte := 0x40

/-! ## Classification -/

/-- Event kinds of the microcontroller profile (R470). -/
inductive MEvent where
  | udef | nocp | invstate | svc | prefetchAbort | dataAbort | bkpt | number | unalignedAccess | divByZero | stackOverflow
  deriving DecidableEq, Repr, Inhabited

/-- The event kind of a number (R470). -/
def mEventOf (k : BitVec 8) : Option MEvent :=
  match k.toNat with
  | 32 => some .udef | 33 => some .nocp | 34 => some .invstate | 35 => some .svc | 36 => some .prefetchAbort
  | 37 => some .dataAbort | 38 => some .bkpt | 39 => some .number | 40 => some .unalignedAccess | 41 => some .divByZero
  | 42 => some .stackOverflow
  | _ => none

/-- The aborts. -/
def isMAbort : MEvent → Bool
  | .prefetchAbort | .dataAbort => true
  | _ => false

/-- `AIRCR.BFHFNMINS` (R61). -/
def bfhfnmins (s : State) : Bool := bit s.msys.aircr 13

/-- R421 `m_target(n, s)`. -/
def mTarget (s : State) (n : Nat) (secure : Bool) : Bool :=
  s.has .mSecurity &&
  (match n with
   | 2 => !bfhfnmins s
   | 3 => secure || !bfhfnmins s
   | 5 => !bfhfnmins s
   | 7 => true
   | _ => secure)

/-- R440, R471: an abort classified: the exception number, the bank proposed, the state with its status bits.  `NSC_EXEC`
selects SecureFault for a data abort too (R471's table), with the only status bit R440 gives the kind (DEDUCED, log entry
47). -/
def classifyAbort (s : State) (e : MEvent) (f : FaultRec) (addr : Word) : Nat × Bool × State :=
  let b := s.m.secure
  let data := decide (e = .dataAbort)
  match f.kind, data with
  | .nscExec, _ => (7, b, setSfsr s invep)
  | .secViolation, false => (7, b, setSfsr s (if b then invtran else invep))
  | .secViolation, true => (7, b, withSfar (setSfsr s (auviol ||| sfarvalid)) addr)
  | .secAmbiguous, false => (7, b, setSfsr s auviol)
  | .secAmbiguous, true => (7, b, withSfar (setSfsr s (auviol ||| sfarvalid)) addr)
  | .external, false => (5, b, setCfsr s b ibuserr)
  | .external, true => (5, b, withBfar (setCfsr s b (preciserr ||| bfarvalid)) addr)
  | .syncParity, true => (5, b, setCfsr s b preciserr)
  | .asyncParity, true => (5, b, setCfsr s b impreciserr)
  | .alignment, true => (6, b, setCfsr s b unaligned)
  | _, false => (4, b, setCfsr s b iaccviol)
  | _, true => (4, b, withMmfar (setCfsr s b (daccviol ||| mmarvalid)) b addr)

/-- R424, R440 `classify(k)`; `f` is the FaultRecord of an abort. -/
def classify (s : State) (e : MEvent) (f : FaultRec) (addr : Word) : Nat × Bool × State :=
  let b := s.m.secure
  match e with
  | .udef => (6, b, setCfsr s b undefinstr)
  | .nocp => (6, b, setCfsr s b nocp)
  | .invstate => (6, b, setCfsr s b invstate)
  | .divByZero => (6, b, setCfsr s b divbyzero)
  | .unalignedAccess => (6, b, setCfsr s b unaligned)
  | .stackOverflow => (6, b, setCfsr s b stkof)
  | .svc => (11, b, s)
  | .bkpt => (12, b, s)
  | .prefetchAbort | .dataAbort => classifyAbort s e f addr
  | .number => (0, b, s)

/-! ## RECOGNIZE -/

/-- A reserved exception number, or one that cannot be presented (R421, R423). -/
def badNumber (n : Nat) : Bool := decide (n < 2) || decide (n = 8) || decide (n = 9) || decide (n = 10) || decide (n = 13)

/-- The number and bank of the pended exception replaced. -/
def pendNumber (s : State) (n : Nat) (secure : Bool) : State :=
  { s with exc := { s.exc with mNumber := BitVec.ofNat 9 n, mSecure := secure } }

/-- The FaultRecord word `EXC_FR` of an event: `B[47:32]` for an abort, 0 for any other.  R37 says "0 for other events", R129
gives `B[47:32]` a meaning for aborts only, and R372, the general form that R423 names, writes 0 "when k is not an abort"
(DEDUCED, log entry 33). -/
def recordFr (e : MEvent) (b : DWord) : BitVec 16 := if isMAbort e then b.extractLsb' 32 16 else 0

/-- R423 for `M_EXCEPTION_NUMBER`. -/
def recognizeNumber (s : State) (kind f2 : BitVec 8) (c : DWord) : State :=
  let n := field c 0 9
  if badNumber n then illegal s
  else if mTargetSecureOf f2 && !s.has .mSecurity then illegal s
  else
    let exc := { s.exc with
      mNumber := BitVec.ofNat 9 n, mSecure := mTargetSecureOf f2, syndrome := flag32 (bit c 9),
      mDerived := if s.exc.phase = .pending then s.exc.mDerived else false, index := kind, fr := recordFr .number 0,
      phase := .pending }
    ok { s with exc := exc } (BitVec.ofNat 64 n) (flag64 (mTargetSecureOf f2))

/-- R423 for the other events; `f` is the FaultRecord of an abort. -/
def recognizeEvent (s : State) (e : MEvent) (kind : BitVec 8) (a b : DWord) (f : FaultRec) : State :=
  if mNegPri s then
    if decide (e = .dataAbort) && decide (f.kind = .external) && bit (s.msys.ccr.get s.m.secure) 8 then
      respond s .notTaken 0 0
    else lockedOut { (classify s e f (lo32 a)).2.2 with locked := true }
  else
    let (n, secure, s) := classify s e f (lo32 a)
    let target := mTarget s n secure
    let exc := { s.exc with
      index := kind, mNumber := BitVec.ofNat 9 n, mSecure := target, mDerived := false, syndrome := 0, vaddress := a,
      fr := recordFr e b, phase := .pending }
    ok { s with exc := exc } (BitVec.ofNat 64 n) (flag64 target)

/-- R423 `RECOGNIZE` on the microcontroller profile, the operands in range. -/
def recognizeMicro (s : State) (kind f2 : BitVec 8) (a b c : DWord) : State :=
  match mEventOf kind with
  | none => illegal s
  | some e =>
    if e = .number then recognizeNumber s kind f2 c
    else if s.exc.phase = .pending then illegal s
    else if isMAbort e then
      match presentedFault s b c with
      | none => illegal s
      | some f => recognizeEvent s e kind a b f
    else recognizeEvent s e kind a b (shortFault .none 0 0)

/-! ## Frames -/

/-- A derived exception: its number and its bank. -/
structure Derived where
  num    : Nat
  secure : Bool
  deriving DecidableEq, Repr, Inhabited

/-- R445: a failed frame access classified: the derived exception and the state with its status bits. -/
def classifyFrame (s : State) (o : MemOutcome α) (r : Regime) (push : Bool) (addr : Word) : Derived × State :=
  match o with
  | .xlateFault f =>
    if f.kind = .secViolation ∨ f.kind = .secAmbiguous then
      (⟨7, true⟩, withSfar (setSfsr s (auviol ||| sfarvalid)) addr)
    else (⟨4, regimeSecure r⟩, setCfsr s (regimeSecure r) (if push then mstkerr else munstkerr))
  | _ => (⟨5, mTarget s 5 false⟩, setCfsr s (regimeSecure r) (if push then stkerr else unstkerr))

/-- R436, R437: words stored in ascending order at ascending addresses, stopping at the first failure. -/
def pushWords (s : State) (r : Regime) : List (Word × Word) → Option Derived × State
  | [] => (none, s)
  | (addr, v) :: rest =>
    match memWrite32 s addr v r with
    | (.ok _, s) => pushWords s r rest
    | (o, s) =>
      let (d, s) := classifyFrame s o r true addr
      (some d, s)

/-- The result of a list of frame loads. -/
inductive PopResult where
  | done
  | failed (d : Derived)
  deriving DecidableEq, Repr, Inhabited

/-- R453: words loaded in ascending order into the registers of a list, stopping at the first failure; registers loaded
before it keep the loaded values. -/
def popRegs (s : State) (r : Regime) : List (Word × Nat) → PopResult × State
  | [] => (.done, s)
  | (addr, i) :: rest =>
    match memRead32 s addr r with
    | (.ok v, s) => popRegs (rset s i v) r rest
    | (o, s) =>
      let (d, s) := classifyFrame s o r false addr
      (.failed d, s)

/-- One word loaded (R453), or the derived exception of its failure. -/
def popWord (s : State) (r : Regime) (addr : Word) : Except Derived Word × State :=
  match memRead32 s addr r with
  | (.ok v, s) => (.ok v, s)
  | (o, s) =>
    let (d, s) := classifyFrame s o r false addr
    (.error d, s)

/-- R434: the frame pointer before the frame, and whether it was realigned. -/
def frameTop (s : State) : Word × Bool :=
  let sp := rget s 13
  if bit sp 2 && bit (s.msys.ccr.get s.m.secure) 9 then (sp - 4, true) else (sp, false)

/-- R433: the eight words of the basic frame. -/
def basicFrame (s : State) (fp : Word) (realigned : Bool) : List (Word × Word) :=
  [(fp, rget s 0), (fp + 0x04, rget s 1), (fp + 0x08, rget s 2), (fp + 0x0C, rget s 3), (fp + 0x10, rget s 12),
   (fp + 0x14, rget s 14), (fp + 0x18, rget s 15), (fp + 0x1C, setBit (xpsrWord s) spRealignPos realigned)]

/-- R436 `push_basic_frame`. -/
def pushBasicFrame (s : State) : Option Derived × State :=
  let (top, realigned) := frameTop s
  let fp := top - 0x20
  let (d, s') := pushWords s (currentRegime s) (basicFrame s fp realigned)
  (d, rset s' 13 fp)

/-- The integrity signature (R433). -/
def integritySignature : Word := 0xFEFA125B

/-- R433: the nine words of the callee part. -/
def calleeFrame (s : State) (cp : Word) : List (Word × Word) :=
  [(cp, integritySignature), (cp + 0x08, rget s 4), (cp + 0x0C, rget s 5), (cp + 0x10, rget s 6), (cp + 0x14, rget s 7),
   (cp + 0x18, rget s 8), (cp + 0x1C, rget s 9), (cp + 0x20, rget s 10), (cp + 0x24, rget s 11)]

/-! ## The return sentinel (R426) -/

/-- Bit 0 `ES`. -/
def esPos : Nat := 0
/-- Bit 2 `SPSEL`. -/
def spselPos : Nat := 2
/-- Bit 3 `MODE`. -/
def modePos : Nat := 3
/-- Bit 5 `DCRS`. -/
def dcrsPos : Nat := 5
/-- Bit 6 `S`. -/
def sPos : Nat := 6

/-- `CONTROL[k].SPSEL`. -/
def controlSpsel (s : State) (secure : Bool) : Bool := bit (s.m.control.get secure) 1

/-- `CONTROL[k].nPRIV`. -/
def controlNpriv (s : State) (secure : Bool) : Bool := bit (s.m.control.get secure) 0

/-- R426 `initial_lr`, by its pseudocode: entered from Handler mode while `CONTROL[0].SPSEL` is 1 the older variant gives
`0xFFFFFFF5`, a value the rule's prose does not list (DESIGN CHOICE, log entry 46). -/
def initialLr (s : State) : Word :=
  let lr :=
    if s.has .v8 then (0xFFFFFF80 ||| 0x30 : Word) ||| (if s.m.secure then 0x40 else 0)
    else (0xFFFFFFF1 : Word) ||| (if controlSpsel s false then 0x4 else 0)
  if s.m.exception = 0 then lr ||| 0x8 else lr

/-- R437 `push_callee_frame(lr, chain, ignore)` before `ignore`: the derived exception of a failed store, if any. -/
def pushCalleeFrame (s : State) (lr : Word) (chain : Bool) : Option Derived × State :=
  if chain then
    let p := bit lr modePos && bit lr spselPos
    let r : Regime := .m true (!bit lr modePos || !controlNpriv s true) false
    let cp := stackOf s true p - 0x28
    let (d, s') := pushWords s r (calleeFrame s cp)
    (d, setStackOf s' true p cp)
  else
    let cp := rget s 13 - 0x28
    let (d, s') := pushWords s (currentRegime s) (calleeFrame s cp)
    (d, rset s' 13 cp)

/-- Registers zeroed. -/
def zeroRegs (s : State) (is : List Nat) : State := rsetAll s (is.map fun i => (i, 0))

/-- `N Z C V Q GE IT` of the microcontroller profile's status word. -/
def xpsrFlags : Word := 0xFE0FFC00

/-- R438, the last step: nothing Secure leaks into a Non-secure handler. -/
def scrub (s : State) (frameSecure : Bool) : State :=
  let s := zeroRegs s [0, 1, 2, 3, 12]
  let s := if frameSecure then zeroRegs s [4, 5, 6, 7, 8, 9, 10, 11] else s
  withXpsr s (s.m.xpsr &&& ~~~ xpsrFlags)

/-- What `adjust_lr_and_registers` answers: the sentinel and the derived fault, or lockup. -/
inductive Adjusted where
  | done (lr : Word) (d : Option Derived)
  | lockup
  deriving DecidableEq, Repr, Inhabited

/-- R438, the first part: the callee part of a Secure frame. -/
def adjustCallee (s : State) (lr : Word) (ts chain : Bool) (d : Option Derived) : Adjusted × State :=
  if s.has .mSecurity && bit lr sPos then
    if ts then (.done (if chain && !bit lr esPos then setBit lr dcrsPos false else lr) d, s)
    else if bit lr dcrsPos && !(chain && !bit lr esPos) then
      let (d2, s) := pushCalleeFrame s lr chain
      if chain && d2.isSome then (.lockup, s)
      else (.done (setBit lr dcrsPos true) (if d.isSome then d else d2), s)
    else (.done (setBit lr dcrsPos true) d, s)
  else (.done lr d, s)

/-- R438 `adjust_lr_and_registers(lr, ts, chain, d)`. -/
def adjustLr (s : State) (lr : Word) (ts chain : Bool) (d : Option Derived) : Adjusted × State :=
  if !s.has .v8 then (.done lr d, s)
  else
    match adjustCallee s lr ts chain d with
    | (.lockup, s) => (.lockup, s)
    | (.done lr d, s) =>
      let lr := setBit lr esPos (ts || !s.has .mSecurity)
      let lr := setBit lr spselPos (controlSpsel s ts)
      (.done lr d, if s.has .mSecurity && !ts then scrub s (bit lr sPos) else s)

/-! ## Vector fetch and activation -/

/-- R431: the security tag of a vector fetch; `none` if the attribution refuses it. -/
def vectorTag (s : State) (vec : Word) (ts : Bool) : Option Bool :=
  if !s.has .mSecurity then some ts
  else
    match secAttr s vec .load ts with
    | .error _ => none
    | .ok a => if a.ns then some false else if ts then some ts else none

/-- R431: the failure of a vector fetch. -/
def vectorFailed (s : State) : State := setHfsr s (vecttbl ||| forced)

/-- R431 `fetch_vector(n, ts)`: a failed fetch sets its status bits. -/
def fetchVector (s : State) (n : Nat) (ts : Bool) : Option Word × State :=
  let vec := s.msys.vtor.get ts + BitVec.ofNat 32 (4 * n)
  match vectorTag s vec ts with
  | none => (none, vectorFailed s)
  | some sec =>
    match s.bus.physRead (zext vec) 4 sec false with
    | (none, b) => (none, vectorFailed { s with bus := b })
    | (some v, b) => (some (lo32 v), { s with bus := b })

/-- `CONTROL[k].SPSEL <- v` (R164). -/
def withSpsel (s : State) (secure v : Bool) : State := setControl s secure (setBit (s.m.control.get secure) 1 v)

/-- R439 `activate(n, ts, lr, v)`. -/
def activate (s : State) (n : Nat) (ts : Bool) (lr v : Word) : State :=
  let s := setException s (BitVec.ofNat 9 n)
  let s := mSwitchSecurity s ts
  let s := withSpsel s ts false
  let s := clearExclusive s
  let s := withXpsr s (setBit (s.m.xpsr &&& ~~~ itBits) xtPos (bit v 0))
  let s := rset s 14 lr
  let s := rset s 15 (v &&& 0xFFFFFFFE)
  let s := if decide (n = 3) && bit s.exc.syndrome 0 then setHfsr s forced else s
  { s with exc := { s.exc with mDerived := false } }

/-- `dn | (ds << 9)` of R422. -/
def packDerived (n : Nat) (secure : Bool) : DWord := BitVec.ofNat 64 n ||| (flag64 secure <<< 9)

/-- R422, R452: a derived exception becomes the pending record, its frame already on the stack; it is no abort that was
presented, so `EXC_FR` is 0 (R37; log entry 33). -/
def pendDerived (s : State) (n : Nat) (secure : Bool) (lr : Word) : State :=
  let exc := { s.exc with
    mNumber := BitVec.ofNat 9 n, mSecure := secure, mDerived := true, mLr := lr, fr := 0, phase := .pending }
  ok { s with exc := exc } 0 (packDerived n secure ||| 0x400)

/-- R422, from the vector fetch on. -/
def takeVector (s : State) (n : Nat) (ts : Bool) (lr : Word) (d : Option Derived) : State :=
  match fetchVector s n ts with
  | (none, s) =>
    if n = 2 ∨ n = 3 then lockedOut { s with locked := true }
    else pendDerived s 3 (mTarget s 3 ts) lr
  | (some v, s) =>
    let s := withPhase (activate s n ts lr v) .active
    ok s (BitVec.ofNat 64 n)
      (match d with
       | some d => packDerived d.num d.secure
       | none => 0)

/-- R422 `TAKE_EXCEPTION` on the microcontroller profile. -/
def takeMicro (s : State) : State :=
  if s.exc.phase ≠ .pending then illegal s
  else
    let n := s.exc.mNumber.toNat
    let ts := s.exc.mSecure
    let chain := s.exc.mDerived
    let (d, s') := if chain then (none, s) else pushBasicFrame s
    match adjustLr s' (if chain then s.exc.mLr else initialLr s) ts chain d with
    | (.lockup, s) => lockedOut { s with locked := true }
    | (.done lr (some d), s) =>
      if 4 ≤ n then pendDerived s d.num d.secure lr else takeVector s n ts lr (some d)
    | (.done lr none, s) => takeVector s n ts lr none

/-! ## EXC_RETURN -/

/-- R452 `chain_fault(n, s, x)`. -/
def chainFault (s : State) (n : Nat) (secure : Bool) (x : Word) : State :=
  pendDerived { s with exc := { s.exc with syndrome := 0 } } n (mTarget s n secure) x

/-- R450: the sentinel was forged by a Non-secure handler. -/
def sentinelForged (s : State) (x : Word) : Bool :=
  s.has .mSecurity && !s.m.secure && (bit x esPos || !bit x dcrsPos)

/-- R450: `FAULTMASK` cleared on every return but the NMI's. -/
def clearFaultmask (s : State) (es negpriRemains : Bool) : State :=
  if s.m.exception = 2 then s
  else if s.has .mSecurity && (decide (s.m.exception = 3) || negpriRemains) then s
  else { s with m := { s.m with faultmask := s.m.faultmask.set es 0 } }

/-- R450: `ufault`. -/
def sentinelBad (s : State) (x : Word) (active rettobase : Bool) : Bool :=
  !active ||
  (if s.has .v8 then
     (!s.has .mSecurity && (bit x sPos || bit x esPos || !bit x dcrsPos)) || bit x 1
   else
     match field x 0 4 with
     | 0x1 => false
     | 0x9 | 0xD => !rettobase && !bit (s.msys.ccr.get s.m.secure) 0
     | _ => true)

/-- R453: the callee part of a frame at `sp`, and the stack pointer above it; a failure is chained. -/
def popCallee (s : State) (x : Word) (r : Regime) (sp : Word) : Except State Word × State :=
  match popWord s r sp with
  | (.error d, s) => (.error (chainFault s d.num d.secure x), s)
  | (.ok sig, s) =>
    if sig ≠ integritySignature then (.error (chainFault (setSfsr s invis) 7 true x), s)
    else
      match popRegs s r [(sp + 0x08, 4), (sp + 0x0C, 5), (sp + 0x10, 6), (sp + 0x14, 7), (sp + 0x18, 8), (sp + 0x1C, 9),
                         (sp + 0x20, 10), (sp + 0x24, 11)] with
      | (.failed d, s) => (.error (chainFault s d.num d.secure x), s)
      | (.done, s) => (.ok (sp + 0x28), s)

/-- R453, from the status word on: the frame is consumed; `p` is the slot it came from. -/
def finishReturn (s : State) (toHandler toSecure p : Bool) (sp xpsr : Word) : State :=
  let sp := sp + 0x20
  let sp := if bit xpsr spRealignPos then sp ||| 4 else sp
  let s := setStackOf s toSecure p sp
  let s := withXpsr s xpsr
  let s := setException s (xpsr.extractLsb' 0 9)
  if !s.has .v8 && (decide (s.m.exception ≠ 0) != toHandler) then
    let s := setCfsr s s.m.secure invpc
    let exc := { s.exc with mNumber := 6, mSecure := false, mDerived := false, fr := 0, phase := .pending }
    ok { s with exc := exc } 0 (6 ||| 0x400)
  else
    let s := withPhase (clearExclusive s) .none
    ok s (zext (rget s 15)) 0

/-- R453: the basic frame at `sp`.  Bit 0 of the program counter is discarded and `T` comes from the status word (R453, R455),
although R25 has that bit moved to `T` (DEDUCED, log entry 51). -/
def popBasic (s : State) (x : Word) (r : Regime) (toHandler toSecure p : Bool) (sp : Word) : State :=
  match popRegs s r [(sp, 0), (sp + 0x04, 1), (sp + 0x08, 2), (sp + 0x0C, 3), (sp + 0x10, 12), (sp + 0x14, 14),
                     (sp + 0x18, 15)] with
  | (.failed d, s) => chainFault s d.num d.secure x
  | (.done, s) =>
    match popWord s r (sp + 0x1C) with
    | (.error d, s) => chainFault s d.num d.secure x
    | (.ok xpsr, s) =>
      let s := rset s 15 (rget s 15 &&& 0xFFFFFFFE)
      if s.has .v8 && (decide (xpsr.extractLsb' 0 9 ≠ 0) != toHandler) then
        chainFault (setCfsr s s.m.secure invpc) 6 s.m.secure x
      else finishReturn s toHandler toSecure p sp xpsr

/-- R453: the protection-unit regime of the frame. -/
def unstackRegime (s : State) (toHandler toSecure negpriRemains : Bool) : Regime :=
  .m toSecure (toHandler || !controlNpriv s toSecure) (decide (s.m.faultmask.get toSecure = 1) || negpriRemains)

/-- R453 `unstack(x, to_handler, to_psp, to_secure, B)`. -/
def unstack (s : State) (x : Word) (toHandler toPsp toSecure negpriRemains : Bool) : State :=
  let p := !toHandler && toPsp
  let sp := stackOf s toSecure p
  let r := unstackRegime s toHandler toSecure negpriRemains
  if toSecure && (!bit x esPos || !bit x dcrsPos) then
    match popCallee s x r sp with
    | (.error t, _) => t
    | (.ok sp, s) => popBasic s x r toHandler toSecure p sp
  else popBasic s x r toHandler toSecure p sp

/-- R450 `EXC_RETURN` on the microcontroller profile. A sentinel with a bit of 63:32 set is refused, as R450 has it, where
R111 ignores those bits of a 32-bit quantity (DEDUCED, log entry 25). -/
def returnMicro (s : State) (a b : DWord) : State :=
  if s.exc.phase = .pending then illegal s
  else if decide (s.m.exception = 0) || decide (field a 24 8 ≠ 0xFF) || decide (hi32 a ≠ 0) then illegal s
  else
    let active := bit b 0
    let rettobase := bit b 1
    let negpriRemains := bit b 2
    let x := lo32 a
    let sfault := sentinelForged s x
    let x := if sfault then setBit x esPos false else x
    let es := s.has .mSecurity && bit x esPos
    let s := clearFaultmask s es negpriRemains
    let toHandler := !bit x modePos
    let toPsp := bit x spselPos
    let toSecure := s.has .mSecurity && bit x sPos
    let ufault := sentinelBad s x active rettobase
    let s := withSpsel s es (bit x spselPos)
    if sfault then chainFault (setSfsr s inver) 7 true x
    else if ufault then chainFault (setCfsr s s.m.secure invpc) 6 s.m.secure x
    else unstack (mSwitchSecurity s toSecure) x toHandler toPsp toSecure negpriRemains

end Sys2Proof.Machine
end

