-- ==== Sys2Proof/Machine/Reset.lean ====
section
/-! DEFINITION. `CPU_RESET` and construction (spec/70_reset_and_hazards.md rules R500 to R506;
spec/41_control_registers.md rules R181, R206). -/

namespace Sys2Proof.Machine

/-- R500 step 1, R501, R39: every reset field at its reset value; the parameters, the registry, the storage of the
catalog, the MEM port and the model's own fields are kept. -/
def clearFields (s : State) : State :=
  { s with
    aarch64 := false, a32 := A32Regs.reset, a64 := A64Regs.zero, fp := FpRegs.zero, m := MRegs.zero, sys := SysRegs.zero,
    msys := MSysRegs.zero, regions := Regions.zero s.params, exclAddr := noReservation, exclVal := 0,
    exc := ExcState.zero, locked := false }

/-- R500 step 3, R504: the region tables and the region-number registers, cleared; the control and attribute registers of
the units keep what step 2 gave them. -/
def clearRegions (s : State) : State :=
  let z := Regions.zero s.params
  { s with regions := { s.regions with
      rbar := z.rbar, rsr := z.rsr, racr := z.racr, rlar := z.rlar, rgnr := z.rgnr, mpuRnr := z.mpuRnr, sauRnr := z.sauRnr,
      sauRbar := z.sauRbar, sauRlar := z.sauRlar } }

/-- R502 on the microcontroller profile. -/
def resetModeM (s : State) : State :=
  { s with m := { s.m with
      secure := s.has .mSecurity, exception := 0, control := ⟨0, 0⟩, xpsr := 0, primask := ⟨0, 0⟩, faultmask := ⟨0, 0⟩,
      basepri := ⟨0, 0⟩ } }

/-- R502 with the 64-bit state; `CPSR`, which the rule does not name there, keeps the reset value of R26. -/
def resetMode64 (s : State) : State :=
  let el := highestEl s.params
  let s := { s with aarch64 := true, a64 := { s.a64 with pstate := 0x3C1 ||| (BitVec.ofNat 32 el <<< 2) } }
  restoreSp s el

/-- R502 without the 64-bit state: Supervisor mode, its bank active. -/
def resetMode32 (s : State) : State :=
  { s with aarch64 := false, a32 := { loadBank s.a32 Mode.svc.num with cpsr := 0x1D3 } }

/-- R500 step 4. -/
def resetMode (s : State) : State :=
  if s.has .m then resetModeM s
  else if s.has .aarch64 then resetMode64 s
  else resetMode32 s

/-- R503, general profile. -/
def resetPcGeneral (s : State) : State :=
  if s.has .aarch64 then { s with a64 := { s.a64 with pc := s.params.resetPc } }
  else
    let pc := lo32 s.params.resetPc
    if bit pc 0 then rset (withCpsr s (setBit s.a32.cpsr tPos true)) 15 (pc &&& 0xFFFFFFFE) else rset s 15 pc

/-- R503, R505, microcontroller profile, the two vector words loaded. -/
def resetVector (s : State) (w0 w1 : Word) : State :=
  let s := { s with m := spSet s.m s.m.secure false w0 }
  let s := rset s 13 (spGet s.m s.m.secure false)
  let s := withXpsr s (setBit s.m.xpsr xtPos (bit w1 0))
  rset s 15 (w1 &&& 0xFFFFFFFE)

/-- R500 steps 5 to 7 on the microcontroller profile; a failed load leaves `R[13]` and `R[15]` 0 (R506). -/
def resetPcMicro (s : State) : State :=
  let s := rset s 14 0xFFFFFFFF
  let k := s.m.secure
  let vec := s.msys.vtor.get k
  let (w0, b) := s.bus.physRead (zext vec) 4 k false
  let (w1, b) := b.physRead (zext (vec + 4)) 4 k false
  let s := { s with bus := b }
  match w0, w1 with
  | some w0, some w1 => answerPc (pulse (resetVector s (lo32 w0) (lo32 w1)))
  | _, _ => lockedOut { rset (rset s 13 0) 15 0 with locked := true }

/-- R500 steps 3 to 7. -/
def resetTail (s : State) : State :=
  let s := resetMode (clearRegions s)
  if s.has .m then resetPcMicro s else answerPc (pulse (resetPcGeneral s))

/-- R500 `CPU_RESET`; while construction has not ended it runs the self-check of R206 after step 2 and ends
construction (R181). -/
def cpuReset (s : State) : Except FatalReason State :=
  let s1 := resetEntries (clearFields s) s.reg
  if s.constructing then
    let (s2, repeats) := selfCheck s1 s.reg
    if repeats then .ok (resetTail { s2 with constructing := false }) else .error .inconsistentReset
  else .ok (resetTail s1)

/-- R181 steps 1 and 2: an instance whose catalog is still to be defined.  What its registers hold before the first
`CPU_RESET` no rule says: the model takes the reset values of R501 and R502 for its features, so R30 holds of them (DESIGN
CHOICE, log entry 14). -/
def State.unbuilt (p : Params) : Except FatalReason State :=
  match closeParams p with
  | .error r => .error r
  | .ok p =>
    match builtinRegistry p with
    | .error r => .error r
    | .ok reg => .ok (resetMode (clearFields { State.reset with params := p, reg := reg, constructing := true }))

/-- R181: the whole construction sequence with a catalog and what is behind the MEM port. -/
def State.construct (p : Params) (catalog : List Template) (bus : Bus) : Except FatalReason State :=
  match State.unbuilt p with
  | .error r => .error r
  | .ok s =>
    match defineAll s.params s.reg catalog with
    | .error r => .error r
    | .ok reg => cpuReset { s with reg := reg, bus := bus }

end Sys2Proof.Machine
end

