-- ==== Sys2Proof/Machine/Ops.lean ====
section
/-! DEFINITION. Taking an exception and returning from one, each as one operation shared by both profiles
(spec/45_exception_ops_general.md, spec/46_exception_ops_micro.md), and the outcome of an operation. -/

namespace Sys2Proof.Machine

/-- What `exec` answers. -/
abbrev Out := Host.Outcome State Fault Refusal

/-- An operation that completes with a response. -/
def done (s : State) : Out := .next s

/-- A configuration that does not come into being (R14). -/
def fatal (r : FatalReason) : Out := .refused (.fatal r)

/-- `RECOGNIZE` (R372, R423). -/
def recognize (s : State) (kind f2 : BitVec 8) (a b c : DWord) : State :=
  if f2.extractLsb' 4 4 ≠ 0 then illegal s
  else if s.has .m then recognizeMicro s kind f2 a b c
  else recognizeGeneral s kind f2 a b c

/-- Taking the pending exception (R382, R422). -/
def takeException (s : State) : State := if s.has .m then takeMicro s else takeGeneral s

/-- Returning from an exception (R402, R450). -/
def returnFromException (s : State) (a b : DWord) : State :=
  if s.has .m then returnMicro s a b else returnGeneral s a

/-- The operand register a `GPR_READ` or `GPR_WRITE` index names (R166). -/
inductive Gpr where
  | r (i : Nat)
  | x (i : Nat)
  | pc64
  deriving DecidableEq, Repr, Inhabited

/-- R166: the register an index names in the current execution state. -/
def gprOf (s : State) (idx : BitVec 8) : Option Gpr :=
  let i := idx.toNat
  if !s.has .m && s.aarch64 then
    if i ≤ 31 then some (.x i) else if i = 32 then some .pc64 else none
  else if i ≤ 15 then some (.r i) else none

/-- R166: a register read. -/
def gprGet (s : State) : Gpr → DWord
  | .r i => zext (rget s i)
  | .x i => xget s i
  | .pc64 => s.a64.pc

/-- R167: a register written. -/
def gprSet (s : State) (g : Gpr) (v : DWord) : State :=
  match g with
  | .r i => rset s i (lo32 v)
  | .x i => xset s i v
  | .pc64 => withPc64 s v

/-- R168: the saved status word. -/
def savedStatus (s : State) : DWord :=
  if s.has .m then 0
  else if s.aarch64 then
    (if curEl s = 0 then 0 else vget s.a32.bankSpsr (spsrBankOfEl (curEl s)))
  else s.a32.spsr

/-- R169 in the 64-bit state; `none` where the write is refused.  At level 0 the stack select is written as the rule's
pseudocode has it, although R162 says it is always 0 there (DESIGN CHOICE, log entry 44). -/
def psrWrite64 (s : State) (wt : WriteType) (val mask : Word) : Option State :=
  let new := merge s.a64.pstate val mask
  if wt = .excReturn then none
  else if elField new ≠ elField s.a64.pstate then none
  else if wt = .byInstr ∧ bit mask 4 = true then none
  else some (restoreSp (pstateWrite (saveSp s (curEl s)) new) (curEl s))

/-- R169: the status word written; `none` where the write is refused. -/
def psrWrite (s : State) (wt : WriteType) (val mask : Word) : Option State :=
  if s.has .m then some (withXpsr s (merge s.m.xpsr val mask))
  else if s.aarch64 then psrWrite64 s wt val mask
  else some (cpsrWrite s val mask wt)

/-- The answer of an access check that refuses: the result alone (R112, R121, R190), without the target level that D11 of
spec/92_eei_decisions.md speaks of (DEDUCED, log entry 50). -/
def accessFault (s : State) (r : AccessResult) : State := respond s .accessFault r.code 0

/-- R190 `CR_READ`. -/
def crRead (s : State) (key : Word) : State :=
  match resolveBank s key with
  | .absent => respond s .absent 0 0
  | .trap => accessFault s .trapUncategorized
  | .const v => ok s v 0
  | .entry e =>
    match checkAccess s e true with
    | .ok => ok s (dispatchRead s e) 0
    | r => accessFault s r

/-- R192 `CR_WRITE`.  `r0` and `r1` are 0 where the rule names no result (DESIGN CHOICE, log entry 48). -/
def crWrite (s : State) (key : Word) (v : DWord) : State :=
  match resolveBank s key with
  | .absent => respond s .absent 0 0
  | .trap => accessFault s .trapUncategorized
  | .const _ => ok s 0 0
  | .entry e =>
    match checkAccess s e false with
    | .ok => ok (pulseIf (dispatchWrite s e v).1 (dispatchWrite s e v).2) 0 0
    | r => accessFault s r

/-- R230, R231: a translation and its answer. -/
def answerTranslate (s : State) (r : Regime) (va : DWord) (kind : Access) : State :=
  answerXlate (translate s r va kind).2 (translate s r va kind).1

end Sys2Proof.Machine
end

