-- ==== Sys2Proof/Machine/Query.lean ====
section
/-! DEFINITION. The meanings of `NOP`, `CPU_RESET`, `HAS_FEATURE`, `CUR_EL`, `IS_SECURE`, `PACK_MODE`
(spec/40_mode_feature_bank.md, spec/70_reset_and_hazards.md). -/

namespace Sys2Proof.Machine

/-- R140 `NOP`. -/
def execNop (s : State) : Out := done (ok s 0 0)

/-- R500 `CPU_RESET`. -/
def execCpuReset (s : State) : Out :=
  match cpuReset s with
  | .ok t => done t
  | .error r => fatal r

/-- R143 `HAS_FEATURE`. -/
def execHasFeature (n : BitVec 8) (s : State) : Out :=
  if n.toNat < s.params.featBits then done (ok s (flag64 (s.params.features.testBit n.toNat)) 0) else done (illegal s)

/-- R146 `CUR_EL`. -/
def execCurEl (s : State) : Out := done (ok s (BitVec.ofNat 64 (curEl s)) 0)

/-- R148 `IS_SECURE`. -/
def execIsSecure (s : State) : Out := done (ok s (flag64 (isSecure s)) 0)

/-- R154 `PACK_MODE`. -/
def execPackMode (s : State) : Out := done (unlessLocked s (ok s (packMode s) 0))

end Sys2Proof.Machine
end

