-- ==== Sys2Proof/Machine/RegisterBank.lean ====
section
/-! DEFINITION. The meanings of `GPR_READ`, `GPR_WRITE`, `PSR_READ`, `PSR_WRITE`
(spec/40_mode_feature_bank.md rules R166 to R169). -/

namespace Sys2Proof.Machine

/-- R166 `GPR_READ`. -/
def execGprRead (idx : BitVec 8) (s : State) : Out :=
  done (unlessLocked s
    (match gprOf s idx with
     | some g => ok s (gprGet s g) 0
     | none => illegal s))

/-- R167 `GPR_WRITE`. -/
def execGprWrite (idx : BitVec 8) (val : DWord) (s : State) : Out :=
  done (unlessLocked s
    (match gprOf s idx with
     | some g => ok (gprSet s g val) 0 0
     | none => illegal s))

/-- R168 `PSR_READ`. -/
def execPsrRead (s : State) : Out := done (unlessLocked s (ok s (zext (liveStatus s)) (savedStatus s)))

/-- R169 `PSR_WRITE`. -/
def execPsrWrite (wt : BitVec 8) (val mask : DWord) (s : State) : Out :=
  done (unlessLocked s
    (match writeTypeOf wt with
     | none => illegal s
     | some t =>
       match psrWrite s t (lo32 val) (lo32 mask) with
       | some s' => ok s' 0 0
       | none => illegal s))

end Sys2Proof.Machine
end

