-- ==== Sys2Proof/Machine/ControlRegs.lean ====
section
/-! DEFINITION. The meanings of the registry operations (spec/41_control_registers.md rules R182 to R222). -/

namespace Sys2Proof.Machine

/-- R182 `CR_DEFINE`: during construction only. -/
def execCrDefine (d : Template) (s : State) : Out :=
  if s.locked then done (lockedOut s)
  else if !s.constructing then done (illegal s)
  else
    match defineTemplate s.params s.reg d with
    | .error r => fatal r
    | .ok (reg, n) => done (ok { s with reg := reg } (BitVec.ofNat 64 n) 0)

/-- R189 `CR_LOOKUP`. -/
def execCrLookup (key : DWord) (s : State) : Out :=
  done (unlessLocked s
    (match lookup s (lo32 key) with
     | some e => ok s ((e.typ.setWidth 64 <<< 8) ||| e.access.setWidth 64) e.resetvalue
     | none => respond s .absent 0 0))

/-- R190 `CR_READ`. -/
def execCrRead (key : DWord) (s : State) : Out := done (unlessLocked s (crRead s (lo32 key)))

/-- R192 `CR_WRITE`. -/
def execCrWrite (key val : DWord) (s : State) : Out := done (unlessLocked s (crWrite s (lo32 key) val))

/-- R204 `CR_RESET_ALL`. -/
def execCrResetAll (s : State) : Out := done (unlessLocked s (ok (pulse (resetEntries s s.reg)) 0 0))

/-- R210 `CR_RAW_READ`. -/
def execCrRawRead (key : DWord) (s : State) : Out :=
  done (unlessLocked s
    (match lookup s (lo32 key) with
     | none => respond s .absent 0 0
     | some e => if rawRefused e then accessFault s .ok else ok s (rawRead s e) 0))

/-- R212 `CR_RAW_WRITE`. -/
def execCrRawWrite (key val : DWord) (s : State) : Out :=
  done (unlessLocked s
    (match lookup s (lo32 key) with
     | none => respond s .absent 0 0
     | some e => if rawRefused e then accessFault s .ok else ok (rawWrite s e val) 0 0))

/-- R216 `EXPORT_STATE`. -/
def execExportState (s : State) : Out :=
  done (unlessLocked s
    (respondList s .ok (BitVec.ofNat 64 (exportEntries s s.reg).length) 0 (exportEntries s s.reg)))

/-- R218 `IMPORT_STATE`. -/
def execImportState (l : List (Word × DWord)) (s : State) : Out :=
  done (unlessLocked s
    (match importAll s l with
     | (s', []) => respondList (pulse s') .ok 0 0 []
     | (s', f :: fs) => respondList (pulse s') .failures (BitVec.ofNat 64 (f :: fs).length) 0 (f :: fs)))

/-- R222 `TLBI_LOCAL`. -/
def execTlbiLocal (s : State) : Out := done (unlessLocked s (ok (pulse s) 0 0))

end Sys2Proof.Machine
end

