-- ==== Sys2Proof/Machine/Translation.lean ====
section
/-! DEFINITION. The meanings of `RESOLVE`, `TRANSLATE`, `SEC_ATTR` (spec/42_translate_flat_short.md rules R230, R231;
spec/44_translate_mpu_sau.md rule R352). -/

namespace Sys2Proof.Machine

/-- R231 `RESOLVE`, the regime by R232 from the state alone: R231 gives no operand for the "unprivileged access" flag that D16 of
spec/92_eei_decisions.md speaks of (DEDUCED, log entry 50). -/
def execResolve (kind : BitVec 8) (va : DWord) (s : State) : Out :=
  done (unlessLocked s
    (match accessOf kind with
     | none => illegal s
     | some k =>
       if vaTooBig s (currentRegime s) va then illegal s
       else answerTranslate s (currentRegime s) va k))

/-- R230 `TRANSLATE`. -/
def execTranslate (kind regime : BitVec 8) (va : DWord) (s : State) : Out :=
  done (unlessLocked s
    (match accessOf kind, regimeOf regime with
     | some k, some r =>
       if !regimeExists s r || vaTooBig s r va then illegal s
       else answerTranslate s r va k
     | _, _ => illegal s))

/-- R352 `SEC_ATTR`.  An address of 2^32 or above is out of the range that R352 states, although R111 has the upper half of a
32-bit quantity ignored (DEDUCED, log entry 25). -/
def execSecAttr (kind asker : BitVec 8) (addr : DWord) (s : State) : Out :=
  done (unlessLocked s
    (match accessOf kind with
     | none => illegal s
     | some k =>
       if decide (1 < asker.toNat) || decide (hi32 addr ≠ 0) || !s.has .mSecurity then illegal s
       else
         match secAttr s (lo32 addr) k (decide (asker = 1)) with
         | .ok a => ok s (packSecAttr a) 0
         | .error f => respond s .fault (packFault f) f.ipa))

end Sys2Proof.Machine
end

