-- ==== Sys2Proof/Machine/Exceptions.lean ====
section
/-! DEFINITION. The meanings of `RECOGNIZE`, `TAKE_EXCEPTION`, `EXC_RETURN` (spec/45_exception_ops_general.md,
spec/46_exception_ops_micro.md). -/

namespace Sys2Proof.Machine

/-- R372, R423 `RECOGNIZE`. -/
def execRecognize (kind flags : BitVec 8) (a b c : DWord) (s : State) : Out :=
  done (unlessLocked s (recognize s kind flags a b c))

/-- R382, R422 `TAKE_EXCEPTION`. -/
def execTakeException (s : State) : Out := done (unlessLocked s (takeException s))

/-- R402, R450 `EXC_RETURN`. -/
def execExcReturn (a b : DWord) (s : State) : Out := done (unlessLocked s (returnFromException s a b))

end Sys2Proof.Machine
end

