-- ==== Sys2Proof/Machine/Dispatch.lean ====
section
/-! DEFINITION. One arm per operation of spec/opcode_table.json, each one call of its meaning. -/

namespace Sys2Proof.Machine

def exec (i : Instr) (s : State) : Host.Outcome State Fault Refusal :=
  match i with
  | .nop => Sys2Proof.Machine.execNop s
  | .cpuReset => Sys2Proof.Machine.execCpuReset s
  | .hasFeature n => Sys2Proof.Machine.execHasFeature n s
  | .curEl => Sys2Proof.Machine.execCurEl s
  | .isSecure => Sys2Proof.Machine.execIsSecure s
  | .packMode => Sys2Proof.Machine.execPackMode s
  | .gprRead idx => Sys2Proof.Machine.execGprRead idx s
  | .gprWrite idx val => Sys2Proof.Machine.execGprWrite idx val s
  | .psrRead => Sys2Proof.Machine.execPsrRead s
  | .psrWrite wt val mask => Sys2Proof.Machine.execPsrWrite wt val mask s
  | .crDefine d => Sys2Proof.Machine.execCrDefine d s
  | .crLookup key => Sys2Proof.Machine.execCrLookup key s
  | .crRead key => Sys2Proof.Machine.execCrRead key s
  | .crWrite key val => Sys2Proof.Machine.execCrWrite key val s
  | .crResetAll => Sys2Proof.Machine.execCrResetAll s
  | .crRawRead key => Sys2Proof.Machine.execCrRawRead key s
  | .crRawWrite key val => Sys2Proof.Machine.execCrRawWrite key val s
  | .exportState => Sys2Proof.Machine.execExportState s
  | .importState l => Sys2Proof.Machine.execImportState l s
  | .tlbiLocal => Sys2Proof.Machine.execTlbiLocal s
  | .resolve kind va => Sys2Proof.Machine.execResolve kind va s
  | .translate kind regime va => Sys2Proof.Machine.execTranslate kind regime va s
  | .secAttr kind asker addr => Sys2Proof.Machine.execSecAttr kind asker addr s
  | .recognize kind flags a b c => Sys2Proof.Machine.execRecognize kind flags a b c s
  | .takeException => Sys2Proof.Machine.execTakeException s
  | .excReturn a b => Sys2Proof.Machine.execExcReturn a b s

end Sys2Proof.Machine
end

