-- ==== Sys2Proof/Machine/Front.lean ====
section
/-! DEFINITION. The command port (spec/00_scope.md rule R3; spec/30_encoding.md rules R110, R114): which command a step
takes, and what it answers to a command that is no operation. -/

namespace Sys2Proof.Machine

/-- The state in which a command begins: the command taken off the queue, and the outputs of the one before it gone
(its response, its TLBINV pulses, its MEM requests). -/
def accept (s : State) (rest : List Command) : State :=
  { s with
    ports := { rsp := none, tlbinv := 0, cmds := rest }
    bus := { s.bus with reqs := [] } }

/-- R114, R490: a command that is no operation changes no state; lockup is reported before the command is read. -/
def reject (s : State) : State := unlessLocked s (illegal s)

/-- One command run: decoded, then executed. -/
def runCommand (s : State) (c : Command) (rest : List Command) : Out :=
  match decode c with
  | .ok i => exec i (accept s rest)
  | .error _ => done (reject (accept s rest))

/-- The state with a command placed at the head of the queue. -/
def placeCommand (s : State) (c : Command) : State :=
  { s with ports := { s.ports with cmds := c :: s.ports.cmds } }

end Sys2Proof.Machine
end

