-- ==== Sys2Proof/Machine/Step.lean ====
section
/-! DEFINITION. One step: the next command on CMD, answered whole (spec/00_scope.md rule R3). -/

namespace Sys2Proof.Machine

/-- One step takes the first waiting command, decodes it and executes it; with no command waiting nothing happens. -/
def step (s : State) : Host.Outcome State Fault Refusal :=
  match s.ports.cmds with
  | [] => .next s
  | c :: rest => runCommand s c rest

/-- The state with the command of an opcode-table word waiting first on CMD (log entry 8). -/
def State.withFetchWord (s : State) (nbits w : Nat) : State := placeCommand s (commandOfTableWord nbits w)

end Sys2Proof.Machine
end

