-- ==== Sys2Proof/Safety.lean ====
section
/-! DEFINITION. What counts as a safe run: the machine neither faults nor refuses, and it is not in lockup
(spec/60_exceptions.md rule R490); and the invariant every step keeps. -/

namespace Sys2Proof.Machine

/-- The outcome is a next state. -/
def Completes (o : Out) : Prop := ∃ t, o = .next t

/-- A run of `n` steps from a state stays safe: every step completes, and lockup is never reached. -/
def SafeRun : Nat → State → Prop
  | 0, s => s.locked = false
  | n + 1, s => s.locked = false ∧ ∃ t, step s = .next t ∧ SafeRun n t

/-- A hook of rule R187, not one of a catalog. -/
def builtInHook : Hook → Bool
  | .catalog _ => false
  | _ => true

/-- An entry whose six hooks are those of rule R187 (a catalog's hooks may do anything to the state, R186). -/
def hooksBuiltIn (e : Entry) : Bool :=
  builtInHook e.accessfn && builtInHook e.readfn && builtInHook e.writefn && builtInHook e.resetfn &&
  builtInHook e.rawReadfn && builtInHook e.rawWritefn

/-- An entry whose hooks are those of rule R187 and whose field, if it has one, is one the instance has (R185 check 4). -/
def entryOk (p : Params) (e : Entry) : Bool := hooksBuiltIn e && fieldOk p e.field

/-- The registry lists its entries by strictly ascending key (R38, R216). -/
abbrev KeysAscend (es : List Entry) : Prop := es.Pairwise fun a b => a.key.toNat < b.key.toNat

/-- The region tables have the lengths the parameters give (R39, R57, R59), and bits that no write stores are 0: those of
the attribution unit that read 0 (R59), and bits 4:0 of a base of the older microcontroller unit (R58). -/
structure TablesOk (p : Params) (r : Regions) : Prop where
  rbar : ∀ k, (r.rbar.get k).length = p.mpuNregion
  rsr : ∀ k, (r.rsr.get k).length = p.mpuNregion
  racr : ∀ k, (r.racr.get k).length = p.mpuNregion
  rlar : ∀ k, (r.rlar.get k).length = p.mpuNregion
  sauRbar : r.sauRbar.length = p.sauNregion
  sauRlar : r.sauRlar.length = p.sauNregion
  base : has p .m = true → has p .v8 = false → ∀ k, ∀ w ∈ r.rbar.get k, w &&& 0x1F = 0
  sauBase : ∀ w ∈ r.sauRbar, w &&& 0x1F = 0
  sauLimit : ∀ w ∈ r.sauRlar, w &&& 0x1C = 0

/-- The stack-pointer slots of the microcontroller profile have bits 1:0 clear (R23). -/
structure SlotsOk (main process : Banked Word) : Prop where
  main : ∀ k, main.get k &&& 3 = 0
  process : ∀ k, process.get k &&& 3 = 0

/-- Bits the control registers read as 0 (R41, R50, R61), and the one copy of bits 15:8 of `CFSR` kept apart (R60). -/
structure ReservedOk (sys : SysRegs) (msys : MSysRegs) : Prop where
  sctlr : ∀ l, hi32 (sys.sctlr.get l) = 0
  esr : ∀ l, hi32 (sys.esr.get l) = 0
  vtor : ∀ k, msys.vtor.get k &&& 0x7F = 0
  cfsr : ∀ k, msys.cfsr.get k &&& 0x0000FF00 = 0
  aircr : msys.aircr &&& ~~~ 0x6000 = 0

/-- The invariant of a machine without catalog hooks: the memory keeps its canonical form; the region tables keep their
lengths (R39); the registry is in ascending key order and every entry names fields the instance has (R38, R185); the bits
of the status words that read as 0 are 0 (R26 to R28); so are those of the control registers; the stack pointers of the
microcontroller profile are multiples of 4 (R23, R170); lockup exists on that profile only (R490), the 64-bit state with
`F_AARCH64` only and `M_SECURE` with `F_M_SECURITY` only (R30); `TAKING` and `RETURNING` are never observed (R472). -/
structure Inv (s : State) : Prop where
  mem : s.bus.mem.wf = true
  tables : TablesOk s.params s.regions
  cpsr : s.a32.cpsr &&& ~~~ cpsrBits = 0
  pstate : s.a64.pstate &&& ~~~ pstateBits = 0
  xpsr : s.m.xpsr &&& ~~~ xpsrBits = 0
  slots : SlotsOk s.m.mainSp s.m.processSp
  sp : has s.params .m = true → vget s.a32.r 13 &&& 3 = 0
  reserved : ReservedOk s.sys s.msys
  lock : s.locked = true → has s.params .m = true
  width : s.aarch64 = true → has s.params .aarch64 = true
  secure : s.m.secure = true → has s.params .mSecurity = true
  taking : s.exc.phase ≠ .taking
  returning : s.exc.phase ≠ .returning
  hookIds : s.params.hookIds = []
  registry : ∀ e ∈ s.reg, entryOk s.params e = true
  ascending : KeysAscend s.reg

/-- What R170 (b) and (c) say of the live state, with what a pending record must say for the entry it asks for to keep
them. -/
structure LevelOk (s : State) : Prop where
  /-- the 64-bit state runs only where it exists (R30). -/
  width : s.aarch64 = true → s.has .aarch64 = true
  /-- R170 (b); in the 64-bit state of the word that waits (R26). -/
  mode : s.has .m = false → (modeOf? (liveMode s)).isSome = true
  /-- R170 (c). -/
  level : s.has .m = false → curEl s ≤ highestEl s.params
  /-- level 2 exists where `F_EL2` does (R141). -/
  hyp : s.has .m = false → curEl s = 2 → s.has .el2 = true
  /-- the target of a pending exception is a level that the instance has (R373). -/
  pending : s.has .m = false → s.exc.phase = .pending →
    s.exc.targetEl.toNat ≤ highestEl s.params ∧ (s.exc.targetEl.toNat = 2 → s.has .el2 = true) ∧
    (eventOf s.exc.index = some .smc → s.has .el3 = true)

/-- `LevelOk` with R149 and R170 (d): level 2 never in Secure state. -/
structure LevelInv (s : State) : Prop extends LevelOk s where
  secureHyp : s.has .m = false → curEl s = 2 → isSecure s = false

/-- The steps of R382 enter level 2 in Secure state: an event recorded for it pends there at level 0 or 1 (log entry 41). -/
def entersSecureHyp (s : State) : Bool :=
  !s.has .m && decide (s.exc.phase = .pending) && decide (s.exc.targetEl = 2) && decide (curEl s ≤ 2) && isSecure s

/-- Fields through which a register of the catalog could move the machine to another level by a plain store. -/
def isLevelField : FieldId → Bool
  | .cpsr | .pstate | .aarch64 | .phase | .excIndex | .excTargetEl => true
  | _ => false

/-- An entry that no access at levels 0 to 2 in Non-secure state changes the security state through, and that names no field
of the live state: `SCR` as R48 shows it (writable at level 3 only, or behind `H_SECURE_ONLY`). -/
def keepsLevels (e : Entry) : Bool :=
  !isLevelField e.field && (decide (e.field ≠ .scr) || decide (e.access &&& 0x15 = 0) || decide (e.accessfn = .secureOnly))

/-- The operations that R170 is about: not the raw writes of a debugger or a snapshot, which check nothing (R156, R212, R218);
a status write that selects the mode field whole or not at all; a registry reset, which clears `SCR`, only outside level
2; no entry to level 2 in Secure state (log entry 41). -/
def levelOp (s : State) : Instr → Bool
  | .crRawWrite _ _ | .importState _ => false
  | .psrWrite wt _ mask =>
    s.has .m || s.aarch64 || (decide (wt ≠ 0) && (decide (mask &&& 0x1F = 0) || decide (mask &&& 0x1F = 0x1F)))
  | .crResetAll => decide (curEl s ≠ 2)
  | .takeException => !entersSecureHyp s
  | _ => true

end Sys2Proof.Machine
end

