-- ==== Sys2Proof/Certificates/Slice0/Obligations.lean ====
section
/-! DEFINITION. The statements for the provers, one `def Obligations.<Name> : Prop` each.  OBLIGATIONS.json lists them. -/

/-! ## Words the statements share -/

namespace Sys2Proof.Machine

/-- The bits of a storage field that keep what is written; the others read as 0 (R23, R26 to R28, R30, R37, R41, R49, R50, R58
to R62, R193, R490).  `CPTR_EL[2]` and `CPTR_EL[3]` hold 32 bits (log entry 38). -/
def storedBits (p : Params) : FieldId → DWord
  | .none => 0
  | .gpr i => if has p .m && decide (i = 13) then 0xFFFFFFFC else 0xFFFFFFFF
  | .msp _ _ => 0xFFFFFFFC
  | .control _ => 0xF
  | .primask _ | .faultmask _ => 0x1
  | .basepri _ | .mpuRnr _ | .sauRnr | .sfsr | .excIndex => 0xFF
  | .mpuCtrl _ => 0x7
  | .sauCtrl | .excTargetEl => 0x3
  | .vtor _ => 0xFFFFFF80
  | .aircr => 0x6000
  | .sctlr _ | .esr _ => 0xFFFFFFFF
  | .cpsr => 0xFF3FFFFF
  | .pstate => 0xF03003CD
  | .xpsr => 0xFF0FFC00
  | .mException | .excMNumber => 0x1FF
  | .mSecure => if has p .mSecurity then 0x1 else 0
  | .aarch64 => if has p .aarch64 then 0x1 else 0
  | .locked => if has p .m then 0x1 else 0
  | .excMSecure | .excMDerived => 0x1
  | .excFr => 0xFFFF
  | .mpuRbarAt _ _ => if has p .m && !has p .v8 then 0xFFFFFFE0 else 0xFFFFFFFF
  | .sauRbarAt _ => 0xFFFFFFE0
  | .sauRlarAt _ => 0xFFFFFFE3
  | f => if fieldWidth f = some 64 then 0xFFFFFFFFFFFFFFFF else 0xFFFFFFFF

/-- A field of spec/10_state.md that is the storage of none of its registers: a status word, a mode or lockup flag, the
phase, a field of the exception record, an entry of a region table.  A register of the catalog may name it (R118). -/
def isMachineField : FieldId → Bool
  | .cpsr | .pstate | .xpsr | .mException | .mSecure | .aarch64 | .locked | .phase | .excIndex | .excSyndrome | .excFsr
  | .excVaddress | .excTargetEl | .excMSecure | .excMNumber | .excMDerived | .excMLr | .excIpa | .excFr
  | .mpuRbarAt _ _ | .mpuRsrAt _ _ | .mpuRacrAt _ _ | .mpuRlarAt _ _ | .sauRbarAt _ | .sauRlarAt _ => true
  | _ => false

/-- The operations that change the exception record, the phase or lockup (R472, R490). -/
def isExceptionOp : Instr → Bool
  | .cpuReset | .recognize _ _ _ _ _ | .takeException | .excReturn _ _ => true
  | _ => false

/-- The operations that may use the MEM port (R87). -/
def usesMemPort (m : Bool) : Instr → Bool
  | .resolve _ _ | .translate _ _ _ => true
  | .cpuReset | .takeException | .excReturn _ _ => m
  | _ => false

/-- The pure queries, which lockup does not refuse (R490). -/
def isPureQuery : Instr → Bool
  | .nop | .hasFeature _ | .curEl | .isSecure => true
  | _ => false

/-- The operations that only look: they change nothing but the response. -/
def onlyLooks : Instr → Bool
  | .nop | .hasFeature _ | .curEl | .isSecure | .packMode | .gprRead _ | .psrRead | .crLookup _ | .crRead _ | .crRawRead _
  | .exportState | .secAttr _ _ _ => true
  | _ => false

/-- A field that is a half of a vector register (R31). -/
def isVectorField : FieldId → Bool
  | .vLo _ | .vHi _ => true
  | _ => false

/-- An entry whose raw access is its storage, in a field of the machine's own (R187), or that has no storage because it is
a constant or a NOP (R119). -/
def plainRaw (e : Entry) : Bool :=
  (if e.field = .none then e.typ.getLsbD 1 || e.typ.getLsbD 7
   else (fieldWidth e.field).isSome && (match e.field with | .catalog _ => false | _ => true)) &&
  decide (e.rawReadfn = .none) && decide (e.rawWritefn = .none)

/-- A view of the region a region-number register selects, its raw access that of the view (R187, R210). -/
def plainView (e : Entry) : Bool :=
  decide (e.field = .none) && decide (e.readfn = .regionView) && decide (e.writefn = .regionView) &&
  decide (e.rawReadfn = .none) && decide (e.rawWritefn = .none)

/-- R118, R183: a coordinate of a template stands for a value: its own, or each of `0 .. n-1` for the wildcard. -/
def covers (c : BitVec 8) (n v : Nat) : Prop := if c = 0xFF then v < n else v = c.toNat

/-- R185: a template that passes the six checks, its coordinates in the ranges of R116 and R117 (log entry 14).  Which fields an
instance has is `fieldExists` (log entry 9), which 32-bit fields the 64-bit encoding may show is log entry 10's; a `WIDE64`
view shows 64-bit fields only. -/
def templateLegal (p : Params) (d : Template) : Prop :=
  let flag (n : Nat) : Prop := d.typ.getLsbD n = true
  let storage : Prop := d.field ≠ .none ∨ (d.bankS ≠ .none ∧ d.bankNs ≠ .none)
  let in32 : Prop := d.state = .a32 ∨ d.state = .both
  let in64 : Prop := d.state = .a64 ∨ d.state = .both
  let fields := [d.field, d.bankS, d.bankNs]
  let wide (f : FieldId) : Prop := f = .none ∨ fieldWidth f = some 64
  let shownIn64 : List FieldId := [.vtcr, .scr, .cpacr, .cptr2, .cptr3, .mdscr, .mdcr]
  let opcMask (o : Nat) : BitVec 8 := if o = 3 then 0xFF else if o = 4 then 0xF0 else if o = 6 then 0xC0 else 0xFC
  -- check 1
  (¬ flag 0 → ¬ flag 1 → ¬ flag 7 →
    (d.access &&& 0xAA ≠ 0 → storage ∨ d.readfn ≠ .none) ∧ (d.access &&& 0x55 ≠ 0 → storage ∨ d.writefn ≠ .none)) ∧
  -- check 2
  (flag 2 → d.state = .a32 ∧ d.crn = 0 ∧ d.opc2 = 0) ∧
  -- check 3
  (in64 → d.opc0.toNat ≤ 3 ∧ ∀ o, covers d.opc1 8 o → o ≠ 5 ∧ d.access &&& ~~~ opcMask o = 0) ∧
  -- check 4
  d.typ >>> 9 = 0 ∧ d.secure ≠ 0 ∧
  (∀ h ∈ [d.accessfn, d.readfn, d.writefn, d.resetfn, d.rawReadfn, d.rawWritefn], ∀ id, h = .catalog id →
    64 ≤ id ∧ id ∈ p.hookIds) ∧
  (∀ f ∈ fields, f = .none ∨ ((fieldWidth f).isSome = true ∧ fieldExists p f = true)) ∧
  (in64 → wide d.field ∨ d.field ∈ shownIn64) ∧ (flag 2 → ∀ f ∈ fields, wide f) ∧
  -- check 5
  (d.secure ≠ 3 → d.absent ≠ none) ∧
  -- check 6
  (flag 1 ∨ flag 7 → d.writefn = .none) ∧ (flag 0 → d.readfn ≠ .none ∨ d.writefn ≠ .none) ∧
  -- the coordinates
  d.crn.toNat < 16 ∧
  (d.state = .mprofile → d.cp ≠ 0xFF ∧
    ((d.opc0 = 0 ∧ (d.crm = 0xFF ∨ d.crm.toNat % 4 = 0)) ∨ (d.opc0 = 1 ∧ d.crn = 0))) ∧
  (in32 → d.cp.toNat < 16) ∧
  (d.state ≠ .mprofile → d.opc0 ≠ 0xFF ∧ (d.crm = 0xFF ∨ d.crm.toNat < 16) ∧ (d.opc1 = 0xFF ∨ d.opc1.toNat < 8) ∧
    (d.opc2 = 0xFF ∨ d.opc2.toNat < 8))

/-- R183, R184: a concrete entry of a template.  A member of a wildcard family other than the first, and a SPECIAL one, has
NO_RAW; the 32-bit entry of a BOTH template has ALIAS where its storage is the 64-bit entry's.  `opc1` and `opc2` are no part
of an `MPROFILE` key (log entry 49). -/
def isEntryOf (d : Template) (e : Entry) : Prop :=
  ∃ crm opc1 opc2 : Nat, covers d.crm 16 crm ∧
    (if d.state = .mprofile then opc1 = 0 ∧ opc2 = 0 else covers d.opc1 8 opc1 ∧ covers d.opc2 8 opc2) ∧
    let beyond := (d.crm = 0xFF ∧ crm ≠ 0) ∨ (d.opc1 = 0xFF ∧ opc1 ≠ 0) ∨ (d.opc2 = 0xFF ∧ opc2 ≠ 0)
    let typ := if beyond ∨ d.typ.getLsbD 0 = true then d.typ ||| 0x20 else d.typ
    let copy (key : Nat) (field : FieldId) (typ : BitVec 16) : Entry :=
      { key := BitVec.ofNat 32 key, name := d.name, typ := typ, access := d.access, secure := d.secure, absent := d.absent,
        resetvalue := d.resetvalue, field := field, accessfn := d.accessfn, readfn := d.readfn, writefn := d.writefn,
        resetfn := d.resetfn, rawReadfn := d.rawReadfn, rawWritefn := d.rawWritefn }
    let inBank (secure : Bool) : Prop := d.secure.getLsbD (if secure then 0 else 1) = true
    let own (secure : Bool) : FieldId := if secure then d.bankS else d.bankNs
    let banked := d.bankS ≠ .none ∧ d.bankNs ≠ .none
    ((d.state = .a64 ∨ d.state = .both) ∧
      e = copy (0x10130000 + d.opc0.toNat * 0x4000 + opc1 * 0x800 + d.crn.toNat * 0x80 + crm * 8 + opc2) d.field typ) ∨
    ((d.state = .a32 ∨ d.state = .both) ∧ ∃ secure, inBank secure ∧
      e = copy ((if secure then 0 else 0x20000000) + d.cp.toNat * 0x10000 + crm * 0x80 + opc1 * 8 +
          if d.typ.getLsbD 2 then 0x8000 else d.crn.toNat * 0x800 + opc2)
        (if banked then own secure else d.field)
        (if d.state = .both ∧ (¬ banked ∨ secure = false) then typ ||| 0x10 else typ)) ∨
    (d.state = .mprofile ∧ ∃ secure, inBank secure ∧
      e = copy ((if d.opc0 = 0 then 0x40000000 else 0x50000000) + (if secure then 0x08000000 else 0) +
          d.crn.toNat * 0x100 + crm)
        (if own secure ≠ .none then own secure else d.field) typ)

/-- R183, R184: how many concrete entries a template has. -/
def entryCount (d : Template) : Nat :=
  let values (c : BitVec 8) (n : Nat) : Nat := if c = 0xFF then n else 1
  let banks := (if d.secure.getLsbD 0 then 1 else 0) + if d.secure.getLsbD 1 then 1 else 0
  values d.crm 16 * (if d.state = .mprofile then 1 else values d.opc1 8 * values d.opc2 8) *
    ((if d.state = .a64 ∨ d.state = .both then 1 else 0) + if d.state = .a64 then 0 else banks)

/-- An entry that `reset_one` writes by itself: none of SPECIAL, ALIAS, NOP, CONST, no reset hook, a field, no draw (R205,
R207). -/
def plainReset (e : Entry) : Bool :=
  !e.typ.getLsbD 0 && !e.typ.getLsbD 4 && !e.typ.getLsbD 7 && !e.typ.getLsbD 1 && decide (e.resetfn = .none) &&
  (fieldWidth e.field).isSome && !e.typ.getLsbD 6

/-- An entry whose reset writes its storage (R205, R207): none of SPECIAL, ALIAS, NOP, CONST, no reset hook, a field. -/
def resetsStorage (e : Entry) : Bool :=
  !e.typ.getLsbD 0 && !e.typ.getLsbD 4 && !e.typ.getLsbD 7 && !e.typ.getLsbD 1 && decide (e.resetfn = .none) &&
  decide (e.field ≠ .none)

/-- A field that a stack switch writes (R23, R164). -/
def isStackField : FieldId → Bool
  | .gpr i => decide (i = 13)
  | .msp _ _ => true
  | _ => false

/-- Storing in field `g` may change what field `f` reads: they are one field, they share bits (R46, R47, R50, R60), or the store
moves the stack (R164). -/
def disturbs (g f : FieldId) : Bool :=
  decide (g = f) ||
  match g, f with
  | .mair l, .mairHi k | .mairHi k, .mair l | .far l, .farHi k | .farHi k, .far l => decide (l = k)
  | .hcr, .hcrHi | .hcrHi, .hcr | .cfsr _, .cfsr _ => true
  | .control _, f | .mException, f | .mSecure, f => isStackField f
  | _, _ => false

/-- R23, R164: the active stack pointer, the bank and whether it is the process stack. -/
def activeSlot (s : State) : Bool × Bool :=
  (s.m.secure, decide (s.m.exception = 0) && (s.m.control.get s.m.secure).getLsbD 1)

/-- A stored stack pointer (R23). -/
def storedSlot (s : State) (k : Bool × Bool) : Word := if k.2 then s.m.processSp.get k.1 else s.m.mainSp.get k.1

/-- R164: where the active slot changes, `R[13]` goes to the old slot and comes from the new one; else no stack pointer moves. -/
def stackSwitched (s t : State) : Prop :=
  (∀ i, i ≠ 13 → vget t.a32.r i = vget s.a32.r i) ∧
  if activeSlot t = activeSlot s then
    vget t.a32.r 13 = vget s.a32.r 13 ∧ ∀ k, storedSlot t k = storedSlot s k
  else
    vget t.a32.r 13 = storedSlot s (activeSlot t) ∧
    ∀ k, storedSlot t k = if k = activeSlot s then vget s.a32.r 13 else storedSlot s k

/-- `sync_target` of R373 before the redirection, for an event that is not an abort. -/
def syncTarget (s : State) (e : Event) (minEl : Nat) : Nat :=
  let base := max 1 (curEl s)
  let base := if base = 1 ∧ isSecure s = true ∧ s.has .el3 = true ∧ elIsA64 s 3 = false then 3 else base
  match e with
  | .hvc | .hypTrap => 2
  | .smc => 3
  | _ => max base minEl

/-- R471, spelled out: the packed FaultRecord `w` of R124 is not one a caller may present: a reserved kind, a level above 3,
a stage-2 flag without stage 2, and the combinations the rule refuses. -/
def recordRefused (s : State) (w : BitVec 16) : Bool :=
  let kind := field w 0 5
  let stage2 := w.getLsbD 12
  let s1ptw := w.getLsbD 13
  decide (kind = 0) || decide (14 ≤ kind) || decide (4 ≤ field w 5 3) ||
  ((stage2 || s1ptw) && (!s.has .el2 || s.has .m)) || (s1ptw && !stage2) || (w.getLsbD 14 && decide (kind ≠ 7)) ||
  (decide (field w 8 4 ≠ 0) && w.getLsbD 15) || (decide (10 ≤ kind) && !(s.has .m || s.has .pmsa)) ||
  (decide (11 ≤ kind) && !s.has .mSecurity)

/-- R272, R322: the status code of the packed FaultRecord `w` in the long format or in the short one; `none` where the format
has no code for the kind. -/
def statusCode (long : Bool) (w : BitVec 16) : Option Word :=
  let level : Word := (field w 5 3 : Nat)
  let walk := w.getLsbD 14
  if long then
    match field w 0 5 with
    | 1 => some 0x221
    | 2 => some (0x20C + level)
    | 3 => some (0x204 + level)
    | 4 => some (0x208 + level)
    | 6 => some (0x200 + level)
    | 7 => some (if walk then 0x214 + level else 0x210)
    | 8 => some 0x218
    | 9 => some 0x219
    | _ => none
  else
    let row (one two : Word) : Option Word :=
      some ((if field w 5 3 = 1 then one else two) ||| ((field w 8 4 : Nat) : Word) <<< 4)
    match field w 0 5 with
    | 1 => row 0x001 0x001
    | 2 => row 0x00D 0x00F
    | 3 => row 0x005 0x007
    | 4 => row 0x003 0x006
    | 5 => row 0x009 0x00B
    | 6 => row 0x005 0x007
    | 7 => if walk then row 0x00C 0x00E else row 0x008 0x008
    | 8 => row 0x409 0x409
    | 9 => row 0x408 0x408
    | 10 => row 0x000 0x000
    | _ => none

/-- R373: the redirection of `HCR.TGE`. -/
def redirected (s : State) (t : Nat) : Bool := t == 1 && s.has .el2 && !isSecure s && bit s.sys.hcr 27

/-- The words of the frame of R433 at frame pointer `fp`, in the order stored: `R[0..3]`, `R[12]`, `R[14]`, `R[15]`, the
status word with bit 9 = `realigned`. -/
def frameWords (s : State) (realigned : Bool) : List Word :=
  [vget s.a32.r 0, vget s.a32.r 1, vget s.a32.r 2, vget s.a32.r 3, vget s.a32.r 12, vget s.a32.r 14, vget s.a32.r 15,
   xpsrWord s ||| (if realigned then 0x200 else 0)]

/-- The microcontroller profile without the security extension, its protection unit disabled (R335). -/
def plainMicro (s : State) : Bool :=
  s.has .m && !s.has .mSecurity && !s.m.secure && !bit s.regions.mpuCtrl.ns 0

/-- A store of `v` at `pa` by 4 bytes from Non-secure state, as a request (R81, R86). -/
def storeReq (pa v : Word) : Request := { write := true, pa := zext pa, size := 4, secure := false, wdata := zext v }

/-- A load of 4 bytes at `pa` from Non-secure state, as a request (R81, R86). -/
def loadReq (pa : Word) : Request := { write := false, pa := zext pa, size := 4, secure := false, wdata := 0 }

/-- The requests of the eight accesses of a basic frame at `fp` (R433, R436, R453). -/
def frameAddrs (fp : Word) : List Word :=
  [fp, fp + 0x04, fp + 0x08, fp + 0x0C, fp + 0x10, fp + 0x14, fp + 0x18, fp + 0x1C]

/-- The frame words stored before word `k` are in memory, and no other byte changed (R436, R437). -/
def wordsStored (s u : State) (addrs words : List Word) (k : Nat) : Prop :=
  (∀ i < k, ∀ j < 4, u.bus.mem.read (byteKey false (zext (addrs.getD i 0) + BitVec.ofNat 64 j)) =
    some ((words.getD i 0).extractLsb' (8 * j) 8)) ∧
  (∀ a, (∀ i < k, ∀ j < 4, a ≠ byteKey false (zext (addrs.getD i 0) + BitVec.ofNat 64 j)) →
    u.bus.mem.read a = s.bus.mem.read a)

/-- The row of R390 for an event: mode, vector offset, mask bits set, link offset (`thumb` is `CPSR.T`). -/
def handler32 (thumb : Bool) : Event → Option (Mode × Word × Word × Word)
  | .udef | .sysregTrap | .hypTrap => some (.und, 0x04, 0x080, if thumb then 2 else 4)
  | .svc => some (.svc, 0x08, 0x080, 0)
  | .prefetchAbort | .bkpt => some (.abt, 0x0C, 0x180, 4)
  | .dataAbort | .serror => some (.abt, 0x10, 0x180, 8)
  | .irq | .virq => some (.irq, 0x18, 0x180, 4)
  | .fiq | .vfiq => some (.fiq, 0x1C, 0x1C0, 4)
  | .smc => some (.mon, 0x08, 0x1C0, 0)
  | .hvc => none

/-- The vector offset of R391 for an event, before the rule for events from below. -/
def handlerHyp : Event → Option Word
  | .udef => some 0x04
  | .hvc => some 0x08
  | .prefetchAbort | .bkpt => some 0x0C
  | .dataAbort | .serror => some 0x10
  | .svc | .hypTrap | .sysregTrap => some 0x14
  | .irq => some 0x18
  | .fiq => some 0x1C
  | _ => none

/-- The fault registers written by an entry to a 32-bit mode other than Hypervisor, in the bank `fb` (R390, R396), and
`SCR.NS` cleared when the entry is from Monitor mode. -/
def faultRegs32 (s : State) (e : Event) (fb : Bool) : SysRegs :=
  let l : Lvl := if fb then .l3 else .l1
  let r := s.sys
  let r := match e with
    | .prefetchAbort | .bkpt =>
      { r with ifsr := r.ifsr.set fb s.exc.fsr, far := r.far.set l (s.exc.vaddress.setWidth 32 ++ lo32 (r.far.get l)) }
    | .dataAbort =>
      { r with esr := r.esr.set l (s.exc.fsr.setWidth 64), far := r.far.set l (hi32 (r.far.get l) ++ s.exc.vaddress.setWidth 32) }
    | .serror => { r with esr := r.esr.set l (s.exc.fsr.setWidth 64) }
    | _ => r
  if s.a32.cpsr &&& 0x1F = 0b10110 then { r with scr := r.scr &&& 0xFFFFFFFE } else r

/-- The fault registers written by an entry to Hypervisor mode (R391, R395, R396). -/
def faultRegsHyp (s : State) (e : Event) : SysRegs :=
  let r := s.sys
  let syn := s.exc.syndrome
  let syn := if s.has .v8 = false ∧ (e = .prefetchAbort ∨ (e = .dataAbort ∧ syn.getLsbD 24 = false) ∨ syn >>> 26 = 0)
    then syn &&& 0xFDFFFFFF else syn
  let r := if e = .prefetchAbort ∨ e = .bkpt then
    { r with far := r.far.set .l2 (s.exc.vaddress.setWidth 32 ++ lo32 (r.far.get .l2)) } else r
  let r := if e = .dataAbort then
    { r with far := r.far.set .l2 (hi32 (r.far.get .l2) ++ s.exc.vaddress.setWidth 32) } else r
  let r := if e = .irq ∨ e = .fiq then r else { r with esr := r.esr.set .l2 (syn.setWidth 64) }
  if s.exc.fr.getLsbD 12 = true then { r with hpfar := ((s.exc.ipa >>> 12) &&& 0xFFFFFFFFF) <<< 4 } else r

/-- The fault registers written by an entry to a 64-bit level (R394, R395, R396). -/
def faultRegs64Of (s : State) (e : Event) (t : Nat) : SysRegs :=
  let l := lvlOf t
  let r := s.sys
  let syn := if s.exc.syndrome >>> 26 = 0x07 then s.exc.syndrome &&& 0xFFF00000 else s.exc.syndrome
  let r := if e = .prefetchAbort ∨ e = .dataAbort then { r with far := r.far.set l s.exc.vaddress } else r
  let r := match e with
    | .irq | .virq | .fiq | .vfiq => r
    | .serror => { r with esr := r.esr.set l (s.exc.syndrome.setWidth 64) }
    | _ => { r with esr := r.esr.set l (syn.setWidth 64) }
  if t = 2 ∧ s.exc.fr.getLsbD 12 = true then { r with hpfar := ((s.exc.ipa >>> 12) &&& 0xFFFFFFFFF) <<< 4 } else r

/-- R390, R393: the entry goes to Monitor mode. -/
def monitored (s : State) (e : Event) (t : Nat) : Bool :=
  let scr (n : Nat) : Bool := s.has .el3 && s.sys.scr.getLsbD n
  decide (e = .smc) || (decide (t = 3) &&
    ((decide (e = .irq) && scr 1) || (decide (e = .fiq) && scr 2) ||
     (scr 3 && (decide (e = .serror) || (isAbort e && decide (field s.exc.fr 0 5 = 7)))) || !isSecure s))

/-- The saved-status bank of a level of the 64-bit state (R22). -/
def spsrBank (t : Nat) : Nat := if t = 3 then 7 else if t = 2 then 6 else 1

/-- What is outside the register bank, the exception record and the ports is as it was, but for the system registers
`sys`: parameters, registry, floating-point and microcontroller state, region tables, catalog storage, memory. -/
def restKept (s u : State) (sys : SysRegs) : Prop :=
  { u with aarch64 := s.aarch64, a32 := s.a32, a64 := s.a64, exc := s.exc, exclAddr := s.exclAddr, sys := s.sys,
           ports := s.ports } = s ∧ u.sys = sys

/-- R158, spelled out: the live word may not take mode `m`; `byInstr` says that the write is an instruction's. -/
def refusedMode (s : State) (m : BitVec 5) (byInstr : Bool) : Bool :=
  let cur : BitVec 5 := s.a32.cpsr.setWidth 5
  (byInstr && (decide (cur = 0b11010) || decide (m = 0b11010))) ||
  (if m = 0b10000 then false
   else if m = 0b10001 ∨ m = 0b10010 ∨ m = 0b10011 ∨ m = 0b10111 ∨ m = 0b11011 ∨ m = 0b11111 then
     byInstr && decide (cur = 0b10110) && s.has .el2 && s.sys.hcr.getLsbD 27 && !(s.has .el3 && !s.sys.scr.getLsbD 0)
   else if m = 0b11010 then !s.has .el2 || decide (curEl s < 2) || isSecure s
   else if m = 0b10110 then decide (curEl s < 3)
   else true)

/-- R470: the event kinds that an instance lacks: those of the other profile, those of an absent level, the reserved ones. -/
def kindLacking (s : State) (kind : BitVec 8) : Bool :=
  if s.has .m then decide (kind < 32 ∨ 42 < kind)
  else decide (kind = 0 ∨ 14 < kind) || (!s.has .el2 && decide (kind = 8 ∨ kind = 9 ∨ kind = 11 ∨ kind = 12)) ||
    (!s.has .el3 && decide (kind = 10))

/-- R123: the regime ids that an instance lacks; `E10_S_1` exists only where level 3 is in the 64-bit state (log entry 25). -/
def regimeLacking (s : State) (id : BitVec 8) : Bool :=
  if s.has .m then
    decide (id < 9 ∨ 16 < id) || (!s.has .mSecurity && decide (id = 11 ∨ id = 12 ∨ id = 15 ∨ id = 16))
  else
    decide (8 < id) || (!s.has .el2 && decide (id = 2 ∨ 6 ≤ id)) || (!s.has .el3 && decide (3 ≤ id ∧ id ≤ 5)) ||
    (!elIsA64 s 3 && decide (id = 5))

/-- R156: the mask of a status-word write that is not `RAW`, without what Non-secure state may not change of `A` and `F`. -/
def openMask (s : State) (val mask : Word) : Word :=
  if s.has .v8 = true ∨ s.has .el3 = false ∨ s.has .el2 = true ∨ isSecure s = true then mask
  else
    let changed := s.a32.cpsr ^^^ val
    mask &&& ~~~ ((if changed.getLsbD 8 = true ∧ s.sys.scr.getLsbD 5 = false then 0x100 else 0) |||
      (if changed.getLsbD 6 = true ∧
          (s.sys.scr.getLsbD 4 = false ∨ (s.sys.sctlr.l1.getLsbD 27 = true ∧ val.getLsbD 6 = true)) then 0x40 else 0))

/-- R170 (a): the architectural value of `R[13]` of mode `k` while the bank of mode `live` is active. -/
def archR13 (a : A32Regs) (live k : Mode) : Word :=
  if k.bank = live.bank then vget a.r 13 else vget a.bankR13 k.bank.toNat

/-- R170 (a): the architectural value of `R[14]` of mode `k` while the bank of mode `live` is active. -/
def archR14 (a : A32Regs) (live k : Mode) : Word :=
  if k.bank14 = live.bank14 then vget a.r 14 else vget a.bankR14 k.bank14.toNat

/-- R170 (a): the architectural saved status word of mode `k` while the bank of mode `live` is active. -/
def archSpsr (a : A32Regs) (live k : Mode) : DWord := if k.bank = live.bank then a.spsr else vget a.bankSpsr k.bank.toNat

/-- R170 (a): the architectural value of `R[8 + i]` of mode `k` while the bank of mode `live` is active. -/
def archR8 (a : A32Regs) (live k : Mode) (i : Nat) : Word :=
  if k = .fiq ↔ live = .fiq then vget a.r (8 + i) else if k = .fiq then vget a.fiqR8 i else vget a.usrR8 i

/-- R163: which register of the 64-bit state maps the stack pointer of a mode; Monitor mode's is not mapped. -/
def spIndex : Mode → Option Nat
  | .usr | .sys => some 13
  | .hyp => some 15
  | .irq => some 17
  | .svc => some 19
  | .abt => some 21
  | .und => some 23
  | .fiq => some 29
  | .mon => none

/-- R163: which register of the 64-bit state maps the link register of a mode; Monitor mode's is not mapped. -/
def lrIndex : Mode → Option Nat
  | .usr | .sys | .hyp => some 14
  | .irq => some 16
  | .svc => some 18
  | .abt => some 20
  | .und => some 22
  | .fiq => some 30
  | .mon => none

/-- R163: the low halves `x` of the registers of the 64-bit state are the registers of the 32-bit state, the bank of mode
`live` active. -/
def mappedTo (a : A32Regs) (live : Mode) (x : Nat → Word) : Prop :=
  (∀ i, i < 8 → x i = vget a.r i) ∧
  (∀ i, i < 5 → x (8 + i) = archR8 a live .usr i ∧ x (24 + i) = archR8 a live .fiq i) ∧
  ∀ k n, (spIndex k = some n → x n = archR13 a live k) ∧ (lrIndex k = some n → x n = archR14 a live k)

/-- The stored banks hold the registers of the 32-bit state as they are with the bank of mode `live` active, saved status words but
those of bank `j` (R163). -/
def banksStored (a b : A32Regs) (live : Mode) (j : Nat) : Prop :=
  (∀ k : Mode, vget b.bankR13 k.bank.toNat = archR13 a live k ∧ vget b.bankR14 k.bank14.toNat = archR14 a live k ∧
    (k.bank.toNat ≠ j → vget b.bankSpsr k.bank.toNat = archSpsr a live k)) ∧
  ∀ i, i < 5 → vget b.usrR8 i = archR8 a live .usr i ∧ vget b.fiqR8 i = archR8 a live .fiq i

/-- R160: an entry from mode `old` to mode `mode` changes no register of any mode but the link register (unless `mode` is
Hypervisor mode, R392) and the saved status word of `mode`. -/
def othersKept (a b : A32Regs) (old mode : Mode) : Prop :=
  ∀ k : Mode, archR13 b mode k = archR13 a old k ∧ (∀ i, i < 5 → archR8 b mode k i = archR8 a old k i) ∧
    (k.bank14 ≠ mode.bank14 ∨ mode = .hyp → archR14 b mode k = archR14 a old k) ∧
    (k.bank ≠ mode.bank → archSpsr b mode k = archSpsr a old k)

/-- R170 (a): the banks hold the same architectural registers, `old` active before and `new` after. -/
def banksKept (a b : A32Regs) (old new : Mode) : Prop :=
  ∀ k : Mode, archR13 b new k = archR13 a old k ∧ archR14 b new k = archR14 a old k ∧
    archSpsr b new k = archSpsr a old k ∧ ∀ i, i < 5 → archR8 b new k i = archR8 a old k i

/-- R193: an entry shows 32 bits of its field: its key is not of the 64-bit encoding, and it is not a 64-bit-wide register of
the 32-bit encoding. -/
def shows32 (e : Entry) : Bool :=
  decide (e.key >>> 28 ≠ 1) && !(decide (e.key &&& 0xD0000000 = 0) && e.typ.getLsbD 2)

/-- R49, R193: the low bits of a vector base that a view reads as 0. -/
def maskedLow (e : Entry) : DWord :=
  match e.field with
  | .vbar _ | .mvbar => if shows32 e then 0x1F else 0x7FF
  | _ => 0

/-- R111: what an entry takes of a 64-bit operand, or gives of a value: bits 31:0 where it shows 32 bits or its storage has no
more. -/
def visible (e : Entry) (v : DWord) : DWord :=
  if shows32 e || (fieldWidth e.field).any (· ≤ 32) then v &&& 0x00000000FFFFFFFF else v

/-- What an entry reads where no rule states a value: a free one (log entry 4). -/
def unstated (e : Entry) : DWord := visible e (Config.unreadable e.key.toNat)

/-- R193: what an entry shows of its storage; without storage, a free value (log entry 4). -/
def shown (s : State) (e : Entry) : DWord :=
  if e.field = .none then unstated e else visible e (fieldGet s e.field &&& ~~~ maskedLow e)

/-- R192, R193: a plain store through an entry: a 32-bit view of a 64-bit field keeps its bits 63:32, but for `TTBR0` and
`TTBR1`, which are cleared (R42); a vector base takes 0 in the bits its view masks; the Non-secure view of `AIRCR` stores
nothing (R61). -/
def storedThrough (s : State) (e : Entry) (v : DWord) : State :=
  let low := v &&& 0x00000000FFFFFFFF
  let v := v &&& ~~~ maskedLow e
  match e.field with
  | .ttbr0 _ | .ttbr1 _ => fieldSet s e.field (if shows32 e then low else v)
  | .aircr => if e.key >>> 27 = 8 ∨ e.key >>> 27 = 10 then s else fieldSet s e.field v
  | f =>
    fieldSet s f
      (if shows32 e = true ∧ fieldWidth f = some 64 then
         (fieldGet s f &&& 0xFFFFFFFF00000000) ||| (v &&& 0x00000000FFFFFFFF)
       else v)

/-- Storage written as the raw accessors and the hooks write it: as `storedThrough`, but `TTBR0` and `TTBR1` keep their bits
63:32 and a vector base the bits its view masks (R193; log entry 26). -/
def storedRaw (s : State) (e : Entry) (v : DWord) : State :=
  let v := (v &&& ~~~ maskedLow e) ||| (fieldGet s e.field &&& maskedLow e)
  if e.field = .aircr ∧ (e.key >>> 27 = 8 ∨ e.key >>> 27 = 10) then s
  else
    fieldSet s e.field
      (if shows32 e = true ∧ fieldWidth e.field = some 64 then
         (fieldGet s e.field &&& 0xFFFFFFFF00000000) ||| (v &&& 0x00000000FFFFFFFF)
       else v)

/-- R194, R195: the code of an access that is refused; `none` for one that passes.  The permission mask comes first, then
the access hook. -/
def refusal (s : State) (e : Entry) (isread : Bool) : Option DWord :=
  if e.access.getLsbD (2 * curEl s + if isread then 1 else 0) = false then some 2
  else
    match e.accessfn with
    | .secureOnly => if isSecure s = true then none else if elIsA64 s 3 = true then some 4 else some 2
    | .daifAccess => if curEl s = 0 ∧ s.sys.sctlr.l1.getLsbD 9 = false then some 1 else none
    | .spEl0Access => if s.a64.pstate.getLsbD 0 = true then none else some 2
    | .catalog id =>
      (match Config.hookAccess id s e isread with
       | .ok => none
       | r => some r.code)
    | _ => none

/-- R151, R62: execution is privileged on the microcontroller profile. -/
def privileged (s : State) : Bool :=
  decide (s.m.exception ≠ 0) || !(s.m.control.get s.m.secure).getLsbD 0

/-- R23, R62: the stack pointer of a slot: `R[13]` if the slot is the active one. -/
def slotValue (s : State) (secure process : Bool) : Word :=
  if s.m.secure = secure ∧ (decide (s.m.exception = 0) && (s.m.control.get s.m.secure).getLsbD 1) = process then
    vget s.a32.r 13
  else if process then s.m.processSp.get secure
  else s.m.mainSp.get secure

/-- R56, R58, R59: what a region register shows: on the microcontroller profile the registers of R58 and R59, on the general
one those of R56.  The word that a region number selects is free where it names no region (log entry 4); of every word the
older `MPU_RBAR` shows bits 31:5 beside the number, the attribution unit's registers all but their reserved bits. -/
def regionShown (s : State) (e : Entry) : DWord :=
  let k := e.key
  let sec := k.getLsbD 27
  let n := (s.regions.mpuRnr.get sec).toNat
  let g := s.regions.rgnr.toNat
  let a := s.regions.sauRnr.toNat
  let free : Word := (unstated e).setWidth 32
  let word (w : Option Word) : Word := w.getD free
  if s.has .m = true then
    if k &&& 0xF0000FFF = 0x40000D9C then
      let base := word (s.regions.rbar.get sec)[n]?
      (if s.has .v8 then base else (base &&& 0xFFFFFFE0) ||| BitVec.ofNat 32 (n % 16)).setWidth 64
    else if k &&& 0xF0000FFF = 0x40000DA0 then
      (if s.has .v8 then word (s.regions.rlar.get sec)[n]?
       else
         match (s.regions.rsr.get sec)[n]?, (s.regions.racr.get sec)[n]? with
         | some rsr, some racr => (rsr &&& 0xFFFF) ||| (racr <<< 16)
         | _, _ => free).setWidth 64
    else if k &&& 0xF0000FFF = 0x40000DDC then (word s.regions.sauRbar[a]? &&& 0xFFFFFFE0).setWidth 64
    else if k &&& 0xF0000FFF = 0x40000DE0 then (word s.regions.sauRlar[a]? &&& 0xFFFFFFE3).setWidth 64
    else unstated e
  else if k &&& 0xDFFFFFFF = 0x000F3080 then (word s.regions.rbar.ns[g]?).setWidth 64
  else if k &&& 0xDFFFFFFF = 0x000F3082 then (word s.regions.rsr.ns[g]?).setWidth 64
  else if k &&& 0xDFFFFFFF = 0x000F3084 then (word s.regions.racr.ns[g]?).setWidth 64
  else unstated e

/-- R56, R58, R59: the region tables and numbers after a write of the region register at a key; a number that names no region
stores nothing.  In the older microcontroller unit a base with bit 4 set moves the region number first, where that names a
region (log entry 19), and `MPU_RASR` writes the low half of two words. -/
def regionStored (s : State) (k v : Word) : Regions :=
  let r := s.regions
  let sec := k.getLsbD 27
  let n := (r.mpuRnr.get sec).toNat
  let g := r.rgnr.toNat
  let low (t : List Word) (h : Word) : List Word := t.set n ((tget t n &&& 0xFFFF0000) ||| (h &&& 0xFFFF))
  if s.has .m = true then
    if k &&& 0xF0000FFF = 0x40000D9C then
      if s.has .v8 then { r with rbar := r.rbar.set sec ((r.rbar.get sec).set n v) }
      else
        let n' := if v.getLsbD 4 = true ∧ field v 0 4 < s.params.mpuNregion then field v 0 4 else n
        { r with mpuRnr := r.mpuRnr.set sec (BitVec.ofNat 8 n')
                 rbar := r.rbar.set sec ((r.rbar.get sec).set n' (v &&& 0xFFFFFFE0)) }
    else if k &&& 0xF0000FFF = 0x40000DA0 then
      if s.has .v8 then { r with rlar := r.rlar.set sec ((r.rlar.get sec).set n v) }
      else { r with rsr := r.rsr.set sec (low (r.rsr.get sec) v), racr := r.racr.set sec (low (r.racr.get sec) (v >>> 16)) }
    else if k &&& 0xF0000FFF = 0x40000DDC then { r with sauRbar := r.sauRbar.set r.sauRnr.toNat (v &&& 0xFFFFFFE0) }
    else if k &&& 0xF0000FFF = 0x40000DE0 then { r with sauRlar := r.sauRlar.set r.sauRnr.toNat (v &&& 0xFFFFFFE3) }
    else r
  else if k &&& 0xDFFFFFFF = 0x000F3080 then { r with rbar := r.rbar.set false (r.rbar.ns.set g v) }
  else if k &&& 0xDFFFFFFF = 0x000F3082 then { r with rsr := r.rsr.set false (r.rsr.ns.set g v) }
  else if k &&& 0xDFFFFFFF = 0x000F3084 then { r with racr := r.racr.set false (r.racr.ns.set g v) }
  else r

/-- R187, R190: what a read that has passed its checks answers. -/
def readValue (s : State) (e : Entry) : DWord :=
  if e.typ.getLsbD 7 = true then 0
  else if e.typ.getLsbD 1 = true then e.resetvalue
  else
    match e.readfn with
    | .none => shown s e
    | .nzcv => (s.a64.pstate &&& 0xF0000000).setWidth 64
    | .daif => (s.a64.pstate &&& 0x3C0).setWidth 64
    | .currentEl => BitVec.ofNat 64 (4 * curEl s)
    | .spSel => if s.a64.pstate.getLsbD 0 then 1 else 0
    | .regionView => if e.field = .none then regionShown s e else shown s e
    | .mSpecial =>
      (match e.field with
       | .control _ => shown s e
       | .msp k p => if privileged s then (slotValue s k p).setWidth 64 else 0
       | _ => if privileged s then shown s e else 0)
    | .catalog id => Config.hookRead id s e
    | _ => unstated e

/-- R187, R210: what a raw read that is not refused answers: a constant, 0 for a NOP, what a raw-read hook of the catalog gives,
the storage, or without storage what the entry's read gives. -/
def rawShown (s : State) (e : Entry) : DWord :=
  if e.typ.getLsbD 1 = true then e.resetvalue
  else if e.typ.getLsbD 7 = true then 0
  else
    match e.rawReadfn with
    | .none => if e.field = .none then readValue s e else shown s e
    | .catalog id => Config.hookRawRead id s e
    | _ => shown s e

/-- R187, R212: what a write of an entry without storage does, its pulse left out: the views of `PSTATE`, the stack select
(R162), the region it views, what a hook of the catalog gives outside what it may not touch; no other write hook has an
effect without storage. -/
def bareWritten (s : State) (e : Entry) (v : DWord) : State :=
  let pstate (w : Word) : State := { s with a64 := { s.a64 with pstate := w &&& 0xF03003CD } }
  match e.writefn with
  | .nzcv => pstate ((s.a64.pstate &&& 0x0FFFFFFF) ||| (v.setWidth 32 &&& 0xF0000000))
  | .daif => pstate ((s.a64.pstate &&& 0xFFFFFC3F) ||| (v.setWidth 32 &&& 0x3C0))
  | .spSel =>
    let sp := vset s.a64.spEl (if s.a64.pstate.getLsbD 0 then curEl s else 0) (vget s.a64.x 31)
    let t := pstate ((s.a64.pstate &&& 0xFFFFFFFE) ||| (v.setWidth 32 &&& 1))
    { t with a64 := { t.a64 with
      spEl := sp, x := vset s.a64.x 31 (vget sp (if v.getLsbD 0 then curEl t else 0)) } }
  | .regionView => { s with regions := regionStored s e.key (v.setWidth 32) }
  | .catalog id =>
    { (Config.hookWrite id s e v).1 with
      params := s.params, reg := s.reg, constructing := s.constructing, bus := s.bus, draws := s.draws, ports := s.ports }
  | _ => s

/-- R186, R187, R212: the state after a raw write that is not refused: nothing for a constant or a NOP; what a raw-write hook of
the catalog makes of the entry's own storage; the storage, or without storage what the entry's write does. -/
def rawStored (s : State) (e : Entry) (v : DWord) : State :=
  if e.typ.getLsbD 1 = true ∨ e.typ.getLsbD 7 = true then s
  else
    match e.rawWritefn with
    | .none => if e.field = .none then bareWritten s e (visible e v) else storedRaw s e (visible e v)
    | .catalog id => fieldSet s e.field (fieldGet (Config.hookRawWrite id s e (visible e v)) e.field)
    | _ => storedRaw s e (visible e v)

/-- R218, R219: the state after the pairs of an import, in order, and the list of failures: 1 for an unknown key, 2 for a value
that does not read back; a pair that is not importable is skipped. -/
def imported (s : State) : List (Word × DWord) → State × List (Word × DWord)
  | [] => (s, [])
  | (k, v) :: rest =>
    match lookup s k with
    | none => ((imported s rest).1, (k, 1) :: (imported s rest).2)
    | some e =>
      if e.typ.getLsbD 5 = true ∨ e.typ.getLsbD 0 = true ∨ e.typ.getLsbD 4 = true then imported s rest
      else
        let u := rawStored s e v
        ((imported u rest).1, if rawShown u e = v then (imported u rest).2 else (k, 2) :: (imported u rest).2)

/-- R236: the regime of the general profile is disabled. -/
def untranslated (s : State) (r : Regime) : Prop :=
  if r = .stage2 then s.sys.hcr.getLsbD 0 = false ∧ s.sys.hcr.getLsbD 12 = false
  else
    (regimeSecure r = false ∧ controllingLevel s r = 1 ∧ s.has .el2 = true ∧
      (s.sys.hcr.getLsbD 27 = true ∨ s.sys.hcr.getLsbD 12 = true)) ∨
    (regimeSctlr s r).getLsbD 0 = false

/-- R237: nothing is translated by stage 2 after the regime. -/
def noStage2 (s : State) (r : Regime) : Prop :=
  (∀ u, r ≠ .e10Ns u ∧ r ≠ .s1Ns u) ∨ s.has .el2 = false ∨ (s.sys.hcr.getLsbD 0 = false ∧ s.sys.hcr.getLsbD 12 = false)

/-- R335: the protection unit is disabled for the regime, its Non-secure bank. -/
def unitOff (s : State) (r : Regime) : Prop :=
  match r with
  | .m _ _ negpri =>
    s.regions.mpuCtrl.ns.getLsbD 0 = false ∨ (s.regions.mpuCtrl.ns.getLsbD 1 = false ∧ negpri = true)
  | _ => (regimeSctlr s r).getLsbD 0 = false

/-- R343: the background map supplies permissions, Non-secure bank. -/
def background (s : State) (r : Regime) : Prop :=
  regimeUser r = false ∧
  if s.has .m = true then s.regions.mpuCtrl.ns.getLsbD 2 = true else (regimeSctlr s r).getLsbD 17 = true

/-- R344, R345: what the default map grants. -/
def defaultProt (s : State) (r : Regime) (a : Nat) : BitVec 3 :=
  if (if s.has .m then a < 0x40000000 ∨ (0x60000000 ≤ a ∧ a < 0xA0000000)
      else a < 0x80000000 ∨ (0xF0000000 ≤ a ∧ (regimeSctlr s r).getLsbD 13 = true)) then 7 else 3

/-- R330: the answer of a protection unit that grants `prot`. -/
def unitAnswer (r : Regime) (va : DWord) (k : Access) (prot : BitVec 3) (s : State) : State :=
  if prot.getLsbD k.num = true then
    respond s .ok va (0x3FC50 ||| prot.setWidth 64 ||| if regimeSecure r then 0x8 else 0)
  else respond s .fault 0x22 0

/-- R264: the 2-bit permission model. -/
def grants2 (ap : Nat) (user : Bool) : BitVec 3 := if ap % 2 = 0 ∧ user = true then 0 else if ap < 2 then 3 else 1

/-- R336 to R338: the regions of the older unit that hold an address, Non-secure bank, lowest number first. -/
def olderHits (s : State) (a : Nat) : List Nat :=
  (List.range s.params.mpuNregion).filter fun n =>
    let rsr := tget s.regions.rsr.ns n
    let base := (tget s.regions.rbar.ns n).toNat
    let size := field rsr 1 5
    let span := 2 ^ (size + 1)
    rsr.getLsbD 0 && decide (size ≠ 0) && !(s.has .m && decide (size < 4)) && decide (base % span = 0) &&
    decide (base ≤ a) && decide (a < base + span) && !(decide (256 ≤ span) && rsr.getLsbD (8 + (a - base) * 8 / span))

/-- R339: what region `n` of the older unit grants, Non-secure bank. -/
def olderGrants (s : State) (r : Regime) (n : Nat) (a : Nat) : BitVec 3 :=
  let racr := tget s.regions.racr.ns n
  let user := regimeUser r
  let prot : BitVec 3 :=
    match field racr 8 3 with
    | 1 => if user then 0 else 7
    | 2 => if user then 5 else 7
    | 3 => 7
    | 5 => if user then 0 else 5
    | 6 => 5
    | 7 => if s.has .m then 5 else 0
    | _ => 0
  if racr.getLsbD 12 = true ∨ (s.has .m = true ∧ 0xE0000000 ≤ a) then prot &&& 3 else prot

/-- R355: an address that takes the security state of the asker. -/
def exemptAddress (a : Word) (k : Access) : Bool :=
  (decide (k = .fetch) && decide (0xE0000000 ≤ a)) || (decide (0xE0000000 ≤ a) && decide (a ≤ 0xE0002FFF)) ||
  (decide (0xE000E000 ≤ a) && decide (a ≤ 0xE000EFFF)) || (decide (0xE002E000 ≤ a) && decide (a ≤ 0xE002EFFF)) ||
  (decide (0xE0040000 ≤ a) && decide (a ≤ 0xE0041FFF)) || (decide (0xE00FF000 ≤ a) && decide (a ≤ 0xE00FFFFF))

/-- R353 to R356, R358: Non-secure, callable, and the region that decided; `none` where two regions hold the address. -/
def attribution (s : State) (a : Word) (k : Access) (asker : Bool) : Option (Bool × Bool × Option Nat) :=
  let ext : Bool × Bool × Bool :=
    match s.params.idau.find? fun r => decide (r.base ≤ a) && decide (a ≤ r.limit) with
    | some r => (r.exempt, r.ns, r.nsc)
    | none => (false, true, false)
  let raised (ns nsc : Bool) (n : Option Nat) : Option (Bool × Bool × Option Nat) :=
    if ext.2.1 = false ∧ (ns = true ∨ (ext.2.2 = false ∧ nsc = true)) then some (false, ext.2.2, n) else some (ns, nsc, n)
  let limit (n : Nat) : Word := tget s.regions.sauRlar n
  if k = .fetch ∧ a >>> 28 = 0xF then some (false, false, none)
  else if ext.1 || exemptAddress a k then some (!asker, false, none)
  else if s.regions.sauCtrl.getLsbD 0 = false then raised (s.regions.sauCtrl.getLsbD 1) false none
  else
    match (List.range s.params.sauNregion).filter fun n =>
      (limit n).getLsbD 0 && decide (tget s.regions.sauRbar n &&& 0xFFFFFFE0 ≤ a) && decide (a ≤ limit n ||| 0x1F) with
    | [] => raised false false none
    | [n] => raised (!(limit n).getLsbD 1) ((limit n).getLsbD 1) (some n)
    | _ => none

/-- A descriptor of 4 bytes as the port answers it, in the byte order of the regime (R84, R242). -/
def word32 (s : State) (r : Regime) (d : DWord) : Word :=
  if (regimeSctlr s r).getLsbD 25 then d.extractLsb' 0 8 ++ d.extractLsb' 8 8 ++ d.extractLsb' 16 8 ++ d.extractLsb' 24 8
  else d.setWidth 32

/-- A descriptor of 8 bytes as the port answers it, in the byte order of the regime (R84, R242). -/
def word64 (s : State) (r : Regime) (d : DWord) : DWord :=
  if (regimeSctlr s r).getLsbD 25 then
    d.extractLsb' 0 8 ++ d.extractLsb' 8 8 ++ d.extractLsb' 16 8 ++ d.extractLsb' 24 8 ++
    d.extractLsb' 32 8 ++ d.extractLsb' 40 8 ++ d.extractLsb' 48 8 ++ d.extractLsb' 56 8
  else d

/-- R251, R252: the address of the first-level descriptor; `none` where the table walk is disabled. -/
def tableAddr (s : State) (r : Regime) (va : Word) : Option Word :=
  let tcr := regimeTcr s r
  let n := (tcr &&& 7).toNat
  let index := (va >>> 18) &&& 0x3FFC
  if n ≠ 0 ∧ va >>> (32 - n) ≠ 0 then
    if tcr.getLsbD 5 then none else some (((regimeTtbr1 s r).setWidth 32 &&& 0xFFFFC000) ||| index)
  else if tcr.getLsbD 4 then none
  else some (((regimeTtbr0 s r).setWidth 32 &&& ~~~ ((0x3FFF : Word) >>> n)) ||| index)

/-- A fault of the short format (R124, R267). -/
def shortFailed (kind level domain : Nat) : Response :=
  ⟨.fault, BitVec.ofNat 64 (kind + level * 0x20 + domain * 0x100), 0, []⟩

/-- The answer of a short-format walk (R126, R261): attributes 0xFF, shareability 0. -/
def shortGranted (s : State) (phys : Nat) (prot : BitVec 3) (secure : Bool) (log2size : Nat) : Response :=
  ⟨.ok, BitVec.ofNat 64 (phys % 2 ^ s.params.pamax),
    prot.setWidth 64 ||| (if secure then 0x8 else 0) ||| BitVec.ofNat 64 (log2size * 0x10) ||| 0x3FC00, []⟩

/-- R262: the access-permission decode for a client domain. -/
def grants3 (s : State) (r : Regime) (ap : Nat) : BitVec 3 :=
  let user := regimeUser r
  let sr := (regimeSctlr s r >>> 8) &&& 3
  match ap with
  | 0 => if s.has .v7 then 0 else if sr = 2 ∨ (sr = 1 ∧ user = false) then 1 else 0
  | 1 => if user then 0 else 3
  | 2 => if user then 1 else 3
  | 3 => 3
  | 4 => 0
  | 5 => if user then 0 else 1
  | 6 => 1
  | _ => if s.has .v6k then 1 else 0

/-- R254, R255: the end of a legacy walk. -/
def legacyEnd (s : State) (r : Regime) (k : Access) (level domain ap phys log2size : Nat) : Response :=
  let prot := if domainAccess s r domain = 3 then 3 else grants3 s r ap
  let prot := if prot = 0 then 0 else prot ||| 4
  if prot.getLsbD k.num = true then shortGranted s phys prot (regimeSecure r) log2size else shortFailed 2 level domain

/-- R261, R265, R266: the end of an extended walk. -/
def extendedEnd (s : State) (r : Regime) (k : Access) (level domain ap : Nat) (xn pxn ns : Bool) (phys log2size : Nat) :
    Response :=
  let secure := regimeSecure r && !ns
  let xn := xn || (pxn && !regimeUser r)
  let afe : Bool := s.has .v6k && (regimeSctlr s r).getLsbD 29
  if domainAccess s r domain = 3 then shortGranted s phys 7 secure log2size
  else if xn = true ∧ k = .fetch then shortFailed 2 level domain
  else if afe = true ∧ ap % 2 = 0 then shortFailed 4 level domain
  else
    let prot := if afe then grants2 (ap / 2) (regimeUser r) else grants3 s r ap
    let prot := if prot = 0 ∨ xn = true then prot else prot ||| 4
    let prot := if (regimeSctlr s r).getLsbD 19 = true ∧ prot.getLsbD 1 = true then prot &&& 3 else prot
    if prot.getLsbD k.num = true then shortGranted s phys prot secure log2size else shortFailed 2 level domain

/-- R253 to R266: what the first-level descriptor decides: an answer, or the address of the second-level descriptor and the
answer each value of it gives. -/
def shortStep (s : State) (r : Regime) (va : Word) (k : Access) (d₁ : Word) : Response ⊕ (Word × (Word → Response)) :=
  let offset (n : Nat) : Nat := va.toNat % 2 ^ n
  let base (d : Word) (n : Nat) : Nat := d.toNat / 2 ^ n * 2 ^ n
  let type := field d₁ 0 2
  if (regimeSctlr s r).getLsbD 23 = true ∨ s.has .v7 = true then
    let super := decide (type ≠ 1) && d₁.getLsbD 18
    let domain := if super then 0 else field d₁ 5 4
    if type = 0 ∨ (type = 3 ∧ s.has .pxn = false) then .inl (shortFailed 3 1 0)
    else if domainAccess s r domain = 0 ∨ domainAccess s r domain = 2 then
      .inl (shortFailed 5 (if type = 1 then 2 else 1) domain)
    else if type = 1 then
      .inr ((d₁ &&& 0xFFFFFC00) ||| ((va >>> 10) &&& 0x3FC), fun d₂ =>
        let ap := (if d₂.getLsbD 9 then 4 else 0) + field d₂ 4 2
        let pxn := s.has .pxn && d₁.getLsbD 2
        if field d₂ 0 2 = 0 then shortFailed 3 2 domain
        else if field d₂ 0 2 = 1 then
          extendedEnd s r k 2 domain ap (d₂.getLsbD 15) pxn (d₁.getLsbD 3) (base d₂ 16 + offset 16) 16
        else extendedEnd s r k 2 domain ap (d₂.getLsbD 0) pxn (d₁.getLsbD 3) (base d₂ 12 + offset 12) 12)
    else
      .inl (extendedEnd s r k 1 domain ((if d₁.getLsbD 15 then 4 else 0) + field d₁ 10 2) (d₁.getLsbD 4)
        (s.has .pxn && d₁.getLsbD 0) (d₁.getLsbD 19)
        (if super then base d₁ 24 + offset 24 + field d₁ 20 4 * 2 ^ 32 + field d₁ 5 4 * 2 ^ 36
         else base d₁ 20 + offset 20) (if super then 24 else 20))
  else
    let domain := field d₁ 5 4
    if type = 0 then .inl (shortFailed 3 1 domain)
    else if domainAccess s r domain = 0 ∨ domainAccess s r domain = 2 then
      .inl (shortFailed 5 (if type = 2 then 1 else 2) domain)
    else if type = 2 then .inl (legacyEnd s r k 1 domain (field d₁ 10 2) (base d₁ 20 + offset 20) 20)
    else
      .inr (if type = 1 then (d₁ &&& 0xFFFFFC00) ||| ((va >>> 10) &&& 0x3FC)
            else (d₁ &&& 0xFFFFF000) ||| ((va >>> 8) &&& 0xFFC), fun d₂ =>
        match field d₂ 0 2 with
        | 0 => shortFailed 3 2 domain
        | 1 => legacyEnd s r k 2 domain (field d₂ (4 + 2 * field va 14 2) 2) (base d₂ 16 + offset 16) 16
        | 2 => legacyEnd s r k 2 domain (field d₂ (4 + 2 * field va 10 2) 2) (base d₂ 12 + offset 12) 12
        | _ =>
          if type = 3 then legacyEnd s r k 2 domain (field d₂ 4 2) (base d₂ 10 + offset 10) 10
          else if s.has .v6 then legacyEnd s r k 2 domain (field d₂ 4 2) (base d₂ 12 + offset 12) 12
          else shortFailed 3 2 domain)

/-- A fault of the long format of a walk whose input is `va` (R124, R280). -/
def longFailed (r : Regime) (va : DWord) (kind level : Nat) (walk : Bool) : Response :=
  ⟨.fault, BitVec.ofNat 64 (kind + level * 0x20 + (if r = .stage2 then 0x1000 else 0) + (if walk then 0x4000 else 0) + 0x8000),
    if r = .stage2 then va else 0, []⟩

/-- Where a long walk starts (R281 to R285): the base register, the input size, the index bits per level, the level; or the
level of the fault that its configuration gives. -/
def longStart (s : State) (r : Regime) (va : DWord) : Except Nat (DWord × Nat × Nat × Nat) :=
  let a64 := regimeA64 s r
  let s2 := decide (r = .stage2)
  let rel := controllingLevel s r
  let tcr := regimeTcr s r
  let clamp (n : Nat) : Nat := max 16 (min 39 n)
  let addrsize := if a64 then 64 else if s2 then 40 else 32
  let t0 := if a64 then clamp (field tcr 0 6) else if s2 then (field tcr 0 4 + 8) % 16 else field tcr 0 3
  let t1 := if a64 then clamp (field tcr 16 6) else if s2 then 0 else field tcr 16 3
  let two : Bool := !s2 && (decide (rel = 1) || (decide (rel = 3) && !a64))
  let tb :=
    if a64 = true ∧ s2 = false ∧
        (if rel = 1 then (if va.getLsbD 55 then tcr.getLsbD 38 else tcr.getLsbD 37) else tcr.getLsbD 20) = true
    then 8 else 0
  let top (n : Nat) : Nat := va.toNat % 2 ^ (addrsize - tb) / 2 ^ (addrsize - n)
  let ones (n : Nat) : Nat := 2 ^ (n - tb) - 1
  let l0 := if a64 then 0 else 1
  let sel : Option Bool :=
    if t0 ≠ 0 ∧ top t0 = 0 then some false
    else if two = true ∧ t1 ≠ 0 ∧ top t1 = ones t1 then some true
    else if t0 = 0 then some false
    else if two = true ∧ t1 = 0 then some true
    else none
  if a64 = false ∧ s2 = true ∧ tcr.getLsbD 4 ≠ tcr.getLsbD 3 then .error 1
  else
    match sel with
    | none => .error l0
    | some hi =>
      let size := addrsize - if hi then t1 else t0
      let tg := if hi then field tcr 30 2 else field tcr 14 2
      let stride :=
        if a64 = false then 9
        else if hi = true then (if tg = 1 then 11 else if tg = 3 then 13 else 9)
        else if tg = 1 then 13 else if tg = 2 then 11 else 9
      let base := if hi then regimeTtbr1 s r else regimeTtbr0 s r
      let off : Bool :=
        if hi then tcr.getLsbD 23 else if rel = 1 ∨ (rel = 3 ∧ a64 = false) then tcr.getLsbD 7 else false
      if off = true then .error l0
      else if s2 = false then .ok (base, size, stride, 4 - (size - 4) / stride)
      else
        let sl0 := field tcr 6 2
        let first := if a64 = false ∨ stride = 9 then 2 else 3
        let level := first - sl0
        let pamax := s.params.pamax
        let below := (3 - level) * stride + stride + 3
        if first < sl0 ∨
            (a64 = true ∧
              ((stride = 13 ∧ (level = 0 ∨ (level = 1 ∧ pamax ≤ 42))) ∨
               (stride = 11 ∧ (level = 0 ∨ (level = 1 ∧ pamax ≤ 40))) ∨
               (stride = 9 ∧ level = 0 ∧ pamax ≤ 42) ∨
               (pamax < size ∧ (elIsA64 s 1 = true ∨ 40 < size)))) ∨
            (a64 = false ∧ level = 0) ∨ size < below + 1 ∨ below + stride + 4 < size
        then .error 0
        else .ok (base, size, stride, level)

/-- R286: the output size. -/
def longOut (s : State) (r : Regime) : Nat :=
  let tcr := regimeTcr s r
  min s.params.pamax
    (if regimeA64 s r = false then 40
     else [32, 36, 40, 42, 44, 48, 48, 48].getD (if controllingLevel s r = 1 then field tcr 32 3 else field tcr 16 3) 0)

/-- R312: what a stage-1 leaf grants. -/
def stage1Grants (s : State) (r : Regime) (ap : Nat) (ns xn pxn : Bool) : BitVec 3 :=
  let user := regimeUser r
  let rel := controllingLevel s r
  let u := grants2 ap true
  let p := grants2 ap user
  let never : Bool :=
    if regimeA64 s r then (if rel = 1 ∧ user = false then pxn || u.getLsbD 1 else xn)
    else if rel = 1 ∨ rel = 3 then
      (if user then xn || !u.getLsbD 0
       else xn || !p.getLsbD 0 || pxn || ((regimeSctlr s r).getLsbD 20 && u.getLsbD 1))
    else xn
  if (ns = true ∧ regimeSecure r = true ∧ s.has .el3 = true ∧ s.sys.scr.getLsbD 9 = true) ∨ never = true ∨
      ((regimeSctlr s r).getLsbD 19 = true ∧ p.getLsbD 1 = true) then p
  else p ||| 4

/-- R313: what a stage-2 leaf grants. -/
def stage2Grants (s : State) (ap : Nat) (xn : Bool) : BitVec 3 :=
  BitVec.ofNat 3 (ap % 4) ||| (if xn = false ∧ (elIsA64 s 2 = true ∨ ap % 2 = 1) then 4 else 0)

/-- R318: the attributes of a stage-2 leaf (its pseudocode: log entry 40). -/
def stage2Attrs (s : State) (hi lo : Nat) : Nat :=
  if hi = 0 then 4 * lo
  else if s.sys.hcr.getLsbD 32 then 0x44
  else 0x40 * hi + (if hi = 1 then 0 else 0x30) + 4 * lo + if lo = 1 then 0 else 3

/-- R300 to R318: the answer of a leaf `d` met at `level`, `tattr` what the tables above it say. -/
def longLeaf (s : State) (r : Regime) (k : Access) (va : DWord) (stride level : Nat) (tattr : BitVec 5) (d : DWord) :
    Response :=
  let s2 := decide (r = .stage2)
  let size := stride * (4 - level) + 3
  let phys := (d.toNat % 2 ^ (if regimeA64 s r then 48 else 40) / 2 ^ size * 2 ^ size +
    va.toNat % 2 ^ size) % 2 ^ s.params.pamax
  let ns := d.getLsbD 5 || tattr.getLsbD 4
  let ap := (if d.getLsbD 7 = true ∨ tattr.getLsbD 3 = true then 2 else 0) +
    if d.getLsbD 6 = true ∧ tattr.getLsbD 2 = false then 1 else 0
  let prot :=
    if s2 then stage2Grants s (field d 6 2) (d.getLsbD 54)
    else stage1Grants s r ap ns (d.getLsbD 54 || tattr.getLsbD 1) (d.getLsbD 53 || tattr.getLsbD 0)
  let attrs := if s2 then stage2Attrs s (field d 4 2) (field d 2 2) else field (regimeMair s r) (8 * field d 2 3) 8
  if d.getLsbD 10 = false then longFailed r va 4 level false
  else if prot.getLsbD k.num = false then longFailed r va 2 level false
  else
    ⟨.ok, BitVec.ofNat 64 phys,
      prot.setWidth 64 ||| (if regimeSecure r = true ∧ ns = false ∧ s2 = false then 0x8 else 0) |||
      BitVec.ofNat 64 (size * 0x10 + attrs * 0x400 + field d 8 2 * 0x40000), []⟩

/-- R298, R317: the answer of a walk from the level `3 - fuel` on, and the loads it makes, where the port answers `xs`;
`none` where `xs` is too short to say. -/
def longFrom (s : State) (r : Regime) (k : Access) (va : DWord) (stride out : Nat) :
    (fuel : Nat) → (table mask : DWord) → (tattr : BitVec 5) → (xs : List Answer) → Option (Response × List Request)
  | _, _, _, _, [] => none
  | fuel, table, mask, tattr, x :: xs =>
    let level := 3 - fuel
    let load : Request :=
      ⟨false, (table ||| ((va >>> (stride * (4 - level))) &&& mask)) &&& 0xFFFFFFFFFFFFFFF8, 8, !tattr.getLsbD 4, 0⟩
    match x with
    | .err => some (longFailed r va 7 level true, [load])
    | .ok w =>
      let d := word64 s r w
      let next := d.toNat % 2 ^ (if regimeA64 s r then 48 else 40) / 2 ^ (stride + 3) * 2 ^ (stride + 3)
      if d.getLsbD 0 = false ∨ (d.getLsbD 1 = false ∧ level = 3) then some (longFailed r va 3 level false, [load])
      else if out < 48 ∧ 2 ^ out ≤ next then some (longFailed r va 6 level false, [load])
      else
        match fuel with
        | 0 => some (longLeaf s r k va stride level tattr d, [load])
        | fuel + 1 =>
          if d.getLsbD 1 = false then some (longLeaf s r k va stride level tattr d, [load])
          else
            (longFrom s r k va stride out fuel (BitVec.ofNat 64 next) (BitVec.ofNat 64 (2 ^ (stride + 3) - 1))
              (if r = .stage2 then tattr else tattr ||| d.extractLsb' 59 5) xs).map fun a => (a.1, load :: a.2)

/-- R251, R252, R281 to R285, R298: the address of the first descriptor a walk loads; `none` where the walk ends before it, or
there is none because the regime is disabled. -/
def firstDescriptor (s : State) (r : Regime) (va : DWord) : Option DWord :=
  if s.sys.hcr.getLsbD 27 = true ∨ s.sys.hcr.getLsbD 12 = true ∨ (regimeSctlr s r).getLsbD 0 = false then none
  else if usesLongFormat s r then
    match longStart s r va with
    | .error _ => none
    | .ok (ttbr, size, stride, level) =>
      let span := size - stride * (4 - level)
      let base := ttbr.toNat % 2 ^ 48 / 2 ^ span * 2 ^ span
      if longOut s r < 48 ∧ 2 ^ longOut s r ≤ base then none
      else some ((BitVec.ofNat 64 base ||| ((va >>> (stride * (4 - level))) &&& BitVec.ofNat 64 (2 ^ span - 1))) &&&
        0xFFFFFFFFFFFFFFF8)
  else (tableAddr s r (va.setWidth 32)).map fun a => a.setWidth 64

/-- R319: the attributes and the shareability of two stages combined. -/
def bothStages (a b : BitVec 8 × BitVec 2) : BitVec 8 × BitVec 2 :=
  let device (w : BitVec 8) : Bool := decide (w >>> 4 = 0)
  let type (w : BitVec 8) : Nat := if device w then field w 2 2 else 3
  let half (x y : Nat) : Nat := if x = 4 ∨ y = 4 then 4 else if x / 4 = 0 ∨ x / 4 = 2 then x else if y / 4 = 2 then 8 + x % 4 else x
  if device a.1 || device b.1 then (BitVec.ofNat 8 (4 * min (type a.1) (type b.1)), 2)
  else
    let w := BitVec.ofNat 8 (16 * half (field a.1 4 4) (field b.1 4 4) + half (field a.1 0 4) (field b.1 0 4))
    (w, if w = 0x44 ∨ a.2 = 2 ∨ b.2 = 2 then 2 else if a.2 = 3 ∨ b.2 = 3 then 3 else 0)

/-- The status word of a 32-bit handler (R392): the mode, `IT`, `J`, `IL`, `SS` clear, the masks added, `N Z C V Q GE`
kept, `E` and `T` from the system control register of the handler. -/
def handlerStatus (s u : State) (mode : Mode) (mask : Word) (t : Bool) : Prop :=
  u.a32.cpsr &&& 0x1F = mode.num.setWidth 32 ∧ u.a32.cpsr &&& 0x07F0FC00 = 0 ∧
  u.a32.cpsr &&& 0xF80F0000 = s.a32.cpsr &&& 0xF80F0000 ∧
  u.a32.cpsr &&& 0x1C0 = (s.a32.cpsr &&& 0x1C0) ||| mask ∧
  u.a32.cpsr.getLsbD 9 = (u.sys.sctlr.get (lvlOf (curEl u))).getLsbD 25 ∧ u.a32.cpsr.getLsbD 5 = t

/-- The banks after an entry from mode `old` to mode `mode` (R160): the old mode's registers in its bank, `R[0..7]`
kept, `R[8..12]` exchanged with the FIQ set's, the new mode's stack pointer live. -/
def enteredBank (s u : State) (old mode : Mode) : Prop :=
  (∀ i, i < 8 → vget u.a32.r i = vget s.a32.r i) ∧
  (mode = old ∨ (mode ≠ .fiq ∧ old ≠ .fiq) → ∀ i, 8 ≤ i → i < 13 → vget u.a32.r i = vget s.a32.r i) ∧
  (mode = .fiq → old ≠ .fiq → ∀ i, i < 5 →
    vget u.a32.r (8 + i) = vget s.a32.fiqR8 i ∧ vget u.a32.usrR8 i = vget s.a32.r (8 + i)) ∧
  (old = .fiq → mode ≠ .fiq → ∀ i, i < 5 →
    vget u.a32.r (8 + i) = vget s.a32.usrR8 i ∧ vget u.a32.fiqR8 i = vget s.a32.r (8 + i)) ∧
  (mode = old → vget u.a32.r 13 = vget s.a32.r 13) ∧
  (mode.bank ≠ old.bank → vget u.a32.r 13 = vget s.a32.bankR13 mode.bank.toNat ∧
    vget u.a32.bankR13 old.bank.toNat = vget s.a32.r 13 ∧ vget u.a32.bankR14 old.bank14.toNat = vget s.a32.r 14 ∧
    vget u.a32.bankSpsr old.bank.toNat = s.a32.spsr)

/-- R163: the 32-bit view of a state that runs level 0 in the 64-bit state: the low halves of `X[0..30]` at their places, the
banks of Monitor mode and the saved status words as they were, `PC64[31:0]`, `PSTATE` in User mode, the stack pointer saved. -/
def asA32 (s : State) : State :=
  let x (n : Nat) : Word := (vget s.a64.x n).setWidth 32
  { s with
    aarch64 := false
    a64 := { s.a64 with spEl := vset s.a64.spEl 0 (vget s.a64.x 31) }
    a32 := { s.a32 with
      r := #v[x 0, x 1, x 2, x 3, x 4, x 5, x 6, x 7, x 8, x 9, x 10, x 11, x 12, x 13, x 14, s.a64.pc.setWidth 32]
      cpsr := (s.a64.pstate &&& 0xFF3FFFE0) ||| 0x10
      spsr := vget s.a32.bankSpsr 0
      usrR8 := #v[x 8, x 9, x 10, x 11, x 12]
      fiqR8 := #v[x 24, x 25, x 26, x 27, x 28]
      bankR13 := #v[x 13, x 19, x 21, x 23, x 17, x 29, x 15, vget s.a32.bankR13 7]
      bankR14 := #v[x 14, x 18, x 20, x 22, x 16, x 30, vget s.a32.bankR14 6, vget s.a32.bankR14 7] } }

/-- R404: the return from level `c` to level `el` that the saved word names is legal. -/
def legalReturn64 (s : State) (c : Nat) (spsr : Word) (el : Nat) : Prop :=
  (if spsr.getLsbD 4 = true then
     (∃ m, modeOf? (spsr.setWidth 5) = some m ∧ m ≠ .mon ∧ el = if m = .usr then 0 else if m = .hyp then 2 else 1)
   else spsr.getLsbD 1 = false ∧ spsr &&& 0xF ≠ 1 ∧ el = field spsr 2 2) ∧
  el ≤ c ∧ (el = 2 → s.has .el2 = true ∧ secureBelowEl3 s = false) ∧
  (el ≠ 0 → elIsA64 s el = !spsr.getLsbD 4) ∧
  (el = 1 → ¬ (s.has .el2 = true ∧ s.sys.hcr.getLsbD 27 = true ∧ secureBelowEl3 s = false))

/-- The return sentinel that names the interrupted context (R426, R438), without the security extension; by the pseudocode of
R426 where its prose lists fewer values (log entry 46). -/
def sentinelOf (s : State) : Word :=
  (if s.has .v8 = true then 0xFFFFFFB1 else 0xFFFFFFF1) |||
  (if s.m.control.ns.getLsbD 1 then 0x4 else 0) ||| (if s.m.exception = 0 then 0x8 else 0)

/-- R434: the frame is realigned. -/
def realigns (s : State) : Bool := (vget s.a32.r 13).getLsbD 2 && (s.msys.ccr.get s.m.secure).getLsbD 9

/-- R434: the frame pointer. -/
def framePointer (s : State) : Word := vget s.a32.r 13 - (if realigns s then 4 else 0) - 0x20

/-- R205, R207: `reset_one`, spelled out: SPECIAL, ALIAS, NOP and CONST entries are left, a reset hook of the catalog may do anything
but what `HOOKS` may not, a drawn register takes a free value, every other one its reset value. -/
def oneReset (s : State) (e : Entry) : State :=
  if e.typ.getLsbD 0 = true ∨ e.typ.getLsbD 4 = true ∨ e.typ.getLsbD 7 = true ∨ e.typ.getLsbD 1 = true then s
  else
    match e.resetfn with
    | .catalog id =>
      { Config.hookReset id s e with
        params := s.params, reg := s.reg, constructing := s.constructing, bus := s.bus, draws := s.draws, ports := s.ports }
    | .none =>
      if e.field = .none then s
      else if e.typ.getLsbD 6 = true then fieldSet { s with draws := s.draws + 1 } e.field (Config.nondetReset s.draws)
      else fieldSet s e.field e.resetvalue
    | _ => s

/-- R500 steps 1 and 2: the reset fields cleared, then `reset_one` of every entry in ascending key order. -/
def registryReset (s : State) : State := s.reg.foldl oneReset (clearFields s)

/-- R206: the self-check after the first reset, entry by entry without SPECIAL, NO_RAW and NONDET: the state after it, and whether
each raw value was the same before and after one more `reset_one`. -/
def selfChecked (s : State) : State × Bool :=
  s.reg.foldl
    (fun x e =>
      if e.typ.getLsbD 0 = true ∨ e.typ.getLsbD 5 = true ∨ e.typ.getLsbD 6 = true then x
      else (oneReset x.1 e, x.2 && decide (rawShown x.1 e = rawShown (oneReset x.1 e) e)))
    (registryReset s, true)

/-- R504: every entry of the region tables is 0, their lengths are the parameters', and the region numbers are 0. -/
def regionsCleared (p : Params) (u : State) : Prop :=
  (∀ k, u.regions.rbar.get k = List.replicate p.mpuNregion 0 ∧ u.regions.rsr.get k = List.replicate p.mpuNregion 0 ∧
    u.regions.racr.get k = List.replicate p.mpuNregion 0 ∧ u.regions.rlar.get k = List.replicate p.mpuNregion 0 ∧
    u.regions.mpuRnr.get k = 0) ∧
  u.regions.sauRbar = List.replicate p.sauNregion 0 ∧ u.regions.sauRlar = List.replicate p.sauNregion 0 ∧
  u.regions.sauRnr = 0 ∧ u.regions.rgnr = 0

/-- R424: the exception and the fault status bit of an event that is no abort. -/
def microRow (kind : BitVec 8) : Option (Nat × Word) :=
  match kind.toNat with
  | 32 => some (6, 0x00010000)
  | 33 => some (6, 0x00080000)
  | 34 => some (6, 0x00020000)
  | 35 => some (11, 0)
  | 38 => some (12, 0)
  | 40 => some (6, 0x01000000)
  | 41 => some (6, 0x02000000)
  | 42 => some (6, 0x00100000)
  | _ => none

/-- R440, R471: the exception of an abort of a kind (R125).  The exception of `NSC_EXEC` on a data access is read from R471's
table (log entry 47). -/
def microAbort (data : Bool) (kind : Nat) : Nat :=
  if 11 ≤ kind then 7
  else if kind = 7 then 5
  else if data = true ∧ (kind = 8 ∨ kind = 9) then 5
  else if data = true ∧ kind = 1 then 6
  else 4

/-- R440: the fault status and fault address registers after an abort of a kind (R125) that is exception `n`, in the bank of
security state `k`.  `NSC_EXEC` on a data access sets the status bit R440 gives that kind (log entry 47). -/
def abortStatus (s u : State) (k data : Bool) (kind n : Nat) (a : DWord) : Prop :=
  (n = 4 → cfsrGet u k = cfsrGet s k ||| (if data then 0x82 else 0x01) ∧
    u.msys.mmfar = (if data then s.msys.mmfar.set k (a.setWidth 32) else s.msys.mmfar)) ∧
  (n ≠ 4 → u.msys.mmfar = s.msys.mmfar) ∧
  (kind = 7 → cfsrGet u k = cfsrGet s k ||| (if data then 0x8200 else 0x0100) ∧
    u.msys.bfar = if data then a.setWidth 32 else s.msys.bfar) ∧
  (kind ≠ 7 → u.msys.bfar = s.msys.bfar) ∧
  (n = 5 → kind = 8 → cfsrGet u k = cfsrGet s k ||| 0x0200) ∧
  (n = 5 → kind = 9 → cfsrGet u k = cfsrGet s k ||| 0x0400) ∧
  (n = 6 → cfsrGet u k = cfsrGet s k ||| 0x01000000) ∧
  (n = 7 → cfsrGet u k = cfsrGet s k ∧
    u.msys.sfsr = s.msys.sfsr |||
      (if kind = 12 then 0x01 else if data then 0x48 else if kind = 11 then 0x08 else if k then 0x10 else 0x01) ∧
    u.msys.sfar = if data = true ∧ kind ≠ 12 then a.setWidth 32 else s.msys.sfar) ∧
  (n ≠ 7 → u.msys.sfsr = s.msys.sfsr ∧ u.msys.sfar = s.msys.sfar) ∧
  (∀ j, j ≠ k → u.msys.cfsr.get j = s.msys.cfsr.get j) ∧
  { u.msys with cfsr := s.msys.cfsr, bfsr := s.msys.bfsr, mmfar := s.msys.mmfar, bfar := s.msys.bfar,
                sfsr := s.msys.sfsr, sfar := s.msys.sfar } = s.msys

end Sys2Proof.Machine

section
open Sys2Proof Sys2Proof.Machine

/-! ## Commands -/

/-- R110, R113: every operation, with every operand, is read back from its command.  The encoder writes every field the
decoder reads. -/
def Obligations.DecodeEncodeRoundTrip : Prop := ∀ i : Instr, decode (encode i) = .ok i

/-- R113, R114: a command is an operation exactly when its word is in a row of the opcode table, and then the word is the
one the operation encodes to; what is refused has a reserved `op`, a nonzero `f3` or a nonzero unused field. -/
def Obligations.CommandLegalIffRowMatches : Prop :=
  ∀ c : Command,
    ((∃ i, decode c = .ok i) ↔ ∃ r ∈ opRows, r.matchesWord c.w = true) ∧
    (∀ i, decode c = .ok i → (encode i).w = c.w) ∧
    (∀ r ∈ opRows, ∀ q ∈ opRows, r.matchesWord c.w = true → q.matchesWord c.w = true → r = q)

/-- R110, R113, R115: words written out from the field table, one of each family. -/
def Obligations.SpecWordsDecode : Prop :=
  decode (.ofWord 0x00000000) = .ok .nop ∧
  decode (.ofWord 0x00000702) = .ok (.hasFeature 7) ∧
  decode { Command.ofWord 0x00000D09 with a := 0x20001003 } = .ok (.gprWrite 13 0x20001003) ∧
  decode { Command.ofWord 0x0000010B with a := 0x12, b := 0x1F } = .ok (.psrWrite 1 0x12 0x1F) ∧
  decode { Command.ofWord 0x00000013 with a := 0x1013C080, b := 1 } = .ok (.crWrite 0x1013C080 1) ∧
  decode { Command.ofWord 0x00010021 with a := 0x40201234 } = .ok (.translate 0 1 0x40201234) ∧
  decode { Command.ofWord 0x00000530 with c := 15 } = .ok (.recognize 5 0 0 0 15) ∧
  decode { Command.ofWord 0x00000032 with a := 0x8000 } = .ok (.excReturn 0x8000 0) ∧
  decode (.ofWord 0x00000006) = .error .reservedOp ∧
  decode (.ofWord 0x01000000) = .error .reservedField ∧
  decode (.ofWord 0x00000100) = .error .unusedField

/-- R3, R114, R490: a step takes the first waiting command and runs the operation it decodes to on a state whose outputs are
clear; a command that is no operation is answered `ILLEGAL_CMD` and changes nothing else; with no command waiting nothing
happens. The queue is the model's (log entry 8), and so is the answer `LOCKED` to a command that is no operation in
lockup: R490 is taken over R114 (log entry 13).  `r0 = r1 = 0` of `ILLEGAL_CMD` is log entry 48's (DESIGN CHOICE). -/
def Obligations.StepTakesOneCommand : Prop :=
  (∀ s : State, s.ports.cmds = [] → step s = .next s) ∧
  ∀ (s : State) (c : Command) (rest : List Command), s.ports.cmds = c :: rest →
    let s' := { s with ports := { rsp := none, tlbinv := 0, cmds := rest }, bus := { s.bus with reqs := [] } }
    (∀ i, decode c = .ok i → step s = exec i s') ∧
    (∀ e, decode c = .error e →
      step s = .next (if s.locked = true then respond s' .locked 0 0 else respond s' .illegalCmd 0 0))

/-- R114: an operand outside the range its rule states is answered `ILLEGAL_CMD` and no state changes; so is an operation
that the state or the features do not allow: `TAKE_EXCEPTION` with nothing pending or with a target below the current
level (R382, R422); `EXC_RETURN` while an event is pending, at level 0, in System mode, in Thread mode or without a
sentinel (R402, R450); `RECOGNIZE` of a kind that the instance lacks (R470), and of any on the general profile while one
is pending (R371); `TRANSLATE` of a regime that the instance lacks (R123), and of `TRANSLATE` and `RESOLVE` an address of 2^32 or above in a
32-bit regime (R230, R231); `SEC_ATTR` without the security extension (R352). Two of these are the model's: an `A` that is
not 0 where `EXC_RETURN` does not use it (log entry 27), regime 5 with a 32-bit level 3 (log entry 25; that R230 and R450
are taken over R111 too), both DEDUCED. That flag bits 7:4 of `RECOGNIZE` are out of range is log entry 16's reading
(DEDUCED), and `r0 = r1 = 0` of the answer log entry 48's (DESIGN CHOICE). -/
def Obligations.IllFormedOperandsIllegal : Prop :=
  (∀ (i : Instr) (s : State), i.wellFormed = false → s.locked = false → s.constructing = false →
    exec i s = .next (respond s .illegalCmd 0 0)) ∧
  ∀ s : State, s.locked = false →
    let refused (i : Instr) : Prop := exec i s = .next (respond s .illegalCmd 0 0)
    (s.exc.phase ≠ .pending → refused .takeException) ∧
    (s.has .m = false → s.exc.targetEl.toNat < curEl s → refused .takeException) ∧
    (∀ a b : DWord,
      s.exc.phase = .pending ∨
      (s.has .m = false ∧ (curEl s = 0 ∨ (s.aarch64 = false ∧ modeOf? (s.a32.cpsr.setWidth 5) = some .sys) ∨
        (a ≠ 0 ∧ (s.aarch64 = true ∨ modeOf? (s.a32.cpsr.setWidth 5) = some .hyp)))) ∨
      (s.has .m = true ∧ (s.m.exception = 0 ∨ a >>> 24 ≠ 0xFF)) → refused (.excReturn a b)) ∧
    (∀ (kind flags : BitVec 8) (a b c : DWord),
      kindLacking s kind = true ∨ (s.has .m = false ∧ s.exc.phase = .pending) → refused (.recognize kind flags a b c)) ∧
    (∀ (kind id : BitVec 8) (va : DWord),
      regimeLacking s id = true ∨ (∃ r, regimeOf id = some r ∧ regimeA64 s r = false ∧ 2 ^ 32 ≤ va.toNat) →
      refused (.translate kind id va)) ∧
    (∀ (kind : BitVec 8) (va : DWord), regimeA64 s (currentRegime s) = false → 2 ^ 32 ≤ va.toNat →
      refused (.resolve kind va)) ∧
    (∀ (kind asker : BitVec 8) (addr : DWord), s.has .mSecurity = false → refused (.secAttr kind asker addr))

/-- R112: after construction every command is answered: the step completes with exactly one response, never `FATAL`. -/
def Obligations.EveryCommandAnswered : Prop :=
  ∀ (i : Instr) (s : State), s.constructing = false →
    ∃ t r, exec i s = .next t ∧ t.ports.rsp = some r ∧ r.status ≠ .fatal

/-- R490: in lockup every command but the reset and the pure queries is answered `LOCKED` with `r0 = r1 = 0`, and changes
no state; the pure queries change nothing but the response. -/
def Obligations.LockupAbsorbing : Prop :=
  ∀ (i : Instr) (s : State), s.locked = true → i ≠ .cpuReset →
    (isPureQuery i = false → exec i s = .next (respond s .locked 0 0)) ∧
    (isPureQuery i = true → ∃ st r0, exec i s = .next (respond s st r0 0) ∧ st ≠ .locked)

/-! ## The whole machine -/

/-- The invariant (R23, R26 to R28, R38, R39, R41, R50, R60, R61, R185, R472, R490) is kept by every step.  It is stated for
machines without catalog hooks: those are parameters that may do anything (log entry 5). -/
def Obligations.StepKeepsInvariant : Prop := ∀ s t : State, Inv s → step s = .next t → Inv t

/-- R149, R170 (b), (c), (d): every operation but the raw writes keeps the mode field a mode, the level at most the highest,
and level 2 out of Secure state. The premises on the registry are those R48 makes of `SCR`; the operation is none that
`levelOp` leaves out: a raw write, a status write of part of the mode field, a registry reset at level 2 (log entry 23),
an entry to level 2 in Secure state, which the steps of R373 and R382 make (log entry 41, DEDUCED). Of that entry the
second half says that it keeps all but R170 (d): it breaks (d) alone. -/
def Obligations.OperationsKeepLevels : Prop :=
  (∀ (i : Instr) (s t : State), Inv s → LevelInv s → (∀ e ∈ s.reg, keepsLevels e = true) → levelOp s i = true →
    exec i s = .next t → LevelInv t) ∧
  ∀ s t : State, Inv s → LevelInv s → entersSecureHyp s = true → exec .takeException s = .next t → LevelOk t

/-- The reset state has both invariants, and its registry is one the second is kept under.  Which features that instance has
is the model's choice (log entry 1). -/
def Obligations.ResetSatisfiesInvariant : Prop :=
  Inv State.reset ∧ LevelInv State.reset ∧ ∀ e ∈ State.reset.reg, keepsLevels e = true

/-- R522: after construction the registry and the parameters never change, and `CR_DEFINE` is `ILLEGAL_CMD`.  `r0 = r1 = 0`
of `ILLEGAL_CMD` is log entry 48's (DESIGN CHOICE). -/
def Obligations.RegistryImmutable : Prop :=
  ∀ s : State, s.constructing = false →
    (∀ i t, exec i s = .next t → t.reg = s.reg ∧ t.params = s.params ∧ t.constructing = false) ∧
    (∀ d, s.locked = false → exec (.crDefine d) s = .next (respond s .illegalCmd 0 0))

/-- What no operation but those that own it changes: the phase, the pending record and lockup belong to the exception
operations and the reset (R472, R490), unless a register of the catalog names them as its storage (R118); the MEM port and
memory to the operations R87 lists (on the general profile taking an exception, returning and the reset do not touch
them); the vector registers to the translator, unless a register of the catalog names them (R31). -/
def Obligations.OwnedStateFrame : Prop :=
  ∀ (i : Instr) (s t : State), exec i s = .next t →
    (Inv s → (∀ e ∈ s.reg, isMachineField e.field = false) → isExceptionOp i = false →
      t.exc = s.exc ∧ t.locked = s.locked) ∧
    (usesMemPort (s.has .m) i = false → t.bus = s.bus) ∧
    (Inv s → (∀ e ∈ s.reg, isVectorField e.field = false) → i ≠ .cpuReset → t.fp.v = s.fp.v)

/-- The queries and the reads change nothing but the response (R12, R140 to R168, R186, R189, R210, R216, R352). -/
def Obligations.QueriesChangeOnlyResponse : Prop :=
  ∀ (i : Instr) (s t : State), onlyLooks i = true → exec i s = .next t →
    { t with ports := { t.ports with rsp := s.ports.rsp } } = s

/-! ## Features and modes -/

/-- R140, R143, R146, R148: the four pure queries, in every state, also in lockup.  `r0 = r1 = 0` of `ILLEGAL_CMD` is log
entry 48's (DESIGN CHOICE). -/
def Obligations.PureQueriesAnswer : Prop :=
  ∀ s : State,
    exec .nop s = .next (respond s .ok 0 0) ∧
    (∀ n : BitVec 8, exec (.hasFeature n) s =
      if n.toNat < s.params.featBits then
        .next (respond s .ok (if s.params.features.testBit n.toNat then 1 else 0) 0)
      else .next (respond s .illegalCmd 0 0)) ∧
    exec .curEl s = .next (respond s .ok
      (if s.has .m = true then
         (if s.m.exception ≠ 0 ∨ (s.m.control.get s.m.secure).getLsbD 0 = false then 1 else 0)
       else if s.aarch64 = true then ((s.a64.pstate >>> 2) &&& 3).setWidth 64
       else if s.a32.cpsr &&& 0x1F = 0b10000 then 0
       else if s.a32.cpsr &&& 0x1F = 0b11010 then 2
       else if s.a32.cpsr &&& 0x1F = 0b10110 then 3
       else if s.has .el3 = true ∧ s.sys.scr.getLsbD 0 = false ∧ s.has .aarch64 = false then 3
       else 1) 0) ∧
    exec .isSecure s = .next (respond s .ok
      (if s.has .m = true then (if s.m.secure then 1 else 0)
       else if s.has .el3 = true ∧ s.aarch64 = true ∧ (s.a64.pstate >>> 2) &&& 3 = 3 then 1
       else if s.has .el3 = true ∧ s.aarch64 = false ∧ s.a32.cpsr &&& 0x1F = 0b10110 then 1
       else if s.has .el3 = true ∧ s.sys.scr.getLsbD 0 = false then 1
       else 0) 0)

/-- R142: the closed set, feature by feature; it is closed, and the checks are those of the rule. -/
def Obligations.FeatureClosure : Prop :=
  (∀ f : Nat,
    let c := closeFeatures f
    closeFeatures c = c ∧
    hasBit c .aarch64 = hasBit f .aarch64 ∧ hasBit c .mSecurity = hasBit f .mSecurity ∧
    hasBit c .el2 = hasBit f .el2 ∧ hasBit c .el3 = hasBit f .el3 ∧
    hasBit c .m = (hasBit f .m || hasBit f .mSecurity) ∧
    hasBit c .v8 = (hasBit f .v8 || hasBit f .aarch64 || hasBit f .mSecurity) ∧
    hasBit c .v7 = (hasBit f .v7 || hasBit c .v8) ∧
    hasBit c .lpae = (hasBit f .lpae || (hasBit c .v8 && !hasBit c .m)) ∧
    hasBit c .v6k = (hasBit f .v6k || (hasBit c .v7 && !hasBit c .m)) ∧
    hasBit c .v6 = (hasBit f .v6 || hasBit c .v7 || hasBit c .v6k) ∧
    hasBit c .pxn = (hasBit f .pxn || hasBit c .lpae) ∧
    hasBit c .pmsa = (hasBit f .pmsa || hasBit c .m) ∧
    ∀ n, 12 ≤ n → c.testBit n = f.testBit n) ∧
  (∀ p q : Params, closeParams p = .ok q →
    q = { p with features := closeFeatures p.features } ∧
    (has q .m = true → has q .aarch64 = false ∧ has q .el2 = false ∧ has q .el3 = false ∧ has q .lpae = false) ∧
    (has q .el2 = true → has q .v7 = true) ∧ (has q .pmsa = true → has q .lpae = false))

/-- R128, R147, R150 to R154: the fields of the mode descriptor, each from the registers its rule names, and zero above
them. -/
def Obligations.PackModeFields : Prop :=
  ∀ s : State, s.locked = false →
    let el := curEl s
    let a64 (l : Nat) : Bool :=
      s.has .aarch64 && (decide (l = if s.has .el3 then 3 else if s.has .el2 then 2 else 1) ||
        ((!s.has .el3 || s.sys.scr.getLsbD 10) &&
         (decide (l = 2) || !s.has .el2 || (s.has .el3 && !s.sys.scr.getLsbD 0) || s.sys.hcr.getLsbD 31)))
    let be : Bool :=
      if s.has .m then false
      else if s.aarch64 then
        (match el with
         | 0 => s.sys.sctlr.l1.getLsbD 24
         | 1 => s.sys.sctlr.l1.getLsbD 25
         | 2 => s.sys.sctlr.l2.getLsbD 25
         | _ => s.sys.sctlr.l3.getLsbD 25)
      else s.a32.cpsr.getLsbD 9
    let fpen := (s.sys.cpacr >>> 20) &&& 3
    let pl1 := if isSecure s = true ∧ s.has .el3 = true ∧ a64 3 = false then 3 else 1
    let fp : Nat :=
      if s.has .m = true ∨ s.has .v6 = false then 0
      else if (fpen = 0 ∨ fpen = 2) ∧ (el = 0 ∨ el = 1 ∨ (el = 3 ∧ pl1 = 3)) then pl1
      else if fpen = 1 ∧ el = 0 then pl1
      else if s.has .el2 = true ∧ el ≤ 2 ∧ ¬ (s.has .el3 = true ∧ s.sys.scr.getLsbD 0 = false) ∧
          s.sys.cptr2.getLsbD 10 = true then 2
      else if s.has .el3 = true ∧ s.sys.cptr3.getLsbD 10 = true then 3
      else 0
    let dbg : Nat :=
      if s.has .el2 = true ∧ isSecure s = false ∧ (s.sys.hcr.getLsbD 27 = true ∨ s.sys.mdcr.getLsbD 8 = true) then 2
      else if s.has .el3 = true ∧ a64 3 = false ∧ isSecure s = true then 3
      else 1
    let stepping : Bool := !s.has .m && s.sys.mdscr.getLsbD 0 && a64 dbg &&
      (decide (el < dbg) || (decide (el = dbg) && s.sys.mdscr.getLsbD 13 && !s.a64.pstate.getLsbD 9))
    ∃ r : DWord, exec .packMode s = .next (respond s .ok r 0) ∧
      field r 0 2 = el ∧ r.getLsbD 2 = isSecure s ∧ r.getLsbD 3 = s.aarch64 ∧ r.getLsbD 4 = be ∧
      field r 5 2 = fp ∧ r.getLsbD 7 = stepping ∧
      r.getLsbD 8 = (!s.has .m && if s.aarch64 then s.a64.pstate.getLsbD 21 else s.a32.cpsr.getLsbD 21) ∧ r.toNat < 512

/-! ## The register bank -/

/-- R26 to R28, R166 to R168: the register an index names, read and written, where a write changes nothing else; the live status
word and the saved one; in a state with the invariant bit 4 of `PSTATE` and bit 9 of the xPSR are 0.  `r0 = r1 = 0` of a
write is log entry 48's. -/
def Obligations.RegisterBankAccess : Prop :=
  (∀ (idx : BitVec 8) (v : DWord) (s : State), s.locked = false →
    (s.has .m = true ∨ s.aarch64 = false →
      (exec (.gprRead idx) s =
        if idx.toNat ≤ 15 then .next (respond s .ok ((vget s.a32.r idx.toNat).setWidth 64) 0)
        else .next (respond s .illegalCmd 0 0)) ∧
      exec (.gprWrite idx v) s =
        if idx.toNat ≤ 15 then
          .next (respond { s with a32 := { s.a32 with
            r := vset s.a32.r idx.toNat
              (if s.has .m = true ∧ idx = 13 then v.setWidth 32 &&& 0xFFFFFFFC else v.setWidth 32) } } .ok 0 0)
        else .next (respond s .illegalCmd 0 0)) ∧
    (s.has .m = false → s.aarch64 = true →
      (exec (.gprRead idx) s =
        if idx.toNat ≤ 31 then .next (respond s .ok (vget s.a64.x idx.toNat) 0)
        else if idx.toNat = 32 then .next (respond s .ok s.a64.pc 0)
        else .next (respond s .illegalCmd 0 0)) ∧
      exec (.gprWrite idx v) s =
        if idx.toNat ≤ 31 then .next (respond { s with a64 := { s.a64 with x := vset s.a64.x idx.toNat v } } .ok 0 0)
        else if idx.toNat = 32 then .next (respond { s with a64 := { s.a64 with pc := v } } .ok 0 0)
        else .next (respond s .illegalCmd 0 0))) ∧
  ∀ s : State, s.locked = false →
    (Inv s → s.a64.pstate.getLsbD 4 = false ∧ (s.m.xpsr ||| s.m.exception.setWidth 32).getLsbD 9 = false) ∧
    exec .psrRead s = .next
      (if s.has .m = true then respond s .ok ((s.m.xpsr ||| s.m.exception.setWidth 32).setWidth 64) 0
       else if s.aarch64 = true then
         respond s .ok (s.a64.pstate.setWidth 64)
           (match curEl s with
            | 0 => 0
            | 1 => vget s.a32.bankSpsr 1
            | 2 => vget s.a32.bankSpsr 6
            | _ => vget s.a32.bankSpsr 7)
       else respond s .ok (s.a32.cpsr.setWidth 64) s.a32.spsr)

/-- R28, R156, R157, R158, R169: the masked write on the microcontroller profile (every write type); in the 32-bit state the
`RAW` write and the other writes that change no mode (none asked for, in User mode, or one that R158 refuses: the mode
stays, and `IL` is set on the newer generation); the write of the 64-bit state with the stack pointer saved before and
loaded after (at level 0 too, where R162 would keep the stack select 0: log entry 44); a write that would change the
level or the width there is `ILLEGAL_CMD`. `r0 = r1 = 0` of an `OK` is log entry 48's.  The mode of a write of part of
the mode field is that of the value as given (log entry 23, DEDUCED). -/
def Obligations.PsrWriteMergesStatus : Prop :=
  ∀ (wt : BitVec 8) (a b : DWord) (s : State), s.locked = false → wt.toNat ≤ 2 →
    let val : Word := a.setWidth 32
    let mask : Word := b.setWidth 32
    (s.has .m = true →
      exec (.psrWrite wt a b) s = .next (respond { s with m := { s.m with
        xpsr := ((s.m.xpsr &&& ~~~ mask) ||| (val &&& mask)) &&& 0xFF0FFC00 } } .ok 0 0)) ∧
    (s.has .m = false → s.aarch64 = false →
      let merged (m : Word) : Word := ((s.a32.cpsr &&& ~~~ m) ||| (val &&& m)) &&& 0xFF3FFFFF
      let asked : Bool := decide ((s.a32.cpsr ^^^ val) &&& mask &&& 0x1F ≠ 0)
      let kept := openMask s val mask &&& ~~~ 0x1F
      (wt = 0 →
        exec (.psrWrite wt a b) s = .next (respond { s with a32 := { s.a32 with cpsr := merged mask } } .ok 0 0)) ∧
      (wt ≠ 0 → asked = false →
        exec (.psrWrite wt a b) s =
          .next (respond { s with a32 := { s.a32 with cpsr := merged (openMask s val mask) } } .ok 0 0)) ∧
      (wt ≠ 0 → asked = true → s.a32.cpsr &&& 0x1F = 0b10000 →
        exec (.psrWrite wt a b) s = .next (respond { s with a32 := { s.a32 with cpsr := merged kept } } .ok 0 0)) ∧
      (wt ≠ 0 → asked = true → s.a32.cpsr &&& 0x1F ≠ 0b10000 → refusedMode s (a.setWidth 5) (decide (wt = 1)) = true →
        exec (.psrWrite wt a b) s = .next (respond { s with a32 := { s.a32 with
          cpsr := merged kept ||| if s.has .v8 then 0x00100000 else 0 } } .ok 0 0))) ∧
    (s.has .m = false → s.aarch64 = true →
      let new := (s.a64.pstate &&& ~~~ mask) ||| (val &&& mask)
      let el := curEl s
      exec (.psrWrite wt a b) s =
        if wt = 2 ∨ field new 2 2 ≠ field s.a64.pstate 2 2 ∨ (wt = 1 ∧ mask.getLsbD 4 = true) then
          .next (respond s .illegalCmd 0 0)
        else
          let sp := vset s.a64.spEl (if s.a64.pstate.getLsbD 0 then el else 0) (vget s.a64.x 31)
          .next (respond { s with a64 := { s.a64 with
            pstate := new &&& 0xF03003CD, spEl := sp,
            x := vset s.a64.x 31 (vget sp (if new.getLsbD 0 then el else 0)) } } .ok 0 0))

/-- R156, R158, R160, R169, R170 (a): a legal mode change by `PSR_WRITE` switches the bank in the same operation: the old
mode's `R[13]`, `R[14]` and saved status word go to its bank, the new mode's come from its bank, `R[8..12]` are exchanged
where one of the modes is FIQ, `R[0..7]` and `R[15]` stay: every mode's registers have the architectural values they had.
The mode is that of the value as given, also where the mask takes only a part of it (log entry 23).  `r0 = r1 = 0` is log
entry 48's. -/
def Obligations.PsrWriteSwitchesBank : Prop :=
  ∀ (wt : BitVec 8) (a b : DWord) (s : State) (old new : Mode),
    s.locked = false → s.has .m = false → s.aarch64 = false → wt = 1 ∨ wt = 2 →
    modeOf? (s.a32.cpsr.setWidth 5) = some old → old ≠ .usr → modeOf? (a.setWidth 5) = some new →
    (s.a32.cpsr ^^^ a.setWidth 32) &&& b.setWidth 32 &&& 0x1F ≠ 0 → refusedMode s (a.setWidth 5) (decide (wt = 1)) = false →
    let mask := openMask s (a.setWidth 32) (b.setWidth 32)
    ∃ u, exec (.psrWrite wt a b) s = .next u ∧ u.ports.rsp = some ⟨.ok, 0, 0, []⟩ ∧
      u.a32.cpsr = ((s.a32.cpsr &&& ~~~ mask) ||| (a.setWidth 32 &&& mask)) &&& 0xFF3FFFFF ∧
      enteredBank s u old new ∧ vget u.a32.r 15 = vget s.a32.r 15 ∧
      (new.bank14 ≠ old.bank14 → vget u.a32.r 14 = vget s.a32.bankR14 new.bank14.toNat) ∧
      (new.bank ≠ old.bank → u.a32.spsr = vget s.a32.bankSpsr new.bank.toNat) ∧
      banksKept s.a32 u.a32 old new ∧ { u with a32 := s.a32, ports := s.ports } = s

/-! ## The registry -/

/-- R189, R222: `CR_LOOKUP` answers the descriptor at the key exactly as given, bank bit included; `TLBI_LOCAL` gives one
pulse, and nothing else changes.  `r0 = r1 = 0` of `ABSENT` is log entry 48's (DESIGN CHOICE). -/
def Obligations.LookupAndTlbiAnswer : Prop :=
  ∀ (key : DWord) (s : State), s.locked = false →
    (∀ e, lookup s (key.setWidth 32) = some e → e ∈ s.reg ∧ e.key = key.setWidth 32 ∧
      exec (.crLookup key) s =
        .next (respond s .ok ((e.typ.setWidth 64 <<< 8) ||| e.access.setWidth 64) e.resetvalue)) ∧
    (lookup s (key.setWidth 32) = none → (∀ e ∈ s.reg, e.key ≠ key.setWidth 32) ∧
      exec (.crLookup key) s = .next (respond s .absent 0 0)) ∧
    exec .tlbiLocal s = .next (respond { s with ports := { s.ports with tlbinv := s.ports.tlbinv + 1 } } .ok 0 0)

/-- R182 to R185, R188, the seventh testable property: during construction a legal template that redefines nothing (or may)
puts each of its concrete entries at its key and changes no other key, `r0` being their number; a second definition at
one key, neither having `OVERRIDE`, is a construction failure, and so is a template that fails its checks. The checks are
those of `templateLegal`, the entries those of `isEntryOf`. The model's readings in the checks and the keys are those of
log entry 22 (what `WIDE64` needs, `opc0` 0 and 1 as `MSYS` and `MSPEC`, the offset in `crn` and `crm`, the wildcard in
`crm`: DEDUCED), 49 (wildcards that a key of the microcontroller profile does not hold: DEDUCED), 9 (the fields an
instance has: DESIGN CHOICE), 10 (a built-in hook in any role, the 32-bit fields that the 64-bit encoding may show: DEDUCED)
and 14 (a coordinate out of its range is `FATAL`, a check R185 does not list and R114 would answer `ILLEGAL_CMD`: DEDUCED). -/
def Obligations.CrDefineInsertsEntries : Prop :=
  ∀ (d : Template) (s : State), s.locked = false → s.constructing = true →
    (templateLegal s.params d →
      (∀ e, isEntryOf d e → ∀ old, lookup s e.key = some old → e.typ.getLsbD 3 = true ∨ old.typ.getLsbD 3 = true) →
      ∃ t, exec (.crDefine d) s = .next t ∧
        t.ports.rsp = some ⟨.ok, BitVec.ofNat 64 (entryCount d), 0, []⟩ ∧
        (∀ e, isEntryOf d e → lookup t e.key = some e) ∧
        (∀ k, (∀ e, isEntryOf d e → e.key ≠ k) → lookup t k = lookup s k) ∧
        { t with reg := s.reg, ports := s.ports } = s) ∧
    (templateLegal s.params d →
      (∃ e, isEntryOf d e ∧ ∃ old, lookup s e.key = some old ∧ e.typ.getLsbD 3 = false ∧ old.typ.getLsbD 3 = false) →
      exec (.crDefine d) s = .refused (.fatal .redefined)) ∧
    (¬ templateLegal s.params d → exec (.crDefine d) s = .refused (.fatal .badTemplate))

/-- R187, R190, R191, R193 to R195, R197: what a register read answers: the bank's absence first, then the mask and the
access hook, then the value that its type, its read hook or its storage gives; nothing changes. Where the spec states no
value (an entry with nothing to read, a hook in a role R187 does not give it, a region number that names no region) it is
a free one (log entries 4 and 10). The bits a view of a vector base shows are log entry 26's (DEDUCED), the 32 bits of
`CPTR_EL[2]` and `CPTR_EL[3]` log entry 38's, and `r0 = r1 = 0` of `ABSENT` log entry 48's (DESIGN CHOICE). The mask has
no bit per security state and a refusal no target level: R120 and R121 are followed over D11 of spec/92_eei_decisions.md
(log entry 50, DEDUCED). -/
def Obligations.CrReadAnswersEntry : Prop :=
  ∀ (key : DWord) (s : State), s.locked = false →
    match resolveBank s (key.setWidth 32) with
    | .absent => exec (.crRead key) s = .next (respond s .absent 0 0)
    | .trap => exec (.crRead key) s = .next (respond s .accessFault 2 0)
    | .const v => exec (.crRead key) s = .next (respond s .ok v 0)
    | .entry e =>
      exec (.crRead key) s =
        match refusal s e true with
        | some code => .next (respond s .accessFault code 0)
        | none => .next (respond s .ok (readValue s e) 0)

/-- R111, R162, R187, R191 to R195, R197: a register write: the same checks with the write bit of the mask; then a NOP or a
constant ignores it, an entry with no hook stores it and pulses nothing, and each hook of R187 does what its row says:
what is stored, whether TLBINV is pulsed, and nothing else; a 32-bit register uses bits 31:0 of the operand.
`H_STORE_INV` pulses when the value written is not the one read before, and when a bit of the storage changes that the
view does not show (log entry 18); a region number pulses through an `MSYS` key, ignored or not, and not through
`RGNR`'s, and an older base with `VALID` set moves the number only where it names a region (log entry 19); a hook in a
role R187 does not give it does nothing, and `H_IGNORE_OUT_OF_RANGE` on another field takes `MPU_NREGION` (log entry 10).
`r0 = r1 = 0` is log entry 48's. A write of an entry with neither storage nor write hook changes nothing, and one of a
region view of no region changes no table and pulses (log entries 4 and 10, DESIGN CHOICE); a vector base is written as
log entry 26 says and `CONTROL` as log entry 21 says (DEDUCED); 32 bits of `CPTR_EL[2]` and `CPTR_EL[3]` are held (log
entry 38, DESIGN CHOICE). The mask has no bit per security state and a refusal no target level: R120 and R121 are
followed over D11 of spec/92_eei_decisions.md (log entry 50, DEDUCED). -/
def Obligations.CrWriteEffect : Prop :=
  ∀ (key b : DWord) (s : State), s.locked = false →
    match resolveBank s (key.setWidth 32) with
    | .absent => exec (.crWrite key b) s = .next (respond s .absent 0 0)
    | .trap => exec (.crWrite key b) s = .next (respond s .accessFault 2 0)
    | .const _ => exec (.crWrite key b) s = .next (respond s .ok 0 0)
    | .entry e =>
      (∀ code, refusal s e false = some code →
        exec (.crWrite key b) s = .next (respond s .accessFault code 0)) ∧
      (refusal s e false = none →
        let v := visible e b
        let writes (t : State) (pulses : Bool) : Prop :=
          exec (.crWrite key b) s = .next (respond { t with ports := { t.ports with
            tlbinv := t.ports.tlbinv + if pulses then 1 else 0 } } .ok 0 0)
        let pstate (w : Word) : State := { s with a64 := { s.a64 with pstate := w &&& 0xF03003CD } }
        if e.typ.getLsbD 7 = true ∨ e.typ.getLsbD 1 = true then writes s false
        else
          match e.writefn with
          | .none => writes (storedThrough s e v) false
          | .storeInv =>
            writes (storedThrough s e v)
              (decide (v ≠ shown s e ∨ fieldGet (storedThrough s e v) e.field ≠ fieldGet s e.field))
          | .inv => writes s true
          | .w1c => writes (storedRaw s e (shown s e &&& ~~~ v)) false
          | .nzcv => writes (pstate ((s.a64.pstate &&& 0x0FFFFFFF) ||| (v.setWidth 32 &&& 0xF0000000))) false
          | .daif => writes (pstate ((s.a64.pstate &&& 0xFFFFFC3F) ||| (v.setWidth 32 &&& 0x3C0))) false
          | .spSel =>
            let sp := vset s.a64.spEl (if s.a64.pstate.getLsbD 0 then curEl s else 0) (vget s.a64.x 31)
            let w := ((s.a64.pstate &&& 0xFFFFFFFE) ||| (v.setWidth 32 &&& 1)) &&& 0xF03003CD
            let t := pstate w
            writes { t with a64 := { t.a64 with
              spEl := sp, x := vset s.a64.x 31 (vget sp (if v.getLsbD 0 then curEl t else 0)) } } false
          | .hcr => writes (storedRaw s e v) (decide ((v ^^^ shown s e) &&& 0x1005 ≠ 0))
          | .regionView =>
            writes (if e.field = .none then { s with regions := regionStored s e.key (v.setWidth 32) } else storedRaw s e v)
              true
          | .ignoreOutOfRange =>
            writes (if v.toNat < (if e.field = .sauRnr then s.params.sauNregion else s.params.mpuNregion)
                    then storedRaw s e v else s) (decide (e.key >>> 28 = 4))
          | .mSpecial =>
            if privileged s = false then writes s false
            else
              (match e.field with
               | .msp k p =>
                 let w : Word := v.setWidth 32 &&& 0xFFFFFFFC
                 if s.m.secure = k ∧
                     (decide (s.m.exception = 0) && (s.m.control.get s.m.secure).getLsbD 1) = p then
                   writes { s with a32 := { s.a32 with
                     r := vset s.a32.r 13 (if s.has .m then w else v.setWidth 32) } } false
                 else if p then writes { s with m := { s.m with processSp := s.m.processSp.set k w } } false
                 else writes { s with m := { s.m with mainSp := s.m.mainSp.set k w } } false
               | _ => writes (storedRaw s e v) false)
          | .catalog id =>
            ∃ t pulses, Config.hookWrite id s e v = (t, pulses) ∧
              writes { t with params := s.params, reg := s.reg, constructing := s.constructing, bus := s.bus,
                              draws := s.draws, ports := s.ports } pulses
          | _ => writes s false)

/-- R117, R196, R197: the key an access resolves to follows the current security state: a Non-secure access never reaches an
entry of the Secure bank, a Secure access of a 32-bit key reaches the Secure bank, and a Secure access of an `MSYS` or `MSPEC`
key goes to the key as given, so it may name the Non-secure alias.  The entry at that key is the one resolved; with none
there, the entry of the other bank answers as its `absent` says, unless it exists in both banks, and with neither the access
is absent. -/
def Obligations.BankIsolation : Prop :=
  ∀ (s : State) (a : Word),
    (∀ e, resolveBank s a = .entry e → e ∈ s.reg ∧
      (isSecure s = false →
        (isCp32Key a = true → e.key = a ||| 0x20000000) ∧ (isMKey a = true → e.key = a &&& ~~~ 0x08000000)) ∧
      (isSecure s = true → (isCp32Key a = true → e.key = a &&& ~~~ 0x20000000) ∧ (isMKey a = true → e.key = a)) ∧
      (isCp32Key a = false → isMKey a = false → e.key = a)) ∧
    (Inv s →
      let cp32 := a >>> 28 = 0 ∨ a >>> 28 = 2
      let micro := a >>> 28 = 4 ∨ a >>> 28 = 5
      let k : Word :=
        if cp32 then (if isSecure s then a &&& 0xDFFFFFFF else a ||| 0x20000000)
        else if micro ∧ isSecure s = false then a &&& 0xF7FFFFFF else a
      let other : Word := if cp32 then k ^^^ 0x20000000 else if micro then k ^^^ 0x08000000 else k
      (∀ e ∈ s.reg, e.key = k → resolveBank s a = .entry e) ∧
      ((∀ e ∈ s.reg, e.key ≠ k) →
        (∀ e ∈ s.reg, e.key = other → e.secure ≠ 3 →
          (∀ v, e.absent = some (.const v) → resolveBank s a = .const v) ∧
          (e.absent = some .trap → resolveBank s a = .trap)) ∧
        (∀ e ∈ s.reg, e.key = other → e.secure = 3 → resolveBank s a = .absent) ∧
        ((∀ e ∈ s.reg, e.key ≠ other) → resolveBank s a = .absent)))

/-- R164, R193 and the storage tables of spec/10_state.md: a storage field of the instance reads back the bits it holds of
what was written (the phase by the model's numbering, log entry 9: a number that names no phase seen between operations
leaves it; 32 bits of `CPTR_EL[2]` and `CPTR_EL[3]`, log entry 38); the MEM port is untouched, and so are the status
words and the exception record unless the field is one of them; a store in `CONTROL`, `M_EXCEPTION` or `M_SECURE` that
changes the active stack-pointer slot puts `R[13]` in the old slot and takes it from the new one.  That every store of
`CONTROL` switches the stack is log entry 21's reading (DEDUCED). -/
def Obligations.StorageReadsBack : Prop :=
  ∀ (s : State) (f : FieldId) (v : DWord), Inv s → f ≠ .none → fieldOk s.params f = true →
    (f ≠ .phase → fieldGet (fieldSet s f v) f = v &&& storedBits s.params f) ∧
    (f = .phase → (fieldSet s f v).exc.phase =
      if v = 0 then .none else if v = 1 then .pending else if v = 3 then .active else s.exc.phase) ∧
    (fieldSet s f v).bus = s.bus ∧
    ((∃ k, f = .control k) ∨ f = .mException ∨ f = .mSecure → stackSwitched s (fieldSet s f v)) ∧
    (isMachineField f = false →
      (fieldSet s f v).exc = s.exc ∧ (fieldSet s f v).a32.cpsr = s.a32.cpsr ∧
      (fieldSet s f v).a64.pstate = s.a64.pstate ∧ (fieldSet s f v).m.xpsr = s.m.xpsr ∧
      (fieldSet s f v).m.exception = s.m.exception ∧ (fieldSet s f v).m.secure = s.m.secure ∧
      (fieldSet s f v).aarch64 = s.aarch64 ∧ (fieldSet s f v).locked = s.locked)

/-- R204, R205, R207: `CR_RESET_ALL` completes with one TLBINV pulse and leaves the status words, the region tables, the
exception record, lockup, the exclusive reservation and memory alone, unless a register of the catalog names one of them
as its storage (R118); it is `reset_one` of every entry in ascending key order, whatever the registry: SPECIAL, ALIAS,
NOP and CONST entries are left, a reset hook of the catalog may do anything but what `HOOKS` may not (log entry 5; a
built-in hook as a reset hook does nothing, log entry 10), a drawn register takes a free value, and every other one its
reset value; so a plain entry whose storage the reset of no other entry disturbs reads as its reset value, in the bits it
holds (32 of `CPTR_EL[2]` and `CPTR_EL[3]`, log entry 38). `r0 = r1 = 0` is log entry 48's.  What a `NONDET` register
draws is the free value of log entry 3 (DESIGN CHOICE). -/
def Obligations.CrResetAllEffect : Prop :=
  (∀ s : State, Inv s → s.locked = false → (∀ e ∈ s.reg, e.field ≠ .exclAddr ∧ isMachineField e.field = false) →
    ∃ t, exec .crResetAll s = .next t ∧ t.ports.rsp = some ⟨.ok, 0, 0, []⟩ ∧
      t.ports.tlbinv = s.ports.tlbinv + 1 ∧ t.a32.cpsr = s.a32.cpsr ∧ t.a64.pstate = s.a64.pstate ∧
      t.m.xpsr = s.m.xpsr ∧ t.m.exception = s.m.exception ∧ t.m.secure = s.m.secure ∧ t.aarch64 = s.aarch64 ∧
      t.regions.rbar = s.regions.rbar ∧ t.regions.rsr = s.regions.rsr ∧ t.regions.racr = s.regions.racr ∧
      t.regions.rlar = s.regions.rlar ∧ t.regions.sauRbar = s.regions.sauRbar ∧
      t.regions.sauRlar = s.regions.sauRlar ∧ t.exc = s.exc ∧ t.locked = s.locked ∧ t.exclAddr = s.exclAddr ∧
      t.bus = s.bus ∧ t.reg = s.reg) ∧
  (∀ s : State, s.locked = false →
    exec .crResetAll s = .next (respond (pulse (s.reg.foldl oneReset s)) .ok 0 0)) ∧
  (∀ (s : State) (e : Entry), Inv s → e ∈ s.reg → plainReset e = true → e.field ≠ .phase →
    (∀ e' ∈ s.reg, e' ≠ e → resetsStorage e' = true → disturbs e'.field e.field = false) → s.locked = false →
    ∃ t, exec .crResetAll s = .next t ∧ fieldGet t e.field = e.resetvalue &&& storedBits s.params e.field) ∧
  (∀ (s : State) (e : Entry),
    e.typ.getLsbD 0 = true ∨ e.typ.getLsbD 4 = true ∨ e.typ.getLsbD 7 = true ∨ e.typ.getLsbD 1 = true →
    s.reg = [e] → s.locked = false → exec .crResetAll s = .next (respond (pulse s) .ok 0 0))

/-- R111, R186, R187, R210, R211, R212: raw access by the exact key, without a permission check and never with a pulse: what
`rawShown` reads and `rawStored` writes. A raw write through the 32-bit view of `TTBR0` or `TTBR1` keeps bits 63:32,
where R42 clears them for `CR_WRITE` (log entry 18); an entry with nothing to read is a free value (log entry 4); `r0 =
r1 = 0` of a write, and of an answer that is not `OK`, is log entry 48's. A raw write through a built-in hook in a role
R187 does not give it, where there is no storage, changes nothing (log entry 10, DESIGN CHOICE); the bits a view of a
vector base does not show are kept (log entry 26), and the raw access of `MSP` and `PSP` is the slot, that of `CONTROL`
switches the stack (log entry 21, DEDUCED). A raw write through the older unit's region base moves the region number only
to a region that exists (log entry 19, DEDUCED: R58 states no guard), and `CPTR_EL[2]` and `CPTR_EL[3]` hold 32 bits (log
entry 38, DESIGN CHOICE). -/
def Obligations.RawAccessIsStorage : Prop :=
  ∀ (key v : DWord) (s : State), s.locked = false →
    match lookup s (key.setWidth 32) with
    | none =>
      exec (.crRawRead key) s = .next (respond s .absent 0 0) ∧
      exec (.crRawWrite key v) s = .next (respond s .absent 0 0)
    | some e =>
      if e.typ.getLsbD 5 = true ∨ e.typ.getLsbD 0 = true then
        exec (.crRawRead key) s = .next (respond s .accessFault 0 0) ∧
        exec (.crRawWrite key v) s = .next (respond s .accessFault 0 0)
      else
        exec (.crRawRead key) s = .next (respond s .ok (rawShown s e) 0) ∧
        exec (.crRawWrite key v) s = .next (respond (rawStored s e v) .ok 0 0) ∧ (rawStored s e v).ports = s.ports

/-- R216: the exported list: one pair for each entry without NO_RAW, SPECIAL and ALIAS, in ascending key order (that of the
registry, R38). -/
def Obligations.ExportListsEveryEntry : Prop :=
  ∀ s : State, s.locked = false →
    ∃ l, exec .exportState s = .next (respondList s .ok (BitVec.ofNat 64 l.length) 0 l) ∧
      (∀ k v, (k, v) ∈ l ↔ ∃ e ∈ s.reg, e.key = k ∧ e.typ.getLsbD 5 = false ∧ e.typ.getLsbD 0 = false ∧
        e.typ.getLsbD 4 = false ∧ v = rawRead s e) ∧
      (l.map Prod.fst).Sublist (s.reg.map Entry.key) ∧
      (Inv s → l.Pairwise fun a b => a.1.toNat < b.1.toNat)

/-- R218, R219: an import attempts every pair of the list in order, whatever failed before, and reports every failure: a pair
whose key is unknown fails; one of an entry that is not importable is skipped; one of an importable entry is a raw write,
and a failure where the raw read of the state after it is not the value. `imported` is that fold: the first pair's
effect, then the import of the rest from the state it leaves, its failure in front. `r0 = 0` of an `OK` and `r1 = 0` are
log entry 48's. What a raw access does is as in `RawAccessIsStorage`, with its log entries 4, 10, 18, 19, 21, 26 and 38.
-/
def Obligations.ImportAttemptsEveryPair : Prop :=
  ∀ (l : List (Word × DWord)) (s : State), s.locked = false →
    exec (.importState l) s =
      .next (respondList (pulse (imported s l).1) (if (imported s l).2 = [] then .ok else .failures)
        (BitVec.ofNat 64 (imported s l).2.length) 0 (imported s l).2)

/-- R220, the ninth testable property: importing the list just exported changes no state and reports no failure, on every
instance whose exported entries are plain storage, constants or region views: all the built-in registers (R41 to R62) and
what a catalog adds of that kind. Left out are raw hooks of a catalog, which may do anything (log entry 5), and catalog
storage outside spec/10_state.md. `r0 = r1 = 0` is log entry 48's. It rests on how raw access is read: log entries 4 (a
region view of no region), 18 (`TTBR0`, `TTBR1`), 19 (the older region base), 21 (`MSP`, `PSP`) and 26 (vector bases). -/
def Obligations.ExportImportRoundTrip : Prop :=
  ∀ (s t : State) (r : Response), Inv s → s.locked = false →
    (∀ e ∈ s.reg, exported e = true → plainRaw e = true ∨ plainView e = true) →
    exec .exportState s = .next t → t.ports.rsp = some r →
    exec (.importState r.out) s = .next (respond (pulse s) .ok 0 0)

/-! ## Memory and translation -/

/-- R80, R81, R84: bytes the port accepted are read back in either byte order by the same tag, and no other byte
changed.  That a byte the port accepted is remembered is the model's choice (log entry 2). -/
def Obligations.PhysWriteReadsBack : Prop :=
  ∀ (b b' : Bus) (pa v : DWord) (n : Nat) (secure be : Bool), n = 1 ∨ n = 2 ∨ n = 4 ∨ n = 8 →
    b.physWrite pa n v secure be = (true, b') →
    (b'.script = [] → (b'.physRead pa n secure be).1 = some (v &&& BitVec.ofNat 64 (2 ^ (8 * n) - 1))) ∧
    (∀ a, (∀ i < n, a ≠ byteKey secure (pa + BitVec.ofNat 64 i)) → b'.mem.read a = b.mem.read a) ∧
    b'.reqs.length = b.reqs.length + 1

/-- R236, R238, R330, R335, the second testable property: with translation disabled (and stage 2 too, where it would
follow) every address maps to itself with full permissions, and the MEM port is not used; on an instance with the
attribution function this is not claimed (spec/90_conflicts.md C5). -/
def Obligations.DisabledTranslationIsIdentity : Prop :=
  ∀ (kind id : BitVec 8) (va : DWord) (s : State) (k : Access) (r : Regime),
    s.locked = false → accessOf kind = some k → regimeOf id = some r → regimeExists s r = true →
    (regimeA64 s r = true ∨ va.toNat < 2 ^ 32) →
    (s.has .m = false → s.has .pmsa = false → untranslated s r →
      ((∃ u, r = .e10Ns u) → s.has .el2 = false ∨ (s.sys.hcr.getLsbD 0 = false ∧ s.sys.hcr.getLsbD 12 = false)) →
      exec (.translate kind id va) s =
        .next (respond s .ok va (0x3FCC7 ||| if regimeSecure r then 0x8 else 0))) ∧
    (s.has .m = true ∨ s.has .pmsa = true → s.has .mSecurity = false → unitOff s r →
      va.toNat < 2 ^ 32 →
      exec (.translate kind id va) s =
        .next (respond s .ok va (0x3FC57 ||| if regimeSecure r then 0x8 else 0)))

/-- R230, R231, R90: an operand in range is answered `OK` or `FAULT`; only the MEM port and the response change, the port
receives reads only, and memory is as before. -/
def Obligations.TranslateChangesOnlyPort : Prop :=
  ∀ (kind id : BitVec 8) (va : DWord) (s : State), s.locked = false → kind.toNat ≤ 2 →
    (∀ r, regimeOf id = some r → regimeExists s r = true → (regimeA64 s r = true ∨ va.toNat < 2 ^ 32) →
      ∃ t rsp added, exec (.translate kind id va) s = .next t ∧ t.ports = { s.ports with rsp := some rsp } ∧
        (rsp.status = .ok ∨ rsp.status = .fault) ∧ t.bus.mem = s.bus.mem ∧ t.bus.reqs = s.bus.reqs ++ added ∧
        (∀ q ∈ added, q.write = false) ∧ { t with ports := s.ports, bus := s.bus } = s) ∧
    (regimeA64 s (currentRegime s) = true ∨ va.toNat < 2 ^ 32 →
      ∃ t rsp added, exec (.resolve kind va) s = .next t ∧ t.ports = { s.ports with rsp := some rsp } ∧
        (rsp.status = .ok ∨ rsp.status = .fault) ∧ t.bus.mem = s.bus.mem ∧ t.bus.reqs = s.bus.reqs ++ added ∧
        (∀ q ∈ added, q.write = false) ∧ { t with ports := s.ports, bus := s.bus } = s)

/-- R231, R232: `RESOLVE` is `TRANSLATE` in the regime of the current level and security state.  There is no flag for an
unprivileged access: R231 and R232 are followed over D16 of spec/92_eei_decisions.md (log entry 50, DEDUCED). -/
def Obligations.ResolveUsesCurrentRegime : Prop :=
  ∀ (kind : BitVec 8) (va : DWord) (s : State), s.locked = false → regimeExists s (currentRegime s) = true →
    let id : BitVec 8 :=
      if s.has .m = true then
        (if mNegPri s then 13 else 9) + (if s.m.secure then 2 else 0) + (if mPriv s then 1 else 0)
      else if curEl s = 2 then 2
      else if curEl s = 3 then 3
      else if secureBelowEl3 s = true then (if curEl s = 0 then 4 else 5)
      else if curEl s = 0 then 0 else 1
    exec (.resolve kind va) s = exec (.translate kind id va) s

/-- R241: what a successful translation grants includes the access asked for. -/
def Obligations.TranslationGrantsAccess : Prop :=
  ∀ (kind id : BitVec 8) (va pa w : DWord) (out : List (Word × DWord)) (s t : State), s.locked = false →
    exec (.translate kind id va) s = .next t → t.ports.rsp = some ⟨.ok, pa, w, out⟩ → w.getLsbD kind.toNat = true

/-- R92, R240: a Non-secure regime never yields a Secure output address and never makes a Secure request. -/
def Obligations.TranslationNeverRaisesSecurity : Prop :=
  ∀ (s : State) (r : Regime) (va : DWord) (k : Access) (b b' : Bus) (x : XResult),
    regimeSecure r = false → translateOn s r va k b = (x, b') →
    (∀ y, x = .ok y → y.secure = false) ∧
    ∃ added, b'.reqs = b.reqs ++ added ∧ ∀ q ∈ added, q.secure = false

/-- R319, R324 to R327, the third testable property: the protection of a two-stage translation is the intersection of what the
two stages grant by themselves, in the order stage 1, stage 2; its attributes and shareability are the combination of R319, with
what R326 gives a stage 1 that is disabled; a fault of stage 2 on the final address carries that address, a fault of stage 2
on a descriptor of stage 1 carries the descriptor's address and says so, the first one among them, and a fault of stage 1 is
passed on. -/
def Obligations.NestedTranslationCombines : Prop :=
  ∀ (s : State) (user : Bool) (va : DWord) (k : Access) (b b' : Bus),
    s.has .m = false → s.has .pmsa = false → stage2Enabled s = true →
    (∀ x : XOk, translateOn s (.e10Ns user) va k b = (.ok x, b') →
      ∃ x₁ b₁ x₂, translateOn s (.s1Ns user) va k b = (.ok x₁, b₁) ∧
        translateOn s .stage2 x₁.phys k b₁ = (.ok x₂, b') ∧
        x.prot = x₁.prot &&& x₂.prot ∧ x.phys = x₂.phys ∧ x.secure = false ∧
        x.log2size = min x₁.log2size x₂.log2size ∧
        let first : BitVec 8 × BitVec 2 :=
          if s.sys.hcr.getLsbD 12 = true then (0xFF, 0)
          else if s.sys.hcr.getLsbD 27 = true ∨ s.sys.sctlr.l1.getLsbD 0 = false then
            (if k = .fetch then (0x44, 2) else (0x00, 2))
          else (x₁.attrs, x₁.sh)
        (x.attrs, x.sh) = bothStages first (x₂.attrs, x₂.sh)) ∧
    (∀ f : FaultRec, translateOn s (.e10Ns user) va k b = (.error f, b') →
      translateOn s (.s1Ns user) va k b = (.error f, b') ∨
      ∃ x₁ b₁ f₂, translateOn s (.s1Ns user) va k b = (.ok x₁, b₁) ∧
        translateOn s .stage2 x₁.phys k b₁ = (.error f₂, b') ∧ f₂.formatLong = true ∧
        f = { f₂ with stage2 := true, s1ptw := false, ipa := x₁.phys }) ∧
    (∀ f : FaultRec, translateOn s (.s1Ns user) va k b = (.error f, b') →
      translateOn s (.e10Ns user) va k b = (.error f, b') ∧
      (f.stage2 = false ∧ f.s1ptw = false ∨
       ∃ b₁ f₂, translateOn s .stage2 f.ipa .load b₁ = (.error f₂, b') ∧ f₂.formatLong = true ∧
         f = { f₂ with stage2 := true, s1ptw := true, ipa := f.ipa })) ∧
    (∀ a : DWord, firstDescriptor s (.s1Ns user) va = some a → ∀ f₂, translateOn s .stage2 a .load b = (.error f₂, b') →
      translateOn s (.e10Ns user) va k b = (.error { f₂ with stage2 := true, s1ptw := true, ipa := a }, b'))

/-- R242, R251 to R268, the fourth testable property: a short-descriptor walk, extended or legacy, step by step: the faults
of a disabled walk and of a load the port refuses (domain 0 at either level: log entry 39), what the first-level
descriptor decides, and what the second-level one does; a descriptor of type 0 is a translation fault at its level, a
permitted section, supersection or page is answered with its address, protection, tag and size. The descriptors are what
the port answers; nothing but the port and the response changes.  `UWXN` does not act here: R266 is followed over D18 of
spec/92_eei_decisions.md (log entry 50, DEDUCED); a supersection's address is cut to `PAMAX` bits (log entry 25, DESIGN
CHOICE). -/
def Obligations.ShortWalkAnswers : Prop :=
  ∀ (kind id : BitVec 8) (va : DWord) (s : State) (k : Access) (r : Regime),
    s.locked = false → accessOf kind = some k → regimeOf id = some r → regimeExists s r = true → va.toNat < 2 ^ 32 →
    s.has .m = false → s.has .pmsa = false → noStage2 s r → ¬ untranslated s r → usesLongFormat s r = false →
    let answers (rsp : Response) (rest : List Answer) (loads : List Word) : Prop :=
      exec (.translate kind id va) s = .next { s with
        ports := { s.ports with rsp := some rsp }
        bus := { s.bus with
          script := rest, reqs := s.bus.reqs ++ loads.map fun a => ⟨false, a.setWidth 64, 4, regimeSecure r, 0⟩ } }
    (tableAddr s r (va.setWidth 32) = none → answers (shortFailed 3 1 0) s.bus.script []) ∧
    (∀ a, tableAddr s r (va.setWidth 32) = some a →
      (∀ rest, s.bus.script = .err :: rest → answers ⟨.fault, 0x4027, 0, []⟩ rest [a]) ∧
      (∀ d₁ rest, s.bus.script = .ok d₁ :: rest →
        match shortStep s r (va.setWidth 32) k (word32 s r d₁) with
        | .inl rsp => answers rsp rest [a]
        | .inr (a₂, last) =>
          (∀ rest', rest = .err :: rest' → answers ⟨.fault, 0x4047, 0, []⟩ rest' [a, a₂]) ∧
          (∀ d₂ rest', rest = .ok d₂ :: rest' → answers (last (word32 s r d₂)) rest' [a, a₂])))

/-- R281 to R286, R296 to R318: a long-descriptor walk of one stage: where it starts, the faults of its configuration (a bad
start level of stage 2 at level 0, also of a 32-bit one: U8 of spec/93_implementation_defined.md and D20 of
spec/92_eei_decisions.md are followed where R284 with R282 has level 1: log entry 52, DEDUCED) and of its base, the loads
it makes, and what the descriptors the port answers decide. Nothing but the port and the response changes. A block's
address is cut to `PAMAX` bits (log entry 25, DESIGN CHOICE) and its size is that of R298, also above 2^42 (log entry 25,
DEDUCED); a stage-2 attribute with the reserved inner value follows R318's pseudocode (log entry 40, DESIGN CHOICE). -/
def Obligations.LongWalkAnswers : Prop :=
  ∀ (kind id : BitVec 8) (va : DWord) (s : State) (k : Access) (r : Regime),
    s.locked = false → accessOf kind = some k → regimeOf id = some r → regimeExists s r = true →
    (regimeA64 s r = true ∨ va.toNat < 2 ^ 32) →
    s.has .m = false → s.has .pmsa = false → noStage2 s r → ¬ untranslated s r → usesLongFormat s r = true →
    let answers (rsp : Response) (loads : List Request) : Prop :=
      exec (.translate kind id va) s = .next { s with
        ports := { s.ports with rsp := some rsp }
        bus := { s.bus with script := s.bus.script.drop loads.length, reqs := s.bus.reqs ++ loads } }
    match longStart s r va with
    | .error level => answers (longFailed r va 3 level false) []
    | .ok (ttbr, size, stride, level) =>
      let out := longOut s r
      let span := size - stride * (4 - level)
      let base := ttbr.toNat % 2 ^ 48 / 2 ^ span * 2 ^ span
      if out < 48 ∧ 2 ^ out ≤ base then answers (longFailed r va 6 0 false) []
      else
        ∀ rsp loads,
          longFrom s r k va stride out (3 - level) (BitVec.ofNat 64 base) (BitVec.ofNat 64 (2 ^ span - 1))
            (if regimeSecure r then 0 else 0x10) s.bus.script = some (rsp, loads) →
          answers rsp loads

/-- R340, R341, R343 to R345: in the newer protection unit two matching regions are a permission fault at level 1, none is
the default map where the background is enabled and a background fault where it is not, and exactly one decides by its
own permissions; the private peripheral block has the default map. The attributes are not computed: R340 is followed over
D23 of spec/92_eei_decisions.md (log entry 50, DEDUCED). -/
def Obligations.NewerUnitMatches : Prop :=
  ∀ (kind id : BitVec 8) (va : DWord) (s : State) (k : Access) (r : Regime),
    s.locked = false → accessOf kind = some k → regimeOf id = some r → regimeExists s r = true → va.toNat < 2 ^ 32 →
    s.has .m = true ∨ s.has .pmsa = true → s.has .mSecurity = false → s.has .v8 = true → ¬ unitOff s r →
    let hits := (List.range s.params.mpuNregion).filter fun n =>
      (tget s.regions.rlar.ns n).getLsbD 0 && decide (tget s.regions.rbar.ns n &&& ~~~ 0x1F ≤ va.setWidth 32) &&
      decide (va.setWidth 32 ≤ tget s.regions.rlar.ns n ||| 0x1F)
    let default := exec (.translate kind id va) s = .next (unitAnswer r va k (defaultProt s r va.toNat) s)
    (s.has .m = true ∧ va >>> 20 = 0xE00 → default) ∧
    (¬ (s.has .m = true ∧ va >>> 20 = 0xE00) →
      (2 ≤ hits.length → exec (.translate kind id va) s = .next (respond s .fault 0x22 0)) ∧
      (hits = [] → background s r → default) ∧
      (hits = [] → ¬ background s r → exec (.translate kind id va) s = .next (respond s .fault 0x0A 0)) ∧
      (∀ n, hits = [n] →
        let ap := grants2 (field (tget s.regions.rbar.ns n) 1 2) (regimeUser r)
        let xn := (tget s.regions.rbar.ns n).getLsbD 0 || (s.has .m && decide (0xE0000000 ≤ va.toNat))
        exec (.translate kind id va) s =
          .next (unitAnswer r va k (if ap ≠ 0 ∧ xn = false then ap ||| 4 else ap) s)))

/-- R336 to R339, R343 to R345: in the older protection unit the highest-numbered region that holds the address decides; a
region that is disabled, misprogrammed or whose sub-region bit covers the address holds none; with no such region the
default map applies where the background is enabled, and a background fault where it is not; the private peripheral
block has the default map. -/
def Obligations.OlderUnitMatches : Prop :=
  ∀ (kind id : BitVec 8) (va : DWord) (s : State) (k : Access) (r : Regime),
    s.locked = false → accessOf kind = some k → regimeOf id = some r → regimeExists s r = true → va.toNat < 2 ^ 32 →
    s.has .m = true ∨ s.has .pmsa = true → s.has .mSecurity = false → s.has .v8 = false → ¬ unitOff s r →
    let default := exec (.translate kind id va) s = .next (unitAnswer r va k (defaultProt s r va.toNat) s)
    (s.has .m = true ∧ va >>> 20 = 0xE00 → default) ∧
    (¬ (s.has .m = true ∧ va >>> 20 = 0xE00) →
      ((olderHits s va.toNat).getLast? = none → background s r → default) ∧
      ((olderHits s va.toNat).getLast? = none → ¬ background s r →
        exec (.translate kind id va) s = .next (respond s .fault 0x0A 0)) ∧
      (∀ n, (olderHits s va.toNat).getLast? = some n →
        exec (.translate kind id va) s = .next (unitAnswer r va k (olderGrants s r n va.toNat) s)))

/-- R352 to R356, R358: the classification of every address: an instruction fetch from the top sixteenth is Secure; an
address the external function or R355 exempts is the asker's; else the unit's control, or the one region that holds it,
decides, two regions being a fault; and the external function can make the result more secure.  The external function is
a finite list of ranges (log entry 6, DEDUCED). -/
def Obligations.SecAttrClassifies : Prop :=
  ∀ (kind asker : BitVec 8) (addr : DWord) (s : State) (k : Access), s.locked = false →
    accessOf kind = some k → asker.toNat ≤ 1 → addr.toNat < 2 ^ 32 → s.has .mSecurity = true →
    exec (.secAttr kind asker addr) s = .next
      (match attribution s (addr.setWidth 32) k (decide (asker = 1)) with
       | none => respond s .fault 0x0B 0
       | some (ns, nsc, region) =>
         respond s .ok
           ((if ns then 0x1 else 0) ||| (if nsc then 0x2 else 0) |||
            match region with
            | none => 0
            | some n => 0x4 ||| (BitVec.ofNat 64 n <<< 8)) 0)

/-- R330, R335, R340, R341, R343, R344, R357: a translation with the security extension: the attribution first, which may be
a fault (a Non-secure fetch of callable code is `NSC_EXEC`, every other mismatch `SEC_VIOLATION`) or lower the tag of a
Secure data access, then the protection unit with the region tables of the asker's bank. The external function is a
finite list of ranges (log entry 6, DEDUCED). The attributes are not computed: R340 is followed over D23 of
spec/92_eei_decisions.md (log entry 50, DEDUCED). -/
def Obligations.SecureUnitTranslates : Prop :=
  ∀ (kind id : BitVec 8) (va : DWord) (s : State) (k : Access) (secure priv negpri : Bool),
    s.locked = false → accessOf kind = some k → regimeOf id = some (.m secure priv negpri) → s.has .m = true →
    s.has .mSecurity = true → s.has .v8 = true → va.toNat < 2 ^ 32 →
    let answers (t : State) : Prop := exec (.translate kind id va) s = .next t
    let control := s.regions.mpuCtrl.get secure
    let rbar (n : Nat) : Word := tget (s.regions.rbar.get secure) n
    let rlar (n : Nat) : Word := tget (s.regions.rlar.get secure) n
    match attribution s (va.setWidth 32) k secure with
    | none => answers (respond s .fault 0x0B 0)
    | some (ns, nsc, _) =>
      if k = .fetch ∧ ns = secure then answers (respond s .fault (if nsc then 0x0C else 0x0D) 0)
      else if k ≠ .fetch ∧ ns = false ∧ secure = false then answers (respond s .fault 0x0D 0)
      else
        let tag : DWord := if secure = true ∧ (k = .fetch ∨ ns = false) then 0x8 else 0
        let granted (prot : BitVec 3) : Prop :=
          answers (if prot.getLsbD k.num = true then respond s .ok va (0x3FC50 ||| prot.setWidth 64 ||| tag)
                   else respond s .fault 0x22 0)
        let default : Prop :=
          granted (if va < 0x40000000 ∨ (0x60000000 ≤ va ∧ va < 0xA0000000) then 7 else 3)
        if control.getLsbD 0 = false ∨ (control.getLsbD 1 = false ∧ negpri = true) then granted 7
        else if va >>> 20 = 0xE00 then default
        else
          match (List.range s.params.mpuNregion).filter fun n =>
            (rlar n).getLsbD 0 && decide (rbar n &&& 0xFFFFFFE0 ≤ va.setWidth 32) &&
            decide (va.setWidth 32 ≤ rlar n ||| 0x1F) with
          | [] => if priv = true ∧ control.getLsbD 2 = true then default else answers (respond s .fault 0x0A 0)
          | [n] =>
            let ap := grants2 (field (rbar n) 1 2) (!priv)
            granted (if ap = 0 ∨ (rbar n).getLsbD 0 = true ∨ 0xE0000000 ≤ va then ap else ap ||| 4)
          | _ => answers (respond s .fault 0x22 0)

/-! ## Exceptions, general profile -/

/-- R371, R373, R374, R386, R388: a synchronous event is recorded with its target level, its syndrome and, for an abort, its
status code, and nothing else changes; an event that would go down, one whose `min_el` names an absent level, an abort
whose record is refused or has no code in the format, and any event while one is pending, is `ILLEGAL_CMD`. The target is
that of the steps of R373, level 2 in Secure state included (log entry 41). The column of the short status codes for
levels 0 and 3 is log entry 34's (DEDUCED), and `r0 = r1 = 0` of `ILLEGAL_CMD` log entry 48's (DESIGN CHOICE). -/
def Obligations.RecognizeSyncPends : Prop :=
  ∀ (kind flags : BitVec 8) (a b c : DWord) (s : State) (e : Event),
    s.locked = false → s.has .m = false → flags.toNat < 16 → eventOf kind = some e → eventExists s e = true →
    e ≠ .irq → e ≠ .fiq → e ≠ .serror → e ≠ .virq → e ≠ .vfiq →
    let minEl := field flags 0 2
    let illegal := exec (.recognize kind flags a b c) s = .next (respond s .illegalCmd 0 0)
    (s.exc.phase = .pending → illegal) ∧
    ((minEl = 2 ∧ s.has .el2 = false) ∨ (minEl = 3 ∧ s.has .el3 = false) → illegal) ∧
    (s.exc.phase ≠ .pending → (minEl = 2 → s.has .el2 = true) → (minEl = 3 → s.has .el3 = true) →
      (isAbort e = false →
        let t₀ := syncTarget s e minEl
        let t := if redirected s t₀ then 2 else t₀
        let syn : Word :=
          if redirected s t₀ = true ∧ (b.setWidth 32 : Word) >>> 26 = 7 then 0x02000000 else b.setWidth 32
        if t < curEl s then illegal
        else
          ∃ fsr, exec (.recognize kind flags a b c) s =
              .next (respond { s with exc := { s.exc with
                index := kind, targetEl := BitVec.ofNat 2 t, vaddress := a, ipa := c, fr := 0, syndrome := syn,
                fsr := fsr, phase := .pending } } .ok (BitVec.ofNat 64 t) (syn.setWidth 64)) ∧
            (e = .bkpt → t ≠ 2 → elIsA64 s t = false →
              fsr = if usesLongFormat s (currentRegime s) = true then 0x222 else 0x002)) ∧
      let w : BitVec 16 := b.extractLsb' 32 16
      (isAbort e = true → recordRefused s w = true → illegal) ∧
      (isAbort e = true → recordRefused s w = false →
        let base := max 1 (curEl s)
        let base := if base = 1 ∧ isSecure s = true ∧ s.has .el3 = true ∧ elIsA64 s 3 = false then 3 else base
        let t₀ := if w.getLsbD 12 then 2
                  else if field w 0 5 = 7 ∧ s.has .el3 = true ∧ s.sys.scr.getLsbD 3 = true then 3 else base
        let t := if redirected s t₀ then 2 else t₀
        let long := decide (t = 2) || elIsA64 s t || w.getLsbD 15
        if t < curEl s then illegal
        else
          match statusCode long w with
          | none => illegal
          | some code =>
            let fsc : Word := if long then code &&& 0x3F else 0x3F
            let wr := flags.getLsbD 2 && decide (e = .dataAbort)
            let ec : Word := (if e = .prefetchAbort then 0x20 else 0x24) + (if t = curEl s then 1 else 0)
            let syn : Word :=
              (ec <<< 26) ||| 0x02000000 ||| (if w.getLsbD 13 then 0x80 else 0) ||| (if wr then 0x40 else 0) ||| fsc
            let fsr : Word := if wr then code ||| 0x800 else code
            exec (.recognize kind flags a b c) s =
              .next (respond { s with exc := { s.exc with
                index := kind, targetEl := BitVec.ofNat 2 t, vaddress := a, ipa := c, fr := w,
                syndrome := syn, fsr := fsr, phase := .pending } } .ok (BitVec.ofNat 64 t) (syn.setWidth 64))))

/-- R376, R378, R379, R386: where an interrupt or an asynchronous abort goes, and when its mask holds it back; one held back
leaves no trace. `SERROR` records the asynchronous-abort code of the format of the current stage-1 regime; no rule gives
an interrupt a code (log entry 30).  That `SERROR` has its code whatever level it goes to is log entry 34's (DEDUCED),
and `r0 = r1 = 0` of `NOT_TAKEN` is log entry 48's (DESIGN CHOICE). -/
def Obligations.RecognizeInterruptMasking : Prop :=
  ∀ (kind flags : BitVec 8) (a b c : DWord) (s : State) (e : Event),
    s.locked = false → s.has .m = false → flags.toNat < 16 → eventOf kind = some e → eventExists s e = true →
    s.exc.phase ≠ .pending →
    let scr (n : Nat) : Bool := s.has .el3 && s.sys.scr.getLsbD n
    let hcr (n : Nat) : Bool := s.has .el2 && s.sys.hcr.getLsbD n
    let rw : Bool := if s.has .el3 then s.sys.scr.getLsbD 10 else s.has .aarch64
    let status : Word := if s.aarch64 then s.a64.pstate else s.a32.cpsr
    let target (sp hp : Nat) : Nat :=
      if scr sp then 3
      else if isSecure s then (if s.has .aarch64 then 1 else 3)
      else if hcr hp || hcr 27 then 2
      else if curEl s = 2 ∧ ¬ (s.has .aarch64 = true ∧ rw = true) then 2
      else 1
    let taken (t : Nat) (open_ : Bool) : Prop :=
      if open_ = true then
        ∃ fsr, exec (.recognize kind flags a b c) s =
          .next (respond { s with exc := { s.exc with
            index := kind, targetEl := BitVec.ofNat 2 t, vaddress := a, ipa := c, fr := 0, syndrome := b.setWidth 32,
            fsr := fsr, phase := .pending } } .ok (BitVec.ofNat 64 t) ((b.setWidth 32 : Word).setWidth 64)) ∧
          (e = .serror → fsr = if usesLongFormat s (currentRegime s) = true then 0x211 else 0x406)
      else exec (.recognize kind flags a b c) s = .next (respond s .notTaken 0 0)
    let physical (sp hp wp mask : Nat) : Prop :=
      let t := target sp hp
      let granted := if s.has .aarch64 then decide (t = 3) || !isSecure s
        else (hcr hp || (decide (e ≠ .irq) && scr sp && !(scr wp && !hcr hp))) && !isSecure s
      taken t (decide (curEl s ≤ t) && (!status.getLsbD mask || (decide (curEl s < t) && decide (t ≠ 1) && granted)))
    (e = .irq → physical 1 4 0 7) ∧ (e = .fiq → physical 2 3 4 6) ∧ (e = .serror → physical 3 5 5 8) ∧
    (e = .virq → taken 1 (decide (curEl s ≤ 1) && !isSecure s && hcr 4 && !status.getLsbD 7)) ∧
    (e = .vfiq → taken 1 (decide (curEl s ≤ 1) && !isSecure s && hcr 3 && !status.getLsbD 6))

/-- R394, R395: entry to a 64-bit level: the vector, what is saved, the new status word, the stack pointer of the level, the
exclusive reservation cleared; from the 32-bit state the banks of every mode are saved and `X[0..30]` are their images
(R163); nothing else changes. `BKPT` writes no fault address: R394 is followed over the table of R396 (log entry 42).
That the live saved status word goes into its mode's bank on leaving the 32-bit state, but not over the status word
saved, is log entry 24's, and that level 2 is entered in Secure state too log entry 41's (DEDUCED). -/
def Obligations.TakeTo64Entry : Prop :=
  ∀ (s : State) (e : Event) (t : Nat),
    s.locked = false → s.has .m = false → s.exc.phase = .pending → eventOf s.exc.index = some e →
    t = s.exc.targetEl.toNat → 1 ≤ t → curEl s ≤ t → elIsA64 s t = true →
    let slot : DWord := if curEl s < t then (if s.aarch64 then 0x400 else 0x600)
      else if s.a64.pstate.getLsbD 0 then 0x200 else 0
    let off : DWord := match e with
      | .irq | .virq => 0x080
      | .fiq | .vfiq => 0x100
      | .serror => 0x180
      | _ => 0
    let pc := s.sys.vbar.get (lvlOf t) + slot + off
    let status : Word := if s.aarch64 then s.a64.pstate else s.a32.cpsr
    let new : Word := (status &&& 0xF0000000) ||| 0x3C0 ||| (BitVec.ofNat 32 t <<< 2) ||| 1
    ∃ u, exec .takeException s = .next u ∧ u.ports = { s.ports with rsp := some ⟨.ok, pc, new.setWidth 64, []⟩ } ∧
      u.a64.pc = pc ∧ u.a64.pstate = new ∧ u.aarch64 = true ∧ u.exclAddr = 0xFFFFFFFFFFFFFFFF ∧
      u.exc = { s.exc with phase := .active } ∧ restKept s u (faultRegs64Of s e t) ∧
      (s.aarch64 = true →
        u.a32 = { s.a32 with bankSpsr := vset s.a32.bankSpsr (spsrBank t) ((s.a64.pstate &&& 0xFFFFFFEF).setWidth 64) } ∧
        u.a64.elrEl = s.a64.elrEl.set (lvlOf t) s.a64.pc ∧
        u.a64.spEl = vset s.a64.spEl (if s.a64.pstate.getLsbD 0 then curEl s else 0) (vget s.a64.x 31) ∧
        u.a64.x = vset s.a64.x 31 (vget u.a64.spEl t)) ∧
      (s.aarch64 = false → ∀ old, modeOf? (s.a32.cpsr.setWidth 5) = some old →
        vget u.a32.bankSpsr (spsrBank t) = s.a32.cpsr.setWidth 64 ∧ u.a32.r = s.a32.r ∧ u.a32.spsr = s.a32.spsr ∧
        u.a32.cpsr = s.a32.cpsr &&& 0xF93F03FF ∧ banksStored s.a32 u.a32 old (spsrBank t) ∧
        u.a64.elrEl = s.a64.elrEl.set (lvlOf t) ((vget s.a32.r 15).setWidth 64) ∧ u.a64.spEl = s.a64.spEl ∧
        mappedTo s.a32 old (fun n => (vget u.a64.x n).setWidth 32) ∧
        (∀ i, i < 31 → (vget u.a64.x i) >>> 32 = 0) ∧ vget u.a64.x 31 = vget s.a64.spEl t)

/-- R390 to R393, R395: entry to a 32-bit mode, Hypervisor mode or another: the mode, the bank, the saved status word and
return address, the masks, the vector, the fault registers; the banks of the other modes and everything else keep what
they hold. `SERROR` to Hypervisor mode writes the syndrome and to another mode `DFSR`: R391 and R390 are followed over the
table of R396 (log entry 42). `T` comes from the bank of the security state after the mode change (log entry 35). From level 0 in the 64-bit state (R404
allows it under a 32-bit level) the entry is that of the 32-bit view of the state (R24, R163), but it saves `PSTATE` and
`PC64`, the status word and the program counter present (R473): log entry 43. Level 2 is entered in Secure state too (log
entry 41). -/
def Obligations.TakeTo32Entry : Prop :=
  (∀ (s : State) (e : Event) (t : Nat) (old : Mode),
      s.locked = false → s.has .m = false → s.aarch64 = false → s.exc.phase = .pending →
      eventOf s.exc.index = some e → t = s.exc.targetEl.toNat → curEl s ≤ t → elIsA64 s t = false →
      modeOf? (s.a32.cpsr.setWidth 5) = some old → s.a32.cpsr &&& 0x00C00000 = 0 →
      (t ≠ 2 → ∀ row off mask₀ link, handler32 (s.a32.cpsr.getLsbD 5) e = some (row, off, mask₀, link) →
        let mon := monitored s e t
        let mode := if mon then .mon else row
        let mask : Word := if mon then 0x1C0 else mask₀
        let fb := mon || isSecure s
        let l : Lvl := if fb then .l3 else .l1
        let base : Word := if mon then s.sys.mvbar else if (s.sys.sctlr.get l).getLsbD 13 then 0xFFFF0000
          else (s.sys.vbar.get l).setWidth 32
        ∃ u, exec .takeException s = .next u ∧ handlerStatus s u mode mask
            ((u.sys.sctlr.get (if isSecure u then .l3 else .l1)).getLsbD 30) ∧
          enteredBank s u old mode ∧ othersKept s.a32 u.a32 old mode ∧ u.a32.spsr = (s.a32.cpsr &&& 0xFFDFFFFF).setWidth 64 ∧
          vget u.a32.r 14 = vget s.a32.r 15 + link ∧ vget u.a32.r 15 = base + off ∧
          u.aarch64 = false ∧ u.a64 = s.a64 ∧ u.exclAddr = 0xFFFFFFFFFFFFFFFF ∧
          u.exc = { s.exc with phase := .active } ∧ restKept s u (faultRegs32 s e fb) ∧
          u.ports = { s.ports with
            rsp := some ⟨.ok, (base + off).setWidth 64, u.a32.cpsr.setWidth 64, []⟩ }) ∧
      (t = 2 → ∀ off₀, handlerHyp e = some off₀ →
        let scr (n : Nat) : Bool := s.has .el3 && s.sys.scr.getLsbD n
        let off : Word := if curEl s ≠ 2 ∧ off₀ < 0x14 then 0x14 else off₀
        let mask : Word := (if scr 3 then 0 else 0x100) ||| (if scr 1 then 0 else 0x080) ||| (if scr 2 then 0 else 0x040)
        ∃ u, exec .takeException s = .next u ∧ handlerStatus s u .hyp mask ((s.sys.sctlr.get .l2).getLsbD 30) ∧
          enteredBank s u old .hyp ∧ othersKept s.a32 u.a32 old .hyp ∧
          vget u.a32.r 14 = (if old.bank14 = 0 then vget s.a32.r 14 else vget s.a32.bankR14 0) ∧
          u.a32.spsr = (s.a32.cpsr &&& 0xFFDFFFFF).setWidth 64 ∧
          vget u.a32.r 15 = (s.sys.vbar.get .l2).setWidth 32 + off ∧
          u.a64 = { s.a64 with elrEl := s.a64.elrEl.set .l2 ((vget s.a32.r 15).setWidth 64) } ∧ u.aarch64 = false ∧
          u.exclAddr = 0xFFFFFFFFFFFFFFFF ∧ u.exc = { s.exc with phase := .active } ∧ restKept s u (faultRegsHyp s e) ∧
          u.ports = { s.ports with
            rsp := some ⟨.ok, ((s.sys.vbar.get .l2).setWidth 32 + off).setWidth 64, u.a32.cpsr.setWidth 64, []⟩ })) ∧
  (∀ (s : State) (e : Event) (t : Nat),
    s.locked = false → s.has .m = false → s.aarch64 = true → s.exc.phase = .pending →
    eventOf s.exc.index = some e → t = s.exc.targetEl.toNat → curEl s = 0 → elIsA64 s t = false →
    (t ≠ 2 → (handler32 false e).isSome = true) → (t = 2 → (handlerHyp e).isSome = true) →
    ∃ v, exec .takeException (asA32 s) = .next v ∧ v.aarch64 = false ∧
      exec .takeException s = .next { v with
        a32 := { v.a32 with spsr := (s.a64.pstate &&& 0xFFDFFFEF).setWidth 64 }
        a64 := if t = 2 then { v.a64 with elrEl := v.a64.elrEl.set .l2 s.a64.pc } else v.a64 })

/-- R149, R406: a return from an exception never ends at a higher level than it began at.  The premises are what R30 and
R170 (d) ask of the state before: the 64-bit state runs only where it exists, and level 2 is never Secure.  They hold in
runs without what `Obligations.OperationsKeepLevels` leaves out (log entries 23 and 41). -/
def Obligations.ReturnNeverRaisesLevel : Prop :=
  ∀ (a b : DWord) (s u : State), s.has .m = false → (s.aarch64 = true → s.has .aarch64 = true) →
    (curEl s = 2 → secureBelowEl3 s = false) → exec (.excReturn a b) s = .next u → curEl u ≤ curEl s

/-- R402, R404, R406, R408 to R410: the return from a 64-bit level, legal and illegal.  A return to the 32-bit state takes
`R[0..14]` and the banks of every mode but Monitor from `X[0..30]` (R163), and the saved status word from its bank; what is
not named keeps its value. -/
def Obligations.ExcReturnFrom64 : Prop :=
  ∀ (b : DWord) (s : State), s.locked = false → s.has .m = false → s.aarch64 = true → s.exc.phase ≠ .pending →
    1 ≤ curEl s →
    let c := curEl s
    let spsr : Word := (vget s.a32.bankSpsr (spsrBank c)).setWidth 32
    let elr := s.a64.elrEl.get (lvlOf c)
    let sp := vset s.a64.spEl (if s.a64.pstate.getLsbD 0 then c else 0) (vget s.a64.x 31)
    ∃ u, exec (.excReturn 0 b) s = .next u ∧ u.exclAddr = 0xFFFFFFFFFFFFFFFF ∧ u.exc = { s.exc with phase := .none } ∧
      restKept s u s.sys ∧ u.a64.spEl = sp ∧ u.a64.elrEl = s.a64.elrEl ∧
      ((∀ el, ¬ legalReturn64 s c spsr el) →
        let w := ((s.a64.pstate ||| 0x00100000) &&& 0x0FFFFC3F) ||| (spsr &&& 0xF00003C0)
        let w := if ssActive u then w else w &&& 0xFFDFFFFF
        u.a64 = { s.a64 with pc := elr, pstate := w, spEl := sp } ∧ u.a32 = s.a32 ∧ u.aarch64 = true ∧
        u.ports = { s.ports with rsp := some ⟨.ok, elr, w.setWidth 64, []⟩ }) ∧
      (∀ el, legalReturn64 s c spsr el → spsr.getLsbD 4 = false →
        let w := spsr &&& 0xF03003CD
        let w := if ssActive u then w else w &&& 0xFFDFFFFF
        u.a64 = { s.a64 with
          pc := elr, pstate := w, spEl := sp, x := vset s.a64.x 31 (vget sp (if spsr.getLsbD 0 then el else 0)) } ∧
        u.a32 = s.a32 ∧ u.aarch64 = true ∧
        u.ports = { s.ports with rsp := some ⟨.ok, elr, w.setWidth 64, []⟩ }) ∧
      (∀ el, legalReturn64 s c spsr el → spsr.getLsbD 4 = true →
        let w := spsr &&& 0xFF3FFFFF
        let w := if ssActive u then w else w &&& 0xFFDFFFFF
        let pc : Word := elr.setWidth 32 &&& if spsr.getLsbD 5 then 0xFFFFFFFE else 0xFFFFFFFC
        u.aarch64 = false ∧ u.a32.cpsr = w ∧ vget u.a32.r 15 = pc ∧ u.a64 = { s.a64 with spEl := sp } ∧
        u.a32.bankSpsr = s.a32.bankSpsr ∧ vget u.a32.bankR13 7 = vget s.a32.bankR13 7 ∧
        vget u.a32.bankR14 6 = vget s.a32.bankR14 6 ∧ vget u.a32.bankR14 7 = vget s.a32.bankR14 7 ∧
        (∀ m, modeOf? (spsr.setWidth 5) = some m →
          mappedTo u.a32 m (fun n => (vget s.a64.x n).setWidth 32) ∧ banksStored u.a32 u.a32 m 8 ∧
          u.a32.spsr = vget s.a32.bankSpsr m.bank.toNat) ∧
        (el = 0 → ∀ i, i < 15 → vget u.a32.r i = (vget s.a64.x i).setWidth 32) ∧
        u.ports = { s.ports with rsp := some ⟨.ok, pc.setWidth 64, w.setWidth 64, []⟩ })

/-- R402, R405, R408, R409: the return within the 32-bit state: the saved word becomes the status word (the masks `A` and `F`
only where R156 lets the current state change them), the bank is the restored mode's and no register of any mode changes,
the program counter is aligned; a mode that is not legal from here stays out, with the illegal-state flag on the newer
generation, and no bank is touched.  That `A` and `F` are kept where R156 forbids changing them, against R405's "every
other field" and R411, is log entry 45's (DESIGN CHOICE), and that the checks are those of R158 alone, where D33 of
spec/92_eei_decisions.md has more, log entry 50's (DEDUCED). -/
def Obligations.ExcReturnFrom32 : Prop :=
  ∀ (a b : DWord) (s : State) (old : Mode), s.locked = false → s.has .m = false → s.aarch64 = false →
    s.exc.phase ≠ .pending → modeOf? (s.a32.cpsr.setWidth 5) = some old → old ≠ .usr → old ≠ .sys →
    (old = .hyp → a = 0) →
    let spsr : Word := s.a32.spsr.setWidth 32
    let pc : Word := if old = .hyp then (s.a64.elrEl.get .l2).setWidth 32 else a.setWidth 32
    let open_ : Word := openMask s spsr 0xFF1FFFFF
    ∃ u, exec (.excReturn a b) s = .next u ∧ u.exclAddr = 0xFFFFFFFFFFFFFFFF ∧ u.exc = { s.exc with phase := .none } ∧
      restKept s u s.sys ∧ u.a64 = s.a64 ∧ u.aarch64 = false ∧
      vget u.a32.r 15 = pc &&& (if u.a32.cpsr.getLsbD 5 then 0xFFFFFFFE else 0xFFFFFFFC) ∧
      u.a32.cpsr.getLsbD 21 = (spsr.getLsbD 21 && ssActive u) ∧ u.a32.cpsr &&& 0x00C00000 = 0 ∧
      u.a32.cpsr &&& 0x140 = ((s.a32.cpsr &&& ~~~ open_) ||| (spsr &&& open_)) &&& 0x140 ∧
      u.ports = { s.ports with
        rsp := some ⟨.ok, (vget u.a32.r 15).setWidth 64, u.a32.cpsr.setWidth 64, []⟩ } ∧
      (∀ new, modeOf? (spsr.setWidth 5) = some new → new = old ∨ refusedMode s (spsr.setWidth 5) false = false →
        u.a32.cpsr &&& 0xFF1FFEBF = spsr &&& 0xFF1FFEBF ∧ enteredBank s u old new ∧ banksKept s.a32 u.a32 old new ∧
        (new.bank ≠ old.bank → u.a32.spsr = vget s.a32.bankSpsr new.bank.toNat) ∧
        (new.bank14 ≠ old.bank14 → vget u.a32.r 14 = vget s.a32.bankR14 new.bank14.toNat)) ∧
      ((∀ new, modeOf? (spsr.setWidth 5) = some new → new ≠ old ∧ refusedMode s (spsr.setWidth 5) false = true) →
        u.a32.cpsr &&& 0x1F = s.a32.cpsr &&& 0x1F ∧ u.a32.cpsr &&& 0xFF0FFEA0 = spsr &&& 0xFF0FFEA0 ∧
        u.a32.cpsr.getLsbD 20 = (s.has .v8 || spsr.getLsbD 20) ∧
        { u.a32 with r := s.a32.r, cpsr := s.a32.cpsr } = s.a32 ∧ ∀ i, i < 15 → vget u.a32.r i = vget s.a32.r i)

/-- R411, the fifth testable property, in the 64-bit state: taking a pending exception and returning from it restores the
program counter, every general register, the level, the security state and the status word (but for `SS`). The premises
shut out the states to which R404 makes the return illegal: a saved word that R406 calls no level (`SP` = 1 at level 0,
which a `PSR_WRITE` can store, log entry 44), level 2 in Secure state, a level that does not run the 64-bit state, and
Non-secure level 1 under the `TGE` trap; writes of `HCR`, `SCR` and the raw writes of a debugger can reach such states
(log entry 23), an entry to level 2 in Secure state the second one too (log entry 41, DEDUCED). -/
def Obligations.TakeReturnRoundTrip64 : Prop :=
  ∀ (s : State) (e : Event) (t : Nat),
    s.locked = false → s.has .m = false → s.aarch64 = true → s.exc.phase = .pending → eventOf s.exc.index = some e →
    t = s.exc.targetEl.toNat → 1 ≤ t → curEl s ≤ t → elIsA64 s t = true →
    s.a64.pstate &&& 0x0FCFFC32 = 0 → ¬ (s.a64.pstate &&& 0xF = 1) →
    (curEl s ≠ 0 → elIsA64 s (curEl s) = true) → (curEl s = 2 → s.has .el2 = true ∧ secureBelowEl3 s = false) →
    (curEl s = 1 → ¬ (s.has .el2 = true ∧ s.sys.hcr.getLsbD 27 = true ∧ secureBelowEl3 s = false)) →
    ∃ u v, exec .takeException s = .next u ∧ exec (.excReturn 0 0) u = .next v ∧
      v.a64.pc = s.a64.pc ∧ v.a64.x = s.a64.x ∧ v.a64.pstate ||| 0x00200000 = s.a64.pstate ||| 0x00200000 ∧
      (s.a64.pstate.getLsbD 21 = false → v.a64.pstate = s.a64.pstate) ∧ v.aarch64 = true ∧
      { v.a32 with bankSpsr := s.a32.bankSpsr } = s.a32 ∧
      (∀ j, j ≠ spsrBank t → vget v.a32.bankSpsr j = vget s.a32.bankSpsr j) ∧ curEl v = curEl s ∧ isSecure v = isSecure s ∧
      (∀ i, i < 4 → i ≠ (if s.a64.pstate.getLsbD 0 then curEl s else 0) →
        vget v.a64.spEl i = vget s.a64.spEl i) ∧
      v.bus = s.bus ∧ v.fp = s.fp ∧ v.exc = { s.exc with phase := .none }

/-- R411, the fifth testable property, from the 32-bit state: taking a pending exception, to a 32-bit mode or to a 64-bit
level, and returning from it (`A` is the link register minus the link offset of R390, 0 from Hypervisor mode and from a
64-bit level) restores the program counter, the flat registers, the banks, the level, the security state and the status
word, but for `SS` and for the link register and the saved status word of the mode or level entered. The premises shut
out the returns that R404 and R158 refuse: to Hypervisor mode from Monitor mode or below level 2, and what
`TakeReturnRoundTrip64` shuts out. `A` and `F` come back where R156 lets a return write them: R156 and R158 are followed
where R411 says otherwise (log entry 45). That the live saved status word goes into its mode's bank on leaving the 32-bit
state is log entry 24's, and that level 2 is entered in Secure state too log entry 41's (DEDUCED). -/
def Obligations.TakeReturnRoundTrip32 : Prop :=
  ∀ (s : State) (e : Event) (t : Nat) (old : Mode),
    s.locked = false → s.has .m = false → s.aarch64 = false → s.exc.phase = .pending → eventOf s.exc.index = some e →
    t = s.exc.targetEl.toNat → 1 ≤ t → curEl s ≤ t →
    modeOf? (s.a32.cpsr.setWidth 5) = some old →
    s.a32.cpsr &&& 0x00C00000 = 0 → vget s.a32.r 15 &&& (if s.a32.cpsr.getLsbD 5 then 1 else 3) = 0 →
    let same (v : State) : Prop :=
      v.aarch64 = false ∧ (∀ i, i < 8 → vget v.a32.r i = vget s.a32.r i) ∧ vget v.a32.r 15 = vget s.a32.r 15 ∧
      curEl v = curEl s ∧ isSecure v = isSecure s ∧ v.exc = { s.exc with phase := .none } ∧
      v.exclAddr = 0xFFFFFFFFFFFFFFFF ∧ restKept s v v.sys
    (elIsA64 s t = false → (old = .hyp → t = 2) → ∀ (mode : Mode) (link : Word),
      (if t = 2 then (handlerHyp e).isSome = true ∧ mode = .hyp
       else ∃ row off mask, handler32 (s.a32.cpsr.getLsbD 5) e = some (row, off, mask, link) ∧
         mode = if monitored s e t then .mon else row) →
      ∃ u v, exec .takeException s = .next u ∧
        exec (.excReturn (if mode = .hyp then 0 else (vget u.a32.r 14 - link).setWidth 64) 0) u = .next v ∧
        same v ∧ v.a32.cpsr &&& 0xFFDFFEBF = s.a32.cpsr &&& 0xFFDFFEBF ∧ v.a32.cpsr.getLsbD 21 = false ∧
        (s.has .v8 = true ∨ s.has .el3 = false ∨ s.has .el2 = true ∨ isSecure s = true ∨ mode = .mon →
          v.a32.cpsr &&& 0x140 = s.a32.cpsr &&& 0x140) ∧
        (∀ k : Mode, archR13 v.a32 old k = archR13 s.a32 old k ∧
          (∀ i, i < 5 → archR8 v.a32 old k i = archR8 s.a32 old k i) ∧
          (k.bank14 ≠ mode.bank14 ∨ mode = .hyp → archR14 v.a32 old k = archR14 s.a32 old k) ∧
          (k.bank ≠ mode.bank → archSpsr v.a32 old k = archSpsr s.a32 old k)) ∧
        { v.a64 with elrEl := s.a64.elrEl } = s.a64 ∧ (mode ≠ .hyp → v.a64 = s.a64)) ∧
    (elIsA64 s t = true → curEl s < t → (curEl s ≠ 0 → elIsA64 s (curEl s) = false) →
      (curEl s = 2 → s.has .el2 = true ∧ secureBelowEl3 s = false) →
      (curEl s = 1 → ¬ (s.has .el2 = true ∧ s.sys.hcr.getLsbD 27 = true ∧ secureBelowEl3 s = false)) →
      ∃ u v, exec .takeException s = .next u ∧ exec (.excReturn 0 0) u = .next v ∧
        same v ∧ v.a32.cpsr ||| 0x00200000 = s.a32.cpsr ||| 0x00200000 ∧
        (s.a32.cpsr.getLsbD 21 = false → v.a32.cpsr = s.a32.cpsr) ∧
        (∀ k : Mode, archR13 v.a32 old k = archR13 s.a32 old k ∧ archR14 v.a32 old k = archR14 s.a32 old k ∧
          (∀ i, i < 5 → archR8 v.a32 old k i = archR8 s.a32 old k i) ∧
          (k.bank.toNat ≠ spsrBank t → archSpsr v.a32 old k = archSpsr s.a32 old k)) ∧
        v.a64.spEl = s.a64.spEl)

/-! ## Exceptions, microcontroller profile -/

/-- R37, R421, R423, R424, R425, R440, R471: an event is classified, its status bits are set and it is recorded; at negative
priority it is lockup, the status bits set, except the bus error that `BFHFNMIGN` ignores; the controller's choice is
recorded as given. `EXC_FR` is 0 for an event that is no abort, as R37 says where R423's line writes `B[47:32]` for each
(log entry 33). `NSC_EXEC` on a data access is a SecureFault by R471's table (log entry 47).  `r0 = r1 = 0` of
`ILLEGAL_CMD`, `NOT_TAKEN` and `LOCKED` where no rule names them is log entry 48's (DESIGN CHOICE). -/
def Obligations.MicroRecognizeClassifies : Prop :=
  ∀ (kind flags : BitVec 8) (a b c : DWord) (s : State),
    Inv s → s.locked = false → s.has .m = true → flags.toNat < 16 →
    let k := s.m.secure
    let sec := s.has .mSecurity
    (s.exc.phase ≠ .pending → ∀ n bits, microRow kind = some (n, bits) →
      let msys := { s.msys with cfsr := s.msys.cfsr.set k (s.msys.cfsr.get k ||| bits) }
      if mNegPri s = true then
        exec (.recognize kind flags a b c) s = .next (respond { s with msys := msys, locked := true } .locked 0 0)
      else
        exec (.recognize kind flags a b c) s = .next (respond { s with
          msys := msys
          exc := { s.exc with
            index := kind, mNumber := BitVec.ofNat 9 n, mSecure := sec && k, mDerived := false, syndrome := 0,
            vaddress := a, fr := 0, phase := .pending } }
          .ok (BitVec.ofNat 64 n) (if sec && k then 1 else 0))) ∧
    (s.exc.phase ≠ .pending → kind = 36 ∨ kind = 37 → recordRefused s (b.extractLsb' 32 16) = false →
      let w : BitVec 16 := b.extractLsb' 32 16
      let data := decide (kind = 37)
      let n := microAbort data (field w 0 5)
      let target := sec && (if n = 7 then true else if n = 5 then !s.msys.aircr.getLsbD 13 else k)
      if mNegPri s = true then
        if data = true ∧ field w 0 5 = 7 ∧ (s.msys.ccr.get k).getLsbD 8 = true then
          exec (.recognize kind flags a b c) s = .next (respond s .notTaken 0 0)
        else
          ∃ u, exec (.recognize kind flags a b c) s = .next u ∧ u.locked = true ∧
            u.ports = { s.ports with rsp := some ⟨.locked, 0, 0, []⟩ } ∧ abortStatus s u k data (field w 0 5) n a ∧
            { u with locked := s.locked, msys := s.msys, ports := s.ports } = s
      else
        ∃ u, exec (.recognize kind flags a b c) s = .next u ∧
          u.ports = { s.ports with rsp := some ⟨.ok, BitVec.ofNat 64 n, if target then 1 else 0, []⟩ } ∧
          u.exc = { s.exc with
            index := kind, mNumber := BitVec.ofNat 9 n, mSecure := target, mDerived := false, syndrome := 0,
            vaddress := a, fr := w, phase := .pending } ∧
          { u with exc := s.exc, msys := s.msys, ports := s.ports } = s ∧
          abortStatus s u k data (field w 0 5) n a) ∧
    (s.exc.phase ≠ .pending → kind = 36 ∨ kind = 37 → recordRefused s (b.extractLsb' 32 16) = true →
      exec (.recognize kind flags a b c) s = .next (respond s .illegalCmd 0 0)) ∧
    (s.exc.phase = .pending → kind ≠ 39 →
      exec (.recognize kind flags a b c) s = .next (respond s .illegalCmd 0 0)) ∧
    (kind = 39 →
      let n := field c 0 9
      let target := flags.getLsbD 3
      if n < 2 ∨ n = 8 ∨ n = 9 ∨ n = 10 ∨ n = 13 ∨ (target = true ∧ sec = false) then
        exec (.recognize kind flags a b c) s = .next (respond s .illegalCmd 0 0)
      else
        exec (.recognize kind flags a b c) s = .next (respond { s with exc := { s.exc with
            mNumber := BitVec.ofNat 9 n, mSecure := target, syndrome := if c.getLsbD 9 then 1 else 0,
            mDerived := if s.exc.phase = .pending then s.exc.mDerived else false, index := kind, fr := 0,
            phase := .pending } }
          .ok (BitVec.ofNat 64 n) (if target then 1 else 0)))

/-- R422, R445, R447, R450, R452, R472: every way the two operations can end, on every instance of the profile: entry ends in
the handler, or with a derived exception pending, or in lockup; return ends in the interrupted code or with a fault
pending, and never in lockup.  `r0 = r1 = 0` of the `LOCKED` that an entry into lockup answers is log entry 48's (DESIGN
CHOICE). -/
def Obligations.MicroExceptionOutcomes : Prop :=
  ∀ s : State, s.has .m = true → s.locked = false →
    (s.exc.phase = .pending → s.exc.mNumber ≠ 0 →
      ∃ u rsp, exec .takeException s = .next u ∧ u.ports = { s.ports with rsp := some rsp } ∧
        ((u.locked = true ∧ rsp = ⟨.locked, 0, 0, []⟩ ∧ u.exc.phase = .pending) ∨
         (u.locked = false ∧ rsp.status = .ok ∧ rsp.r0 = 0 ∧ rsp.r1.getLsbD 10 = true ∧ u.exc.phase = .pending ∧
          u.exc.mDerived = true) ∨
         (u.locked = false ∧ rsp.status = .ok ∧ rsp.r0 = s.exc.mNumber.setWidth 64 ∧ u.exc.phase = .active ∧
          u.exc.mDerived = false ∧ u.m.exception = s.exc.mNumber ∧
          u.m.secure = (s.exc.mSecure && s.has .mSecurity) ∧ curEl u = 1 ∧
          u.exclAddr = 0xFFFFFFFFFFFFFFFF ∧ (u.m.control.get s.exc.mSecure).getLsbD 1 = false ∧
          (vget u.a32.r 15).getLsbD 0 = false))) ∧
    (∀ a b : DWord, s.exc.phase ≠ .pending → s.m.exception ≠ 0 → a >>> 24 = 0xFF →
      ∃ u rsp, exec (.excReturn a b) s = .next u ∧ u.ports = { s.ports with rsp := some rsp } ∧
        rsp.status = .ok ∧ u.locked = false ∧ u.bus.mem = s.bus.mem ∧
        ((u.exc.phase = .none ∧ rsp.r0 = (vget u.a32.r 15).setWidth 64 ∧ rsp.r1 = 0 ∧
          u.exclAddr = 0xFFFFFFFFFFFFFFFF) ∨
         (u.exc.phase = .pending ∧ rsp.r0 = 0 ∧ rsp.r1.getLsbD 10 = true)))

/-- R422, R426, R431 to R434, R436, R439: entry without the security extension, the port answering: eight stores in order,
the vector load, the handler's registers, and nothing else changed. The sentinel of a nested entry of the older variant
with `CONTROL[0].SPSEL` = 1 is that of R426's pseudocode (log entry 46).  What memory holds outside the frame is the
model's memory behind the port (log entry 2, DESIGN CHOICE). -/
def Obligations.MicroTakeEntersHandler : Prop :=
  ∀ (s : State) (oks rest : List Answer) (w : DWord),
    Inv s → plainMicro s = true → s.locked = false → s.exc.phase = .pending → s.exc.mDerived = false →
    s.exc.mSecure = false → 2 ≤ s.exc.mNumber.toNat → oks.length = 8 → (∀ x ∈ oks, x ≠ .err) →
    s.bus.script = oks ++ .ok w :: rest →
    let n := s.exc.mNumber
    let fp := framePointer s
    let psp := decide (s.m.exception = 0) && s.m.control.ns.getLsbD 1
    ∃ u, exec .takeException s = .next u ∧
      u.ports = { s.ports with rsp := some ⟨.ok, n.setWidth 64, 0, []⟩ } ∧
      u.bus.reqs = s.bus.reqs ++ List.zipWith storeReq (frameAddrs fp) (frameWords s (realigns s)) ++
        [loadReq (s.msys.vtor.ns + (n.setWidth 32 <<< 2))] ∧
      u.bus.script = rest ∧
      (∀ a, (∀ p ∈ frameAddrs fp, ∀ j < 4, a ≠ byteKey false (zext p + BitVec.ofNat 64 j)) →
        u.bus.mem.read a = s.bus.mem.read a) ∧
      u.m.exception = n ∧ u.m.control = s.m.control.set false (s.m.control.ns &&& 0xD) ∧
      u.m.xpsr = ((s.m.xpsr &&& 0xF80F0000) ||| (if w.getLsbD 0 then 0x01000000 else 0)) &&& 0xF90F0000 ∧
      u.m.mainSp = s.m.mainSp ∧ u.m.processSp = (if psp then s.m.processSp.set false fp else s.m.processSp) ∧
      vget u.a32.r 13 = (if psp then s.m.mainSp.ns else fp) ∧ vget u.a32.r 14 = sentinelOf s ∧
      vget u.a32.r 15 = w.setWidth 32 &&& 0xFFFFFFFE ∧ (∀ i, i < 13 → vget u.a32.r i = vget s.a32.r i) ∧
      u.exclAddr = 0xFFFFFFFFFFFFFFFF ∧ u.exc = { s.exc with phase := .active } ∧
      u.msys = (if n = 3 ∧ s.exc.syndrome.getLsbD 0 = true then { s.msys with hfsr := s.msys.hfsr ||| 0x40000000 }
                else s.msys) ∧
      { u with m := s.m, a32 := s.a32, exc := s.exc, msys := s.msys, bus := s.bus, ports := s.ports,
               exclAddr := s.exclAddr } = s ∧
      { u.a32 with r := s.a32.r } = s.a32

/-- R436, R445, R461, the eighth testable property: a frame store that fails, whichever of the eight it is, is a derived
exception: the words before it stay written, nothing more is stored, the stack pointer takes the frame pointer all the
same, the original is not entered, and the next entry does not push the frame again. `EXC_FR` becomes 0, the derived
event being no abort that was presented (R37, log entry 33); that the words stored are in memory afterwards is the
model's memory behind the port (log entry 2); the sentinel of a nested entry of the older variant with `CONTROL[0].SPSEL`
= 1 is that of R426's pseudocode (log entry 46).  What a failed push leaves done is as the pseudocode says (log entry 32,
DEDUCED). -/
def Obligations.MicroStackFailureDerives : Prop :=
  ∀ (s : State), Inv s → s.has .m = true → s.has .mSecurity = false → s.m.secure = false → s.locked = false →
    s.exc.phase = .pending → s.exc.mDerived = false → s.exc.mSecure = false → 4 ≤ s.exc.mNumber.toNat →
    let fp := framePointer s
    let addrs := frameAddrs fp
    let words := frameWords s (realigns s)
    let granted (i : Nat) : Prop := ∃ x, translateMpu s (currentRegime s) (addrs.getD i 0) .store = .ok x
    let derives (u : State) (n : BitVec 9) (bits : Word) : Prop :=
      u.ports = { s.ports with rsp := some ⟨.ok, 0, 0x400 ||| n.setWidth 64, []⟩ } ∧
      cfsrGet u false = cfsrGet s false ||| bits ∧ vget u.a32.r 13 = fp ∧ u.m = s.m ∧
      (∀ i, i ≠ 13 → vget u.a32.r i = vget s.a32.r i) ∧
      u.exc = { s.exc with
        mNumber := n, mSecure := false, mDerived := true, mLr := sentinelOf s, fr := 0, phase := .pending }
    (∀ k oks rest, k < 8 → oks.length = k → (∀ x ∈ oks, x ≠ .err) → (∀ i < k, granted i) →
      (∀ f, translateMpu s (currentRegime s) (addrs.getD k 0) .store = .error f → s.bus.script = oks ++ rest →
        ∃ u, exec .takeException s = .next u ∧ derives u 4 0x10 ∧ u.bus.script = rest ∧
          u.bus.reqs = s.bus.reqs ++ (List.zipWith storeReq addrs words).take k ∧ wordsStored s u addrs words k) ∧
      (granted k → s.bus.script = oks ++ .err :: rest →
        ∃ u, exec .takeException s = .next u ∧ derives u 5 0x1000 ∧ u.bus.script = rest ∧
          u.bus.reqs = s.bus.reqs ++ (List.zipWith storeReq addrs words).take (k + 1) ∧ wordsStored s u addrs words k)) ∧
    (∀ w rest, s.bus.script = .ok w :: rest →
      ∃ u, exec .takeException { s with exc := { s.exc with mDerived := true } } = .next u ∧
        u.bus.reqs = s.bus.reqs ++ [loadReq (s.msys.vtor.ns + (s.exc.mNumber.setWidth 32 <<< 2))])

/-- R450, R453, R455: the return without the security extension, the port answering: eight loads in order from the stack the
sentinel names, the registers restored from them, the frame consumed. The popped status word is masked to its defined
bits (log entry 31, DEDUCED). Bit 0 of the popped program counter is discarded: R453 and R455 are followed over R25 (log
entry 51, DEDUCED). -/
def Obligations.MicroReturnRestores : Prop :=
  ∀ (s : State) (a b w₀ w₁ w₂ w₃ w₄ w₅ w₆ w₇ : DWord) (rest : List Answer),
    Inv s → plainMicro s = true → s.locked = false → s.exc.phase ≠ .pending → s.m.exception ≠ 0 →
    a >>> 24 = 0xFF → b.getLsbD 0 = true →
    (if s.has .v8 = true then a &&& 0x63 = 0x20
     else a &&& 0xF = 0x1 ∨
       ((a &&& 0xF = 0x9 ∨ a &&& 0xF = 0xD) ∧ (b.getLsbD 1 = true ∨ s.msys.ccr.ns.getLsbD 0 = true))) →
    s.bus.script = [.ok w₀, .ok w₁, .ok w₂, .ok w₃, .ok w₄, .ok w₅, .ok w₆, .ok w₇] ++ rest →
    (w₇ &&& 0x1FF ≠ 0 ↔ a.getLsbD 3 = false) →
    let psp := a.getLsbD 3 && a.getLsbD 2
    let sp := if psp then s.m.processSp.ns else vget s.a32.r 13
    let sp' := sp + 0x20 ||| (if w₇.getLsbD 9 then 4 else 0)
    ∃ u, exec (.excReturn a b) s = .next u ∧
      u.ports = { s.ports with rsp := some ⟨.ok, (w₆ &&& 0xFFFFFFFE), 0, []⟩ } ∧
      u.bus = { s.bus with script := rest, reqs := s.bus.reqs ++ (frameAddrs sp).map loadReq } ∧
      vget u.a32.r 0 = w₀.setWidth 32 ∧ vget u.a32.r 1 = w₁.setWidth 32 ∧ vget u.a32.r 2 = w₂.setWidth 32 ∧
      vget u.a32.r 3 = w₃.setWidth 32 ∧ vget u.a32.r 12 = w₄.setWidth 32 ∧ vget u.a32.r 14 = w₅.setWidth 32 ∧
      vget u.a32.r 15 = w₆.setWidth 32 &&& 0xFFFFFFFE ∧ vget u.a32.r 13 = sp' ∧
      (∀ i, 4 ≤ i → i < 12 → vget u.a32.r i = vget s.a32.r i) ∧
      u.m.xpsr = w₇.setWidth 32 &&& 0xFF0FFC00 ∧ u.m.exception = w₇.setWidth 9 ∧
      u.m.control = s.m.control.set false ((s.m.control.ns &&& 0xD) ||| (if a.getLsbD 2 then 2 else 0)) ∧
      u.m.faultmask = (if s.m.exception = 2 then s.m.faultmask else s.m.faultmask.set false 0) ∧
      u.m.primask = s.m.primask ∧ u.m.basepri = s.m.basepri ∧ u.msys = s.msys ∧ u.exclAddr = 0xFFFFFFFFFFFFFFFF ∧
      u.exc = { s.exc with phase := .none }

/-- R426, R431, R433 to R439, R450, R452, R453, with the security extension, where the whole address space is attributed
Non-secure (`SAU_CTRL` = ALLNS, no external function), the protection units off and the port answering. Entry: the basic
frame, then from Secure state to a Non-secure handler the callee frame with its signature, then the vector; the sentinel;
a Non-secure handler finds `R[0..3]`, `R[12]` and the flags 0, and `R[4..11]` too if the frame is Secure; the frame's
stack pointer and no other moves. Return to Secure state with the callee frame on the stack: a wrong signature is a
SecureFault chained after one load; the right one restores `R[4..11]`, then the basic frame, and consumes both. `EXC_FR`
becomes 0 then (R37, log entry 33); that the words stored are in memory afterwards is the model's memory behind the port
(log entry 2). The sentinel's bits and what a chained fault leaves done are as the pseudocode says (log entry 32), and
the popped status word is masked to its defined bits (log entry 31, DEDUCED). Bit 0 of the popped program counter is
discarded: R453 and R455 are followed over R25 (log entry 51, DEDUCED). -/
def Obligations.MicroSecureFrames : Prop :=
  ∀ s : State, Inv s → s.has .m = true → s.has .mSecurity = true → s.has .v8 = true → s.locked = false →
    s.params.idau = [] → s.regions.sauCtrl = 2 → s.regions.mpuCtrl.s.getLsbD 0 = false →
    s.regions.mpuCtrl.ns.getLsbD 0 = false →
    let k := s.m.secure
    let thread := decide (s.m.exception = 0)
    let psp := thread && (s.m.control.get k).getLsbD 1
    (∀ (oks rest : List Answer) (w : DWord), s.exc.phase = .pending → s.exc.mDerived = false → 2 ≤ s.exc.mNumber.toNat →
      let n := s.exc.mNumber
      let ts := s.exc.mSecure
      let vec := s.msys.vtor.get ts + (n.setWidth 32 <<< 2)
      let callee := k && !ts
      let fp := framePointer s
      let cp := fp - 0x28
      let addrs := frameAddrs fp ++ if callee then
        [cp, cp + 0x08, cp + 0x0C, cp + 0x10, cp + 0x14, cp + 0x18, cp + 0x1C, cp + 0x20, cp + 0x24] else []
      let words := frameWords s (realigns s) ++ if callee then
        0xFEFA125B :: ((List.range 8).map fun i => vget s.a32.r (4 + i)) else []
      0x50 ≤ (vget s.a32.r 13).toNat → (vget s.a32.r 13).toNat ≤ 0xE0000000 →
      (s.msys.vtor.get ts).toNat + 4 * n.toNat < 0xE0000000 →
      oks.length = addrs.length → (∀ x ∈ oks, x ≠ .err) → s.bus.script = oks ++ .ok w :: rest →
      ∃ u, exec .takeException s = .next u ∧
        u.ports = { s.ports with rsp := some ⟨.ok, n.setWidth 64, 0, []⟩ } ∧
        u.bus.reqs = s.bus.reqs ++ List.zipWith storeReq addrs words ++ [loadReq vec] ∧ u.bus.script = rest ∧
        wordsStored s u addrs words addrs.length ∧
        u.m.exception = n ∧ u.m.secure = ts ∧
        u.m.control = s.m.control.set ts (s.m.control.get ts &&& 0xD) ∧
        u.m.xpsr = (if ts then s.m.xpsr &&& 0xF80F0000 else 0) ||| (if w.getLsbD 0 then 0x01000000 else 0) ∧
        slotValue u k psp = (if callee then cp else fp) ∧
        (∀ k' p, (k', p) ≠ (k, psp) → slotValue u k' p = slotValue s k' p) ∧
        vget u.a32.r 14 = 0xFFFFFFB0 ||| (if k then 0x40 else 0) ||| (if thread then 0x8 else 0) ||| (if ts then 1 else 0) |||
          (if (s.m.control.get ts).getLsbD 1 then 0x4 else 0) ∧
        vget u.a32.r 15 = w.setWidth 32 &&& 0xFFFFFFFE ∧
        (∀ i, i < 13 → vget u.a32.r i =
          if ts = false ∧ (i < 4 ∨ i = 12 ∨ k = true) then 0 else vget s.a32.r i) ∧
        u.m.primask = s.m.primask ∧ u.m.faultmask = s.m.faultmask ∧ u.m.basepri = s.m.basepri ∧
        u.exclAddr = 0xFFFFFFFFFFFFFFFF ∧ u.exc = { s.exc with phase := .active } ∧
        u.msys = (if n = 3 ∧ s.exc.syndrome.getLsbD 0 = true then { s.msys with hfsr := s.msys.hfsr ||| 0x40000000 }
                  else s.msys) ∧
        { u with m := s.m, a32 := s.a32, exc := s.exc, msys := s.msys, bus := s.bus, ports := s.ports,
                 exclAddr := s.exclAddr } = s) ∧
    (∀ (a b sig : DWord) (rest : List Answer), s.exc.phase ≠ .pending → s.m.exception ≠ 0 → a >>> 24 = 0xFF →
      b.getLsbD 0 = true → a &&& 0x42 = 0x40 → a &&& 0x21 ≠ 0x21 → (k = false → a &&& 0x21 = 0x20) →
      let es := a.getLsbD 0
      let p := a.getLsbD 3 && a.getLsbD 2
      let sp := slotValue s true p
      let control := s.m.control.set es ((s.m.control.get es &&& 0xD) ||| (if a.getLsbD 2 then 2 else 0))
      let faultmask := if s.m.exception = 2 ∨ s.m.exception = 3 ∨ b.getLsbD 2 = true then s.m.faultmask
        else s.m.faultmask.set es 0
      let others (u : State) : Prop :=
        u.m.secure = true ∧ u.m.control = control ∧ u.m.faultmask = faultmask ∧ u.m.primask = s.m.primask ∧
        u.m.basepri = s.m.basepri ∧ ∀ k' q, (k', q) ≠ (true, p) → slotValue u k' q = slotValue s k' q
      sp.toNat + 0x48 ≤ 0xE0000000 → s.bus.script = .ok sig :: rest →
      (sig.setWidth 32 ≠ (0xFEFA125B : Word) →
        ∃ u, exec (.excReturn a b) s = .next u ∧
          u.ports = { s.ports with rsp := some ⟨.ok, 0, 0x607, []⟩ } ∧
          u.bus = { s.bus with script := rest, reqs := s.bus.reqs ++ [loadReq sp] } ∧ others u ∧
          slotValue u true p = sp ∧ u.msys = { s.msys with sfsr := s.msys.sfsr ||| 0x02 } ∧
          (∀ i, i ≠ 13 → vget u.a32.r i = vget s.a32.r i) ∧ u.m.exception = s.m.exception ∧
          u.exc = { s.exc with
            mNumber := 7, mSecure := true, mDerived := true, mLr := a.setWidth 32, syndrome := 0, fr := 0,
            phase := .pending }) ∧
      (sig.setWidth 32 = (0xFEFA125B : Word) → ∀ (callee basic : List DWord) (rest' : List Answer),
        callee.length = 8 → basic.length = 8 → rest = (callee ++ basic).map .ok ++ rest' →
        let word (l : List DWord) (i : Nat) : Word := (l.getD i 0).setWidth 32
        let status := word basic 7
        (status &&& 0x1FF ≠ 0 ↔ a.getLsbD 3 = false) →
        let top := sp + 0x48 ||| (if status.getLsbD 9 then 4 else 0)
        ∃ u, exec (.excReturn a b) s = .next u ∧
          u.ports = { s.ports with rsp := some ⟨.ok, (word basic 6 &&& 0xFFFFFFFE).setWidth 64, 0, []⟩ } ∧
          u.bus = { s.bus with
            script := rest'
            reqs := s.bus.reqs ++ ([sp, sp + 0x08, sp + 0x0C, sp + 0x10, sp + 0x14, sp + 0x18, sp + 0x1C, sp + 0x20,
              sp + 0x24] ++ frameAddrs (sp + 0x28)).map loadReq } ∧ others u ∧
          slotValue u true p = top ∧ u.msys = s.msys ∧
          (∀ i, i < 4 → vget u.a32.r i = word basic i) ∧ (∀ i, i < 8 → vget u.a32.r (4 + i) = word callee i) ∧
          vget u.a32.r 12 = word basic 4 ∧ vget u.a32.r 14 = word basic 5 ∧
          vget u.a32.r 15 = word basic 6 &&& 0xFFFFFFFE ∧ u.m.xpsr = status &&& 0xFF0FFC00 ∧
          u.m.exception = status.setWidth 9 ∧ u.exclAddr = 0xFFFFFFFFFFFFFFFF ∧
          u.exc = { s.exc with phase := .none }))

/-! ## Reset -/

/-- R26, R500 to R506: what `CPU_RESET` leaves, on both profiles, and the lockup of a failed vector load, the first or the
second. The first `CPU_RESET`, which ends construction (R181, R206), is `FATAL` where the self-check finds an entry whose
raw value one more reset changes, and else leaves the same. That construction is a flag of the state, and `FATAL` a
refusal, is log entry 14's (DEDUCED). The registers of the register bank, the exception record and the flags are as the
rules say unless a register of the catalog names them as its storage (R118, R205). That both loads are issued, that
`R[14]` is all ones and that there is no pulse after a failed load is log entry 29's (DEDUCED), and `r0 = r1 = 0` of its
`LOCKED` log entry 48's (DESIGN CHOICE). -/
def Obligations.CpuResetLeaves : Prop :=
  (∀ s : State, s.constructing = true → (selfChecked s).2 = false →
    exec .cpuReset s = .refused (.fatal .inconsistentReset)) ∧
  ∀ s : State, Inv s → (s.constructing = true → (selfChecked s).2 = true) →
    (∀ e ∈ s.reg, (∀ i, e.field ≠ .gpr i) ∧ (∀ i, e.field ≠ .xreg i) ∧ e.field ≠ .exclAddr ∧
      isMachineField e.field = false) →
    (s.has .m = false →
      ∃ u, exec .cpuReset s = .next u ∧ u.constructing = false ∧ u.params = s.params ∧ u.reg = s.reg ∧
        u.bus = s.bus ∧ u.exc = ExcState.zero ∧ u.locked = false ∧ u.exclAddr = 0xFFFFFFFFFFFFFFFF ∧
        regionsCleared s.params u ∧ u.ports.tlbinv = s.ports.tlbinv + 1 ∧
        (∀ i, i < 8 → vget u.a32.r i = 0) ∧ (∀ i, i < 31 → vget u.a64.x i = 0) ∧
        (s.has .aarch64 = true → u.aarch64 = true ∧
          u.a64.pstate = 0x3C1 ||| (if s.has .el3 then 0xC else if s.has .el2 then 0x8 else 0x4) ∧
          u.a64.pc = s.params.resetPc ∧ u.a32.cpsr = 0x1D3 ∧
          u.ports.rsp = some ⟨.ok, s.params.resetPc, u.a64.pstate.setWidth 64, []⟩) ∧
        (s.has .aarch64 = false → u.aarch64 = false ∧
          let pc : Word := s.params.resetPc.setWidth 32
          u.a32.cpsr = (if pc.getLsbD 0 then 0x1F3 else 0x1D3) ∧ vget u.a32.r 15 = pc &&& 0xFFFFFFFE ∧
          u.ports.rsp = some ⟨.ok, (vget u.a32.r 15).setWidth 64, u.a32.cpsr.setWidth 64, []⟩)) ∧
    (s.has .m = true → ∀ w₀ w₁ rest, s.bus.script = .ok w₀ :: .ok w₁ :: rest →
      ∃ u, exec .cpuReset s = .next u ∧ u.constructing = false ∧ u.locked = false ∧
        u.m.secure = s.has .mSecurity ∧ u.m.exception = 0 ∧ u.m.control = ⟨0, 0⟩ ∧ u.m.primask = ⟨0, 0⟩ ∧ u.m.faultmask = ⟨0, 0⟩ ∧ u.m.basepri = ⟨0, 0⟩ ∧
        u.m.xpsr = (if w₁.getLsbD 0 then 0x01000000 else 0) ∧ u.exc = ExcState.zero ∧
        regionsCleared s.params u ∧
        vget u.a32.r 13 = w₀.setWidth 32 &&& 0xFFFFFFFC ∧ vget u.a32.r 14 = 0xFFFFFFFF ∧
        vget u.a32.r 15 = w₁.setWidth 32 &&& 0xFFFFFFFE ∧ u.ports.tlbinv = s.ports.tlbinv + 1 ∧
        u.bus.reqs = s.bus.reqs ++
          [{ loadReq (u.msys.vtor.get u.m.secure) with secure := u.m.secure },
           { loadReq (u.msys.vtor.get u.m.secure + 4) with secure := u.m.secure }] ∧
        u.ports.rsp = some ⟨.ok, (vget u.a32.r 15).setWidth 64, u.m.xpsr.setWidth 64, []⟩) ∧
    (s.has .m = true → ∀ x y rest, s.bus.script = x :: y :: rest → x = .err ∨ y = .err →
      ∃ u, exec .cpuReset s = .next u ∧ u.constructing = false ∧ u.locked = true ∧
        u.ports.rsp = some ⟨.locked, 0, 0, []⟩ ∧
        vget u.a32.r 13 = 0 ∧ vget u.a32.r 15 = 0 ∧ vget u.a32.r 14 = 0xFFFFFFFF ∧ u.m.xpsr = 0 ∧ u.m.exception = 0 ∧
        u.m.secure = s.has .mSecurity ∧ u.m.control = ⟨0, 0⟩ ∧ u.m.primask = ⟨0, 0⟩ ∧ u.m.faultmask = ⟨0, 0⟩ ∧
        u.m.basepri = ⟨0, 0⟩ ∧ u.ports.tlbinv = s.ports.tlbinv ∧
        u.bus.mem = s.bus.mem ∧ u.bus.script = rest ∧ u.exc = ExcState.zero ∧ regionsCleared s.params u)

/-- R206, R507, the first testable property: a second `CPU_RESET` right after a first changes nothing, where no register has
a drawn reset value: on the general profile but for its own TLBINV pulse, on the microcontroller profile, the two vector
loads answered the same way both times, but for the loads of its own and, where they do not fail, that pulse. The first
may be the one that ends construction (R181), where its self-check changed no storage (log entry 14, DEDUCED). That both
loads are issued, also where the first fails, and that a failed one gives no pulse is log entry 29's (DEDUCED). -/
def Obligations.ResetIdempotent : Prop :=
  ∀ s t : State, Inv s → (s.constructing = true → (selfChecked s).1 = registryReset s) →
    (∀ e ∈ s.reg, e.typ.getLsbD 6 = false) → exec .cpuReset s = .next t →
    (s.has .m = false →
      exec .cpuReset t = .next { t with ports := { t.ports with tlbinv := t.ports.tlbinv + 1 } }) ∧
    (s.has .m = true → ∀ x y rest, s.bus.script = x :: y :: x :: y :: rest →
      let load (a : Word) : Request := { loadReq a with secure := t.m.secure }
      let vec := t.msys.vtor.get t.m.secure
      exec .cpuReset t = .next { t with
        ports := { t.ports with tlbinv := t.ports.tlbinv + if x = .err ∨ y = .err then 0 else 1 }
        bus := { t.bus with script := rest, reqs := t.bus.reqs ++ [load vec, load (vec + 4)] } })

end
end

