-- ==== Sys2Proof/Laws/State.lean ====
section
/-! SUPPORT. What each named update of the state leaves alone: one lemma per field and update, each true by `rfl`. -/

namespace Sys2Proof.Machine

/-! ## Fields an update leaves alone -/

@[simp] theorem rset_params (s : State) (i : Nat) (v : Word) : (rset s i v).params = s.params := rfl
@[simp] theorem rset_reg (s : State) (i : Nat) (v : Word) : (rset s i v).reg = s.reg := rfl
@[simp] theorem rset_constructing (s : State) (i : Nat) (v : Word) : (rset s i v).constructing = s.constructing := rfl
@[simp] theorem rset_aarch64 (s : State) (i : Nat) (v : Word) : (rset s i v).aarch64 = s.aarch64 := rfl
@[simp] theorem rset_a64 (s : State) (i : Nat) (v : Word) : (rset s i v).a64 = s.a64 := rfl
@[simp] theorem rset_fp (s : State) (i : Nat) (v : Word) : (rset s i v).fp = s.fp := rfl
@[simp] theorem rset_m (s : State) (i : Nat) (v : Word) : (rset s i v).m = s.m := rfl
@[simp] theorem rset_sys (s : State) (i : Nat) (v : Word) : (rset s i v).sys = s.sys := rfl
@[simp] theorem rset_msys (s : State) (i : Nat) (v : Word) : (rset s i v).msys = s.msys := rfl
@[simp] theorem rset_regions (s : State) (i : Nat) (v : Word) : (rset s i v).regions = s.regions := rfl
@[simp] theorem rset_catalog (s : State) (i : Nat) (v : Word) : (rset s i v).catalog = s.catalog := rfl
@[simp] theorem rset_exclAddr (s : State) (i : Nat) (v : Word) : (rset s i v).exclAddr = s.exclAddr := rfl
@[simp] theorem rset_exclVal (s : State) (i : Nat) (v : Word) : (rset s i v).exclVal = s.exclVal := rfl
@[simp] theorem rset_exc (s : State) (i : Nat) (v : Word) : (rset s i v).exc = s.exc := rfl
@[simp] theorem rset_locked (s : State) (i : Nat) (v : Word) : (rset s i v).locked = s.locked := rfl
@[simp] theorem rset_bus (s : State) (i : Nat) (v : Word) : (rset s i v).bus = s.bus := rfl
@[simp] theorem rset_draws (s : State) (i : Nat) (v : Word) : (rset s i v).draws = s.draws := rfl
@[simp] theorem rset_ports (s : State) (i : Nat) (v : Word) : (rset s i v).ports = s.ports := rfl

@[simp] theorem xset_params (s : State) (i : Nat) (v : DWord) : (xset s i v).params = s.params := rfl
@[simp] theorem xset_reg (s : State) (i : Nat) (v : DWord) : (xset s i v).reg = s.reg := rfl
@[simp] theorem xset_constructing (s : State) (i : Nat) (v : DWord) : (xset s i v).constructing = s.constructing := rfl
@[simp] theorem xset_aarch64 (s : State) (i : Nat) (v : DWord) : (xset s i v).aarch64 = s.aarch64 := rfl
@[simp] theorem xset_a32 (s : State) (i : Nat) (v : DWord) : (xset s i v).a32 = s.a32 := rfl
@[simp] theorem xset_fp (s : State) (i : Nat) (v : DWord) : (xset s i v).fp = s.fp := rfl
@[simp] theorem xset_m (s : State) (i : Nat) (v : DWord) : (xset s i v).m = s.m := rfl
@[simp] theorem xset_sys (s : State) (i : Nat) (v : DWord) : (xset s i v).sys = s.sys := rfl
@[simp] theorem xset_msys (s : State) (i : Nat) (v : DWord) : (xset s i v).msys = s.msys := rfl
@[simp] theorem xset_regions (s : State) (i : Nat) (v : DWord) : (xset s i v).regions = s.regions := rfl
@[simp] theorem xset_catalog (s : State) (i : Nat) (v : DWord) : (xset s i v).catalog = s.catalog := rfl
@[simp] theorem xset_exclAddr (s : State) (i : Nat) (v : DWord) : (xset s i v).exclAddr = s.exclAddr := rfl
@[simp] theorem xset_exclVal (s : State) (i : Nat) (v : DWord) : (xset s i v).exclVal = s.exclVal := rfl
@[simp] theorem xset_exc (s : State) (i : Nat) (v : DWord) : (xset s i v).exc = s.exc := rfl
@[simp] theorem xset_locked (s : State) (i : Nat) (v : DWord) : (xset s i v).locked = s.locked := rfl
@[simp] theorem xset_bus (s : State) (i : Nat) (v : DWord) : (xset s i v).bus = s.bus := rfl
@[simp] theorem xset_draws (s : State) (i : Nat) (v : DWord) : (xset s i v).draws = s.draws := rfl
@[simp] theorem xset_ports (s : State) (i : Nat) (v : DWord) : (xset s i v).ports = s.ports := rfl

@[simp] theorem withCpsr_params (s : State) (w : Word) : (withCpsr s w).params = s.params := rfl
@[simp] theorem withCpsr_reg (s : State) (w : Word) : (withCpsr s w).reg = s.reg := rfl
@[simp] theorem withCpsr_constructing (s : State) (w : Word) : (withCpsr s w).constructing = s.constructing := rfl
@[simp] theorem withCpsr_aarch64 (s : State) (w : Word) : (withCpsr s w).aarch64 = s.aarch64 := rfl
@[simp] theorem withCpsr_a64 (s : State) (w : Word) : (withCpsr s w).a64 = s.a64 := rfl
@[simp] theorem withCpsr_fp (s : State) (w : Word) : (withCpsr s w).fp = s.fp := rfl
@[simp] theorem withCpsr_m (s : State) (w : Word) : (withCpsr s w).m = s.m := rfl
@[simp] theorem withCpsr_sys (s : State) (w : Word) : (withCpsr s w).sys = s.sys := rfl
@[simp] theorem withCpsr_msys (s : State) (w : Word) : (withCpsr s w).msys = s.msys := rfl
@[simp] theorem withCpsr_regions (s : State) (w : Word) : (withCpsr s w).regions = s.regions := rfl
@[simp] theorem withCpsr_catalog (s : State) (w : Word) : (withCpsr s w).catalog = s.catalog := rfl
@[simp] theorem withCpsr_exclAddr (s : State) (w : Word) : (withCpsr s w).exclAddr = s.exclAddr := rfl
@[simp] theorem withCpsr_exclVal (s : State) (w : Word) : (withCpsr s w).exclVal = s.exclVal := rfl
@[simp] theorem withCpsr_exc (s : State) (w : Word) : (withCpsr s w).exc = s.exc := rfl
@[simp] theorem withCpsr_locked (s : State) (w : Word) : (withCpsr s w).locked = s.locked := rfl
@[simp] theorem withCpsr_bus (s : State) (w : Word) : (withCpsr s w).bus = s.bus := rfl
@[simp] theorem withCpsr_draws (s : State) (w : Word) : (withCpsr s w).draws = s.draws := rfl
@[simp] theorem withCpsr_ports (s : State) (w : Word) : (withCpsr s w).ports = s.ports := rfl

@[simp] theorem pstateWrite_params (s : State) (w : Word) : (pstateWrite s w).params = s.params := rfl
@[simp] theorem pstateWrite_reg (s : State) (w : Word) : (pstateWrite s w).reg = s.reg := rfl
@[simp] theorem pstateWrite_constructing (s : State) (w : Word) : (pstateWrite s w).constructing = s.constructing := rfl
@[simp] theorem pstateWrite_aarch64 (s : State) (w : Word) : (pstateWrite s w).aarch64 = s.aarch64 := rfl
@[simp] theorem pstateWrite_a32 (s : State) (w : Word) : (pstateWrite s w).a32 = s.a32 := rfl
@[simp] theorem pstateWrite_fp (s : State) (w : Word) : (pstateWrite s w).fp = s.fp := rfl
@[simp] theorem pstateWrite_m (s : State) (w : Word) : (pstateWrite s w).m = s.m := rfl
@[simp] theorem pstateWrite_sys (s : State) (w : Word) : (pstateWrite s w).sys = s.sys := rfl
@[simp] theorem pstateWrite_msys (s : State) (w : Word) : (pstateWrite s w).msys = s.msys := rfl
@[simp] theorem pstateWrite_regions (s : State) (w : Word) : (pstateWrite s w).regions = s.regions := rfl
@[simp] theorem pstateWrite_catalog (s : State) (w : Word) : (pstateWrite s w).catalog = s.catalog := rfl
@[simp] theorem pstateWrite_exclAddr (s : State) (w : Word) : (pstateWrite s w).exclAddr = s.exclAddr := rfl
@[simp] theorem pstateWrite_exclVal (s : State) (w : Word) : (pstateWrite s w).exclVal = s.exclVal := rfl
@[simp] theorem pstateWrite_exc (s : State) (w : Word) : (pstateWrite s w).exc = s.exc := rfl
@[simp] theorem pstateWrite_locked (s : State) (w : Word) : (pstateWrite s w).locked = s.locked := rfl
@[simp] theorem pstateWrite_bus (s : State) (w : Word) : (pstateWrite s w).bus = s.bus := rfl
@[simp] theorem pstateWrite_draws (s : State) (w : Word) : (pstateWrite s w).draws = s.draws := rfl
@[simp] theorem pstateWrite_ports (s : State) (w : Word) : (pstateWrite s w).ports = s.ports := rfl

@[simp] theorem withXpsr_params (s : State) (w : Word) : (withXpsr s w).params = s.params := rfl
@[simp] theorem withXpsr_reg (s : State) (w : Word) : (withXpsr s w).reg = s.reg := rfl
@[simp] theorem withXpsr_constructing (s : State) (w : Word) : (withXpsr s w).constructing = s.constructing := rfl
@[simp] theorem withXpsr_aarch64 (s : State) (w : Word) : (withXpsr s w).aarch64 = s.aarch64 := rfl
@[simp] theorem withXpsr_a32 (s : State) (w : Word) : (withXpsr s w).a32 = s.a32 := rfl
@[simp] theorem withXpsr_a64 (s : State) (w : Word) : (withXpsr s w).a64 = s.a64 := rfl
@[simp] theorem withXpsr_fp (s : State) (w : Word) : (withXpsr s w).fp = s.fp := rfl
@[simp] theorem withXpsr_sys (s : State) (w : Word) : (withXpsr s w).sys = s.sys := rfl
@[simp] theorem withXpsr_msys (s : State) (w : Word) : (withXpsr s w).msys = s.msys := rfl
@[simp] theorem withXpsr_regions (s : State) (w : Word) : (withXpsr s w).regions = s.regions := rfl
@[simp] theorem withXpsr_catalog (s : State) (w : Word) : (withXpsr s w).catalog = s.catalog := rfl
@[simp] theorem withXpsr_exclAddr (s : State) (w : Word) : (withXpsr s w).exclAddr = s.exclAddr := rfl
@[simp] theorem withXpsr_exclVal (s : State) (w : Word) : (withXpsr s w).exclVal = s.exclVal := rfl
@[simp] theorem withXpsr_exc (s : State) (w : Word) : (withXpsr s w).exc = s.exc := rfl
@[simp] theorem withXpsr_locked (s : State) (w : Word) : (withXpsr s w).locked = s.locked := rfl
@[simp] theorem withXpsr_bus (s : State) (w : Word) : (withXpsr s w).bus = s.bus := rfl
@[simp] theorem withXpsr_draws (s : State) (w : Word) : (withXpsr s w).draws = s.draws := rfl
@[simp] theorem withXpsr_ports (s : State) (w : Word) : (withXpsr s w).ports = s.ports := rfl

@[simp] theorem switchMode_params (s : State) (n : BitVec 5) : (switchMode s n).params = s.params := rfl
@[simp] theorem switchMode_reg (s : State) (n : BitVec 5) : (switchMode s n).reg = s.reg := rfl
@[simp] theorem switchMode_constructing (s : State) (n : BitVec 5) : (switchMode s n).constructing = s.constructing := rfl
@[simp] theorem switchMode_aarch64 (s : State) (n : BitVec 5) : (switchMode s n).aarch64 = s.aarch64 := rfl
@[simp] theorem switchMode_a64 (s : State) (n : BitVec 5) : (switchMode s n).a64 = s.a64 := rfl
@[simp] theorem switchMode_fp (s : State) (n : BitVec 5) : (switchMode s n).fp = s.fp := rfl
@[simp] theorem switchMode_m (s : State) (n : BitVec 5) : (switchMode s n).m = s.m := rfl
@[simp] theorem switchMode_sys (s : State) (n : BitVec 5) : (switchMode s n).sys = s.sys := rfl
@[simp] theorem switchMode_msys (s : State) (n : BitVec 5) : (switchMode s n).msys = s.msys := rfl
@[simp] theorem switchMode_regions (s : State) (n : BitVec 5) : (switchMode s n).regions = s.regions := rfl
@[simp] theorem switchMode_catalog (s : State) (n : BitVec 5) : (switchMode s n).catalog = s.catalog := rfl
@[simp] theorem switchMode_exclAddr (s : State) (n : BitVec 5) : (switchMode s n).exclAddr = s.exclAddr := rfl
@[simp] theorem switchMode_exclVal (s : State) (n : BitVec 5) : (switchMode s n).exclVal = s.exclVal := rfl
@[simp] theorem switchMode_exc (s : State) (n : BitVec 5) : (switchMode s n).exc = s.exc := rfl
@[simp] theorem switchMode_locked (s : State) (n : BitVec 5) : (switchMode s n).locked = s.locked := rfl
@[simp] theorem switchMode_bus (s : State) (n : BitVec 5) : (switchMode s n).bus = s.bus := rfl
@[simp] theorem switchMode_draws (s : State) (n : BitVec 5) : (switchMode s n).draws = s.draws := rfl
@[simp] theorem switchMode_ports (s : State) (n : BitVec 5) : (switchMode s n).ports = s.ports := rfl

@[simp] theorem saveSp_params (s : State) (el : Nat) : (saveSp s el).params = s.params := rfl
@[simp] theorem saveSp_reg (s : State) (el : Nat) : (saveSp s el).reg = s.reg := rfl
@[simp] theorem saveSp_constructing (s : State) (el : Nat) : (saveSp s el).constructing = s.constructing := rfl
@[simp] theorem saveSp_aarch64 (s : State) (el : Nat) : (saveSp s el).aarch64 = s.aarch64 := rfl
@[simp] theorem saveSp_a32 (s : State) (el : Nat) : (saveSp s el).a32 = s.a32 := rfl
@[simp] theorem saveSp_fp (s : State) (el : Nat) : (saveSp s el).fp = s.fp := rfl
@[simp] theorem saveSp_m (s : State) (el : Nat) : (saveSp s el).m = s.m := rfl
@[simp] theorem saveSp_sys (s : State) (el : Nat) : (saveSp s el).sys = s.sys := rfl
@[simp] theorem saveSp_msys (s : State) (el : Nat) : (saveSp s el).msys = s.msys := rfl
@[simp] theorem saveSp_regions (s : State) (el : Nat) : (saveSp s el).regions = s.regions := rfl
@[simp] theorem saveSp_catalog (s : State) (el : Nat) : (saveSp s el).catalog = s.catalog := rfl
@[simp] theorem saveSp_exclAddr (s : State) (el : Nat) : (saveSp s el).exclAddr = s.exclAddr := rfl
@[simp] theorem saveSp_exclVal (s : State) (el : Nat) : (saveSp s el).exclVal = s.exclVal := rfl
@[simp] theorem saveSp_exc (s : State) (el : Nat) : (saveSp s el).exc = s.exc := rfl
@[simp] theorem saveSp_locked (s : State) (el : Nat) : (saveSp s el).locked = s.locked := rfl
@[simp] theorem saveSp_bus (s : State) (el : Nat) : (saveSp s el).bus = s.bus := rfl
@[simp] theorem saveSp_draws (s : State) (el : Nat) : (saveSp s el).draws = s.draws := rfl
@[simp] theorem saveSp_ports (s : State) (el : Nat) : (saveSp s el).ports = s.ports := rfl

@[simp] theorem restoreSp_params (s : State) (el : Nat) : (restoreSp s el).params = s.params := rfl
@[simp] theorem restoreSp_reg (s : State) (el : Nat) : (restoreSp s el).reg = s.reg := rfl
@[simp] theorem restoreSp_constructing (s : State) (el : Nat) : (restoreSp s el).constructing = s.constructing := rfl
@[simp] theorem restoreSp_aarch64 (s : State) (el : Nat) : (restoreSp s el).aarch64 = s.aarch64 := rfl
@[simp] theorem restoreSp_a32 (s : State) (el : Nat) : (restoreSp s el).a32 = s.a32 := rfl
@[simp] theorem restoreSp_fp (s : State) (el : Nat) : (restoreSp s el).fp = s.fp := rfl
@[simp] theorem restoreSp_m (s : State) (el : Nat) : (restoreSp s el).m = s.m := rfl
@[simp] theorem restoreSp_sys (s : State) (el : Nat) : (restoreSp s el).sys = s.sys := rfl
@[simp] theorem restoreSp_msys (s : State) (el : Nat) : (restoreSp s el).msys = s.msys := rfl
@[simp] theorem restoreSp_regions (s : State) (el : Nat) : (restoreSp s el).regions = s.regions := rfl
@[simp] theorem restoreSp_catalog (s : State) (el : Nat) : (restoreSp s el).catalog = s.catalog := rfl
@[simp] theorem restoreSp_exclAddr (s : State) (el : Nat) : (restoreSp s el).exclAddr = s.exclAddr := rfl
@[simp] theorem restoreSp_exclVal (s : State) (el : Nat) : (restoreSp s el).exclVal = s.exclVal := rfl
@[simp] theorem restoreSp_exc (s : State) (el : Nat) : (restoreSp s el).exc = s.exc := rfl
@[simp] theorem restoreSp_locked (s : State) (el : Nat) : (restoreSp s el).locked = s.locked := rfl
@[simp] theorem restoreSp_bus (s : State) (el : Nat) : (restoreSp s el).bus = s.bus := rfl
@[simp] theorem restoreSp_draws (s : State) (el : Nat) : (restoreSp s el).draws = s.draws := rfl
@[simp] theorem restoreSp_ports (s : State) (el : Nat) : (restoreSp s el).ports = s.ports := rfl

@[simp] theorem sync32To64_params (s : State) : (sync32To64 s).params = s.params := rfl
@[simp] theorem sync32To64_reg (s : State) : (sync32To64 s).reg = s.reg := rfl
@[simp] theorem sync32To64_constructing (s : State) : (sync32To64 s).constructing = s.constructing := rfl
@[simp] theorem sync32To64_aarch64 (s : State) : (sync32To64 s).aarch64 = s.aarch64 := rfl
@[simp] theorem sync32To64_fp (s : State) : (sync32To64 s).fp = s.fp := rfl
@[simp] theorem sync32To64_m (s : State) : (sync32To64 s).m = s.m := rfl
@[simp] theorem sync32To64_sys (s : State) : (sync32To64 s).sys = s.sys := rfl
@[simp] theorem sync32To64_msys (s : State) : (sync32To64 s).msys = s.msys := rfl
@[simp] theorem sync32To64_regions (s : State) : (sync32To64 s).regions = s.regions := rfl
@[simp] theorem sync32To64_catalog (s : State) : (sync32To64 s).catalog = s.catalog := rfl
@[simp] theorem sync32To64_exclAddr (s : State) : (sync32To64 s).exclAddr = s.exclAddr := rfl
@[simp] theorem sync32To64_exclVal (s : State) : (sync32To64 s).exclVal = s.exclVal := rfl
@[simp] theorem sync32To64_exc (s : State) : (sync32To64 s).exc = s.exc := rfl
@[simp] theorem sync32To64_locked (s : State) : (sync32To64 s).locked = s.locked := rfl
@[simp] theorem sync32To64_bus (s : State) : (sync32To64 s).bus = s.bus := rfl
@[simp] theorem sync32To64_draws (s : State) : (sync32To64 s).draws = s.draws := rfl
@[simp] theorem sync32To64_ports (s : State) : (sync32To64 s).ports = s.ports := rfl

@[simp] theorem sync64To32_params (s : State) : (sync64To32 s).params = s.params := by unfold sync64To32; rfl
@[simp] theorem sync64To32_reg (s : State) : (sync64To32 s).reg = s.reg := by unfold sync64To32; rfl
@[simp] theorem sync64To32_constructing (s : State) : (sync64To32 s).constructing = s.constructing := by unfold sync64To32; rfl
@[simp] theorem sync64To32_aarch64 (s : State) : (sync64To32 s).aarch64 = s.aarch64 := by unfold sync64To32; rfl
@[simp] theorem sync64To32_a64 (s : State) : (sync64To32 s).a64 = s.a64 := by unfold sync64To32; rfl
@[simp] theorem sync64To32_fp (s : State) : (sync64To32 s).fp = s.fp := by unfold sync64To32; rfl
@[simp] theorem sync64To32_m (s : State) : (sync64To32 s).m = s.m := by unfold sync64To32; rfl
@[simp] theorem sync64To32_sys (s : State) : (sync64To32 s).sys = s.sys := by unfold sync64To32; rfl
@[simp] theorem sync64To32_msys (s : State) : (sync64To32 s).msys = s.msys := by unfold sync64To32; rfl
@[simp] theorem sync64To32_regions (s : State) : (sync64To32 s).regions = s.regions := by unfold sync64To32; rfl
@[simp] theorem sync64To32_catalog (s : State) : (sync64To32 s).catalog = s.catalog := by unfold sync64To32; rfl
@[simp] theorem sync64To32_exclAddr (s : State) : (sync64To32 s).exclAddr = s.exclAddr := by unfold sync64To32; rfl
@[simp] theorem sync64To32_exclVal (s : State) : (sync64To32 s).exclVal = s.exclVal := by unfold sync64To32; rfl
@[simp] theorem sync64To32_exc (s : State) : (sync64To32 s).exc = s.exc := by unfold sync64To32; rfl
@[simp] theorem sync64To32_locked (s : State) : (sync64To32 s).locked = s.locked := by unfold sync64To32; rfl
@[simp] theorem sync64To32_bus (s : State) : (sync64To32 s).bus = s.bus := by unfold sync64To32; rfl
@[simp] theorem sync64To32_draws (s : State) : (sync64To32 s).draws = s.draws := by unfold sync64To32; rfl
@[simp] theorem sync64To32_ports (s : State) : (sync64To32 s).ports = s.ports := by unfold sync64To32; rfl

@[simp] theorem pulse_params (s : State) : (pulse s).params = s.params := rfl
@[simp] theorem pulse_reg (s : State) : (pulse s).reg = s.reg := rfl
@[simp] theorem pulse_constructing (s : State) : (pulse s).constructing = s.constructing := rfl
@[simp] theorem pulse_aarch64 (s : State) : (pulse s).aarch64 = s.aarch64 := rfl
@[simp] theorem pulse_a32 (s : State) : (pulse s).a32 = s.a32 := rfl
@[simp] theorem pulse_a64 (s : State) : (pulse s).a64 = s.a64 := rfl
@[simp] theorem pulse_fp (s : State) : (pulse s).fp = s.fp := rfl
@[simp] theorem pulse_m (s : State) : (pulse s).m = s.m := rfl
@[simp] theorem pulse_sys (s : State) : (pulse s).sys = s.sys := rfl
@[simp] theorem pulse_msys (s : State) : (pulse s).msys = s.msys := rfl
@[simp] theorem pulse_regions (s : State) : (pulse s).regions = s.regions := rfl
@[simp] theorem pulse_catalog (s : State) : (pulse s).catalog = s.catalog := rfl
@[simp] theorem pulse_exclAddr (s : State) : (pulse s).exclAddr = s.exclAddr := rfl
@[simp] theorem pulse_exclVal (s : State) : (pulse s).exclVal = s.exclVal := rfl
@[simp] theorem pulse_exc (s : State) : (pulse s).exc = s.exc := rfl
@[simp] theorem pulse_locked (s : State) : (pulse s).locked = s.locked := rfl
@[simp] theorem pulse_bus (s : State) : (pulse s).bus = s.bus := rfl
@[simp] theorem pulse_draws (s : State) : (pulse s).draws = s.draws := rfl

@[simp] theorem respondList_params (s : State) (st : Status) (r0 r1 : DWord) (out : List (Word × DWord)) : (respondList s st r0 r1 out).params = s.params := rfl
@[simp] theorem respondList_reg (s : State) (st : Status) (r0 r1 : DWord) (out : List (Word × DWord)) : (respondList s st r0 r1 out).reg = s.reg := rfl
@[simp] theorem respondList_constructing (s : State) (st : Status) (r0 r1 : DWord) (out : List (Word × DWord)) : (respondList s st r0 r1 out).constructing = s.constructing := rfl
@[simp] theorem respondList_aarch64 (s : State) (st : Status) (r0 r1 : DWord) (out : List (Word × DWord)) : (respondList s st r0 r1 out).aarch64 = s.aarch64 := rfl
@[simp] theorem respondList_a32 (s : State) (st : Status) (r0 r1 : DWord) (out : List (Word × DWord)) : (respondList s st r0 r1 out).a32 = s.a32 := rfl
@[simp] theorem respondList_a64 (s : State) (st : Status) (r0 r1 : DWord) (out : List (Word × DWord)) : (respondList s st r0 r1 out).a64 = s.a64 := rfl
@[simp] theorem respondList_fp (s : State) (st : Status) (r0 r1 : DWord) (out : List (Word × DWord)) : (respondList s st r0 r1 out).fp = s.fp := rfl
@[simp] theorem respondList_m (s : State) (st : Status) (r0 r1 : DWord) (out : List (Word × DWord)) : (respondList s st r0 r1 out).m = s.m := rfl
@[simp] theorem respondList_sys (s : State) (st : Status) (r0 r1 : DWord) (out : List (Word × DWord)) : (respondList s st r0 r1 out).sys = s.sys := rfl
@[simp] theorem respondList_msys (s : State) (st : Status) (r0 r1 : DWord) (out : List (Word × DWord)) : (respondList s st r0 r1 out).msys = s.msys := rfl
@[simp] theorem respondList_regions (s : State) (st : Status) (r0 r1 : DWord) (out : List (Word × DWord)) : (respondList s st r0 r1 out).regions = s.regions := rfl
@[simp] theorem respondList_catalog (s : State) (st : Status) (r0 r1 : DWord) (out : List (Word × DWord)) : (respondList s st r0 r1 out).catalog = s.catalog := rfl
@[simp] theorem respondList_exclAddr (s : State) (st : Status) (r0 r1 : DWord) (out : List (Word × DWord)) : (respondList s st r0 r1 out).exclAddr = s.exclAddr := rfl
@[simp] theorem respondList_exclVal (s : State) (st : Status) (r0 r1 : DWord) (out : List (Word × DWord)) : (respondList s st r0 r1 out).exclVal = s.exclVal := rfl
@[simp] theorem respondList_exc (s : State) (st : Status) (r0 r1 : DWord) (out : List (Word × DWord)) : (respondList s st r0 r1 out).exc = s.exc := rfl
@[simp] theorem respondList_locked (s : State) (st : Status) (r0 r1 : DWord) (out : List (Word × DWord)) : (respondList s st r0 r1 out).locked = s.locked := rfl
@[simp] theorem respondList_bus (s : State) (st : Status) (r0 r1 : DWord) (out : List (Word × DWord)) : (respondList s st r0 r1 out).bus = s.bus := rfl
@[simp] theorem respondList_draws (s : State) (st : Status) (r0 r1 : DWord) (out : List (Word × DWord)) : (respondList s st r0 r1 out).draws = s.draws := rfl

@[simp] theorem respond_params (s : State) (st : Status) (r0 r1 : DWord) : (respond s st r0 r1).params = s.params := rfl
@[simp] theorem respond_reg (s : State) (st : Status) (r0 r1 : DWord) : (respond s st r0 r1).reg = s.reg := rfl
@[simp] theorem respond_constructing (s : State) (st : Status) (r0 r1 : DWord) : (respond s st r0 r1).constructing = s.constructing := rfl
@[simp] theorem respond_aarch64 (s : State) (st : Status) (r0 r1 : DWord) : (respond s st r0 r1).aarch64 = s.aarch64 := rfl
@[simp] theorem respond_a32 (s : State) (st : Status) (r0 r1 : DWord) : (respond s st r0 r1).a32 = s.a32 := rfl
@[simp] theorem respond_a64 (s : State) (st : Status) (r0 r1 : DWord) : (respond s st r0 r1).a64 = s.a64 := rfl
@[simp] theorem respond_fp (s : State) (st : Status) (r0 r1 : DWord) : (respond s st r0 r1).fp = s.fp := rfl
@[simp] theorem respond_m (s : State) (st : Status) (r0 r1 : DWord) : (respond s st r0 r1).m = s.m := rfl
@[simp] theorem respond_sys (s : State) (st : Status) (r0 r1 : DWord) : (respond s st r0 r1).sys = s.sys := rfl
@[simp] theorem respond_msys (s : State) (st : Status) (r0 r1 : DWord) : (respond s st r0 r1).msys = s.msys := rfl
@[simp] theorem respond_regions (s : State) (st : Status) (r0 r1 : DWord) : (respond s st r0 r1).regions = s.regions := rfl
@[simp] theorem respond_catalog (s : State) (st : Status) (r0 r1 : DWord) : (respond s st r0 r1).catalog = s.catalog := rfl
@[simp] theorem respond_exclAddr (s : State) (st : Status) (r0 r1 : DWord) : (respond s st r0 r1).exclAddr = s.exclAddr := rfl
@[simp] theorem respond_exclVal (s : State) (st : Status) (r0 r1 : DWord) : (respond s st r0 r1).exclVal = s.exclVal := rfl
@[simp] theorem respond_exc (s : State) (st : Status) (r0 r1 : DWord) : (respond s st r0 r1).exc = s.exc := rfl
@[simp] theorem respond_locked (s : State) (st : Status) (r0 r1 : DWord) : (respond s st r0 r1).locked = s.locked := rfl
@[simp] theorem respond_bus (s : State) (st : Status) (r0 r1 : DWord) : (respond s st r0 r1).bus = s.bus := rfl
@[simp] theorem respond_draws (s : State) (st : Status) (r0 r1 : DWord) : (respond s st r0 r1).draws = s.draws := rfl

@[simp] theorem ok_params (s : State) (r0 r1 : DWord) : (ok s r0 r1).params = s.params := rfl
@[simp] theorem ok_reg (s : State) (r0 r1 : DWord) : (ok s r0 r1).reg = s.reg := rfl
@[simp] theorem ok_constructing (s : State) (r0 r1 : DWord) : (ok s r0 r1).constructing = s.constructing := rfl
@[simp] theorem ok_aarch64 (s : State) (r0 r1 : DWord) : (ok s r0 r1).aarch64 = s.aarch64 := rfl
@[simp] theorem ok_a32 (s : State) (r0 r1 : DWord) : (ok s r0 r1).a32 = s.a32 := rfl
@[simp] theorem ok_a64 (s : State) (r0 r1 : DWord) : (ok s r0 r1).a64 = s.a64 := rfl
@[simp] theorem ok_fp (s : State) (r0 r1 : DWord) : (ok s r0 r1).fp = s.fp := rfl
@[simp] theorem ok_m (s : State) (r0 r1 : DWord) : (ok s r0 r1).m = s.m := rfl
@[simp] theorem ok_sys (s : State) (r0 r1 : DWord) : (ok s r0 r1).sys = s.sys := rfl
@[simp] theorem ok_msys (s : State) (r0 r1 : DWord) : (ok s r0 r1).msys = s.msys := rfl
@[simp] theorem ok_regions (s : State) (r0 r1 : DWord) : (ok s r0 r1).regions = s.regions := rfl
@[simp] theorem ok_catalog (s : State) (r0 r1 : DWord) : (ok s r0 r1).catalog = s.catalog := rfl
@[simp] theorem ok_exclAddr (s : State) (r0 r1 : DWord) : (ok s r0 r1).exclAddr = s.exclAddr := rfl
@[simp] theorem ok_exclVal (s : State) (r0 r1 : DWord) : (ok s r0 r1).exclVal = s.exclVal := rfl
@[simp] theorem ok_exc (s : State) (r0 r1 : DWord) : (ok s r0 r1).exc = s.exc := rfl
@[simp] theorem ok_locked (s : State) (r0 r1 : DWord) : (ok s r0 r1).locked = s.locked := rfl
@[simp] theorem ok_bus (s : State) (r0 r1 : DWord) : (ok s r0 r1).bus = s.bus := rfl
@[simp] theorem ok_draws (s : State) (r0 r1 : DWord) : (ok s r0 r1).draws = s.draws := rfl

@[simp] theorem illegal_params (s : State) : (illegal s).params = s.params := rfl
@[simp] theorem illegal_reg (s : State) : (illegal s).reg = s.reg := rfl
@[simp] theorem illegal_constructing (s : State) : (illegal s).constructing = s.constructing := rfl
@[simp] theorem illegal_aarch64 (s : State) : (illegal s).aarch64 = s.aarch64 := rfl
@[simp] theorem illegal_a32 (s : State) : (illegal s).a32 = s.a32 := rfl
@[simp] theorem illegal_a64 (s : State) : (illegal s).a64 = s.a64 := rfl
@[simp] theorem illegal_fp (s : State) : (illegal s).fp = s.fp := rfl
@[simp] theorem illegal_m (s : State) : (illegal s).m = s.m := rfl
@[simp] theorem illegal_sys (s : State) : (illegal s).sys = s.sys := rfl
@[simp] theorem illegal_msys (s : State) : (illegal s).msys = s.msys := rfl
@[simp] theorem illegal_regions (s : State) : (illegal s).regions = s.regions := rfl
@[simp] theorem illegal_catalog (s : State) : (illegal s).catalog = s.catalog := rfl
@[simp] theorem illegal_exclAddr (s : State) : (illegal s).exclAddr = s.exclAddr := rfl
@[simp] theorem illegal_exclVal (s : State) : (illegal s).exclVal = s.exclVal := rfl
@[simp] theorem illegal_exc (s : State) : (illegal s).exc = s.exc := rfl
@[simp] theorem illegal_locked (s : State) : (illegal s).locked = s.locked := rfl
@[simp] theorem illegal_bus (s : State) : (illegal s).bus = s.bus := rfl
@[simp] theorem illegal_draws (s : State) : (illegal s).draws = s.draws := rfl

@[simp] theorem lockedOut_params (s : State) : (lockedOut s).params = s.params := rfl
@[simp] theorem lockedOut_reg (s : State) : (lockedOut s).reg = s.reg := rfl
@[simp] theorem lockedOut_constructing (s : State) : (lockedOut s).constructing = s.constructing := rfl
@[simp] theorem lockedOut_aarch64 (s : State) : (lockedOut s).aarch64 = s.aarch64 := rfl
@[simp] theorem lockedOut_a32 (s : State) : (lockedOut s).a32 = s.a32 := rfl
@[simp] theorem lockedOut_a64 (s : State) : (lockedOut s).a64 = s.a64 := rfl
@[simp] theorem lockedOut_fp (s : State) : (lockedOut s).fp = s.fp := rfl
@[simp] theorem lockedOut_m (s : State) : (lockedOut s).m = s.m := rfl
@[simp] theorem lockedOut_sys (s : State) : (lockedOut s).sys = s.sys := rfl
@[simp] theorem lockedOut_msys (s : State) : (lockedOut s).msys = s.msys := rfl
@[simp] theorem lockedOut_regions (s : State) : (lockedOut s).regions = s.regions := rfl
@[simp] theorem lockedOut_catalog (s : State) : (lockedOut s).catalog = s.catalog := rfl
@[simp] theorem lockedOut_exclAddr (s : State) : (lockedOut s).exclAddr = s.exclAddr := rfl
@[simp] theorem lockedOut_exclVal (s : State) : (lockedOut s).exclVal = s.exclVal := rfl
@[simp] theorem lockedOut_exc (s : State) : (lockedOut s).exc = s.exc := rfl
@[simp] theorem lockedOut_locked (s : State) : (lockedOut s).locked = s.locked := rfl
@[simp] theorem lockedOut_bus (s : State) : (lockedOut s).bus = s.bus := rfl
@[simp] theorem lockedOut_draws (s : State) : (lockedOut s).draws = s.draws := rfl

@[simp] theorem accept_params (s : State) (rest : List Command) : (accept s rest).params = s.params := rfl
@[simp] theorem accept_reg (s : State) (rest : List Command) : (accept s rest).reg = s.reg := rfl
@[simp] theorem accept_constructing (s : State) (rest : List Command) : (accept s rest).constructing = s.constructing := rfl
@[simp] theorem accept_aarch64 (s : State) (rest : List Command) : (accept s rest).aarch64 = s.aarch64 := rfl
@[simp] theorem accept_a32 (s : State) (rest : List Command) : (accept s rest).a32 = s.a32 := rfl
@[simp] theorem accept_a64 (s : State) (rest : List Command) : (accept s rest).a64 = s.a64 := rfl
@[simp] theorem accept_fp (s : State) (rest : List Command) : (accept s rest).fp = s.fp := rfl
@[simp] theorem accept_m (s : State) (rest : List Command) : (accept s rest).m = s.m := rfl
@[simp] theorem accept_sys (s : State) (rest : List Command) : (accept s rest).sys = s.sys := rfl
@[simp] theorem accept_msys (s : State) (rest : List Command) : (accept s rest).msys = s.msys := rfl
@[simp] theorem accept_regions (s : State) (rest : List Command) : (accept s rest).regions = s.regions := rfl
@[simp] theorem accept_catalog (s : State) (rest : List Command) : (accept s rest).catalog = s.catalog := rfl
@[simp] theorem accept_exclAddr (s : State) (rest : List Command) : (accept s rest).exclAddr = s.exclAddr := rfl
@[simp] theorem accept_exclVal (s : State) (rest : List Command) : (accept s rest).exclVal = s.exclVal := rfl
@[simp] theorem accept_exc (s : State) (rest : List Command) : (accept s rest).exc = s.exc := rfl
@[simp] theorem accept_locked (s : State) (rest : List Command) : (accept s rest).locked = s.locked := rfl
@[simp] theorem accept_draws (s : State) (rest : List Command) : (accept s rest).draws = s.draws := rfl

@[simp] theorem placeCommand_params (s : State) (c : Command) : (placeCommand s c).params = s.params := rfl
@[simp] theorem placeCommand_reg (s : State) (c : Command) : (placeCommand s c).reg = s.reg := rfl
@[simp] theorem placeCommand_constructing (s : State) (c : Command) : (placeCommand s c).constructing = s.constructing := rfl
@[simp] theorem placeCommand_aarch64 (s : State) (c : Command) : (placeCommand s c).aarch64 = s.aarch64 := rfl
@[simp] theorem placeCommand_a32 (s : State) (c : Command) : (placeCommand s c).a32 = s.a32 := rfl
@[simp] theorem placeCommand_a64 (s : State) (c : Command) : (placeCommand s c).a64 = s.a64 := rfl
@[simp] theorem placeCommand_fp (s : State) (c : Command) : (placeCommand s c).fp = s.fp := rfl
@[simp] theorem placeCommand_m (s : State) (c : Command) : (placeCommand s c).m = s.m := rfl
@[simp] theorem placeCommand_sys (s : State) (c : Command) : (placeCommand s c).sys = s.sys := rfl
@[simp] theorem placeCommand_msys (s : State) (c : Command) : (placeCommand s c).msys = s.msys := rfl
@[simp] theorem placeCommand_regions (s : State) (c : Command) : (placeCommand s c).regions = s.regions := rfl
@[simp] theorem placeCommand_catalog (s : State) (c : Command) : (placeCommand s c).catalog = s.catalog := rfl
@[simp] theorem placeCommand_exclAddr (s : State) (c : Command) : (placeCommand s c).exclAddr = s.exclAddr := rfl
@[simp] theorem placeCommand_exclVal (s : State) (c : Command) : (placeCommand s c).exclVal = s.exclVal := rfl
@[simp] theorem placeCommand_exc (s : State) (c : Command) : (placeCommand s c).exc = s.exc := rfl
@[simp] theorem placeCommand_locked (s : State) (c : Command) : (placeCommand s c).locked = s.locked := rfl
@[simp] theorem placeCommand_bus (s : State) (c : Command) : (placeCommand s c).bus = s.bus := rfl
@[simp] theorem placeCommand_draws (s : State) (c : Command) : (placeCommand s c).draws = s.draws := rfl

@[simp] theorem clearExclusive_params (s : State) : (clearExclusive s).params = s.params := rfl
@[simp] theorem clearExclusive_reg (s : State) : (clearExclusive s).reg = s.reg := rfl
@[simp] theorem clearExclusive_constructing (s : State) : (clearExclusive s).constructing = s.constructing := rfl
@[simp] theorem clearExclusive_aarch64 (s : State) : (clearExclusive s).aarch64 = s.aarch64 := rfl
@[simp] theorem clearExclusive_a32 (s : State) : (clearExclusive s).a32 = s.a32 := rfl
@[simp] theorem clearExclusive_a64 (s : State) : (clearExclusive s).a64 = s.a64 := rfl
@[simp] theorem clearExclusive_fp (s : State) : (clearExclusive s).fp = s.fp := rfl
@[simp] theorem clearExclusive_m (s : State) : (clearExclusive s).m = s.m := rfl
@[simp] theorem clearExclusive_sys (s : State) : (clearExclusive s).sys = s.sys := rfl
@[simp] theorem clearExclusive_msys (s : State) : (clearExclusive s).msys = s.msys := rfl
@[simp] theorem clearExclusive_regions (s : State) : (clearExclusive s).regions = s.regions := rfl
@[simp] theorem clearExclusive_catalog (s : State) : (clearExclusive s).catalog = s.catalog := rfl
@[simp] theorem clearExclusive_exclVal (s : State) : (clearExclusive s).exclVal = s.exclVal := rfl
@[simp] theorem clearExclusive_exc (s : State) : (clearExclusive s).exc = s.exc := rfl
@[simp] theorem clearExclusive_locked (s : State) : (clearExclusive s).locked = s.locked := rfl
@[simp] theorem clearExclusive_bus (s : State) : (clearExclusive s).bus = s.bus := rfl
@[simp] theorem clearExclusive_draws (s : State) : (clearExclusive s).draws = s.draws := rfl
@[simp] theorem clearExclusive_ports (s : State) : (clearExclusive s).ports = s.ports := rfl

@[simp] theorem withPhase_params (s : State) (p : Phase) : (withPhase s p).params = s.params := rfl
@[simp] theorem withPhase_reg (s : State) (p : Phase) : (withPhase s p).reg = s.reg := rfl
@[simp] theorem withPhase_constructing (s : State) (p : Phase) : (withPhase s p).constructing = s.constructing := rfl
@[simp] theorem withPhase_aarch64 (s : State) (p : Phase) : (withPhase s p).aarch64 = s.aarch64 := rfl
@[simp] theorem withPhase_a32 (s : State) (p : Phase) : (withPhase s p).a32 = s.a32 := rfl
@[simp] theorem withPhase_a64 (s : State) (p : Phase) : (withPhase s p).a64 = s.a64 := rfl
@[simp] theorem withPhase_fp (s : State) (p : Phase) : (withPhase s p).fp = s.fp := rfl
@[simp] theorem withPhase_m (s : State) (p : Phase) : (withPhase s p).m = s.m := rfl
@[simp] theorem withPhase_sys (s : State) (p : Phase) : (withPhase s p).sys = s.sys := rfl
@[simp] theorem withPhase_msys (s : State) (p : Phase) : (withPhase s p).msys = s.msys := rfl
@[simp] theorem withPhase_regions (s : State) (p : Phase) : (withPhase s p).regions = s.regions := rfl
@[simp] theorem withPhase_catalog (s : State) (p : Phase) : (withPhase s p).catalog = s.catalog := rfl
@[simp] theorem withPhase_exclAddr (s : State) (p : Phase) : (withPhase s p).exclAddr = s.exclAddr := rfl
@[simp] theorem withPhase_exclVal (s : State) (p : Phase) : (withPhase s p).exclVal = s.exclVal := rfl
@[simp] theorem withPhase_locked (s : State) (p : Phase) : (withPhase s p).locked = s.locked := rfl
@[simp] theorem withPhase_bus (s : State) (p : Phase) : (withPhase s p).bus = s.bus := rfl
@[simp] theorem withPhase_draws (s : State) (p : Phase) : (withPhase s p).draws = s.draws := rfl
@[simp] theorem withPhase_ports (s : State) (p : Phase) : (withPhase s p).ports = s.ports := rfl

@[simp] theorem withPc64_params (s : State) (v : DWord) : (withPc64 s v).params = s.params := rfl
@[simp] theorem withPc64_reg (s : State) (v : DWord) : (withPc64 s v).reg = s.reg := rfl
@[simp] theorem withPc64_constructing (s : State) (v : DWord) : (withPc64 s v).constructing = s.constructing := rfl
@[simp] theorem withPc64_aarch64 (s : State) (v : DWord) : (withPc64 s v).aarch64 = s.aarch64 := rfl
@[simp] theorem withPc64_a32 (s : State) (v : DWord) : (withPc64 s v).a32 = s.a32 := rfl
@[simp] theorem withPc64_fp (s : State) (v : DWord) : (withPc64 s v).fp = s.fp := rfl
@[simp] theorem withPc64_m (s : State) (v : DWord) : (withPc64 s v).m = s.m := rfl
@[simp] theorem withPc64_sys (s : State) (v : DWord) : (withPc64 s v).sys = s.sys := rfl
@[simp] theorem withPc64_msys (s : State) (v : DWord) : (withPc64 s v).msys = s.msys := rfl
@[simp] theorem withPc64_regions (s : State) (v : DWord) : (withPc64 s v).regions = s.regions := rfl
@[simp] theorem withPc64_catalog (s : State) (v : DWord) : (withPc64 s v).catalog = s.catalog := rfl
@[simp] theorem withPc64_exclAddr (s : State) (v : DWord) : (withPc64 s v).exclAddr = s.exclAddr := rfl
@[simp] theorem withPc64_exclVal (s : State) (v : DWord) : (withPc64 s v).exclVal = s.exclVal := rfl
@[simp] theorem withPc64_exc (s : State) (v : DWord) : (withPc64 s v).exc = s.exc := rfl
@[simp] theorem withPc64_locked (s : State) (v : DWord) : (withPc64 s v).locked = s.locked := rfl
@[simp] theorem withPc64_bus (s : State) (v : DWord) : (withPc64 s v).bus = s.bus := rfl
@[simp] theorem withPc64_draws (s : State) (v : DWord) : (withPc64 s v).draws = s.draws := rfl
@[simp] theorem withPc64_ports (s : State) (v : DWord) : (withPc64 s v).ports = s.ports := rfl

@[simp] theorem writeElr_params (s : State) (t : Nat) (v : DWord) : (writeElr s t v).params = s.params := rfl
@[simp] theorem writeElr_reg (s : State) (t : Nat) (v : DWord) : (writeElr s t v).reg = s.reg := rfl
@[simp] theorem writeElr_constructing (s : State) (t : Nat) (v : DWord) : (writeElr s t v).constructing = s.constructing := rfl
@[simp] theorem writeElr_aarch64 (s : State) (t : Nat) (v : DWord) : (writeElr s t v).aarch64 = s.aarch64 := rfl
@[simp] theorem writeElr_a32 (s : State) (t : Nat) (v : DWord) : (writeElr s t v).a32 = s.a32 := rfl
@[simp] theorem writeElr_fp (s : State) (t : Nat) (v : DWord) : (writeElr s t v).fp = s.fp := rfl
@[simp] theorem writeElr_m (s : State) (t : Nat) (v : DWord) : (writeElr s t v).m = s.m := rfl
@[simp] theorem writeElr_sys (s : State) (t : Nat) (v : DWord) : (writeElr s t v).sys = s.sys := rfl
@[simp] theorem writeElr_msys (s : State) (t : Nat) (v : DWord) : (writeElr s t v).msys = s.msys := rfl
@[simp] theorem writeElr_regions (s : State) (t : Nat) (v : DWord) : (writeElr s t v).regions = s.regions := rfl
@[simp] theorem writeElr_catalog (s : State) (t : Nat) (v : DWord) : (writeElr s t v).catalog = s.catalog := rfl
@[simp] theorem writeElr_exclAddr (s : State) (t : Nat) (v : DWord) : (writeElr s t v).exclAddr = s.exclAddr := rfl
@[simp] theorem writeElr_exclVal (s : State) (t : Nat) (v : DWord) : (writeElr s t v).exclVal = s.exclVal := rfl
@[simp] theorem writeElr_exc (s : State) (t : Nat) (v : DWord) : (writeElr s t v).exc = s.exc := rfl
@[simp] theorem writeElr_locked (s : State) (t : Nat) (v : DWord) : (writeElr s t v).locked = s.locked := rfl
@[simp] theorem writeElr_bus (s : State) (t : Nat) (v : DWord) : (writeElr s t v).bus = s.bus := rfl
@[simp] theorem writeElr_draws (s : State) (t : Nat) (v : DWord) : (writeElr s t v).draws = s.draws := rfl
@[simp] theorem writeElr_ports (s : State) (t : Nat) (v : DWord) : (writeElr s t v).ports = s.ports := rfl

@[simp] theorem writeBankSpsr_params (s : State) (j : Nat) (v : DWord) : (writeBankSpsr s j v).params = s.params := rfl
@[simp] theorem writeBankSpsr_reg (s : State) (j : Nat) (v : DWord) : (writeBankSpsr s j v).reg = s.reg := rfl
@[simp] theorem writeBankSpsr_constructing (s : State) (j : Nat) (v : DWord) : (writeBankSpsr s j v).constructing = s.constructing := rfl
@[simp] theorem writeBankSpsr_aarch64 (s : State) (j : Nat) (v : DWord) : (writeBankSpsr s j v).aarch64 = s.aarch64 := rfl
@[simp] theorem writeBankSpsr_a64 (s : State) (j : Nat) (v : DWord) : (writeBankSpsr s j v).a64 = s.a64 := rfl
@[simp] theorem writeBankSpsr_fp (s : State) (j : Nat) (v : DWord) : (writeBankSpsr s j v).fp = s.fp := rfl
@[simp] theorem writeBankSpsr_m (s : State) (j : Nat) (v : DWord) : (writeBankSpsr s j v).m = s.m := rfl
@[simp] theorem writeBankSpsr_sys (s : State) (j : Nat) (v : DWord) : (writeBankSpsr s j v).sys = s.sys := rfl
@[simp] theorem writeBankSpsr_msys (s : State) (j : Nat) (v : DWord) : (writeBankSpsr s j v).msys = s.msys := rfl
@[simp] theorem writeBankSpsr_regions (s : State) (j : Nat) (v : DWord) : (writeBankSpsr s j v).regions = s.regions := rfl
@[simp] theorem writeBankSpsr_catalog (s : State) (j : Nat) (v : DWord) : (writeBankSpsr s j v).catalog = s.catalog := rfl
@[simp] theorem writeBankSpsr_exclAddr (s : State) (j : Nat) (v : DWord) : (writeBankSpsr s j v).exclAddr = s.exclAddr := rfl
@[simp] theorem writeBankSpsr_exclVal (s : State) (j : Nat) (v : DWord) : (writeBankSpsr s j v).exclVal = s.exclVal := rfl
@[simp] theorem writeBankSpsr_exc (s : State) (j : Nat) (v : DWord) : (writeBankSpsr s j v).exc = s.exc := rfl
@[simp] theorem writeBankSpsr_locked (s : State) (j : Nat) (v : DWord) : (writeBankSpsr s j v).locked = s.locked := rfl
@[simp] theorem writeBankSpsr_bus (s : State) (j : Nat) (v : DWord) : (writeBankSpsr s j v).bus = s.bus := rfl
@[simp] theorem writeBankSpsr_draws (s : State) (j : Nat) (v : DWord) : (writeBankSpsr s j v).draws = s.draws := rfl
@[simp] theorem writeBankSpsr_ports (s : State) (j : Nat) (v : DWord) : (writeBankSpsr s j v).ports = s.ports := rfl

@[simp] theorem writeEsr_params (s : State) (l : Lvl) (v : Word) : (writeEsr s l v).params = s.params := rfl
@[simp] theorem writeEsr_reg (s : State) (l : Lvl) (v : Word) : (writeEsr s l v).reg = s.reg := rfl
@[simp] theorem writeEsr_constructing (s : State) (l : Lvl) (v : Word) : (writeEsr s l v).constructing = s.constructing := rfl
@[simp] theorem writeEsr_aarch64 (s : State) (l : Lvl) (v : Word) : (writeEsr s l v).aarch64 = s.aarch64 := rfl
@[simp] theorem writeEsr_a32 (s : State) (l : Lvl) (v : Word) : (writeEsr s l v).a32 = s.a32 := rfl
@[simp] theorem writeEsr_a64 (s : State) (l : Lvl) (v : Word) : (writeEsr s l v).a64 = s.a64 := rfl
@[simp] theorem writeEsr_fp (s : State) (l : Lvl) (v : Word) : (writeEsr s l v).fp = s.fp := rfl
@[simp] theorem writeEsr_m (s : State) (l : Lvl) (v : Word) : (writeEsr s l v).m = s.m := rfl
@[simp] theorem writeEsr_msys (s : State) (l : Lvl) (v : Word) : (writeEsr s l v).msys = s.msys := rfl
@[simp] theorem writeEsr_regions (s : State) (l : Lvl) (v : Word) : (writeEsr s l v).regions = s.regions := rfl
@[simp] theorem writeEsr_catalog (s : State) (l : Lvl) (v : Word) : (writeEsr s l v).catalog = s.catalog := rfl
@[simp] theorem writeEsr_exclAddr (s : State) (l : Lvl) (v : Word) : (writeEsr s l v).exclAddr = s.exclAddr := rfl
@[simp] theorem writeEsr_exclVal (s : State) (l : Lvl) (v : Word) : (writeEsr s l v).exclVal = s.exclVal := rfl
@[simp] theorem writeEsr_exc (s : State) (l : Lvl) (v : Word) : (writeEsr s l v).exc = s.exc := rfl
@[simp] theorem writeEsr_locked (s : State) (l : Lvl) (v : Word) : (writeEsr s l v).locked = s.locked := rfl
@[simp] theorem writeEsr_bus (s : State) (l : Lvl) (v : Word) : (writeEsr s l v).bus = s.bus := rfl
@[simp] theorem writeEsr_draws (s : State) (l : Lvl) (v : Word) : (writeEsr s l v).draws = s.draws := rfl
@[simp] theorem writeEsr_ports (s : State) (l : Lvl) (v : Word) : (writeEsr s l v).ports = s.ports := rfl

@[simp] theorem writeIfsr_params (s : State) (b : Bool) (v : Word) : (writeIfsr s b v).params = s.params := rfl
@[simp] theorem writeIfsr_reg (s : State) (b : Bool) (v : Word) : (writeIfsr s b v).reg = s.reg := rfl
@[simp] theorem writeIfsr_constructing (s : State) (b : Bool) (v : Word) : (writeIfsr s b v).constructing = s.constructing := rfl
@[simp] theorem writeIfsr_aarch64 (s : State) (b : Bool) (v : Word) : (writeIfsr s b v).aarch64 = s.aarch64 := rfl
@[simp] theorem writeIfsr_a32 (s : State) (b : Bool) (v : Word) : (writeIfsr s b v).a32 = s.a32 := rfl
@[simp] theorem writeIfsr_a64 (s : State) (b : Bool) (v : Word) : (writeIfsr s b v).a64 = s.a64 := rfl
@[simp] theorem writeIfsr_fp (s : State) (b : Bool) (v : Word) : (writeIfsr s b v).fp = s.fp := rfl
@[simp] theorem writeIfsr_m (s : State) (b : Bool) (v : Word) : (writeIfsr s b v).m = s.m := rfl
@[simp] theorem writeIfsr_msys (s : State) (b : Bool) (v : Word) : (writeIfsr s b v).msys = s.msys := rfl
@[simp] theorem writeIfsr_regions (s : State) (b : Bool) (v : Word) : (writeIfsr s b v).regions = s.regions := rfl
@[simp] theorem writeIfsr_catalog (s : State) (b : Bool) (v : Word) : (writeIfsr s b v).catalog = s.catalog := rfl
@[simp] theorem writeIfsr_exclAddr (s : State) (b : Bool) (v : Word) : (writeIfsr s b v).exclAddr = s.exclAddr := rfl
@[simp] theorem writeIfsr_exclVal (s : State) (b : Bool) (v : Word) : (writeIfsr s b v).exclVal = s.exclVal := rfl
@[simp] theorem writeIfsr_exc (s : State) (b : Bool) (v : Word) : (writeIfsr s b v).exc = s.exc := rfl
@[simp] theorem writeIfsr_locked (s : State) (b : Bool) (v : Word) : (writeIfsr s b v).locked = s.locked := rfl
@[simp] theorem writeIfsr_bus (s : State) (b : Bool) (v : Word) : (writeIfsr s b v).bus = s.bus := rfl
@[simp] theorem writeIfsr_draws (s : State) (b : Bool) (v : Word) : (writeIfsr s b v).draws = s.draws := rfl
@[simp] theorem writeIfsr_ports (s : State) (b : Bool) (v : Word) : (writeIfsr s b v).ports = s.ports := rfl

@[simp] theorem writeIfar_params (s : State) (l : Lvl) (v : Word) : (writeIfar s l v).params = s.params := rfl
@[simp] theorem writeIfar_reg (s : State) (l : Lvl) (v : Word) : (writeIfar s l v).reg = s.reg := rfl
@[simp] theorem writeIfar_constructing (s : State) (l : Lvl) (v : Word) : (writeIfar s l v).constructing = s.constructing := rfl
@[simp] theorem writeIfar_aarch64 (s : State) (l : Lvl) (v : Word) : (writeIfar s l v).aarch64 = s.aarch64 := rfl
@[simp] theorem writeIfar_a32 (s : State) (l : Lvl) (v : Word) : (writeIfar s l v).a32 = s.a32 := rfl
@[simp] theorem writeIfar_a64 (s : State) (l : Lvl) (v : Word) : (writeIfar s l v).a64 = s.a64 := rfl
@[simp] theorem writeIfar_fp (s : State) (l : Lvl) (v : Word) : (writeIfar s l v).fp = s.fp := rfl
@[simp] theorem writeIfar_m (s : State) (l : Lvl) (v : Word) : (writeIfar s l v).m = s.m := rfl
@[simp] theorem writeIfar_msys (s : State) (l : Lvl) (v : Word) : (writeIfar s l v).msys = s.msys := rfl
@[simp] theorem writeIfar_regions (s : State) (l : Lvl) (v : Word) : (writeIfar s l v).regions = s.regions := rfl
@[simp] theorem writeIfar_catalog (s : State) (l : Lvl) (v : Word) : (writeIfar s l v).catalog = s.catalog := rfl
@[simp] theorem writeIfar_exclAddr (s : State) (l : Lvl) (v : Word) : (writeIfar s l v).exclAddr = s.exclAddr := rfl
@[simp] theorem writeIfar_exclVal (s : State) (l : Lvl) (v : Word) : (writeIfar s l v).exclVal = s.exclVal := rfl
@[simp] theorem writeIfar_exc (s : State) (l : Lvl) (v : Word) : (writeIfar s l v).exc = s.exc := rfl
@[simp] theorem writeIfar_locked (s : State) (l : Lvl) (v : Word) : (writeIfar s l v).locked = s.locked := rfl
@[simp] theorem writeIfar_bus (s : State) (l : Lvl) (v : Word) : (writeIfar s l v).bus = s.bus := rfl
@[simp] theorem writeIfar_draws (s : State) (l : Lvl) (v : Word) : (writeIfar s l v).draws = s.draws := rfl
@[simp] theorem writeIfar_ports (s : State) (l : Lvl) (v : Word) : (writeIfar s l v).ports = s.ports := rfl

@[simp] theorem writeDfar_params (s : State) (l : Lvl) (v : Word) : (writeDfar s l v).params = s.params := rfl
@[simp] theorem writeDfar_reg (s : State) (l : Lvl) (v : Word) : (writeDfar s l v).reg = s.reg := rfl
@[simp] theorem writeDfar_constructing (s : State) (l : Lvl) (v : Word) : (writeDfar s l v).constructing = s.constructing := rfl
@[simp] theorem writeDfar_aarch64 (s : State) (l : Lvl) (v : Word) : (writeDfar s l v).aarch64 = s.aarch64 := rfl
@[simp] theorem writeDfar_a32 (s : State) (l : Lvl) (v : Word) : (writeDfar s l v).a32 = s.a32 := rfl
@[simp] theorem writeDfar_a64 (s : State) (l : Lvl) (v : Word) : (writeDfar s l v).a64 = s.a64 := rfl
@[simp] theorem writeDfar_fp (s : State) (l : Lvl) (v : Word) : (writeDfar s l v).fp = s.fp := rfl
@[simp] theorem writeDfar_m (s : State) (l : Lvl) (v : Word) : (writeDfar s l v).m = s.m := rfl
@[simp] theorem writeDfar_msys (s : State) (l : Lvl) (v : Word) : (writeDfar s l v).msys = s.msys := rfl
@[simp] theorem writeDfar_regions (s : State) (l : Lvl) (v : Word) : (writeDfar s l v).regions = s.regions := rfl
@[simp] theorem writeDfar_catalog (s : State) (l : Lvl) (v : Word) : (writeDfar s l v).catalog = s.catalog := rfl
@[simp] theorem writeDfar_exclAddr (s : State) (l : Lvl) (v : Word) : (writeDfar s l v).exclAddr = s.exclAddr := rfl
@[simp] theorem writeDfar_exclVal (s : State) (l : Lvl) (v : Word) : (writeDfar s l v).exclVal = s.exclVal := rfl
@[simp] theorem writeDfar_exc (s : State) (l : Lvl) (v : Word) : (writeDfar s l v).exc = s.exc := rfl
@[simp] theorem writeDfar_locked (s : State) (l : Lvl) (v : Word) : (writeDfar s l v).locked = s.locked := rfl
@[simp] theorem writeDfar_bus (s : State) (l : Lvl) (v : Word) : (writeDfar s l v).bus = s.bus := rfl
@[simp] theorem writeDfar_draws (s : State) (l : Lvl) (v : Word) : (writeDfar s l v).draws = s.draws := rfl
@[simp] theorem writeDfar_ports (s : State) (l : Lvl) (v : Word) : (writeDfar s l v).ports = s.ports := rfl

@[simp] theorem cfsrSet_params (s : State) (b : Bool) (v : Word) : (cfsrSet s b v).params = s.params := rfl
@[simp] theorem cfsrSet_reg (s : State) (b : Bool) (v : Word) : (cfsrSet s b v).reg = s.reg := rfl
@[simp] theorem cfsrSet_constructing (s : State) (b : Bool) (v : Word) : (cfsrSet s b v).constructing = s.constructing := rfl
@[simp] theorem cfsrSet_aarch64 (s : State) (b : Bool) (v : Word) : (cfsrSet s b v).aarch64 = s.aarch64 := rfl
@[simp] theorem cfsrSet_a32 (s : State) (b : Bool) (v : Word) : (cfsrSet s b v).a32 = s.a32 := rfl
@[simp] theorem cfsrSet_a64 (s : State) (b : Bool) (v : Word) : (cfsrSet s b v).a64 = s.a64 := rfl
@[simp] theorem cfsrSet_fp (s : State) (b : Bool) (v : Word) : (cfsrSet s b v).fp = s.fp := rfl
@[simp] theorem cfsrSet_m (s : State) (b : Bool) (v : Word) : (cfsrSet s b v).m = s.m := rfl
@[simp] theorem cfsrSet_sys (s : State) (b : Bool) (v : Word) : (cfsrSet s b v).sys = s.sys := rfl
@[simp] theorem cfsrSet_regions (s : State) (b : Bool) (v : Word) : (cfsrSet s b v).regions = s.regions := rfl
@[simp] theorem cfsrSet_catalog (s : State) (b : Bool) (v : Word) : (cfsrSet s b v).catalog = s.catalog := rfl
@[simp] theorem cfsrSet_exclAddr (s : State) (b : Bool) (v : Word) : (cfsrSet s b v).exclAddr = s.exclAddr := rfl
@[simp] theorem cfsrSet_exclVal (s : State) (b : Bool) (v : Word) : (cfsrSet s b v).exclVal = s.exclVal := rfl
@[simp] theorem cfsrSet_exc (s : State) (b : Bool) (v : Word) : (cfsrSet s b v).exc = s.exc := rfl
@[simp] theorem cfsrSet_locked (s : State) (b : Bool) (v : Word) : (cfsrSet s b v).locked = s.locked := rfl
@[simp] theorem cfsrSet_bus (s : State) (b : Bool) (v : Word) : (cfsrSet s b v).bus = s.bus := rfl
@[simp] theorem cfsrSet_draws (s : State) (b : Bool) (v : Word) : (cfsrSet s b v).draws = s.draws := rfl
@[simp] theorem cfsrSet_ports (s : State) (b : Bool) (v : Word) : (cfsrSet s b v).ports = s.ports := rfl

@[simp] theorem setSfsr_params (s : State) (v : Byte) : (setSfsr s v).params = s.params := rfl
@[simp] theorem setSfsr_reg (s : State) (v : Byte) : (setSfsr s v).reg = s.reg := rfl
@[simp] theorem setSfsr_constructing (s : State) (v : Byte) : (setSfsr s v).constructing = s.constructing := rfl
@[simp] theorem setSfsr_aarch64 (s : State) (v : Byte) : (setSfsr s v).aarch64 = s.aarch64 := rfl
@[simp] theorem setSfsr_a32 (s : State) (v : Byte) : (setSfsr s v).a32 = s.a32 := rfl
@[simp] theorem setSfsr_a64 (s : State) (v : Byte) : (setSfsr s v).a64 = s.a64 := rfl
@[simp] theorem setSfsr_fp (s : State) (v : Byte) : (setSfsr s v).fp = s.fp := rfl
@[simp] theorem setSfsr_m (s : State) (v : Byte) : (setSfsr s v).m = s.m := rfl
@[simp] theorem setSfsr_sys (s : State) (v : Byte) : (setSfsr s v).sys = s.sys := rfl
@[simp] theorem setSfsr_regions (s : State) (v : Byte) : (setSfsr s v).regions = s.regions := rfl
@[simp] theorem setSfsr_catalog (s : State) (v : Byte) : (setSfsr s v).catalog = s.catalog := rfl
@[simp] theorem setSfsr_exclAddr (s : State) (v : Byte) : (setSfsr s v).exclAddr = s.exclAddr := rfl
@[simp] theorem setSfsr_exclVal (s : State) (v : Byte) : (setSfsr s v).exclVal = s.exclVal := rfl
@[simp] theorem setSfsr_exc (s : State) (v : Byte) : (setSfsr s v).exc = s.exc := rfl
@[simp] theorem setSfsr_locked (s : State) (v : Byte) : (setSfsr s v).locked = s.locked := rfl
@[simp] theorem setSfsr_bus (s : State) (v : Byte) : (setSfsr s v).bus = s.bus := rfl
@[simp] theorem setSfsr_draws (s : State) (v : Byte) : (setSfsr s v).draws = s.draws := rfl
@[simp] theorem setSfsr_ports (s : State) (v : Byte) : (setSfsr s v).ports = s.ports := rfl

@[simp] theorem setHfsr_params (s : State) (v : Word) : (setHfsr s v).params = s.params := rfl
@[simp] theorem setHfsr_reg (s : State) (v : Word) : (setHfsr s v).reg = s.reg := rfl
@[simp] theorem setHfsr_constructing (s : State) (v : Word) : (setHfsr s v).constructing = s.constructing := rfl
@[simp] theorem setHfsr_aarch64 (s : State) (v : Word) : (setHfsr s v).aarch64 = s.aarch64 := rfl
@[simp] theorem setHfsr_a32 (s : State) (v : Word) : (setHfsr s v).a32 = s.a32 := rfl
@[simp] theorem setHfsr_a64 (s : State) (v : Word) : (setHfsr s v).a64 = s.a64 := rfl
@[simp] theorem setHfsr_fp (s : State) (v : Word) : (setHfsr s v).fp = s.fp := rfl
@[simp] theorem setHfsr_m (s : State) (v : Word) : (setHfsr s v).m = s.m := rfl
@[simp] theorem setHfsr_sys (s : State) (v : Word) : (setHfsr s v).sys = s.sys := rfl
@[simp] theorem setHfsr_regions (s : State) (v : Word) : (setHfsr s v).regions = s.regions := rfl
@[simp] theorem setHfsr_catalog (s : State) (v : Word) : (setHfsr s v).catalog = s.catalog := rfl
@[simp] theorem setHfsr_exclAddr (s : State) (v : Word) : (setHfsr s v).exclAddr = s.exclAddr := rfl
@[simp] theorem setHfsr_exclVal (s : State) (v : Word) : (setHfsr s v).exclVal = s.exclVal := rfl
@[simp] theorem setHfsr_exc (s : State) (v : Word) : (setHfsr s v).exc = s.exc := rfl
@[simp] theorem setHfsr_locked (s : State) (v : Word) : (setHfsr s v).locked = s.locked := rfl
@[simp] theorem setHfsr_bus (s : State) (v : Word) : (setHfsr s v).bus = s.bus := rfl
@[simp] theorem setHfsr_draws (s : State) (v : Word) : (setHfsr s v).draws = s.draws := rfl
@[simp] theorem setHfsr_ports (s : State) (v : Word) : (setHfsr s v).ports = s.ports := rfl

@[simp] theorem withSfar_params (s : State) (v : Word) : (withSfar s v).params = s.params := rfl
@[simp] theorem withSfar_reg (s : State) (v : Word) : (withSfar s v).reg = s.reg := rfl
@[simp] theorem withSfar_constructing (s : State) (v : Word) : (withSfar s v).constructing = s.constructing := rfl
@[simp] theorem withSfar_aarch64 (s : State) (v : Word) : (withSfar s v).aarch64 = s.aarch64 := rfl
@[simp] theorem withSfar_a32 (s : State) (v : Word) : (withSfar s v).a32 = s.a32 := rfl
@[simp] theorem withSfar_a64 (s : State) (v : Word) : (withSfar s v).a64 = s.a64 := rfl
@[simp] theorem withSfar_fp (s : State) (v : Word) : (withSfar s v).fp = s.fp := rfl
@[simp] theorem withSfar_m (s : State) (v : Word) : (withSfar s v).m = s.m := rfl
@[simp] theorem withSfar_sys (s : State) (v : Word) : (withSfar s v).sys = s.sys := rfl
@[simp] theorem withSfar_regions (s : State) (v : Word) : (withSfar s v).regions = s.regions := rfl
@[simp] theorem withSfar_catalog (s : State) (v : Word) : (withSfar s v).catalog = s.catalog := rfl
@[simp] theorem withSfar_exclAddr (s : State) (v : Word) : (withSfar s v).exclAddr = s.exclAddr := rfl
@[simp] theorem withSfar_exclVal (s : State) (v : Word) : (withSfar s v).exclVal = s.exclVal := rfl
@[simp] theorem withSfar_exc (s : State) (v : Word) : (withSfar s v).exc = s.exc := rfl
@[simp] theorem withSfar_locked (s : State) (v : Word) : (withSfar s v).locked = s.locked := rfl
@[simp] theorem withSfar_bus (s : State) (v : Word) : (withSfar s v).bus = s.bus := rfl
@[simp] theorem withSfar_draws (s : State) (v : Word) : (withSfar s v).draws = s.draws := rfl
@[simp] theorem withSfar_ports (s : State) (v : Word) : (withSfar s v).ports = s.ports := rfl

@[simp] theorem withBfar_params (s : State) (v : Word) : (withBfar s v).params = s.params := rfl
@[simp] theorem withBfar_reg (s : State) (v : Word) : (withBfar s v).reg = s.reg := rfl
@[simp] theorem withBfar_constructing (s : State) (v : Word) : (withBfar s v).constructing = s.constructing := rfl
@[simp] theorem withBfar_aarch64 (s : State) (v : Word) : (withBfar s v).aarch64 = s.aarch64 := rfl
@[simp] theorem withBfar_a32 (s : State) (v : Word) : (withBfar s v).a32 = s.a32 := rfl
@[simp] theorem withBfar_a64 (s : State) (v : Word) : (withBfar s v).a64 = s.a64 := rfl
@[simp] theorem withBfar_fp (s : State) (v : Word) : (withBfar s v).fp = s.fp := rfl
@[simp] theorem withBfar_m (s : State) (v : Word) : (withBfar s v).m = s.m := rfl
@[simp] theorem withBfar_sys (s : State) (v : Word) : (withBfar s v).sys = s.sys := rfl
@[simp] theorem withBfar_regions (s : State) (v : Word) : (withBfar s v).regions = s.regions := rfl
@[simp] theorem withBfar_catalog (s : State) (v : Word) : (withBfar s v).catalog = s.catalog := rfl
@[simp] theorem withBfar_exclAddr (s : State) (v : Word) : (withBfar s v).exclAddr = s.exclAddr := rfl
@[simp] theorem withBfar_exclVal (s : State) (v : Word) : (withBfar s v).exclVal = s.exclVal := rfl
@[simp] theorem withBfar_exc (s : State) (v : Word) : (withBfar s v).exc = s.exc := rfl
@[simp] theorem withBfar_locked (s : State) (v : Word) : (withBfar s v).locked = s.locked := rfl
@[simp] theorem withBfar_bus (s : State) (v : Word) : (withBfar s v).bus = s.bus := rfl
@[simp] theorem withBfar_draws (s : State) (v : Word) : (withBfar s v).draws = s.draws := rfl
@[simp] theorem withBfar_ports (s : State) (v : Word) : (withBfar s v).ports = s.ports := rfl

@[simp] theorem withMmfar_params (s : State) (b : Bool) (v : Word) : (withMmfar s b v).params = s.params := rfl
@[simp] theorem withMmfar_reg (s : State) (b : Bool) (v : Word) : (withMmfar s b v).reg = s.reg := rfl
@[simp] theorem withMmfar_constructing (s : State) (b : Bool) (v : Word) : (withMmfar s b v).constructing = s.constructing := rfl
@[simp] theorem withMmfar_aarch64 (s : State) (b : Bool) (v : Word) : (withMmfar s b v).aarch64 = s.aarch64 := rfl
@[simp] theorem withMmfar_a32 (s : State) (b : Bool) (v : Word) : (withMmfar s b v).a32 = s.a32 := rfl
@[simp] theorem withMmfar_a64 (s : State) (b : Bool) (v : Word) : (withMmfar s b v).a64 = s.a64 := rfl
@[simp] theorem withMmfar_fp (s : State) (b : Bool) (v : Word) : (withMmfar s b v).fp = s.fp := rfl
@[simp] theorem withMmfar_m (s : State) (b : Bool) (v : Word) : (withMmfar s b v).m = s.m := rfl
@[simp] theorem withMmfar_sys (s : State) (b : Bool) (v : Word) : (withMmfar s b v).sys = s.sys := rfl
@[simp] theorem withMmfar_regions (s : State) (b : Bool) (v : Word) : (withMmfar s b v).regions = s.regions := rfl
@[simp] theorem withMmfar_catalog (s : State) (b : Bool) (v : Word) : (withMmfar s b v).catalog = s.catalog := rfl
@[simp] theorem withMmfar_exclAddr (s : State) (b : Bool) (v : Word) : (withMmfar s b v).exclAddr = s.exclAddr := rfl
@[simp] theorem withMmfar_exclVal (s : State) (b : Bool) (v : Word) : (withMmfar s b v).exclVal = s.exclVal := rfl
@[simp] theorem withMmfar_exc (s : State) (b : Bool) (v : Word) : (withMmfar s b v).exc = s.exc := rfl
@[simp] theorem withMmfar_locked (s : State) (b : Bool) (v : Word) : (withMmfar s b v).locked = s.locked := rfl
@[simp] theorem withMmfar_bus (s : State) (b : Bool) (v : Word) : (withMmfar s b v).bus = s.bus := rfl
@[simp] theorem withMmfar_draws (s : State) (b : Bool) (v : Word) : (withMmfar s b v).draws = s.draws := rfl
@[simp] theorem withMmfar_ports (s : State) (b : Bool) (v : Word) : (withMmfar s b v).ports = s.ports := rfl

@[simp] theorem withExc_params (s : State) (f : ExcState → ExcState) : (withExc s f).params = s.params := rfl
@[simp] theorem withExc_reg (s : State) (f : ExcState → ExcState) : (withExc s f).reg = s.reg := rfl
@[simp] theorem withExc_constructing (s : State) (f : ExcState → ExcState) : (withExc s f).constructing = s.constructing := rfl
@[simp] theorem withExc_aarch64 (s : State) (f : ExcState → ExcState) : (withExc s f).aarch64 = s.aarch64 := rfl
@[simp] theorem withExc_a32 (s : State) (f : ExcState → ExcState) : (withExc s f).a32 = s.a32 := rfl
@[simp] theorem withExc_a64 (s : State) (f : ExcState → ExcState) : (withExc s f).a64 = s.a64 := rfl
@[simp] theorem withExc_fp (s : State) (f : ExcState → ExcState) : (withExc s f).fp = s.fp := rfl
@[simp] theorem withExc_m (s : State) (f : ExcState → ExcState) : (withExc s f).m = s.m := rfl
@[simp] theorem withExc_sys (s : State) (f : ExcState → ExcState) : (withExc s f).sys = s.sys := rfl
@[simp] theorem withExc_msys (s : State) (f : ExcState → ExcState) : (withExc s f).msys = s.msys := rfl
@[simp] theorem withExc_regions (s : State) (f : ExcState → ExcState) : (withExc s f).regions = s.regions := rfl
@[simp] theorem withExc_catalog (s : State) (f : ExcState → ExcState) : (withExc s f).catalog = s.catalog := rfl
@[simp] theorem withExc_exclAddr (s : State) (f : ExcState → ExcState) : (withExc s f).exclAddr = s.exclAddr := rfl
@[simp] theorem withExc_exclVal (s : State) (f : ExcState → ExcState) : (withExc s f).exclVal = s.exclVal := rfl
@[simp] theorem withExc_exc (s : State) (f : ExcState → ExcState) : (withExc s f).exc = f s.exc := rfl
@[simp] theorem withExc_locked (s : State) (f : ExcState → ExcState) : (withExc s f).locked = s.locked := rfl
@[simp] theorem withExc_bus (s : State) (f : ExcState → ExcState) : (withExc s f).bus = s.bus := rfl
@[simp] theorem withExc_draws (s : State) (f : ExcState → ExcState) : (withExc s f).draws = s.draws := rfl
@[simp] theorem withExc_ports (s : State) (f : ExcState → ExcState) : (withExc s f).ports = s.ports := rfl

@[simp] theorem withRegions_params (s : State) (f : Regions → Regions) : (withRegions s f).params = s.params := rfl
@[simp] theorem withRegions_reg (s : State) (f : Regions → Regions) : (withRegions s f).reg = s.reg := rfl
@[simp] theorem withRegions_constructing (s : State) (f : Regions → Regions) : (withRegions s f).constructing = s.constructing := rfl
@[simp] theorem withRegions_aarch64 (s : State) (f : Regions → Regions) : (withRegions s f).aarch64 = s.aarch64 := rfl
@[simp] theorem withRegions_a32 (s : State) (f : Regions → Regions) : (withRegions s f).a32 = s.a32 := rfl
@[simp] theorem withRegions_a64 (s : State) (f : Regions → Regions) : (withRegions s f).a64 = s.a64 := rfl
@[simp] theorem withRegions_fp (s : State) (f : Regions → Regions) : (withRegions s f).fp = s.fp := rfl
@[simp] theorem withRegions_m (s : State) (f : Regions → Regions) : (withRegions s f).m = s.m := rfl
@[simp] theorem withRegions_sys (s : State) (f : Regions → Regions) : (withRegions s f).sys = s.sys := rfl
@[simp] theorem withRegions_msys (s : State) (f : Regions → Regions) : (withRegions s f).msys = s.msys := rfl
@[simp] theorem withRegions_regions (s : State) (f : Regions → Regions) : (withRegions s f).regions = f s.regions := rfl
@[simp] theorem withRegions_catalog (s : State) (f : Regions → Regions) : (withRegions s f).catalog = s.catalog := rfl
@[simp] theorem withRegions_exclAddr (s : State) (f : Regions → Regions) : (withRegions s f).exclAddr = s.exclAddr := rfl
@[simp] theorem withRegions_exclVal (s : State) (f : Regions → Regions) : (withRegions s f).exclVal = s.exclVal := rfl
@[simp] theorem withRegions_exc (s : State) (f : Regions → Regions) : (withRegions s f).exc = s.exc := rfl
@[simp] theorem withRegions_locked (s : State) (f : Regions → Regions) : (withRegions s f).locked = s.locked := rfl
@[simp] theorem withRegions_bus (s : State) (f : Regions → Regions) : (withRegions s f).bus = s.bus := rfl
@[simp] theorem withRegions_draws (s : State) (f : Regions → Regions) : (withRegions s f).draws = s.draws := rfl
@[simp] theorem withRegions_ports (s : State) (f : Regions → Regions) : (withRegions s f).ports = s.ports := rfl

@[simp] theorem clearRegions_params (s : State) : (clearRegions s).params = s.params := rfl
@[simp] theorem clearRegions_reg (s : State) : (clearRegions s).reg = s.reg := rfl
@[simp] theorem clearRegions_constructing (s : State) : (clearRegions s).constructing = s.constructing := rfl
@[simp] theorem clearRegions_aarch64 (s : State) : (clearRegions s).aarch64 = s.aarch64 := rfl
@[simp] theorem clearRegions_a32 (s : State) : (clearRegions s).a32 = s.a32 := rfl
@[simp] theorem clearRegions_a64 (s : State) : (clearRegions s).a64 = s.a64 := rfl
@[simp] theorem clearRegions_fp (s : State) : (clearRegions s).fp = s.fp := rfl
@[simp] theorem clearRegions_m (s : State) : (clearRegions s).m = s.m := rfl
@[simp] theorem clearRegions_sys (s : State) : (clearRegions s).sys = s.sys := rfl
@[simp] theorem clearRegions_msys (s : State) : (clearRegions s).msys = s.msys := rfl
@[simp] theorem clearRegions_catalog (s : State) : (clearRegions s).catalog = s.catalog := rfl
@[simp] theorem clearRegions_exclAddr (s : State) : (clearRegions s).exclAddr = s.exclAddr := rfl
@[simp] theorem clearRegions_exclVal (s : State) : (clearRegions s).exclVal = s.exclVal := rfl
@[simp] theorem clearRegions_exc (s : State) : (clearRegions s).exc = s.exc := rfl
@[simp] theorem clearRegions_locked (s : State) : (clearRegions s).locked = s.locked := rfl
@[simp] theorem clearRegions_bus (s : State) : (clearRegions s).bus = s.bus := rfl
@[simp] theorem clearRegions_draws (s : State) : (clearRegions s).draws = s.draws := rfl
@[simp] theorem clearRegions_ports (s : State) : (clearRegions s).ports = s.ports := rfl

@[simp] theorem resetModeM_params (s : State) : (resetModeM s).params = s.params := rfl
@[simp] theorem resetModeM_reg (s : State) : (resetModeM s).reg = s.reg := rfl
@[simp] theorem resetModeM_constructing (s : State) : (resetModeM s).constructing = s.constructing := rfl
@[simp] theorem resetModeM_aarch64 (s : State) : (resetModeM s).aarch64 = s.aarch64 := rfl
@[simp] theorem resetModeM_a32 (s : State) : (resetModeM s).a32 = s.a32 := rfl
@[simp] theorem resetModeM_a64 (s : State) : (resetModeM s).a64 = s.a64 := rfl
@[simp] theorem resetModeM_fp (s : State) : (resetModeM s).fp = s.fp := rfl
@[simp] theorem resetModeM_sys (s : State) : (resetModeM s).sys = s.sys := rfl
@[simp] theorem resetModeM_msys (s : State) : (resetModeM s).msys = s.msys := rfl
@[simp] theorem resetModeM_regions (s : State) : (resetModeM s).regions = s.regions := rfl
@[simp] theorem resetModeM_catalog (s : State) : (resetModeM s).catalog = s.catalog := rfl
@[simp] theorem resetModeM_exclAddr (s : State) : (resetModeM s).exclAddr = s.exclAddr := rfl
@[simp] theorem resetModeM_exclVal (s : State) : (resetModeM s).exclVal = s.exclVal := rfl
@[simp] theorem resetModeM_exc (s : State) : (resetModeM s).exc = s.exc := rfl
@[simp] theorem resetModeM_locked (s : State) : (resetModeM s).locked = s.locked := rfl
@[simp] theorem resetModeM_bus (s : State) : (resetModeM s).bus = s.bus := rfl
@[simp] theorem resetModeM_draws (s : State) : (resetModeM s).draws = s.draws := rfl
@[simp] theorem resetModeM_ports (s : State) : (resetModeM s).ports = s.ports := rfl

@[simp] theorem resetMode64_params (s : State) : (resetMode64 s).params = s.params := rfl
@[simp] theorem resetMode64_reg (s : State) : (resetMode64 s).reg = s.reg := rfl
@[simp] theorem resetMode64_constructing (s : State) : (resetMode64 s).constructing = s.constructing := rfl
@[simp] theorem resetMode64_a32 (s : State) : (resetMode64 s).a32 = s.a32 := rfl
@[simp] theorem resetMode64_fp (s : State) : (resetMode64 s).fp = s.fp := rfl
@[simp] theorem resetMode64_m (s : State) : (resetMode64 s).m = s.m := rfl
@[simp] theorem resetMode64_sys (s : State) : (resetMode64 s).sys = s.sys := rfl
@[simp] theorem resetMode64_msys (s : State) : (resetMode64 s).msys = s.msys := rfl
@[simp] theorem resetMode64_regions (s : State) : (resetMode64 s).regions = s.regions := rfl
@[simp] theorem resetMode64_catalog (s : State) : (resetMode64 s).catalog = s.catalog := rfl
@[simp] theorem resetMode64_exclAddr (s : State) : (resetMode64 s).exclAddr = s.exclAddr := rfl
@[simp] theorem resetMode64_exclVal (s : State) : (resetMode64 s).exclVal = s.exclVal := rfl
@[simp] theorem resetMode64_exc (s : State) : (resetMode64 s).exc = s.exc := rfl
@[simp] theorem resetMode64_locked (s : State) : (resetMode64 s).locked = s.locked := rfl
@[simp] theorem resetMode64_bus (s : State) : (resetMode64 s).bus = s.bus := rfl
@[simp] theorem resetMode64_draws (s : State) : (resetMode64 s).draws = s.draws := rfl
@[simp] theorem resetMode64_ports (s : State) : (resetMode64 s).ports = s.ports := rfl

@[simp] theorem resetMode32_params (s : State) : (resetMode32 s).params = s.params := rfl
@[simp] theorem resetMode32_reg (s : State) : (resetMode32 s).reg = s.reg := rfl
@[simp] theorem resetMode32_constructing (s : State) : (resetMode32 s).constructing = s.constructing := rfl
@[simp] theorem resetMode32_a64 (s : State) : (resetMode32 s).a64 = s.a64 := rfl
@[simp] theorem resetMode32_fp (s : State) : (resetMode32 s).fp = s.fp := rfl
@[simp] theorem resetMode32_m (s : State) : (resetMode32 s).m = s.m := rfl
@[simp] theorem resetMode32_sys (s : State) : (resetMode32 s).sys = s.sys := rfl
@[simp] theorem resetMode32_msys (s : State) : (resetMode32 s).msys = s.msys := rfl
@[simp] theorem resetMode32_regions (s : State) : (resetMode32 s).regions = s.regions := rfl
@[simp] theorem resetMode32_catalog (s : State) : (resetMode32 s).catalog = s.catalog := rfl
@[simp] theorem resetMode32_exclAddr (s : State) : (resetMode32 s).exclAddr = s.exclAddr := rfl
@[simp] theorem resetMode32_exclVal (s : State) : (resetMode32 s).exclVal = s.exclVal := rfl
@[simp] theorem resetMode32_exc (s : State) : (resetMode32 s).exc = s.exc := rfl
@[simp] theorem resetMode32_locked (s : State) : (resetMode32 s).locked = s.locked := rfl
@[simp] theorem resetMode32_bus (s : State) : (resetMode32 s).bus = s.bus := rfl
@[simp] theorem resetMode32_draws (s : State) : (resetMode32 s).draws = s.draws := rfl
@[simp] theorem resetMode32_ports (s : State) : (resetMode32 s).ports = s.ports := rfl

/-! ## Fields an update writes -/

@[simp] theorem accept_bus_mem (s : State) (rest : List Command) : (accept s rest).bus.mem = s.bus.mem := rfl
@[simp] theorem accept_bus_script (s : State) (rest : List Command) : (accept s rest).bus.script = s.bus.script := rfl
@[simp] theorem accept_bus_draws (s : State) (rest : List Command) : (accept s rest).bus.draws = s.bus.draws := rfl
@[simp] theorem accept_ports_cmds (s : State) (rest : List Command) : (accept s rest).ports.cmds = rest := rfl
@[simp] theorem accept_ports_tlbinv (s : State) (rest : List Command) : (accept s rest).ports.tlbinv = 0 := rfl
@[simp] theorem pulse_ports_rsp (s : State) : (pulse s).ports.rsp = s.ports.rsp := rfl
@[simp] theorem pulse_ports_cmds (s : State) : (pulse s).ports.cmds = s.ports.cmds := rfl
@[simp] theorem pulse_ports_tlbinv (s : State) : (pulse s).ports.tlbinv = s.ports.tlbinv + 1 := rfl
@[simp] theorem ok_ports_cmds (s : State) (r0 r1 : DWord) : (ok s r0 r1).ports.cmds = s.ports.cmds := rfl
@[simp] theorem ok_ports_tlbinv (s : State) (r0 r1 : DWord) : (ok s r0 r1).ports.tlbinv = s.ports.tlbinv := rfl
@[simp] theorem ok_ports_rsp (s : State) (r0 r1 : DWord) :
    (ok s r0 r1).ports.rsp = some { status := .ok, r0 := r0, r1 := r1, out := [] } := rfl
@[simp] theorem illegal_ports_rsp (s : State) :
    (illegal s).ports.rsp = some { status := .illegalCmd, r0 := 0, r1 := 0, out := [] } := rfl
@[simp] theorem lockedOut_ports_rsp (s : State) :
    (lockedOut s).ports.rsp = some { status := .locked, r0 := 0, r1 := 0, out := [] } := rfl
@[simp] theorem respond_ports_cmds (s : State) (st : Status) (r0 r1 : DWord) :
    (respond s st r0 r1).ports.cmds = s.ports.cmds := rfl
@[simp] theorem respond_ports_tlbinv (s : State) (st : Status) (r0 r1 : DWord) :
    (respond s st r0 r1).ports.tlbinv = s.ports.tlbinv := rfl
@[simp] theorem clearExclusive_exclAddr (s : State) : (clearExclusive s).exclAddr = noReservation := rfl
@[simp] theorem withPhase_exc_phase (s : State) (p : Phase) : (withPhase s p).exc.phase = p := rfl
@[simp] theorem withPhase_exc_mNumber (s : State) (p : Phase) : (withPhase s p).exc.mNumber = s.exc.mNumber := rfl
@[simp] theorem withPc64_a64_pc (s : State) (v : DWord) : (withPc64 s v).a64.pc = v := rfl
@[simp] theorem withPc64_a64_x (s : State) (v : DWord) : (withPc64 s v).a64.x = s.a64.x := rfl
@[simp] theorem withPc64_a64_pstate (s : State) (v : DWord) : (withPc64 s v).a64.pstate = s.a64.pstate := rfl
@[simp] theorem withPc64_a64_spEl (s : State) (v : DWord) : (withPc64 s v).a64.spEl = s.a64.spEl := rfl
@[simp] theorem withPc64_a64_elrEl (s : State) (v : DWord) : (withPc64 s v).a64.elrEl = s.a64.elrEl := rfl
@[simp] theorem pstateWrite_a64_pstate (s : State) (w : Word) : (pstateWrite s w).a64.pstate = w &&& pstateBits := rfl
@[simp] theorem pstateWrite_a64_x (s : State) (w : Word) : (pstateWrite s w).a64.x = s.a64.x := rfl
@[simp] theorem pstateWrite_a64_pc (s : State) (w : Word) : (pstateWrite s w).a64.pc = s.a64.pc := rfl
@[simp] theorem pstateWrite_a64_spEl (s : State) (w : Word) : (pstateWrite s w).a64.spEl = s.a64.spEl := rfl
@[simp] theorem pstateWrite_a64_elrEl (s : State) (w : Word) : (pstateWrite s w).a64.elrEl = s.a64.elrEl := rfl
@[simp] theorem withCpsr_a32_cpsr (s : State) (w : Word) : (withCpsr s w).a32.cpsr = w &&& cpsrBits := rfl
@[simp] theorem withCpsr_a32_r (s : State) (w : Word) : (withCpsr s w).a32.r = s.a32.r := rfl
@[simp] theorem withCpsr_a32_spsr (s : State) (w : Word) : (withCpsr s w).a32.spsr = s.a32.spsr := rfl
@[simp] theorem withCpsr_a32_bankR13 (s : State) (w : Word) : (withCpsr s w).a32.bankR13 = s.a32.bankR13 := rfl
@[simp] theorem withCpsr_a32_bankR14 (s : State) (w : Word) : (withCpsr s w).a32.bankR14 = s.a32.bankR14 := rfl
@[simp] theorem withCpsr_a32_bankSpsr (s : State) (w : Word) : (withCpsr s w).a32.bankSpsr = s.a32.bankSpsr := rfl
@[simp] theorem withXpsr_m_xpsr (s : State) (w : Word) : (withXpsr s w).m.xpsr = w &&& xpsrBits := rfl
@[simp] theorem withXpsr_m_exception (s : State) (w : Word) : (withXpsr s w).m.exception = s.m.exception := rfl
@[simp] theorem withXpsr_m_control (s : State) (w : Word) : (withXpsr s w).m.control = s.m.control := rfl
@[simp] theorem withXpsr_m_secure (s : State) (w : Word) : (withXpsr s w).m.secure = s.m.secure := rfl
@[simp] theorem saveSp_a64_pstate (s : State) (el : Nat) : (saveSp s el).a64.pstate = s.a64.pstate := rfl
@[simp] theorem saveSp_a64_x (s : State) (el : Nat) : (saveSp s el).a64.x = s.a64.x := rfl
@[simp] theorem saveSp_a64_pc (s : State) (el : Nat) : (saveSp s el).a64.pc = s.a64.pc := rfl
@[simp] theorem saveSp_a64_elrEl (s : State) (el : Nat) : (saveSp s el).a64.elrEl = s.a64.elrEl := rfl
@[simp] theorem restoreSp_a64_pstate (s : State) (el : Nat) : (restoreSp s el).a64.pstate = s.a64.pstate := rfl
@[simp] theorem restoreSp_a64_pc (s : State) (el : Nat) : (restoreSp s el).a64.pc = s.a64.pc := rfl
@[simp] theorem restoreSp_a64_spEl (s : State) (el : Nat) : (restoreSp s el).a64.spEl = s.a64.spEl := rfl
@[simp] theorem restoreSp_a64_elrEl (s : State) (el : Nat) : (restoreSp s el).a64.elrEl = s.a64.elrEl := rfl
@[simp] theorem writeElr_a64_pstate (s : State) (t : Nat) (v : DWord) :
    (writeElr s t v).a64.pstate = s.a64.pstate := rfl
@[simp] theorem writeElr_a64_x (s : State) (t : Nat) (v : DWord) : (writeElr s t v).a64.x = s.a64.x := rfl
@[simp] theorem writeElr_a64_spEl (s : State) (t : Nat) (v : DWord) : (writeElr s t v).a64.spEl = s.a64.spEl := rfl
@[simp] theorem writeElr_a64_elrEl (s : State) (t : Nat) (v : DWord) :
    (writeElr s t v).a64.elrEl = s.a64.elrEl.set (lvlOf t) v := rfl
@[simp] theorem writeBankSpsr_a32_bankSpsr (s : State) (j : Nat) (v : DWord) :
    (writeBankSpsr s j v).a32.bankSpsr = vset s.a32.bankSpsr j v := rfl
@[simp] theorem writeBankSpsr_a32_cpsr (s : State) (j : Nat) (v : DWord) :
    (writeBankSpsr s j v).a32.cpsr = s.a32.cpsr := rfl
@[simp] theorem rset_a32_cpsr (s : State) (i : Nat) (v : Word) : (rset s i v).a32.cpsr = s.a32.cpsr := rfl
@[simp] theorem rset_a32_spsr (s : State) (i : Nat) (v : Word) : (rset s i v).a32.spsr = s.a32.spsr := rfl
@[simp] theorem xset_a64_pstate (s : State) (i : Nat) (v : DWord) : (xset s i v).a64.pstate = s.a64.pstate := rfl
@[simp] theorem xset_a64_pc (s : State) (i : Nat) (v : DWord) : (xset s i v).a64.pc = s.a64.pc := rfl
@[simp] theorem xset_a64_spEl (s : State) (i : Nat) (v : DWord) : (xset s i v).a64.spEl = s.a64.spEl := rfl
@[simp] theorem xset_a64_elrEl (s : State) (i : Nat) (v : DWord) : (xset s i v).a64.elrEl = s.a64.elrEl := rfl

end Sys2Proof.Machine
end

