-- ==== Sys2Proof/Laws/Memory.lean ====
section
/-! SUPPORT. The memory and the MEM port: reading back a write, what a write leaves alone, the canonical form. -/

namespace Sys2Proof.Machine

/-! ## One byte -/

/-- A byte written reads back. -/
theorem Memory.read_write_same (m : Memory) (a : Nat) (v : Byte) : (m.write a v).read a = some v := by
  induction m with
  | nil => simp [Memory.write, Memory.read]
  | cons kb m ih =>
    obtain ⟨k, b⟩ := kb
    simp only [Memory.write]
    split
    · simp [Memory.read]
    · split
      · simp [Memory.read]
      · simp_all [Memory.read]

/-- A write leaves every other byte alone. -/
theorem Memory.read_write_other (m : Memory) (a c : Nat) (v : Byte) (h : c ≠ a) : (m.write a v).read c = m.read c := by
  induction m with
  | nil => simp [Memory.write, Memory.read, h]
  | cons kb m ih =>
    obtain ⟨k, b⟩ := kb
    simp only [Memory.write]
    split
    · simp [Memory.read, h]
    · split
      · next hk => subst hk; simp [Memory.read, h]
      · simp [Memory.read, ih]

/-- The first key of a well-formed memory is below those that follow. -/
theorem Memory.wf_cons {k : Nat} {b : Byte} {m : Memory} (h : Memory.wf ((k, b) :: m) = true) :
    m.wf = true ∧ ∀ kb ∈ m.head?, k < kb.1 := by
  cases m with
  | nil => simp [Memory.wf]
  | cons kb m => obtain ⟨k', b'⟩ := kb; simp [Memory.wf] at h ⊢; exact ⟨h.2, h.1⟩

/-- A well-formed memory with a lower key put in front is well formed. -/
theorem Memory.wf_of_head {k : Nat} {b : Byte} {m : Memory} (h : m.wf = true) (hk : ∀ kb ∈ m.head?, k < kb.1) :
    Memory.wf ((k, b) :: m) = true := by
  cases m with
  | nil => simp [Memory.wf]
  | cons kb m => obtain ⟨k', b'⟩ := kb; simp [Memory.wf] at hk ⊢; exact ⟨hk, h⟩

/-- The first key after a write: the written key or the one that was first. -/
theorem Memory.head_write (m : Memory) (a : Nat) (v : Byte) :
    ∀ kb ∈ (m.write a v).head?, kb.1 = a ∨ ∃ b, (kb.1, b) ∈ m.head? := by
  cases m with
  | nil => simp [Memory.write]
  | cons x m =>
    obtain ⟨k, b⟩ := x
    simp only [Memory.write]
    split
    · simp
    · split <;> simp

/-- A write keeps the canonical form. -/
theorem Memory.wf_write (m : Memory) (a : Nat) (v : Byte) (h : m.wf = true) : (m.write a v).wf = true := by
  induction m with
  | nil => simp [Memory.write, Memory.wf]
  | cons kb m ih =>
    obtain ⟨k, b⟩ := kb
    have hc := Memory.wf_cons h
    simp only [Memory.write]
    split
    · next hlt => exact Memory.wf_of_head h (by simpa using hlt)
    · split
      · next _ heq => subst heq; exact Memory.wf_of_head hc.1 hc.2
      · next hlt hne =>
        refine Memory.wf_of_head (ih hc.1) ?_
        intro x hx
        rcases Memory.head_write m a v x hx with h1 | ⟨b', h1⟩
        · omega
        · exact hc.2 (x.1, b') h1

/-! ## Several bytes -/

/-- Writes at a list of keys keep the canonical form. -/
theorem Memory.wf_writeAll (m : Memory) (kbs : List (Nat × Byte)) (h : m.wf = true) : (m.writeAll kbs).wf = true := by
  induction kbs generalizing m with
  | nil => exact h
  | cons kb kbs ih => exact ih _ (Memory.wf_write m kb.1 kb.2 h)

/-- Writes at a list of keys leave every other byte alone. -/
theorem Memory.read_writeAll_other (m : Memory) (kbs : List (Nat × Byte)) (c : Nat) (h : ∀ kb ∈ kbs, c ≠ kb.1) :
    (m.writeAll kbs).read c = m.read c := by
  induction kbs generalizing m with
  | nil => rfl
  | cons kb kbs ih =>
    simp only [List.mem_cons, forall_eq_or_imp] at h
    show Memory.read ((m.write kb.1 kb.2).writeAll kbs) c = _
    rw [ih _ h.2, Memory.read_write_other _ _ _ _ h.1]

/-! ## The MEM port -/

/-- A read changes no byte (R87). -/
@[simp] theorem Bus.readBytes_mem (b : Bus) (pa : DWord) (n : Nat) (secure : Bool) :
    (b.readBytes pa n secure).2.mem = b.mem := by
  unfold Bus.readBytes
  dsimp only
  split
  · rfl
  · rfl
  · split <;> rfl

/-- A read changes no byte (R87). -/
@[simp] theorem Bus.physRead_mem (b : Bus) (pa : DWord) (n : Nat) (secure be : Bool) :
    (b.physRead pa n secure be).2.mem = b.mem := by
  simp [Bus.physRead]

/-- An accepted write stores the bytes of the value and no other; a refused one stores nothing. -/
theorem Bus.physWrite_mem (b : Bus) (pa : DWord) (n : Nat) (v : DWord) (secure be : Bool) :
    (b.physWrite pa n v secure be).2.mem =
      if (b.physWrite pa n v secure be).1 then
        b.mem.writeAll ((byteKeys secure pa (layOut be n v).length).zip (layOut be n v))
      else b.mem := by
  unfold Bus.physWrite
  dsimp only
  rcases b.script with _ | ⟨_ | _, _⟩
  · dsimp only
    split
    · rfl
    · split <;> rfl
  · rfl
  · rfl

/-- A write keeps the canonical form. -/
theorem Bus.physWrite_wf (b : Bus) (pa : DWord) (n : Nat) (v : DWord) (secure be : Bool) (h : b.mem.wf = true) :
    (b.physWrite pa n v secure be).2.mem.wf = true := by
  rw [Bus.physWrite_mem]
  split
  · exact Memory.wf_writeAll _ _ h
  · exact h

/-- The bytes of a value, in memory order, are as many as it has. -/
@[simp] theorem layOut_length (be : Bool) (n : Nat) (v : DWord) : (layOut be n v).length = n := by
  unfold layOut bytesLE
  split <;> simp

/-- A write leaves every byte outside the `n` bytes at `pa` alone. -/
theorem Bus.physWrite_other (b : Bus) (pa : DWord) (n : Nat) (v : DWord) (secure be : Bool) (c : Nat)
    (h : c ∉ byteKeys secure pa n) : (b.physWrite pa n v secure be).2.mem.read c = b.mem.read c := by
  rw [Bus.physWrite_mem]
  split
  · refine Memory.read_writeAll_other _ _ _ fun kb hkb hc => h ?_
    rw [layOut_length] at hkb
    exact hc ▸ (List.of_mem_zip hkb).1
  · rfl

/-! ## Translations read and never write (R87) -/

/-- A loader that changes no byte of memory. -/
def Loader.readsOnly (ld : Loader) : Prop := ∀ b level pa sec, (ld b level pa sec).2.mem = b.mem

theorem physLoad_readsOnly (s : State) (r : Regime) (n : Nat) (long : Bool) : (physLoad s r n long).readsOnly := by
  intro b level pa sec
  unfold physLoad
  have h := Bus.physRead_mem b pa n sec (bit (regimeSctlr s r) 25)
  revert h
  rcases b.physRead pa n sec (bit (regimeSctlr s r) 25) with ⟨_ | _, b'⟩ <;> exact id

theorem longLoop_mem (w : LongWalk) (ld : Loader) (hld : ld.readsOnly) (va : DWord) (fuel : Nat) :
    ∀ (table : DWord) (tattr : BitVec 5) (mask : DWord) (b : Bus),
      (longLoop w ld va fuel table tattr mask b).2.mem = b.mem := by
  induction fuel with
  | zero =>
    intro table tattr mask b
    unfold longLoop
    dsimp only
    have h := hld b (3 - 0) ((table ||| ((va >>> w.shift (3 - 0)) &&& mask)) &&& ~~~ 7) (!bit tattr 4)
    revert h
    rcases ld b (3 - 0) ((table ||| ((va >>> w.shift (3 - 0)) &&& mask)) &&& ~~~ 7) (!bit tattr 4) with ⟨_ | d, b'⟩
    · exact id
    · intro h
      dsimp only
      split
      · exact h
      · split <;> exact h
  | succ fuel ih =>
    intro table tattr mask b
    unfold longLoop
    dsimp only
    have h := hld b (3 - (fuel + 1)) ((table ||| ((va >>> w.shift (3 - (fuel + 1))) &&& mask)) &&& ~~~ 7) (!bit tattr 4)
    revert h
    rcases ld b (3 - (fuel + 1)) ((table ||| ((va >>> w.shift (3 - (fuel + 1))) &&& mask)) &&& ~~~ 7) (!bit tattr 4)
      with ⟨_ | d, b'⟩
    · exact id
    · intro h
      dsimp only
      split
      · exact h
      · split
        · exact h
        · split
          · rw [ih]; exact h
          · exact h

theorem walkLong_mem (s : State) (ld : Loader) (hld : ld.readsOnly) (r : Regime) (va : DWord) (kind : Access) (b : Bus) :
    (walkLong s ld r va kind b).2.mem = b.mem := by
  unfold walkLong
  split
  · rfl
  · next w _ =>
    split
    · rfl
    · have h := longLoop_mem w ld hld va (3 - w.level) w.base (if regimeSecure r then 0 else 0b10000) w.firstMask b
      revert h
      rcases longLoop w ld va (3 - w.level) w.base (if regimeSecure r then 0 else 0b10000) w.firstMask b with ⟨_ | _, _⟩
        <;> exact id

theorem walkStage2_mem (s : State) (ipa : DWord) (kind : Access) (b : Bus) :
    (walkStage2 s ipa kind b).2.mem = b.mem := walkLong_mem _ _ (physLoad_readsOnly _ _ _ _) _ _ _ _

theorem nestedLoad_readsOnly (s : State) (r : Regime) (n : Nat) (long : Bool) : (nestedLoad s r n long).readsOnly := by
  intro b level pa sec
  unfold nestedLoad
  have h := walkStage2_mem s pa .load b
  revert h
  rcases walkStage2 s pa .load b with ⟨_ | x, b'⟩
  · exact id
  · intro h
    dsimp only
    rw [physLoad_readsOnly s r n long]
    exact h

theorem loaderOf_readsOnly (s : State) (r : Regime) (n : Nat) (long : Bool) : (loaderOf s r n long).readsOnly := by
  unfold loaderOf
  split
  · split
    · exact nestedLoad_readsOnly _ _ _ _
    · exact physLoad_readsOnly _ _ _ _
  · exact physLoad_readsOnly _ _ _ _

theorem walkShortLegacy_mem (s : State) (ld : Loader) (hld : ld.readsOnly) (r : Regime) (va : Word) (kind : Access)
    (b : Bus) : (walkShortLegacy s ld r va kind b).2.mem = b.mem := by
  unfold walkShortLegacy
  split
  · rfl
  · next l1 _ =>
    have h := hld b 1 (zext l1) (regimeSecure r)
    revert h
    rcases ld b 1 (zext l1) (regimeSecure r) with ⟨_ | d, b1⟩
    · exact id
    · intro h
      dsimp only at h ⊢
      split
      · exact h
      · split
        · exact h
        · split
          · exact h
          · have h2 := hld b1 2 (zext (secondLevelAddr (lo32 d) va (decide (field (lo32 d) 0 2 = 3)))) (regimeSecure r)
            rw [h] at h2
            revert h2
            rcases ld b1 2 (zext (secondLevelAddr (lo32 d) va (decide (field (lo32 d) 0 2 = 3)))) (regimeSecure r)
              with ⟨_ | d2, b2⟩ <;> exact id

theorem walkShortExtended_mem (s : State) (ld : Loader) (hld : ld.readsOnly) (r : Regime) (va : Word) (kind : Access)
    (b : Bus) : (walkShortExtended s ld r va kind b).2.mem = b.mem := by
  unfold walkShortExtended
  split
  · rfl
  · next l1 _ =>
    have h := hld b 1 (zext l1) (regimeSecure r)
    revert h
    rcases ld b 1 (zext l1) (regimeSecure r) with ⟨_ | d, b1⟩
    · exact id
    · intro h
      dsimp only at h ⊢
      generalize (if (decide (field (lo32 d) 0 2 ≠ 1) && bit (lo32 d) 18) = true then 0 else field (lo32 d) 5 4) = dom
      split
      · exact h
      · split
        · exact h
        · split
          · exact h
          · have h2 := hld b1 2 (zext (secondLevelAddr (lo32 d) va false)) (regimeSecure r)
            rw [h] at h2
            revert h2
            rcases ld b1 2 (zext (secondLevelAddr (lo32 d) va false)) (regimeSecure r) with ⟨_ | d2, b2⟩ <;> exact id

theorem translateStage_mem (s : State) (r : Regime) (va : DWord) (kind : Access) (b : Bus) :
    (translateStage s r va kind b).2.mem = b.mem := by
  unfold translateStage
  split
  · rfl
  · split
    · exact walkLong_mem _ _ (loaderOf_readsOnly _ _ _ _) _ _ _ _
    · split
      · exact walkShortExtended_mem _ _ (loaderOf_readsOnly _ _ _ _) _ _ _ _
      · exact walkShortLegacy_mem _ _ (loaderOf_readsOnly _ _ _ _) _ _ _ _

theorem translateNested_mem (s : State) (user : Bool) (va : DWord) (kind : Access) (b : Bus) :
    (translateNested s user va kind b).2.mem = b.mem := by
  unfold translateNested
  have h := translateStage_mem s (.s1Ns user) va kind b
  revert h
  rcases translateStage s (.s1Ns user) va kind b with ⟨_ | x1, b1⟩
  · exact id
  · intro h
    dsimp only at h ⊢
    split
    · exact h
    · have h2 := walkStage2_mem s x1.phys kind b1
      rw [h] at h2
      revert h2
      rcases walkStage2 s x1.phys kind b1 with ⟨_ | _, _⟩ <;> exact id

theorem translateOn_mem (s : State) (r : Regime) (va : DWord) (kind : Access) (b : Bus) :
    (translateOn s r va kind b).2.mem = b.mem := by
  unfold translateOn
  split
  · rfl
  · split
    · split
      · exact translateNested_mem _ _ _ _ _
      · exact translateStage_mem _ _ _ _ _
    · exact translateStage_mem _ _ _ _ _

/-- A translation changes nothing but the MEM port, and no byte of memory (R87, R93). -/
theorem translate_frame (s : State) (r : Regime) (va : DWord) (kind : Access) :
    (translate s r va kind).2 = { s with bus := (translateOn s r va kind s.bus).2 } ∧
    (translate s r va kind).2.bus.mem = s.bus.mem := ⟨rfl, translateOn_mem s r va kind s.bus⟩

end Sys2Proof.Machine
end

