-- ==== Sys2Proof/Laws/Inv.lean ====
section
/-! SUPPORT. The invariant, operation by operation: each named update of the state keeps `Inv`. -/

namespace Sys2Proof.Machine

/-! ## Small facts -/

theorem and_not_mask {w : Nat} (v m : BitVec w) : v &&& m &&& ~~~ m = 0 := by
  rw [BitVec.and_assoc]; simp

theorem align_low (v : Word) : v &&& 0xFFFFFFFC &&& 3 = 0 := by
  rw [BitVec.and_assoc]; simp

theorem Lv3.get_set {α : Type} (v : Lv3 α) (l k : Lvl) (a : α) :
    (v.set l a).get k = if k = l then a else v.get k := by
  cases l <;> cases k <;> simp [Lv3.set, Lv3.get]

theorem Banked.get_set {α : Type} (v : Banked α) (b c : Bool) (a : α) :
    (v.set b a).get c = if c = b then a else v.get c := by
  cases b <;> cases c <;> simp [Banked.set, Banked.get]

theorem hi32_zext (w : Word) : hi32 (zext w) = 0 := by
  unfold hi32 zext; ext i hi; simp

/-- Element `i` of a register file after a write at `j`. -/
theorem vget_vset {α : Type} [Inhabited α] {n : Nat} (v : Vector α n) (i j : Nat) (a : α) :
    vget (vset v j a) i = if i = j ∧ i < n then a else vget v i := by
  unfold vget vset
  by_cases hi : i < n
  · by_cases hj : i = j
    · subst hj; simp [hi]
    · simp [hi, hj, Ne.symm hj]
  · simp [hi]

/-! ## Register files and banks -/

theorem Inv.withA32 {s : State} (h : Inv s) (a : A32Regs) (hc : a.cpsr &&& ~~~ cpsrBits = 0)
    (hr : has s.params .m = true → vget a.r 13 &&& 3 = 0) : Inv { s with a32 := a } :=
  { h with cpsr := hc, sp := hr }

theorem Inv.rset {s : State} (h : Inv s) (i : Nat) (v : Word) : Inv (rset s i v) := by
  refine h.withA32 _ h.cpsr fun hm => ?_
  have hm' : s.has .m = true := hm
  dsimp only
  rw [vget_vset]
  split
  · next hi =>
    obtain ⟨hi, _⟩ := hi
    subst hi
    simp only [hm', Bool.true_and, decide_true, if_true]
    exact align_low v
  · exact h.sp hm

theorem Inv.rsetAll {s : State} (h : Inv s) (l : List (Nat × Word)) : Inv (rsetAll s l) := by
  induction l generalizing s with
  | nil => exact h
  | cons p l ih => exact ih (h.rset p.1 p.2)

theorem Inv.xset {s : State} (h : Inv s) (i : Nat) (v : DWord) : Inv (xset s i v) := { h with }

theorem Inv.withCpsr {s : State} (h : Inv s) (w : Word) : Inv (withCpsr s w) :=
  h.withA32 _ (and_not_mask w _) h.sp

theorem Inv.withA64 {s : State} (h : Inv s) (a : A64Regs) (hp : a.pstate &&& ~~~ pstateBits = 0) :
    Inv { s with a64 := a } := { h with pstate := hp }

theorem Inv.pstateWrite {s : State} (h : Inv s) (w : Word) : Inv (pstateWrite s w) :=
  h.withA64 _ (and_not_mask w _)

theorem switchWindow_cpsr (a : A32Regs) (old new : BitVec 5) : (switchWindow a old new).cpsr = a.cpsr := by
  unfold switchWindow; split
  · rfl
  · split <;> rfl

theorem swapBank_cpsr (a : A32Regs) (old new : BitVec 5) : (swapBank a old new).cpsr = a.cpsr := by
  unfold swapBank; split
  · rfl
  · exact switchWindow_cpsr a old new

theorem Inv.switchMode {s : State} (h : Inv s) (hm : has s.params .m = false) (m : BitVec 5) :
    Inv (switchMode s m) := by
  have hc : (swapBank s.a32 (liveMode s) m).cpsr &&& ~~~ cpsrBits = 0 := by rw [swapBank_cpsr]; exact h.cpsr
  exact h.withA32 (swapBank s.a32 (liveMode s) m) hc fun h' => by rw [hm] at h'; cases h'

theorem Inv.cpsrWrite {s : State} (h : Inv s) (hm : has s.params .m = false) (val mask : Word) (wt : WriteType) :
    Inv (cpsrWrite s val mask wt) := by
  unfold Machine.cpsrWrite
  dsimp only
  split
  · split
    · exact h.withCpsr _
    · split
      · split <;> exact h.withCpsr _
      · exact (h.switchMode hm _).withCpsr _
  · exact h.withCpsr _

theorem Inv.saveSp {s : State} (h : Inv s) (el : Nat) : Inv (saveSp s el) := { h with }

theorem Inv.restoreSp {s : State} (h : Inv s) (el : Nat) : Inv (restoreSp s el) := h.xset _ _

theorem Inv.selectSp {s : State} (h : Inv s) (v : Bool) : Inv (selectSp s v) :=
  ((h.saveSp _).pstateWrite _).restoreSp _

theorem saveActive_cpsr (a : A32Regs) (m : BitVec 5) : (saveActive a m).cpsr = a.cpsr := by
  unfold saveActive saveBank; dsimp only; split <;> rfl

theorem saveActive_r (a : A32Regs) (m : BitVec 5) : (saveActive a m).r = a.r := by
  unfold saveActive saveBank; dsimp only; split <;> rfl

theorem Inv.sync32To64 {s : State} (h : Inv s) : Inv (sync32To64 s) := by
  have hc : (saveActive s.a32 (liveMode s)).cpsr &&& ~~~ cpsrBits = 0 := by rw [saveActive_cpsr]; exact h.cpsr
  have hr : has s.params .m = true → vget (saveActive s.a32 (liveMode s)).r 13 &&& 3 = 0 := by
    rw [saveActive_r]; exact h.sp
  exact (h.withA32 (saveActive s.a32 (liveMode s)) hc hr).withA64 _ h.pstate

theorem loadBank_cpsr (a : A32Regs) (m : BitVec 5) : (loadBank a m).cpsr = a.cpsr := by unfold loadBank; rfl

theorem reloaded_cpsr (a : A32Regs) (m : BitVec 5) (pc : Word) : (reloaded a m pc).cpsr = a.cpsr := by
  unfold reloaded
  dsimp only
  rw [loadBank_cpsr]

theorem unmapped_cpsr (s : State) : (unmapped s).cpsr = s.a32.cpsr := by unfold unmapped; rfl

theorem Inv.sync64To32 {s : State} (h : Inv s) (hm : has s.params .m = false) : Inv (sync64To32 s) := by
  unfold Machine.sync64To32
  refine h.withA32 _ ?_ fun h' => by rw [hm] at h'; cases h'
  rw [reloaded_cpsr, unmapped_cpsr]
  exact h.cpsr

/-! ## Stacks of the microcontroller profile -/

theorem banked_align {b : Banked Word} (h : ∀ k, b.get k &&& 3 = 0) (k : Bool) (v : Word) (c : Bool) :
    (b.set k (v &&& 0xFFFFFFFC)).get c &&& 3 = 0 := by
  rw [Banked.get_set]; split
  · exact align_low v
  · exact h c

theorem SlotsOk.spSet {m : MRegs} (h : SlotsOk m.mainSp m.processSp) (k p : Bool) (v : Word) :
    SlotsOk (spSet m k p v).mainSp (spSet m k p v).processSp := by
  cases p
  · exact ⟨banked_align h.main k v, h.process⟩
  · exact ⟨h.main, banked_align h.process k v⟩

theorem spSet_secure (m : MRegs) (k p : Bool) (v : Word) : (spSet m k p v).secure = m.secure := by
  unfold spSet; cases p <;> rfl

theorem spSet_xpsr (m : MRegs) (k p : Bool) (v : Word) : (spSet m k p v).xpsr = m.xpsr := by
  unfold spSet; cases p <;> rfl

/-- A change of the registers of the microcontroller profile that keeps their invariants. -/
theorem Inv.withM {s : State} (h : Inv s) (m : MRegs) (hs : SlotsOk m.mainSp m.processSp)
    (hx : m.xpsr &&& ~~~ xpsrBits = 0) (hk : m.secure = true → has s.params .mSecurity = true) : Inv { s with m := m } :=
  { h with slots := hs, xpsr := hx, secure := hk }

theorem Inv.withXpsr {s : State} (h : Inv s) (w : Word) : Inv (withXpsr s w) :=
  h.withM _ h.slots (and_not_mask w _) h.secure

theorem Inv.spSet {s : State} (h : Inv s) (k p : Bool) (v : Word) : Inv { s with m := spSet s.m k p v } :=
  h.withM _ (h.slots.spSet k p v) (by rw [spSet_xpsr]; exact h.xpsr) (by rw [spSet_secure]; exact h.secure)

theorem Inv.setStackOf {s : State} (h : Inv s) (k p : Bool) (v : Word) : Inv (setStackOf s k p v) := by
  unfold Machine.setStackOf
  split
  · exact h.rset _ _
  · exact h.spSet _ _ _

theorem Inv.withStackSwitch {s : State} (h : Inv s) (f : MRegs → MRegs) (hs : SlotsOk (f s.m).mainSp (f s.m).processSp)
    (hx : (f s.m).xpsr &&& ~~~ xpsrBits = 0) (hk : (f s.m).secure = true → has s.params .mSecurity = true) :
    Inv (withStackSwitch s f) := by
  unfold Machine.withStackSwitch
  dsimp only
  split
  · exact h.withM _ hs hx hk
  · refine Inv.rset ?_ _ _
    exact h.withM _ (hs.spSet _ _ _) (by rw [spSet_xpsr]; exact hx) (by rw [spSet_secure]; exact hk)

theorem withStackSwitch_params (s : State) (f : MRegs → MRegs) : (withStackSwitch s f).params = s.params := by
  unfold withStackSwitch; dsimp only; split <;> rfl

theorem Inv.mSwitchSecurity {s : State} (h : Inv s) (b : Bool) : Inv (mSwitchSecurity s b) :=
  h.withStackSwitch _ h.slots h.xpsr fun hk => (Bool.and_eq_true_iff.mp hk).2

theorem Inv.setException {s : State} (h : Inv s) (n : BitVec 9) : Inv (setException s n) :=
  h.withStackSwitch _ h.slots h.xpsr h.secure

theorem Inv.setControl {s : State} (h : Inv s) (k : Bool) (v : BitVec 4) : Inv (setControl s k v) :=
  h.withStackSwitch _ h.slots h.xpsr h.secure

/-! ## Control-register storage -/

theorem Inv.withSys {s : State} (h : Inv s) (sys : SysRegs) (hs : ∀ l, hi32 (sys.sctlr.get l) = 0)
    (he : ∀ l, hi32 (sys.esr.get l) = 0) : Inv { s with sys := sys } :=
  { h with reserved := { h.reserved with sctlr := hs, esr := he } }

theorem Inv.withEsr {s : State} (h : Inv s) (l : Lvl) (w : Word) :
    Inv { s with sys := { s.sys with esr := s.sys.esr.set l (zext w) } } :=
  h.withSys _ h.reserved.sctlr fun k => by
    dsimp only
    rw [Lv3.get_set]; split
    · exact hi32_zext w
    · exact h.reserved.esr k

theorem Inv.withSctlr {s : State} (h : Inv s) (l : Lvl) (w : Word) :
    Inv { s with sys := { s.sys with sctlr := s.sys.sctlr.set l (zext w) } } :=
  h.withSys _ (fun k => by
    dsimp only
    rw [Lv3.get_set]; split
    · exact hi32_zext w
    · exact h.reserved.sctlr k) h.reserved.esr

theorem vtor_low (w : Word) : w &&& 0xFFFFFF80 &&& 0x7F = 0 := by
  rw [BitVec.and_assoc]; simp

theorem aircr_mask (w : Word) : w &&& 0x6000 &&& ~~~ 0x6000 = 0 := and_not_mask w _

theorem cfsr_mask (w : Word) : w &&& 0xFFFF00FF &&& 0x0000FF00 = 0 := by
  rw [BitVec.and_assoc]; simp

theorem Inv.cfsrSet {s : State} (h : Inv s) (k : Bool) (v : Word) : Inv (cfsrSet s k v) := by
  refine { h with reserved := { h.reserved with cfsr := fun c => ?_ } }
  show (s.msys.cfsr.set k (v &&& 0xFFFF00FF)).get c &&& 0x0000FF00 = 0
  rw [Banked.get_set]; split
  · exact cfsr_mask v
  · exact h.reserved.cfsr c

theorem fieldOk_exists {p : Params} {f : FieldId} (h : fieldOk p f = true) (hf : f ≠ .none) : fieldExists p f = true := by
  unfold fieldOk at h
  simp only [hf, decide_false, Bool.false_or, Bool.and_eq_true] at h
  exact h.2

/-- The fields of an entry of the registry exist. -/
theorem Inv.field {s : State} (h : Inv s) {e : Entry} (he : e ∈ s.reg) : fieldOk s.params e.field = true := by
  have := h.registry e he
  unfold entryOk at this
  exact (Bool.and_eq_true_iff.mp this).2

theorem phaseSet_settled {p : Phase} (v : DWord) (h : p ≠ .taking ∧ p ≠ .returning) :
    phaseSet p v ≠ .taking ∧ phaseSet p v ≠ .returning := by
  unfold phaseSet
  split
  · exact ⟨nofun, nofun⟩
  · split
    · exact ⟨nofun, nofun⟩
    · split
      · exact ⟨nofun, nofun⟩
      · exact h

theorem length_tset (t : List Word) (i : Nat) (v : Word) : (tset t i v).length = t.length := List.length_set

/-- A property of every word of a table is kept by storing a word that has it. -/
theorem forall_tset {P : Word → Prop} {t : List Word} (h : ∀ w ∈ t, P w) (i : Nat) {v : Word} (hv : P v) :
    ∀ w ∈ tset t i v, P w := by
  intro w hw
  rcases List.mem_or_eq_of_mem_set hw with hw | rfl
  · exact h w hw
  · exact hv

/-- The same for the tables of both banks. -/
theorem forall_set_tset {P : Word → Prop} {b : Banked (List Word)} (h : ∀ k, ∀ w ∈ b.get k, P w) (k : Bool) (n : Nat)
    {v : Word} (hv : P v) (c : Bool) : ∀ w ∈ (b.set k (tset (b.get k) n v)).get c, P w := by
  rw [Banked.get_set]; split
  · exact forall_tset (h k) n hv
  · exact h c

theorem base_mask (w : Word) : w &&& ~~~ 0x1F &&& 0x1F = 0 := by rw [BitVec.and_assoc]; simp

theorem limit_mask (w : Word) : w &&& ~~~ 0x1C &&& 0x1C = 0 := by rw [BitVec.and_assoc]; simp

theorem length_set_tset {b : Banked (List Word)} {m : Nat} (h : ∀ k, (b.get k).length = m) (k : Bool) (n : Nat) (w : Word)
    (c : Bool) : ((b.set k (tset (b.get k) n w)).get c).length = m := by
  rw [Banked.get_set]; split
  · rw [length_tset]; exact h k
  · exact h c

theorem Inv.fieldSet {s : State} (h : Inv s) (f : FieldId) (v : DWord) (hf : fieldOk s.params f = true) :
    Inv (fieldSet s f v) := by
  cases f
  case gpr i => exact h.rset _ _
  case xreg i => exact h.xset _ _
  case msp k p => exact h.spSet _ _ _
  case control k => exact h.setControl _ _
  case sctlr l => exact h.withSctlr _ _
  case esr l => exact h.withEsr _ _
  case cfsr k => exact h.cfsrSet _ _
  case vtor k =>
    refine { h with reserved := { h.reserved with vtor := fun c => ?_ } }
    show (s.msys.vtor.set k _).get c &&& 0x7F = 0
    rw [Banked.get_set]; split
    · exact vtor_low _
    · exact h.reserved.vtor c
  case aircr => exact { h with reserved := { h.reserved with aircr := aircr_mask _ } }
  case primask k => exact { h with slots := { h.slots with } }
  case faultmask k => exact { h with slots := { h.slots with } }
  case basepri k => exact { h with slots := { h.slots with } }
  case mpuRnr k => exact { h with tables := { h.tables with } }
  case mpuCtrl k => exact { h with tables := { h.tables with } }
  case mpuMair0 k => exact { h with tables := { h.tables with } }
  case mpuMair1 k => exact { h with tables := { h.tables with } }
  case sauCtrl => exact { h with tables := { h.tables with } }
  case sauRnr => exact { h with tables := { h.tables with } }
  case cpsr => exact h.withCpsr _
  case pstate => exact h.pstateWrite _
  case xpsr => exact h.withXpsr _
  case mException => exact h.setException _
  case mSecure => exact h.mSwitchSecurity _
  case aarch64 => exact { h with width := fun hl => (Bool.and_eq_true_iff.mp hl).2 }
  case locked => exact { h with lock := fun hl => (Bool.and_eq_true_iff.mp hl).2 }
  case phase =>
    have hp := phaseSet_settled v ⟨h.taking, h.returning⟩
    exact { h with taking := hp.1, returning := hp.2 }
  case rgnr => exact { h with tables := { h.tables with } }
  case mpuRbarAt k n =>
    refine { h with tables := { h.tables with
      rbar := length_set_tset h.tables.rbar k n _
      base := fun hm hv => forall_set_tset (h.tables.base hm hv) k n ?_ } }
    show lo32 v &&& baseBits s &&& 0x1F = 0
    have hb : baseBits s = ~~~ 0x1F := by unfold baseBits; rw [show s.has .m = true from hm, show s.has .v8 = false from hv]; rfl
    rw [hb]; exact base_mask _
  case mpuRsrAt k n => exact { h with tables := { h.tables with rsr := length_set_tset h.tables.rsr k n _ } }
  case mpuRacrAt k n => exact { h with tables := { h.tables with racr := length_set_tset h.tables.racr k n _ } }
  case mpuRlarAt k n => exact { h with tables := { h.tables with rlar := length_set_tset h.tables.rlar k n _ } }
  case sauRbarAt n =>
    exact { h with tables := { h.tables with
      sauRbar := (length_tset _ _ _).trans h.tables.sauRbar
      sauBase := forall_tset h.tables.sauBase n (base_mask _) } }
  case sauRlarAt n =>
    exact { h with tables := { h.tables with
      sauRlar := (length_tset _ _ _).trans h.tables.sauRlar
      sauLimit := forall_tset h.tables.sauLimit n (limit_mask _) } }
  all_goals exact { h with reserved := { h.reserved with } }

theorem Inv.entryWrite {s : State} (h : Inv s) (e : Entry) (v : DWord) (he : fieldOk s.params e.field = true) :
    Inv (entryWrite s e v) := by
  unfold Machine.entryWrite
  split
  · exact h
  · exact h.fieldSet _ _ he

theorem Inv.entryStore {s : State} (h : Inv s) (e : Entry) (v : DWord) (he : fieldOk s.params e.field = true) :
    Inv (entryStore s e v) := by
  unfold Machine.entryStore
  split
  · exact h.fieldSet _ _ he
  · split
    · exact h
    · exact h.fieldSet _ _ he

end Sys2Proof.Machine
end

