-- ==== Sys2Proof/Laws/InvOps.lean ====
section
/-! SUPPORT. The invariant over the registry, the MEM port and the responses. -/

namespace Sys2Proof.Machine

/-! ## Parts of the state -/

theorem Inv.withRegions {s : State} (h : Inv s) (r : Regions) (ht : TablesOk s.params r) : Inv { s with regions := r } :=
  { h with tables := ht }

theorem Inv.withBus {s : State} (h : Inv s) (b : Bus) (hb : b.mem.wf = true) : Inv { s with bus := b } :=
  { h with mem := hb }

/-- A phase that lasts from one command to the next (R472). -/
def Settled (p : Phase) : Prop := p ≠ .taking ∧ p ≠ .returning

theorem settled_none : Settled .none := ⟨nofun, nofun⟩
theorem settled_pending : Settled .pending := ⟨nofun, nofun⟩
theorem settled_active : Settled .active := ⟨nofun, nofun⟩

theorem Inv.withExc {s : State} (h : Inv s) (e : ExcState) (he : Settled e.phase) : Inv { s with exc := e } :=
  { h with taking := he.1, returning := he.2 }

theorem Inv.settled {s : State} (h : Inv s) : Settled s.exc.phase := ⟨h.taking, h.returning⟩

theorem Inv.withPorts {s : State} (h : Inv s) (p : Ports) : Inv { s with ports := p } := { h with }

theorem Inv.withMsys {s : State} (h : Inv s) (m : MSysRegs) (hv : m.vtor = s.msys.vtor) (ha : m.aircr = s.msys.aircr)
    (hc : m.cfsr = s.msys.cfsr) : Inv { s with msys := m } :=
  { h with reserved := { h.reserved with
      vtor := by rw [hv]; exact h.reserved.vtor
      aircr := by rw [ha]; exact h.reserved.aircr
      cfsr := by rw [hc]; exact h.reserved.cfsr } }

theorem Inv.withLocked {s : State} (h : Inv s) (hm : has s.params .m = true) : Inv { s with locked := true } :=
  { h with lock := fun _ => hm }

theorem Inv.withExclAddr {s : State} (h : Inv s) (v : DWord) : Inv { s with exclAddr := v } := { h with }

theorem Inv.withDraws {s : State} (h : Inv s) (n : Nat) : Inv { s with draws := n } := { h with }

theorem Inv.withAarch64 {s : State} (h : Inv s) (b : Bool) (hb : b = true → has s.params .aarch64 = true) :
    Inv { s with aarch64 := b } := { h with width := hb }

theorem Inv.pulse {s : State} (h : Inv s) : Inv (pulse s) := h.withPorts _

theorem Inv.pulseIf {s : State} (h : Inv s) (b : Bool) : Inv (pulseIf s b) := by
  cases b
  · exact h
  · exact h.pulse

theorem Inv.respondList {s : State} (h : Inv s) (st : Status) (r0 r1 : DWord) (out : List (Word × DWord)) :
    Inv (respondList s st r0 r1 out) := h.withPorts _

theorem Inv.respond {s : State} (h : Inv s) (st : Status) (r0 r1 : DWord) : Inv (respond s st r0 r1) := h.withPorts _

theorem Inv.ok {s : State} (h : Inv s) (r0 r1 : DWord) : Inv (ok s r0 r1) := h.withPorts _

theorem Inv.illegal {s : State} (h : Inv s) : Inv (illegal s) := h.withPorts _

theorem Inv.lockedOut {s : State} (h : Inv s) : Inv (lockedOut s) := h.withPorts _

theorem Inv.unlessLocked {s t : State} (h : Inv s) (ht : Inv t) : Inv (unlessLocked s t) := by
  unfold Machine.unlessLocked; split
  · exact h.lockedOut
  · exact ht

theorem Inv.answerXlate {s : State} (h : Inv s) (x : XResult) : Inv (answerXlate s x) := by
  cases x <;> exact h.withPorts _

/-! ## Region views -/

theorem Inv.selectRegion {s : State} (h : Inv s) (k : Bool) (n : Nat) : Inv (selectRegion s k n) := by
  unfold Machine.selectRegion; split
  · exact h.withRegions _ { h.tables with }
  · exact h

theorem Inv.setRbar {s : State} (h : Inv s) (k : Bool) (i : Nat) (v : Word)
    (hv : has s.params .m = true → has s.params .v8 = false → v &&& 0x1F = 0) :
    Inv { s with regions := { s.regions with rbar := s.regions.rbar.set k (tset (s.regions.rbar.get k) i v) } } :=
  h.withRegions _ { h.tables with
    rbar := length_set_tset h.tables.rbar k i v
    base := fun hm h8 => forall_set_tset (h.tables.base hm h8) k i (hv hm h8) }

theorem Inv.setRsr {s : State} (h : Inv s) (k : Bool) (i : Nat) (v : Word) :
    Inv { s with regions := { s.regions with rsr := s.regions.rsr.set k (tset (s.regions.rsr.get k) i v) } } :=
  h.withRegions _ { h.tables with rsr := length_set_tset h.tables.rsr k i v }

theorem Inv.setRacr {s : State} (h : Inv s) (k : Bool) (i : Nat) (v : Word) :
    Inv { s with regions := { s.regions with racr := s.regions.racr.set k (tset (s.regions.racr.get k) i v) } } :=
  h.withRegions _ { h.tables with racr := length_set_tset h.tables.racr k i v }

theorem Inv.writeOlderRbar {s : State} (h : Inv s) (k : Bool) (v : Word) : Inv (writeOlderRbar s k v) := by
  unfold Machine.writeOlderRbar
  dsimp only
  split
  · exact (h.selectRegion _ _).setRbar _ _ _ fun _ _ => base_mask _
  · exact h.setRbar _ _ _ fun _ _ => base_mask _

theorem Inv.writeRasr {s : State} (h : Inv s) (k : Bool) (v : Word) : Inv (writeRasr s k v) :=
  (h.setRsr k _ _).setRacr k _ _

/-- The microcontroller profile has the views of R58 and R59 only, the general one those of R56. -/
theorem regionRegOf_general {k : Word} {b : Bool} (h : regionRegOf b k = .drbar) : b = false := by
  cases b
  · rfl
  · exfalso
    unfold regionRegOf at h
    rw [if_pos rfl] at h
    split at h
    · split at h <;> cases h
    · cases h

theorem Inv.regionWrite {s : State} (h : Inv s) (k v : Word) : Inv (regionWrite s k v) := by
  unfold Machine.regionWrite
  dsimp only
  split
  · next hr =>
    exact h.setRbar false _ _ fun hm _ => by
      rw [show has s.params .m = false from regionRegOf_general hr] at hm; cases hm
  · exact h.setRsr false _ _
  · exact h.setRacr false _ _
  · split
    · next h8 => exact h.setRbar _ _ _ fun _ hv => by rw [show has s.params .v8 = true from h8] at hv; cases hv
    · exact h.writeOlderRbar _ _
  · next b _ =>
    split
    · exact h.withRegions _ { h.tables with rlar := length_set_tset h.tables.rlar b _ _ }
    · exact h.writeRasr _ _
  · exact h.withRegions _
      { h.tables with
        sauRbar := (length_tset _ _ _).trans h.tables.sauRbar, sauBase := forall_tset h.tables.sauBase _ (base_mask _) }
  · exact h.withRegions _
      { h.tables with
        sauRlar := (length_tset _ _ _).trans h.tables.sauRlar, sauLimit := forall_tset h.tables.sauLimit _ (limit_mask _) }
  · exact h

theorem Inv.specialWrite {s : State} (h : Inv s) (e : Entry) (v : DWord) (he : fieldOk s.params e.field = true) : Inv (specialWrite s e v) := by
  unfold Machine.specialWrite
  split
  · exact h
  · split
    · exact h.setStackOf _ _ _
    · exact h.entryWrite _ _ he

/-! ## Hooks and dispatch -/

theorem Inv.hookWrite {s : State} (h : Inv s) (e : Entry) (k : Hook) (v : DWord) (hk : builtInHook k = true)
    (he : fieldOk s.params e.field = true) : Inv (hookWrite s e k v).1 := by
  cases k
  case storeInv => exact h.entryStore _ _ he
  case w1c => exact h.entryWrite _ _ he
  case nzcv => exact h.pstateWrite _
  case daif => exact h.pstateWrite _
  case spSel => exact h.selectSp _
  case hcr => exact h.entryWrite _ _ he
  case regionView =>
    show Inv (if e.field = .none then Machine.regionWrite s e.key (lo32 v) else Machine.entryWrite s e v)
    split
    · exact h.regionWrite _ _
    · exact h.entryWrite _ _ he
  case mSpecial => exact h.specialWrite _ _ he
  case ignoreOutOfRange =>
    show Inv (if v.toNat < numberLimit s e.field then Machine.entryWrite s e v else s)
    split
    · exact h.entryWrite _ _ he
    · exact h
  case catalog id => cases hk
  all_goals exact h

theorem builtIn_hooks {e : Entry} (h : hooksBuiltIn e = true) :
    builtInHook e.accessfn = true ∧ builtInHook e.readfn = true ∧ builtInHook e.writefn = true ∧
    builtInHook e.resetfn = true ∧ builtInHook e.rawReadfn = true ∧ builtInHook e.rawWritefn = true := by
  unfold hooksBuiltIn at h
  simp only [Bool.and_eq_true] at h
  exact ⟨h.1.1.1.1.1, h.1.1.1.1.2, h.1.1.1.2, h.1.1.2, h.1.2, h.2⟩

theorem entryOk_hooks {p : Params} {e : Entry} (h : entryOk p e = true) : hooksBuiltIn e = true :=
  (Bool.and_eq_true_iff.mp h).1

theorem entryOk_field {p : Params} {e : Entry} (h : entryOk p e = true) : fieldOk p e.field = true :=
  (Bool.and_eq_true_iff.mp h).2

theorem Inv.dispatchWrite {s : State} (h : Inv s) (e : Entry) (v : DWord) (he : entryOk s.params e = true) :
    Inv (dispatchWrite s e v).1 := by
  unfold Machine.dispatchWrite
  split
  · exact h
  · split
    · exact h.hookWrite _ _ _ (builtIn_hooks (entryOk_hooks he)).2.2.1 (entryOk_field he)
    · exact h.entryStore _ _ (entryOk_field he)

theorem Inv.hookReset {s : State} (h : Inv s) (e : Entry) (k : Hook) (hk : builtInHook k = true) :
    Inv (hookReset s e k) := by
  cases k
  case catalog id => cases hk
  all_goals exact h

theorem Inv.resetOne {s : State} (h : Inv s) (e : Entry) (he : entryOk s.params e = true) : Inv (resetOne s e) := by
  unfold Machine.resetOne
  split
  · exact h
  · split
    · exact h.hookReset _ _ (builtIn_hooks (entryOk_hooks he)).2.2.2.1
    · split
      · exact h
      · split
        · exact (h.withDraws _).fieldSet _ _ (entryOk_field he)
        · exact h.fieldSet _ _ (entryOk_field he)

theorem fieldSet_params (s : State) (f : FieldId) (v : DWord) : (fieldSet s f v).params = s.params := by
  cases f
  case control k => exact withStackSwitch_params _ _
  case mException => exact withStackSwitch_params _ _
  case mSecure => exact withStackSwitch_params _ _
  all_goals rfl

theorem resetOne_params (s : State) (e : Entry) : (resetOne s e).params = s.params := by
  unfold resetOne
  split
  · rfl
  · split
    · unfold hookReset; split <;> rfl
    · split
      · rfl
      · split <;> exact fieldSet_params _ _ _

theorem Inv.resetEntries {s : State} (h : Inv s) (es : List Entry) (he : ∀ e ∈ es, entryOk s.params e = true) :
    Inv (resetEntries s es) := by
  induction es generalizing s with
  | nil => exact h
  | cons e es ih =>
    refine ih (h.resetOne e (he e (.head _))) fun x hx => ?_
    rw [resetOne_params]
    exact he x (.tail _ hx)

theorem resetEntries_params (s : State) (es : List Entry) : (resetEntries s es).params = s.params := by
  induction es generalizing s with
  | nil => rfl
  | cons e es ih => exact (ih _).trans (resetOne_params s e)

theorem Inv.hookRawWrite {s : State} (h : Inv s) (e : Entry) (k : Hook) (v : DWord) (hk : builtInHook k = true)
    (he : fieldOk s.params e.field = true) : Inv (hookRawWrite s e k v) := by
  cases k
  case catalog id => cases hk
  all_goals exact h.entryWrite _ _ he

theorem Inv.rawWrite {s : State} (h : Inv s) (e : Entry) (v : DWord) (he : entryOk s.params e = true) :
    Inv (rawWrite s e v) := by
  unfold Machine.rawWrite
  split
  · exact h
  · split
    · exact h.hookRawWrite _ _ _ (builtIn_hooks (entryOk_hooks he)).2.2.2.2.2 (entryOk_field he)
    · split
      · exact h.entryWrite _ _ (entryOk_field he)
      · exact h.hookWrite _ _ _ (builtIn_hooks (entryOk_hooks he)).2.2.1 (entryOk_field he)

/-- An entry the registry answers is one of its entries. -/
theorem findKey_mem {es : List Entry} {k : Nat} {e : Entry} (h : findKey es k = some e) : e ∈ es := by
  induction es with
  | nil => cases h
  | cons x xs ih =>
    unfold findKey at h
    split at h
    · cases h; exact .head _
    · exact .tail _ (ih h)

/-- An entry the registry answers has the key it was asked for. -/
theorem findKey_key {es : List Entry} {k : Nat} {e : Entry} (h : findKey es k = some e) : e.key.toNat = k := by
  induction es with
  | nil => cases h
  | cons x xs ih =>
    unfold findKey at h
    split at h
    · next hk => cases h; exact Nat.eq_of_beq_eq_true hk
    · exact ih h

theorem lookup_mem {s : State} {k : Word} {e : Entry} (h : lookup s k = some e) : e ∈ s.reg := findKey_mem h

theorem importOne_reg (s : State) (k : Word) (v : DWord) (h : Inv s) :
    Inv (importOne s k v).1 := by
  unfold importOne
  split
  · exact h
  · next e he =>
    split
    · exact h
    · exact h.rawWrite e v (h.registry e (lookup_mem he))

theorem Inv.importAll {s : State} (h : Inv s) (l : List (Word × DWord)) : Inv (importAll s l).1 := by
  induction l generalizing s with
  | nil => exact h
  | cons p l ih => exact ih (importOne_reg s p.1 p.2 h)

theorem Inv.selfCheck {s : State} (h : Inv s) (es : List Entry) (he : ∀ e ∈ es, entryOk s.params e = true) :
    Inv (selfCheck s es).1 := by
  induction es generalizing s with
  | nil => exact h
  | cons e es ih =>
    unfold Machine.selfCheck
    split
    · exact ih h fun x hx => he x (.tail _ hx)
    · refine ih (h.resetOne e (he e (.head _))) fun x hx => ?_
      rw [resetOne_params]
      exact he x (.tail _ hx)

theorem resolveBank_mem {s : State} {k : Word} {e : Entry} (h : resolveBank s k = .entry e) : e ∈ s.reg := by
  unfold resolveBank at h
  dsimp only at h
  split at h
  · next he => cases h; exact lookup_mem he
  · split at h
    · split at h
      · split at h <;> cases h
      · cases h
    · cases h

theorem Inv.crRead {s : State} (h : Inv s) (k : Word) : Inv (crRead s k) := by
  unfold Machine.crRead
  split
  · exact h.respond _ _ _
  · exact h.respond _ _ _
  · exact h.ok _ _
  · split
    · exact h.ok _ _
    · exact h.respond _ _ _

theorem Inv.crWrite {s : State} (h : Inv s) (k : Word) (v : DWord) : Inv (crWrite s k v) := by
  unfold Machine.crWrite
  split
  · exact h.respond _ _ _
  · exact h.respond _ _ _
  · exact h.ok _ _
  · next e he =>
    split
    · exact ((h.dispatchWrite e v (h.registry e (resolveBank_mem he))).pulseIf _).ok _ _
    · exact h.respond _ _ _

/-! ## Translation and the accesses made through it -/

theorem Inv.translate {s : State} (h : Inv s) (r : Regime) (va : DWord) (kind : Access) :
    Inv (translate s r va kind).2 := by
  have hm : (Machine.translate s r va kind).2.bus.mem = s.bus.mem := (translate_frame s r va kind).2
  exact h.withBus (translateOn s r va kind s.bus).2 (by rw [translateOn_mem]; exact h.mem)

theorem Inv.memRead32 {s : State} (h : Inv s) (a : Word) (r : Regime) : Inv (memRead32 s a r).2 := by
  have ht := h.translate r (zext a) .load
  unfold Machine.memRead32
  revert ht
  rcases Machine.translate s r (zext a) .load with ⟨_ | t, s'⟩
  · exact id
  · intro ht
    dsimp only at ht ⊢
    have hb := Bus.physRead_mem s'.bus t.phys 4 t.secure false
    revert hb
    rcases s'.bus.physRead t.phys 4 t.secure false with ⟨_ | v, b⟩ <;> intro hb <;>
      exact ht.withBus b (by dsimp only at hb; rw [hb]; exact ht.mem)

theorem Inv.memWrite32 {s : State} (h : Inv s) (a v : Word) (r : Regime) : Inv (memWrite32 s a v r).2 := by
  have ht := h.translate r (zext a) .store
  unfold Machine.memWrite32
  revert ht
  rcases Machine.translate s r (zext a) .store with ⟨_ | t, s'⟩
  · exact id
  · intro ht
    dsimp only at ht ⊢
    have hb := Bus.physWrite_wf s'.bus t.phys 4 (zext v) t.secure false ht.mem
    revert hb
    rcases s'.bus.physWrite t.phys 4 (zext v) t.secure false with ⟨_ | _, b⟩ <;> intro hb <;> exact ht.withBus b hb

end Sys2Proof.Machine
end

