-- ==== Sys2Proof/Laws/InvExc.lean ====
section
/-! SUPPORT. The invariant over recognising, taking and returning from an exception, general profile. -/

namespace Sys2Proof.Machine

theorem Inv.pend {s : State} (h : Inv s) (kind : BitVec 8) (t : Nat) (a c : DWord) (fr : BitVec 16) (syn fsr : Word) :
    Inv (pend s kind t a c fr syn fsr) := (h.withExc _ settled_pending).ok _ _

theorem Inv.recognizeAsync {s : State} (h : Inv s) (e : Event) (kind : BitVec 8) (t : Nat) (a b c : DWord) :
    Inv (recognizeAsync s e kind t a b c) := by
  unfold Machine.recognizeAsync; split
  · exact h.pend _ _ _ _ _ _ _
  · exact h.respond _ _ _

theorem Inv.recognizeSync {s : State} (h : Inv s) (e : Event) (kind f2 : BitVec 8) (a b c : DWord) :
    Inv (recognizeSync s e kind f2 a b c) := by
  unfold Machine.recognizeSync
  dsimp only
  generalize (if isAbort e then presentedFault s b c else none) = f
  generalize (if tgeRedirects s (plainTarget s e (minElOf f2) f) = true then 2 else plainTarget s e (minElOf f2) f) = t
  split
  · exact h.illegal
  · cases f with
    | none => exact h.pend _ _ _ _ _ _ _
    | some f =>
      dsimp only
      generalize abortWords s e t (isWriteOf f2) f = w
      rcases w with _ | ⟨syn, fsr⟩
      · exact h.illegal
      · exact h.pend _ _ _ _ _ _ _

theorem Inv.recognizeGeneral {s : State} (h : Inv s) (kind f2 : BitVec 8) (a b c : DWord) :
    Inv (recognizeGeneral s kind f2 a b c) := by
  unfold Machine.recognizeGeneral
  split
  · exact h.illegal
  · split
    · exact h.illegal
    · split
      · exact h.illegal
      · split <;> first | exact h.recognizeAsync _ _ _ _ _ _ | exact h.recognizeSync _ _ _ _ _ _

/-! ## Entry -/

theorem Inv.withFar {s : State} (h : Inv s) (f : Lv3 DWord) : Inv { s with sys := { s.sys with far := f } } :=
  h.withSys _ h.reserved.sctlr h.reserved.esr

theorem Inv.writeHpfar {s : State} (h : Inv s) : Inv (writeHpfar s) := by
  unfold Machine.writeHpfar; split
  · exact h.withSys _ h.reserved.sctlr h.reserved.esr
  · exact h

theorem Inv.writeIfar {s : State} (h : Inv s) (l : Lvl) (v : Word) : Inv (writeIfar s l v) := h.withFar _
theorem Inv.writeDfar {s : State} (h : Inv s) (l : Lvl) (v : Word) : Inv (writeDfar s l v) := h.withFar _
theorem Inv.writeEsr {s : State} (h : Inv s) (l : Lvl) (v : Word) : Inv (writeEsr s l v) := h.withEsr _ _
theorem Inv.writeIfsr {s : State} (h : Inv s) (b : Bool) (v : Word) : Inv (writeIfsr s b v) :=
  h.withSys _ h.reserved.sctlr h.reserved.esr

theorem Inv.writeFaultRegs {s : State} (h : Inv s) (r : FaultRegs) (fb : Bool) : Inv (writeFaultRegs s r fb) := by
  cases r
  · exact h
  · exact (h.writeIfsr _ _).writeIfar _ _
  · exact (h.writeEsr _ _).writeDfar _ _
  · exact h.writeEsr _ _

theorem writeFaultRegs_params (s : State) (r : FaultRegs) (fb : Bool) : (writeFaultRegs s r fb).params = s.params := by
  cases r <;> rfl

theorem Inv.withSpsr {s : State} (h : Inv s) (v : DWord) : Inv { s with a32 := { s.a32 with spsr := v } } :=
  h.withA32 _ h.cpsr h.sp

theorem Inv.withElrEl {s : State} (h : Inv s) (v : Lv3 DWord) : Inv { s with a64 := { s.a64 with elrEl := v } } :=
  h.withA64 _ h.pstate

theorem Inv.takeAarch32 {s : State} (h : Inv s) (hm : has s.params .m = false) (o : Outgoing) (m : Mode)
    (mask link newpc : Word) : Inv (takeAarch32 s o m mask link newpc) := by
  have h1 := h.switchMode hm m.num
  unfold Machine.takeAarch32
  dsimp only
  generalize Machine.switchMode s m.num = s1 at h1 ⊢
  have h2 := (h1.withCpsr (setBit s1.a32.cpsr ssPos false)).withSpsr (zext (setBit o.status ssPos false))
  generalize (({ (Machine.withCpsr s1 (setBit s1.a32.cpsr ssPos false)) with
    a32 := { (Machine.withCpsr s1 (setBit s1.a32.cpsr ssPos false)).a32 with
      spsr := zext (setBit o.status ssPos false) } } : State)) = s2 at h2 ⊢
  refine Inv.rset ?_ _ _
  split
  · exact Inv.withElrEl (((h2.withCpsr _).withCpsr _).withCpsr _) _
  · exact Inv.rset (((h2.withCpsr _).withCpsr _).withCpsr _) _ _

theorem Inv.takeTo32 {s : State} (h : Inv s) (hm : has s.params .m = false) (o : Outgoing) (e : Event) (t : Nat)
    (row : EntryRow) : Inv (takeTo32 s o e t row) := by
  unfold Machine.takeTo32
  dsimp only
  have h1 := h.writeFaultRegs row.regs (toMonitor s e t || isSecure s)
  have p1 := writeFaultRegs_params s row.regs (toMonitor s e t || isSecure s)
  generalize Machine.writeFaultRegs s row.regs (toMonitor s e t || isSecure s) = s1 at h1 p1 ⊢
  have hm1 : has s1.params .m = false := by rw [p1]; exact hm
  have h2 : Inv (if inMode s1 .mon = true then { s1 with sys := { s1.sys with scr := setBit s1.sys.scr 0 false } } else s1) := by
    split
    · exact h1.withSys _ h1.reserved.sctlr h1.reserved.esr
    · exact h1
  have p2 : (if inMode s1 .mon = true then { s1 with sys := { s1.sys with scr := setBit s1.sys.scr 0 false } }
      else s1).params = s1.params := by
    split <;> rfl
  generalize (if inMode s1 .mon = true then { s1 with sys := { s1.sys with scr := setBit s1.sys.scr 0 false } } else s1)
    = s2 at h2 p2 ⊢
  exact h2.takeAarch32 (by rw [p2]; exact hm1) _ _ _ _ _

/-- The three conditional writes of R391, each kept by the invariant. -/
theorem Inv.hypFaultRegs {s : State} (h : Inv s) (e : Event) : Inv (hypFaultRegs s e) := by
  unfold Machine.hypFaultRegs
  dsimp only
  refine Inv.writeHpfar ?_
  have h1 : Inv (if e = .prefetchAbort ∨ e = .bkpt then Machine.writeIfar s .l2 (lo32 s.exc.vaddress) else s) := by
    split
    · exact h.writeIfar _ _
    · exact h
  generalize (if e = .prefetchAbort ∨ e = .bkpt then Machine.writeIfar s .l2 (lo32 s.exc.vaddress) else s) = s1 at h1 ⊢
  have h2 : Inv (if e = .dataAbort then Machine.writeDfar s1 .l2 (lo32 s1.exc.vaddress) else s1) := by
    split
    · exact h1.writeDfar _ _
    · exact h1
  generalize (if e = .dataAbort then Machine.writeDfar s1 .l2 (lo32 s1.exc.vaddress) else s1) = s2 at h2 ⊢
  split
  · exact h2
  · exact h2.writeEsr _ _

theorem writeHpfar_params (s : State) : (writeHpfar s).params = s.params := by unfold writeHpfar; split <;> rfl

theorem hypFaultRegs_params (s : State) (e : Event) : (hypFaultRegs s e).params = s.params := by
  unfold hypFaultRegs
  dsimp only
  rw [writeHpfar_params]
  cases e <;> rfl

theorem Inv.takeToHyp {s : State} (h : Inv s) (hm : has s.params .m = false) (o : Outgoing) (e : Event) (off : Word) :
    Inv (takeToHyp s o e off) := by
  unfold Machine.takeToHyp
  dsimp only
  exact (h.hypFaultRegs e).takeAarch32 (by rw [hypFaultRegs_params]; exact hm) _ _ _ _ _

theorem Inv.faultRegs64 {s : State} (h : Inv s) (e : Event) (t : Nat) : Inv (faultRegs64 s e t) := by
  have hsome : ∀ (u : State), Inv u → Inv (if t = 2 then Machine.writeHpfar u else u) := by
    intro u hu
    split
    · exact hu.writeHpfar
    · exact hu
  unfold Machine.faultRegs64
  dsimp only
  cases e <;> first
    | exact hsome _ h
    | exact hsome _ (h.writeEsr _ _)
    | exact hsome _ ((h.withFar _).writeEsr _ _)

theorem Inv.writeBankSpsr {s : State} (h : Inv s) (j : Nat) (v : DWord) : Inv (writeBankSpsr s j v) :=
  h.withA32 _ h.cpsr h.sp

theorem Inv.writeElr {s : State} (h : Inv s) (t : Nat) (v : DWord) : Inv (writeElr s t v) := h.withElrEl _

theorem Inv.saveOutgoing {s : State} (h : Inv s) (t : Nat) : Inv (saveOutgoing s t) := by
  unfold Machine.saveOutgoing
  dsimp only
  refine Inv.writeElr (Inv.writeBankSpsr ?_ _ _) _ _
  split
  · exact h.saveSp _
  · exact h.sync32To64.withCpsr _

theorem Inv.withPc64 {s : State} (h : Inv s) (v : DWord) : Inv (withPc64 s v) := h.withA64 _ h.pstate

theorem faultRegs64_params (s : State) (e : Event) (t : Nat) : (faultRegs64 s e t).params = s.params := by
  unfold faultRegs64
  dsimp only
  split
  · rw [writeHpfar_params]; cases e <;> rfl
  · cases e <;> rfl

theorem saveOutgoing_params (s : State) (t : Nat) : (saveOutgoing s t).params = s.params := by
  unfold saveOutgoing
  dsimp only
  show (if s.aarch64 = true then saveSp s (curEl s) else _ : State).params = s.params
  split <;> rfl

/-- A level in the 64-bit state exists with `F_AARCH64` only (R147). -/
theorem elIsA64_aarch64 {s : State} {el : Nat} (h : elIsA64 s el = true) : has s.params .aarch64 = true := by
  unfold elIsA64 at h
  split at h
  · next hn => cases h
  · next hn => simpa [State.has] using hn

theorem Inv.takeTo64 {s : State} (h : Inv s) (e : Event) (t : Nat) (ht : elIsA64 s t = true) : Inv (takeTo64 s e t) := by
  unfold Machine.takeTo64
  dsimp only
  have h1 := ((h.faultRegs64 e t).saveOutgoing t).pstateWrite (handlerPstate (liveStatus s) t)
  refine ((h1.withAarch64 true fun _ => ?_).restoreSp t).withPc64 _
  show has (Machine.saveOutgoing (Machine.faultRegs64 s e t) t).params .aarch64 = true
  rw [saveOutgoing_params, faultRegs64_params]
  exact elIsA64_aarch64 ht

theorem leave64_params (s : State) : (leave64 s).params = s.params := rfl

theorem Inv.leave64 {s : State} (h : Inv s) (hm : has s.params .m = false) : Inv (leave64 s) :=
  (((h.saveSp _).withAarch64 false nofun).withCpsr _).sync64To32 hm

theorem Inv.entered {s t : State} (h : Inv s) (hm : has s.params .m = false) (e : Event) (l : Nat)
    (ht : entered s e l = some t) : Inv t := by
  unfold Machine.entered at ht
  dsimp only at ht
  split at ht
  · next ha => cases ht; exact h.takeTo64 _ _ ha
  · have h1 : Inv (if s.aarch64 = true then Machine.leave64 s else s) := by
      split
      · exact h.leave64 hm
      · exact h
    have hm1 : has (if s.aarch64 = true then Machine.leave64 s else s).params .m = false := by
      split
      · rw [leave64_params]; exact hm
      · exact hm
    generalize (if s.aarch64 = true then Machine.leave64 s else s) = s1 at h1 hm1 ht
    split at ht
    · cases ho : hypOffset e with
      | none => rw [ho] at ht; cases ht
      | some off => rw [ho] at ht; cases ht; exact h1.takeToHyp hm1 _ _ _
    · cases ho : entryRow s1 e with
      | none => rw [ho] at ht; cases ht
      | some row => rw [ho] at ht; cases ht; exact h1.takeTo32 hm1 _ _ _ _

theorem Inv.clearExclusive {s : State} (h : Inv s) : Inv (clearExclusive s) := h.withExclAddr _

theorem Inv.withPhase {s : State} (h : Inv s) (p : Phase) (hp : Settled p) : Inv (withPhase s p) := h.withExc _ hp

theorem Inv.answerPc {s : State} (h : Inv s) : Inv (answerPc s) := h.ok _ _

theorem Inv.takeGeneral {s : State} (h : Inv s) (hm : has s.params .m = false) : Inv (takeGeneral s) := by
  unfold Machine.takeGeneral
  dsimp only
  split
  · exact h.illegal
  · split
    · exact h.illegal
    · split
      · exact h.illegal
      · split
        · exact h.illegal
        · next u hu => exact ((h.entered hm _ _ hu).clearExclusive.withPhase _ settled_active).answerPc

/-! ## Return -/

theorem or_and_mask {w : Nat} (a b c : BitVec w) : (a ||| b) &&& c = a &&& c ||| b &&& c := by
  ext i; simp [Bool.and_or_distrib_right]

theorem pstate_setBit {w : Word} (h : w &&& ~~~ pstateBits = 0) (i : Nat) (hi : (BitVec.twoPow 32 i) &&& ~~~ pstateBits = 0)
    (b : Bool) : setBit w i b &&& ~~~ pstateBits = 0 := by
  cases b
  · show w &&& ~~~ BitVec.twoPow 32 i &&& ~~~ pstateBits = 0
    rw [BitVec.and_assoc, BitVec.and_comm (~~~ BitVec.twoPow 32 i), ← BitVec.and_assoc, h]; simp
  · show (w ||| BitVec.twoPow 32 i) &&& ~~~ pstateBits = 0
    rw [or_and_mask, h, hi]; simp

theorem Inv.dropSs64 {s : State} (h : Inv s) : Inv (dropSs64 s) := by
  unfold Machine.dropSs64; split
  · exact h
  · exact h.withA64 _ (pstate_setBit h.pstate _ (by decide) _)

theorem Inv.dropSs32 {s : State} (h : Inv s) : Inv (dropSs32 s) := by
  unfold Machine.dropSs32; split
  · exact h
  · exact h.withCpsr _

theorem Inv.illegalReturn64 {s : State} (h : Inv s) (c : Nat) (spsr : Word) : Inv (illegalReturn64 s c spsr) := by
  unfold Machine.illegalReturn64
  dsimp only
  have hw : merge (setBit s.a64.pstate ilPos true) spsr (nzcvBits ||| daifBits) &&& ~~~ pstateBits = 0 := by
    have h1 := pstate_setBit h.pstate ilPos (by decide) true
    unfold merge
    rw [or_and_mask]
    have h2 : spsr &&& (nzcvBits ||| daifBits) &&& ~~~ pstateBits = 0 := by
      have h4 : ((nzcvBits ||| daifBits) &&& ~~~ pstateBits : Word) = 0 := by decide
      rw [BitVec.and_assoc, h4]; simp
    have h3 : setBit s.a64.pstate ilPos true &&& ~~~ (nzcvBits ||| daifBits) &&& ~~~ pstateBits = 0 := by
      rw [BitVec.and_assoc, BitVec.and_comm (~~~ (nzcvBits ||| daifBits)), ← BitVec.and_assoc, h1]; simp
    rw [h2, h3]; simp
  exact Inv.restoreSp (Inv.dropSs64 (Inv.withPc64 (h.withA64 _ hw) _)) _

theorem Inv.returnTo64 {s : State} (h : Inv s) (c el : Nat) (spsr : Word) : Inv (returnTo64 s c el spsr) :=
  (((h.pstateWrite spsr).dropSs64).restoreSp el).withPc64 _

theorem cpsrWrite_params (s : State) (val mask : Word) (wt : WriteType) : (cpsrWrite s val mask wt).params = s.params := by
  unfold cpsrWrite
  dsimp only
  split
  · split
    · rfl
    · split
      · split <;> rfl
      · rfl
  · rfl

theorem dropSs32_params (s : State) : (dropSs32 s).params = s.params := by unfold dropSs32; split <;> rfl

theorem Inv.returnTo32 {s : State} (h : Inv s) (hm : has s.params .m = false) (c : Nat) (spsr : Word) :
    Inv (returnTo32 s c spsr) := by
  unfold Machine.returnTo32
  dsimp only
  have h1 := (h.withAarch64 false nofun).cpsrWrite hm spsr 0xFFFFFFFF .raw
  have p1 := cpsrWrite_params { s with aarch64 := false } spsr 0xFFFFFFFF .raw
  generalize Machine.cpsrWrite { s with aarch64 := false } spsr 0xFFFFFFFF .raw = s1 at h1 p1 ⊢
  exact (h1.dropSs32.sync64To32 (by rw [dropSs32_params, p1]; exact hm)).rset _ _

theorem Inv.return64 {s : State} (h : Inv s) (hm : has s.params .m = false) : Inv (return64 s) := by
  unfold Machine.return64
  dsimp only
  have h1 := h.saveSp (curEl s)
  have hm1 : has (Machine.saveSp s (curEl s)).params .m = false := hm
  split
  · exact h1.illegalReturn64 _ _
  · split
    · exact h1.illegalReturn64 _ _
    · split
      · exact h1.returnTo64 _ _ _
      · exact h1.returnTo32 hm1 _ _

theorem Inv.return32 {s : State} (h : Inv s) (hm : has s.params .m = false) (pc : Word) : Inv (return32 s pc) := by
  unfold Machine.return32
  dsimp only
  exact ((h.cpsrWrite hm _ _ _).withCpsr _).rset _ _

theorem Inv.returnGeneral {s : State} (h : Inv s) (hm : has s.params .m = false) (a : DWord) :
    Inv (returnGeneral s a) := by
  unfold Machine.returnGeneral
  have h1 := h.clearExclusive
  have hm1 : has (Machine.clearExclusive s).params .m = false := hm
  dsimp only
  split
  · exact h.illegal
  · split
    · exact h.illegal
    · split
      · exact h.illegal
      · split
        · exact h.illegal
        · refine Inv.answerPc (Inv.withPhase ?_ _ settled_none)
          split
          · exact h1.return64 hm1
          · split
            · exact h1.return32 hm1 _
            · exact h1.return32 hm1 _

end Sys2Proof.Machine
end

