-- ==== Sys2Proof/Laws/InvMicro.lean ====
section
/-! SUPPORT. The invariant over recognising, taking and returning from an exception, microcontroller profile. -/

namespace Sys2Proof.Machine

/-- The invariant, on the microcontroller profile. -/
structure InvM (s : State) : Prop where
  inv : Inv s
  prof : has s.params .m = true

theorem InvM.to {s t : State} (h : InvM s) (ht : Inv t) (hp : t.params = s.params) : InvM t := ⟨ht, by rw [hp]; exact h.prof⟩

/-! ## Named updates -/

theorem InvM.rset {s : State} (h : InvM s) (i : Nat) (v : Word) : InvM (rset s i v) := h.to (h.inv.rset _ _) rfl
theorem InvM.withXpsr {s : State} (h : InvM s) (w : Word) : InvM (withXpsr s w) := h.to (h.inv.withXpsr _) rfl
theorem InvM.setCfsr {s : State} (h : InvM s) (k : Bool) (w : Word) : InvM (setCfsr s k w) := h.to (h.inv.cfsrSet _ _) rfl
theorem InvM.setSfsr {s : State} (h : InvM s) (b : Byte) : InvM (setSfsr s b) := h.to (h.inv.withMsys _ rfl rfl rfl) rfl
theorem InvM.setHfsr {s : State} (h : InvM s) (w : Word) : InvM (setHfsr s w) := h.to (h.inv.withMsys _ rfl rfl rfl) rfl
theorem InvM.withSfar {s : State} (h : InvM s) (w : Word) : InvM (withSfar s w) := h.to (h.inv.withMsys _ rfl rfl rfl) rfl
theorem InvM.withBfar {s : State} (h : InvM s) (w : Word) : InvM (withBfar s w) := h.to (h.inv.withMsys _ rfl rfl rfl) rfl
theorem InvM.withMmfar {s : State} (h : InvM s) (k : Bool) (w : Word) : InvM (withMmfar s k w) :=
  h.to (h.inv.withMsys _ rfl rfl rfl) rfl
theorem InvM.ok {s : State} (h : InvM s) (a b : DWord) : InvM (ok s a b) := h.to (h.inv.ok _ _) rfl
theorem InvM.illegal {s : State} (h : InvM s) : InvM (illegal s) := h.to h.inv.illegal rfl
theorem InvM.lock {s : State} (h : InvM s) : InvM { s with locked := true } := h.to (h.inv.withLocked h.prof) rfl
theorem InvM.lockedOut {s : State} (h : InvM s) : InvM (lockedOut s) := h.to h.inv.lockedOut rfl
theorem InvM.withExc {s : State} (h : InvM s) (e : ExcState) (he : Settled e.phase) : InvM { s with exc := e } :=
  h.to (h.inv.withExc e he) rfl
theorem InvM.withBus {s : State} (h : InvM s) (b : Bus) (hb : b.mem.wf = true) : InvM { s with bus := b } :=
  h.to (h.inv.withBus b hb) rfl
theorem InvM.withM {s : State} (h : InvM s) (m : MRegs) (hs : SlotsOk m.mainSp m.processSp)
    (hx : m.xpsr &&& ~~~ xpsrBits = 0) (hk : m.secure = true → has s.params .mSecurity = true) : InvM { s with m := m } :=
  h.to (h.inv.withM m hs hx hk) rfl
theorem InvM.clearExclusive {s : State} (h : InvM s) : InvM (clearExclusive s) := h.to h.inv.clearExclusive rfl
theorem InvM.withPhase {s : State} (h : InvM s) (p : Phase) (hp : Settled p) : InvM (withPhase s p) :=
  h.to (h.inv.withPhase p hp) rfl

theorem InvM.setException {s : State} (h : InvM s) (n : BitVec 9) : InvM (setException s n) :=
  h.to (h.inv.setException n) (withStackSwitch_params _ _)
theorem InvM.mSwitchSecurity {s : State} (h : InvM s) (b : Bool) : InvM (mSwitchSecurity s b) :=
  h.to (h.inv.mSwitchSecurity b) (withStackSwitch_params _ _)
theorem InvM.withSpsel {s : State} (h : InvM s) (k v : Bool) : InvM (withSpsel s k v) :=
  h.to (h.inv.setControl k _) (withStackSwitch_params _ _)

theorem setStackOf_params (s : State) (k p : Bool) (v : Word) : (setStackOf s k p v).params = s.params := by
  unfold setStackOf; split <;> rfl

theorem InvM.setStackOf {s : State} (h : InvM s) (k p : Bool) (v : Word) : InvM (setStackOf s k p v) :=
  h.to (h.inv.setStackOf k p v) (setStackOf_params _ _ _ _)

theorem rsetAll_params (s : State) (l : List (Nat × Word)) : (rsetAll s l).params = s.params := by
  induction l generalizing s with
  | nil => rfl
  | cons p l ih => exact ih _

theorem InvM.zeroRegs {s : State} (h : InvM s) (is : List Nat) : InvM (zeroRegs s is) :=
  h.to (h.inv.rsetAll _) (rsetAll_params _ _)

theorem InvM.pendDerived {s : State} (h : InvM s) (n : Nat) (k : Bool) (lr : Word) : InvM (pendDerived s n k lr) :=
  (h.withExc _ settled_pending).ok _ _

theorem InvM.chainFault {s : State} (h : InvM s) (n : Nat) (k : Bool) (x : Word) : InvM (chainFault s n k x) :=
  (h.withExc { s.exc with syndrome := 0 } h.inv.settled).pendDerived _ _ _

/-! ## RECOGNIZE -/

theorem InvM.classifyAbort {s : State} (h : InvM s) (e : MEvent) (f : FaultRec) (a : Word) :
    InvM (classifyAbort s e f a).2.2 := by
  unfold Machine.classifyAbort
  dsimp only
  split <;> first
    | exact h.setSfsr _
    | exact h.setCfsr _ _
    | exact (h.setSfsr _).withSfar _
    | exact (h.setCfsr _ _).withBfar _
    | exact (h.setCfsr _ _).withMmfar _ _

theorem InvM.classify {s : State} (h : InvM s) (e : MEvent) (f : FaultRec) (a : Word) : InvM (classify s e f a).2.2 := by
  cases e <;> first
    | exact h
    | exact h.setCfsr _ _
    | exact h.classifyAbort _ _ _

theorem InvM.recognizeNumber {s : State} (h : InvM s) (kind f2 : BitVec 8) (c : DWord) :
    InvM (recognizeNumber s kind f2 c) := by
  unfold Machine.recognizeNumber
  dsimp only
  split
  · exact h.illegal
  · split
    · exact h.illegal
    · exact (h.withExc _ settled_pending).ok _ _

theorem InvM.recognizeEvent {s : State} (h : InvM s) (e : MEvent) (kind : BitVec 8) (a b : DWord) (f : FaultRec) :
    InvM (recognizeEvent s e kind a b f) := by
  have hc := h.classify e f (lo32 a)
  unfold Machine.recognizeEvent
  split
  · split
    · exact h.to (h.inv.respond _ _ _) rfl
    · exact hc.lock.lockedOut
  · dsimp only
    exact (hc.withExc _ settled_pending).ok _ _

theorem InvM.recognizeMicro {s : State} (h : InvM s) (kind f2 : BitVec 8) (a b c : DWord) :
    InvM (recognizeMicro s kind f2 a b c) := by
  unfold Machine.recognizeMicro
  split
  · exact h.illegal
  · split
    · exact h.recognizeNumber _ _ _
    · split
      · exact h.illegal
      · split
        · split
          · exact h.illegal
          · exact h.recognizeEvent _ _ _ _ _
        · exact h.recognizeEvent _ _ _ _ _

/-! ## Frames -/

theorem memRead32_params (s : State) (a : Word) (r : Regime) : (memRead32 s a r).2.params = s.params := by
  unfold memRead32
  have ht : (translate s r (zext a) .load).2.params = s.params := rfl
  revert ht
  rcases translate s r (zext a) .load with ⟨_ | t, s'⟩
  · exact id
  · intro ht
    dsimp only at ht ⊢
    rcases s'.bus.physRead t.phys 4 t.secure false with ⟨_ | v, b⟩ <;> exact ht

theorem memWrite32_params (s : State) (a v : Word) (r : Regime) : (memWrite32 s a v r).2.params = s.params := by
  unfold memWrite32
  have ht : (translate s r (zext a) .store).2.params = s.params := rfl
  revert ht
  rcases translate s r (zext a) .store with ⟨_ | t, s'⟩
  · exact id
  · intro ht
    dsimp only at ht ⊢
    rcases s'.bus.physWrite t.phys 4 (zext v) t.secure false with ⟨_ | _, b⟩ <;> exact ht

theorem InvM.memRead32 {s : State} (h : InvM s) (a : Word) (r : Regime) : InvM (memRead32 s a r).2 :=
  h.to (h.inv.memRead32 a r) (memRead32_params s a r)

theorem InvM.memWrite32 {s : State} (h : InvM s) (a v : Word) (r : Regime) : InvM (memWrite32 s a v r).2 :=
  h.to (h.inv.memWrite32 a v r) (memWrite32_params s a v r)

theorem InvM.classifyFrame {α : Type} {s : State} (h : InvM s) (o : MemOutcome α) (r : Regime) (push : Bool) (a : Word) :
    InvM (classifyFrame s o r push a).2 := by
  unfold Machine.classifyFrame
  split
  · split
    · exact (h.setSfsr _).withSfar _
    · exact h.setCfsr _ _
  · exact h.setCfsr _ _

theorem InvM.pushWords {s : State} (h : InvM s) (r : Regime) (l : List (Word × Word)) : InvM (pushWords s r l).2 := by
  induction l generalizing s with
  | nil => exact h
  | cons p l ih =>
    obtain ⟨a, v⟩ := p
    have hw := h.memWrite32 a v r
    unfold Machine.pushWords
    revert hw
    rcases Machine.memWrite32 s a v r with ⟨_ | _ | _, s'⟩ <;> intro hw
    · exact ih hw
    · exact hw.classifyFrame _ _ _ _
    · exact hw.classifyFrame _ _ _ _

theorem InvM.popRegs {s : State} (h : InvM s) (r : Regime) (l : List (Word × Nat)) : InvM (popRegs s r l).2 := by
  induction l generalizing s with
  | nil => exact h
  | cons p l ih =>
    obtain ⟨a, i⟩ := p
    have hw := h.memRead32 a r
    unfold Machine.popRegs
    revert hw
    rcases Machine.memRead32 s a r with ⟨_ | _ | _, s'⟩ <;> intro hw
    · exact ih (hw.rset _ _)
    · exact hw.classifyFrame _ _ _ _
    · exact hw.classifyFrame _ _ _ _

theorem InvM.popWord {s : State} (h : InvM s) (r : Regime) (a : Word) : InvM (popWord s r a).2 := by
  have hw := h.memRead32 a r
  unfold Machine.popWord
  revert hw
  rcases Machine.memRead32 s a r with ⟨_ | _ | _, s'⟩ <;> intro hw
  · exact hw
  · exact hw.classifyFrame _ _ _ _
  · exact hw.classifyFrame _ _ _ _

theorem InvM.pushBasicFrame {s : State} (h : InvM s) : InvM (pushBasicFrame s).2 := by
  unfold Machine.pushBasicFrame
  rcases frameTop s with ⟨top, realigned⟩
  exact (h.pushWords _ _).rset _ _

theorem InvM.pushCalleeFrame {s : State} (h : InvM s) (lr : Word) (chain : Bool) :
    InvM (pushCalleeFrame s lr chain).2 := by
  unfold Machine.pushCalleeFrame
  split
  · exact (h.pushWords _ _).setStackOf _ _ _
  · exact (h.pushWords _ _).rset _ _

theorem InvM.scrub {s : State} (h : InvM s) (b : Bool) : InvM (scrub s b) := by
  unfold Machine.scrub
  dsimp only
  refine InvM.withXpsr ?_ _
  split
  · exact (h.zeroRegs _).zeroRegs _
  · exact h.zeroRegs _

theorem InvM.adjustCallee {s : State} (h : InvM s) (lr : Word) (ts chain : Bool) (d : Option Derived) :
    InvM (adjustCallee s lr ts chain d).2 := by
  unfold Machine.adjustCallee
  split
  · split
    · exact h
    · split
      · have hp := h.pushCalleeFrame lr chain
        revert hp
        rcases Machine.pushCalleeFrame s lr chain with ⟨d2, s'⟩
        intro hp
        dsimp only at hp ⊢
        split <;> exact hp
      · exact h
  · exact h

theorem InvM.adjustLr {s : State} (h : InvM s) (lr : Word) (ts chain : Bool) (d : Option Derived) :
    InvM (adjustLr s lr ts chain d).2 := by
  unfold Machine.adjustLr
  split
  · exact h
  · have hp := h.adjustCallee lr ts chain d
    revert hp
    rcases Machine.adjustCallee s lr ts chain d with ⟨_ | _, s'⟩
    · intro hp
      dsimp only at hp ⊢
      split
      · exact hp.scrub _
      · exact hp
    · exact id

/-! ## Vector fetch and activation -/

theorem InvM.fetchVector {s : State} (h : InvM s) (n : Nat) (ts : Bool) : InvM (fetchVector s n ts).2 := by
  unfold Machine.fetchVector
  dsimp only
  split
  · exact h.setHfsr _
  · next sec _ =>
    have hb := Bus.physRead_mem s.bus (zext (s.msys.vtor.get ts + BitVec.ofNat 32 (4 * n))) 4 sec false
    revert hb
    rcases s.bus.physRead (zext (s.msys.vtor.get ts + BitVec.ofNat 32 (4 * n))) 4 sec false with ⟨_ | v, b⟩ <;> intro hb
    · exact (h.withBus b (by dsimp only at hb; rw [hb]; exact h.inv.mem)).setHfsr _
    · exact h.withBus b (by dsimp only at hb; rw [hb]; exact h.inv.mem)

theorem InvM.activate {s : State} (h : InvM s) (n : Nat) (ts : Bool) (lr v : Word) : InvM (activate s n ts lr v) := by
  unfold Machine.activate
  dsimp only
  have h1 := ((((h.setException (BitVec.ofNat 9 n)).mSwitchSecurity ts).withSpsel ts false).clearExclusive)
  generalize Machine.clearExclusive
    (Machine.withSpsel (Machine.mSwitchSecurity (Machine.setException s (BitVec.ofNat 9 n)) ts) ts false) = s1 at h1 ⊢
  have h2 := ((h1.withXpsr (setBit (s1.m.xpsr &&& ~~~ itBits) xtPos (bit v 0))).rset 14 lr).rset 15 (v &&& 0xFFFFFFFE)
  generalize Machine.rset (Machine.rset (Machine.withXpsr s1 (setBit (s1.m.xpsr &&& ~~~ itBits) xtPos (bit v 0))) 14 lr) 15
    (v &&& 0xFFFFFFFE) = s2 at h2 ⊢
  have h3 : InvM (if (decide (n = 3) && bit s2.exc.syndrome 0) = true then Machine.setHfsr s2 forced else s2) := by
    split
    · exact h2.setHfsr _
    · exact h2
  exact h3.withExc _ h3.inv.settled

theorem InvM.takeVector {s : State} (h : InvM s) (n : Nat) (ts : Bool) (lr : Word) (d : Option Derived) :
    InvM (takeVector s n ts lr d) := by
  have hf := h.fetchVector n ts
  unfold Machine.takeVector
  revert hf
  rcases Machine.fetchVector s n ts with ⟨_ | v, s'⟩ <;> intro hf
  · dsimp only
    split
    · exact hf.lock.lockedOut
    · exact hf.pendDerived _ _ _
  · exact ((hf.activate _ _ _ _).withPhase _ settled_active).ok _ _

theorem InvM.takeMicro {s : State} (h : InvM s) : InvM (takeMicro s) := by
  unfold Machine.takeMicro
  dsimp only
  split
  · exact h.illegal
  · have hp : InvM (if s.exc.mDerived = true then (none, s) else Machine.pushBasicFrame s).2 := by
      split
      · exact h
      · exact h.pushBasicFrame
    revert hp
    generalize (if s.exc.mDerived = true then (none, s) else Machine.pushBasicFrame s) = q
    obtain ⟨d, s1⟩ := q
    intro hp
    dsimp only at hp ⊢
    have ha := hp.adjustLr (if s.exc.mDerived = true then s.exc.mLr else initialLr s) s.exc.mSecure s.exc.mDerived d
    revert ha
    generalize Machine.adjustLr s1 (if s.exc.mDerived = true then s.exc.mLr else initialLr s) s.exc.mSecure
      s.exc.mDerived d = q
    rcases q with ⟨⟨lr, _ | d⟩ | _, s2⟩ <;> intro ha
    · exact ha.takeVector _ _ _ _
    · dsimp only at ha ⊢
      split
      · exact ha.pendDerived _ _ _
      · exact ha.takeVector _ _ _ _
    · exact ha.lock.lockedOut

/-! ## EXC_RETURN -/

theorem InvM.clearFaultmask {s : State} (h : InvM s) (es n : Bool) : InvM (clearFaultmask s es n) := by
  unfold Machine.clearFaultmask
  split
  · exact h
  · split
    · exact h
    · exact h.withM _ h.inv.slots h.inv.xpsr h.inv.secure

theorem InvM.popCallee {s : State} (h : InvM s) (x : Word) (r : Regime) (sp : Word) :
    InvM (popCallee s x r sp).2 ∧ ∀ t, (popCallee s x r sp).1 = .error t → InvM t := by
  have h1 := h.popWord r sp
  unfold Machine.popCallee
  revert h1
  rcases Machine.popWord s r sp with ⟨_ | sig, s1⟩ <;> intro h1
  · exact ⟨h1, fun t ht => by cases ht; exact h1.chainFault _ _ _⟩
  · dsimp only at h1 ⊢
    split
    · exact ⟨h1, fun t ht => by cases ht; exact (h1.setSfsr _).chainFault _ _ _⟩
    · have h2 := h1.popRegs r
        [(sp + 0x08, 4), (sp + 0x0C, 5), (sp + 0x10, 6), (sp + 0x14, 7), (sp + 0x18, 8), (sp + 0x1C, 9),
         (sp + 0x20, 10), (sp + 0x24, 11)]
      revert h2
      generalize Machine.popRegs s1 r
        [(sp + 0x08, 4), (sp + 0x0C, 5), (sp + 0x10, 6), (sp + 0x14, 7), (sp + 0x18, 8), (sp + 0x1C, 9),
         (sp + 0x20, 10), (sp + 0x24, 11)] = q
      rcases q with ⟨_ | d, s2⟩ <;> intro h2
      · exact ⟨h2, fun t ht => by cases ht⟩
      · exact ⟨h2, fun t ht => by cases ht; exact h2.chainFault _ _ _⟩

theorem InvM.finishReturn {s : State} (h : InvM s) (th ts p : Bool) (sp x : Word) : InvM (finishReturn s th ts p sp x) := by
  unfold Machine.finishReturn
  dsimp only
  generalize (if bit x spRealignPos = true then (sp + 0x20 ||| 4 : Word) else sp + 0x20) = sp'
  have h1 := ((h.setStackOf ts p sp').withXpsr x).setException (x.extractLsb' 0 9)
  generalize Machine.setException (Machine.withXpsr (Machine.setStackOf s ts p sp') x) (x.extractLsb' 0 9) = s1 at h1 ⊢
  split
  · exact ((h1.setCfsr _ _).withExc _ settled_pending).ok _ _
  · exact (h1.clearExclusive.withPhase _ settled_none).ok _ _

theorem InvM.popBasic {s : State} (h : InvM s) (x : Word) (r : Regime) (th ts p : Bool) (sp : Word) :
    InvM (popBasic s x r th ts p sp) := by
  have h1 := h.popRegs r [(sp, 0), (sp + 0x04, 1), (sp + 0x08, 2), (sp + 0x0C, 3), (sp + 0x10, 12), (sp + 0x14, 14),
    (sp + 0x18, 15)]
  unfold Machine.popBasic
  revert h1
  generalize Machine.popRegs s r [(sp, 0), (sp + 0x04, 1), (sp + 0x08, 2), (sp + 0x0C, 3), (sp + 0x10, 12),
    (sp + 0x14, 14), (sp + 0x18, 15)] = q
  rcases q with ⟨_ | d, s1⟩ <;> intro h1
  · dsimp only at h1 ⊢
    have h2 := h1.popWord r (sp + 0x1C)
    revert h2
    rcases Machine.popWord s1 r (sp + 0x1C) with ⟨_ | xpsr, s2⟩ <;> intro h2
    · exact h2.chainFault _ _ _
    · dsimp only at h2 ⊢
      have h3 := h2.rset 15 (rget s2 15 &&& 0xFFFFFFFE)
      split
      · exact (h3.setCfsr _ _).chainFault _ _ _
      · exact h3.finishReturn _ _ _ _ _
  · exact h1.chainFault _ _ _

theorem InvM.unstack {s : State} (h : InvM s) (x : Word) (th tp ts n : Bool) : InvM (unstack s x th tp ts n) := by
  unfold Machine.unstack
  dsimp only
  split
  · have hp := h.popCallee x (unstackRegime s th ts n) (stackOf s ts (!th && tp))
    revert hp
    rcases Machine.popCallee s x (unstackRegime s th ts n) (stackOf s ts (!th && tp)) with ⟨t | sp, s1⟩ <;> intro hp
    · exact hp.2 t rfl
    · exact hp.1.popBasic _ _ _ _ _ _
  · exact h.popBasic _ _ _ _ _ _

theorem InvM.returnMicro {s : State} (h : InvM s) (a b : DWord) : InvM (returnMicro s a b) := by
  unfold Machine.returnMicro
  split
  · exact h.illegal
  · split
    · exact h.illegal
    · dsimp only
      generalize (if sentinelForged s (lo32 a) = true then setBit (lo32 a) esPos false else lo32 a) = x
      have h1 := (h.clearFaultmask (s.has .mSecurity && bit x esPos) (bit b 2)).withSpsel
        (s.has .mSecurity && bit x esPos) (bit x spselPos)
      generalize Machine.withSpsel (Machine.clearFaultmask s (s.has .mSecurity && bit x esPos) (bit b 2))
        (s.has .mSecurity && bit x esPos) (bit x spselPos) = s1 at h1 ⊢
      split
      · exact (h1.setSfsr _).chainFault _ _ _
      · split
        · exact (h1.setCfsr _ _).chainFault _ _ _
        · exact (h1.mSwitchSecurity _).unstack _ _ _ _ _

end Sys2Proof.Machine
end

