-- ==== Sys2Proof/Laws/InvExec.lean ====
section
/-! SUPPORT. The invariant over reset, construction and the operations as wholes. -/

namespace Sys2Proof.Machine

/-! ## Reset -/

/-- A table of zeros has no bit of a mask set. -/
theorem zeros_mask (n : Nat) (m : Word) : ∀ w ∈ List.replicate n (0 : Word), w &&& m = 0 := by
  intro w hw
  rw [List.eq_of_mem_replicate hw]
  exact BitVec.zero_and

theorem regions_zero (p : Params) : TablesOk p (Regions.zero p) where
  rbar k := by cases k <;> exact List.length_replicate
  rsr k := by cases k <;> exact List.length_replicate
  racr k := by cases k <;> exact List.length_replicate
  rlar k := by cases k <;> exact List.length_replicate
  sauRbar := List.length_replicate
  sauRlar := List.length_replicate
  base _ _ k := by cases k <;> exact zeros_mask _ _
  sauBase := zeros_mask _ _
  sauLimit := zeros_mask _ _

theorem vget_zero13 : vget A32Regs.zero.r 13 &&& 3 = 0 := by decide

theorem reserved_zero : ReservedOk SysRegs.zero MSysRegs.zero :=
  ⟨fun l => by cases l <;> decide, fun l => by cases l <;> decide, fun k => by cases k <;> decide,
    fun k => by cases k <;> decide, by decide⟩

theorem slots_zero : SlotsOk MRegs.zero.mainSp MRegs.zero.processSp :=
  ⟨fun k => by cases k <;> decide, fun k => by cases k <;> decide⟩

theorem zero_masks (m : Word) : (0 : Word) &&& m = 0 := by simp

theorem Inv.clearFields {s : State} (h : Inv s) : Inv (clearFields s) :=
  { h with
    tables := regions_zero _
    cpsr := show (0x1D3 : Word) &&& ~~~cpsrBits = 0 from by decide
    pstate := zero_masks _
    xpsr := zero_masks _
    slots := slots_zero
    sp := fun _ => vget_zero13
    reserved := reserved_zero
    lock := fun h => by cases h
    width := nofun
    secure := nofun
    taking := nofun
    returning := nofun }

theorem Inv.clearRegions {s : State} (h : Inv s) : Inv (clearRegions s) :=
  h.withRegions _ { regions_zero s.params with }

theorem highestEl_lt (p : Params) : highestEl p = 1 ∨ highestEl p = 2 ∨ highestEl p = 3 := by
  unfold highestEl; split
  · exact .inl rfl
  · split
    · exact .inr (.inr rfl)
    · split
      · exact .inr (.inl rfl)
      · exact .inl rfl

theorem Inv.resetMode64 {s : State} (h : Inv s) (ha : has s.params .aarch64 = true) : Inv (resetMode64 s) := by
  have hp : (0x3C1 ||| (BitVec.ofNat 32 (highestEl s.params) <<< 2) : Word) &&& ~~~ pstateBits = 0 := by
    rcases highestEl_lt s.params with e | e | e <;> rw [e] <;> decide
  exact ((h.withAarch64 true fun _ => ha).withA64 _ hp).restoreSp _

theorem Inv.resetMode {s : State} (h : Inv s) : Inv (resetMode s) := by
  unfold Machine.resetMode
  split
  · exact h.withM _ h.slots (zero_masks _) id
  · next hm =>
    have hm' : has s.params .m = false := by simpa [State.has] using hm
    split
    · next ha => exact h.resetMode64 ha
    · have h1 := h.withAarch64 false nofun
      exact h1.withA32 _ (by show (0x1D3 : Word) &&& _ = 0; decide) fun h' => by rw [hm'] at h'; cases h'

theorem Inv.resetPcGeneral {s : State} (h : Inv s) : Inv (resetPcGeneral s) := by
  unfold Machine.resetPcGeneral
  split
  · exact h.withA64 _ h.pstate
  · dsimp only
    split
    · exact (h.withCpsr _).rset _ _
    · exact h.rset _ _

theorem InvM.resetVector {s : State} (h : InvM s) (w0 w1 : Word) : InvM (resetVector s w0 w1) := by
  unfold Machine.resetVector
  dsimp only
  have h1 : InvM { s with m := spSet s.m s.m.secure false w0 } := h.to (h.inv.spSet _ _ _) rfl
  exact ((h1.rset _ _).withXpsr _).rset _ _

theorem InvM.resetPcMicro {s : State} (h : InvM s) : InvM (resetPcMicro s) := by
  unfold Machine.resetPcMicro
  dsimp only
  have h1 := h.rset 14 0xFFFFFFFF
  generalize Machine.rset s 14 0xFFFFFFFF = s1 at h1 ⊢
  have hb := Bus.physRead_mem s1.bus (zext (s1.msys.vtor.get s1.m.secure)) 4 s1.m.secure false
  revert hb
  rcases s1.bus.physRead (zext (s1.msys.vtor.get s1.m.secure)) 4 s1.m.secure false with ⟨w0, b0⟩
  intro hb
  dsimp only at hb ⊢
  have hb2 := Bus.physRead_mem b0 (zext (s1.msys.vtor.get s1.m.secure + 4)) 4 s1.m.secure false
  revert hb2
  rcases b0.physRead (zext (s1.msys.vtor.get s1.m.secure + 4)) 4 s1.m.secure false with ⟨w1, b1⟩
  intro hb2
  dsimp only at hb2 ⊢
  have h2 := h1.withBus b1 (by rw [hb2, hb]; exact h1.inv.mem)
  rcases w0 with _ | w0
  · exact ((h2.rset 13 0).rset 15 0).lock.lockedOut
  · rcases w1 with _ | w1
    · exact ((h2.rset 13 0).rset 15 0).lock.lockedOut
    · exact ⟨((h2.resetVector _ _).inv.pulse).answerPc, (h2.resetVector (lo32 w0) (lo32 w1)).prof⟩

theorem resetMode_params (s : State) : (resetMode s).params = s.params := by
  unfold resetMode; split
  · rfl
  · split <;> rfl

theorem Inv.resetTail {s : State} (h : Inv s) : Inv (resetTail s) := by
  unfold Machine.resetTail
  dsimp only
  have h1 := h.clearRegions.resetMode
  generalize Machine.resetMode (Machine.clearRegions s) = s1 at h1 ⊢
  split
  · next hm => exact (InvM.resetPcMicro ⟨h1, hm⟩).inv
  · exact h1.resetPcGeneral.pulse.answerPc

theorem Inv.withConstructing {s : State} (h : Inv s) (b : Bool) : Inv { s with constructing := b } := { h with }

theorem Inv.cpuReset {s t : State} (h : Inv s) (ht : cpuReset s = .ok t) : Inv t := by
  have h1 := h.clearFields.resetEntries s.reg h.registry
  unfold Machine.cpuReset at ht
  dsimp only at ht
  split at ht
  · have h2 := h1.selfCheck s.reg (by rw [resetEntries_params]; exact h.registry)
    revert h2 ht
    rcases Machine.selfCheck (Machine.resetEntries (Machine.clearFields s) s.reg) s.reg with ⟨s2, _ | _⟩
    · intro ht; cases ht
    · intro ht h2
      cases ht
      exact (h2.withConstructing false).resetTail
  · cases ht; exact h1.resetTail

/-! ## Defining a register -/

theorem insertKey_mem {es : List Entry} {e x : Entry} {k : Nat} (h : x ∈ insertKey es e k) : x = e ∨ x ∈ es := by
  induction es with
  | nil => simpa [insertKey] using h
  | cons y ys ih =>
    unfold insertKey at h
    split at h
    · rcases List.mem_cons.mp h with h | h
      · exact .inl h
      · exact .inr (.tail _ h)
    · rcases List.mem_cons.mp h with h | h
      · exact .inr (h ▸ .head _)
      · rcases ih h with h | h
        · exact .inl h
        · exact .inr (.tail _ h)
    · rcases List.mem_cons.mp h with h | h
      · exact .inl h
      · exact .inr h

theorem defineEntries_mem {reg reg' : List Entry} {es : List Entry} (h : defineEntries reg es = .ok reg') (x : Entry)
    (hx : x ∈ reg') : x ∈ es ∨ x ∈ reg := by
  induction es generalizing reg with
  | nil => cases h; exact .inr hx
  | cons e es ih =>
    unfold defineEntries at h
    have hd : ∀ r1, defineEntry reg e = .ok r1 → ∀ y ∈ r1, y = e ∨ y ∈ reg := by
      intro r1 hr y hy
      unfold defineEntry at hr
      split at hr
      · cases hr; exact insertKey_mem hy
      · split at hr
        · cases hr; exact insertKey_mem hy
        · cases hr
    revert h hd
    rcases defineEntry reg e with _ | r1 <;> intro h hd
    · cases h
    · rcases ih h with h | h
      · exact .inl (.tail _ h)
      · rcases hd r1 rfl x h with h | h
        · exact .inl (h ▸ .head _)
        · exact .inr h

/-- A template's hooks are those of its entries. -/
theorem expand_hooks {d : Template} {e : Entry} (h : e ∈ expand d) :
    e.accessfn = d.accessfn ∧ e.readfn = d.readfn ∧ e.writefn = d.writefn ∧ e.resetfn = d.resetfn ∧
    e.rawReadfn = d.rawReadfn ∧ e.rawWritefn = d.rawWritefn := by
  unfold expand at h
  simp only [List.mem_flatMap] at h
  obtain ⟨_, _, _, _, _, _, h⟩ := h
  unfold entriesAt at h
  simp only [List.mem_append] at h
  have one : ∀ (k : Word) (f : FieldId) (t : BitVec 16), e = entryAt d k f t →
      e.accessfn = d.accessfn ∧ e.readfn = d.readfn ∧ e.writefn = d.writefn ∧ e.resetfn = d.resetfn ∧
      e.rawReadfn = d.rawReadfn ∧ e.rawWritefn = d.rawWritefn := by
    intro k f t he; subst he; exact ⟨rfl, rfl, rfl, rfl, rfl, rfl⟩
  rcases h with (h | h) | h
  · split at h
    · exact one _ _ _ (List.mem_singleton.mp h)
    · cases h
  · split at h
    · obtain ⟨b, _, h⟩ := List.mem_map.mp h
      exact one _ _ _ h.symm
    · cases h
  · split at h
    · obtain ⟨b, _, h⟩ := List.mem_map.mp h
      exact one _ _ _ h.symm
    · cases h

theorem catalogHook_refused {p : Params} (hp : p.hookIds = []) {h : Hook} (hk : hookIdOk p h = true) :
    builtInHook h = true := by
  cases h
  case catalog id => simp [hookIdOk, hp] at hk
  all_goals rfl

/-- The storage of an entry is a field of its template. -/
theorem expand_field {d : Template} {e : Entry} (h : e ∈ expand d) :
    e.field = d.field ∨ e.field = d.bankS ∨ e.field = d.bankNs := by
  have own : ∀ b, bankOwn d b = d.bankS ∨ bankOwn d b = d.bankNs := by
    intro b; unfold bankOwn; split
    · exact .inl rfl
    · exact .inr rfl
  unfold expand at h
  simp only [List.mem_flatMap] at h
  obtain ⟨_, _, _, _, _, _, h⟩ := h
  unfold entriesAt at h
  simp only [List.mem_append] at h
  rcases h with (h | h) | h
  · split at h
    · cases List.mem_singleton.mp h; exact .inl rfl
    · cases h
  · split at h
    · obtain ⟨b, _, rfl⟩ := List.mem_map.mp h
      show bankFieldOf d b = _ ∨ bankFieldOf d b = _ ∨ bankFieldOf d b = _
      unfold bankFieldOf; split
      · exact .inr (own b)
      · exact .inl rfl
    · cases h
  · split at h
    · obtain ⟨b, _, rfl⟩ := List.mem_map.mp h
      show mBankFieldOf d b = _ ∨ mBankFieldOf d b = _ ∨ mBankFieldOf d b = _
      unfold mBankFieldOf; split
      · exact .inr (own b)
      · exact .inl rfl
    · cases h

/-- With no catalog hook defined, a template that passes its checks has entries with built-in hooks and existing fields. -/
theorem checked_entryOk {p : Params} {d : Template} (hp : p.hookIds = []) (h : checkTemplate p d = true) (e : Entry)
    (he : e ∈ expand d) : entryOk p e = true := by
  have hi : checkIds p d = true := by
    unfold checkTemplate at h
    simp only [Bool.and_eq_true] at h
    exact h.1.1.2
  unfold checkIds at hi
  simp only [Bool.and_eq_true, List.all_cons, List.all_nil, Bool.and_true] at hi
  obtain ⟨⟨⟨⟨_, h1, h2, h3, h4, h5, h6⟩, f1, f2, f3⟩, _⟩, _⟩ := hi
  have hk := expand_hooks he
  have r := fun {x} => @catalogHook_refused p hp x
  unfold entryOk hooksBuiltIn
  rw [hk.1, hk.2.1, hk.2.2.1, hk.2.2.2.1, hk.2.2.2.2.1, hk.2.2.2.2.2, r h1, r h2, r h3, r h4, r h5, r h6]
  rcases expand_field he with hf | hf | hf <;> rw [hf]
  · simpa using f1
  · simpa using f2
  · simpa using f3

theorem insertKey_ascends {es : List Entry} {e : Entry} (h : KeysAscend es) : KeysAscend (insertKey es e e.key.toNat) := by
  induction es with
  | nil => exact List.pairwise_singleton _ _
  | cons x xs ih =>
    obtain ⟨hx, hs⟩ := List.pairwise_cons.mp h
    unfold insertKey
    split
    · next _ heq =>
      have hk : x.key.toNat = e.key.toNat := Nat.eq_of_beq_eq_true heq
      exact List.pairwise_cons.mpr ⟨fun y hy => hk ▸ hx y hy, hs⟩
    · next heq hle =>
      refine List.pairwise_cons.mpr ⟨fun y hy => ?_, ih hs⟩
      rcases insertKey_mem hy with rfl | hy
      · have h1 : x.key.toNat ≠ y.key.toNat := fun hh => by rw [hh, Nat.beq_refl] at heq; cases heq
        have h2 := Nat.le_of_ble_eq_true hle
        omega
      · exact hx y hy
    · next heq hle =>
      have h2 : e.key.toNat < x.key.toNat := by
        by_contra hc
        rw [Nat.ble_eq_true_of_le (Nat.le_of_not_lt hc)] at hle
        cases hle
      refine List.pairwise_cons.mpr ⟨fun y hy => ?_, h⟩
      rcases List.mem_cons.mp hy with rfl | hy
      · exact h2
      · exact Nat.lt_trans h2 (hx y hy)

theorem defineEntries_ascends {reg reg' : List Entry} {es : List Entry} (h : defineEntries reg es = .ok reg')
    (hr : KeysAscend reg) : KeysAscend reg' := by
  induction es generalizing reg with
  | nil => cases h; exact hr
  | cons e es ih =>
    unfold defineEntries at h
    have hd : ∀ r1, defineEntry reg e = .ok r1 → KeysAscend r1 := by
      intro r1 h1
      unfold defineEntry at h1
      split at h1
      · cases h1; exact insertKey_ascends hr
      · split at h1
        · cases h1; exact insertKey_ascends hr
        · cases h1
    revert h hd
    rcases defineEntry reg e with _ | r1 <;> intro h hd
    · cases h
    · exact ih h (hd r1 rfl)

theorem defineTemplate_ok {p : Params} {reg reg' : List Entry} {d : Template} {n : Nat} (hp : p.hookIds = [])
    (hr : ∀ e ∈ reg, entryOk p e = true) (ha : KeysAscend reg) (h : defineTemplate p reg d = .ok (reg', n)) :
    (∀ e ∈ reg', entryOk p e = true) ∧ KeysAscend reg' := by
  unfold defineTemplate at h
  split at h
  · next hc =>
    revert h
    rcases he : defineEntries reg (expand d) with _ | r1 <;> intro h
    · cases h
    · cases h
      refine ⟨fun e hx => ?_, defineEntries_ascends he ha⟩
      rcases defineEntries_mem he e hx with h | h
      · exact checked_entryOk hp hc e h
      · exact hr e h
  · cases h

/-! ## The operations of Ops -/

theorem Inv.recognize {s : State} (h : Inv s) (kind f2 : BitVec 8) (a b c : DWord) : Inv (recognize s kind f2 a b c) := by
  unfold Machine.recognize; split
  · exact h.illegal
  · split
    · next hm => exact (InvM.recognizeMicro ⟨h, hm⟩ _ _ _ _ _).inv
    · exact h.recognizeGeneral _ _ _ _ _

theorem has_false {s : State} {f : Feature} (h : ¬ s.has f = true) : has s.params f = false := by
  simpa [State.has] using h

theorem Inv.takeException {s : State} (h : Inv s) : Inv (takeException s) := by
  unfold Machine.takeException; split
  · next hm => exact (InvM.takeMicro ⟨h, hm⟩).inv
  · next hm => exact h.takeGeneral (has_false hm)

theorem Inv.returnFromException {s : State} (h : Inv s) (a b : DWord) : Inv (returnFromException s a b) := by
  unfold Machine.returnFromException; split
  · next hm => exact (InvM.returnMicro ⟨h, hm⟩ _ _).inv
  · next hm => exact h.returnGeneral (has_false hm) _

theorem Inv.gprSet {s : State} (h : Inv s) (g : Gpr) (v : DWord) : Inv (gprSet s g v) := by
  cases g
  · exact h.rset _ _
  · exact h.xset _ _
  · exact h.withPc64 _

theorem Inv.psrWrite {s t : State} (h : Inv s) (wt : WriteType) (v m : Word) (ht : psrWrite s wt v m = some t) : Inv t := by
  unfold Machine.psrWrite at ht
  split at ht
  · cases ht; exact h.withXpsr _
  · next hm =>
    split at ht
    · unfold psrWrite64 at ht
      dsimp only at ht
      split at ht
      · cases ht
      · split at ht
        · cases ht
        · split at ht
          · cases ht
          · cases ht; exact ((h.saveSp _).pstateWrite _).restoreSp _
    · cases ht; exact h.cpsrWrite (has_false hm) _ _ _

theorem Inv.accept {s : State} (h : Inv s) (rest : List Command) : Inv (accept s rest) :=
  (h.withBus { s.bus with reqs := [] } h.mem).withPorts _

end Sys2Proof.Machine
end

