-- ==== Sys2Proof/Laws/PerInstr.lean ====
section
/-! SUPPORT. Statements made of every operation as syntax, one lemma per constructor. -/

namespace Sys2Proof.Laws.Encoded

/-- The mnemonic of an operation (spec/opcode_table.json). -/
def mnemonic : Instr → String
  | .nop => "NOP"
  | .cpuReset => "CPU_RESET"
  | .hasFeature _ => "HAS_FEATURE"
  | .curEl => "CUR_EL"
  | .isSecure => "IS_SECURE"
  | .packMode => "PACK_MODE"
  | .gprRead _ => "GPR_READ"
  | .gprWrite _ _ => "GPR_WRITE"
  | .psrRead => "PSR_READ"
  | .psrWrite _ _ _ => "PSR_WRITE"
  | .crDefine _ => "CR_DEFINE"
  | .crLookup _ => "CR_LOOKUP"
  | .crRead _ => "CR_READ"
  | .crWrite _ _ => "CR_WRITE"
  | .crResetAll => "CR_RESET_ALL"
  | .crRawRead _ => "CR_RAW_READ"
  | .crRawWrite _ _ => "CR_RAW_WRITE"
  | .exportState => "EXPORT_STATE"
  | .importState _ => "IMPORT_STATE"
  | .tlbiLocal => "TLBI_LOCAL"
  | .resolve _ _ => "RESOLVE"
  | .translate _ _ _ => "TRANSLATE"
  | .secAttr _ _ _ => "SEC_ATTR"
  | .recognize _ _ _ _ _ => "RECOGNIZE"
  | .takeException => "TAKE_EXCEPTION"
  | .excReturn _ _ => "EXC_RETURN"

/-- The word the encoder writes for an operation belongs to the operation's row of spec/opcode_table.json. -/
def Statement (i : Instr) : Prop :=
  ∃ r ∈ opRows, r.mnemonic = mnemonic i ∧ (encode i).w &&& r.mask = r.pattern

/-- A row of the table, found by its mnemonic and pattern. -/
theorem row_intro (m : String) (p k w : Word) (h : (⟨m, p, k⟩ : OpRow) ∈ opRows) (hw : w &&& k = p) :
    ∃ r ∈ opRows, r.mnemonic = m ∧ w &&& r.mask = r.pattern := ⟨_, h, rfl, hw⟩

/-- Masking `f1` out of a word without `f2` leaves the operation code. -/
theorem wordOf_and_op_f1 (op f1 : BitVec 8) : wordOf op f1 0 &&& 0xFFFF00FF = op.setWidth 32 := by
  simp only [wordOf]; ext i hi; interval_cases i <;> simp

/-- Masking `f1` and `f2` out of a word leaves the operation code. -/
theorem wordOf_and_op_f1_f2 (op f1 f2 : BitVec 8) : wordOf op f1 f2 &&& 0xFF0000FF = op.setWidth 32 := by
  simp only [wordOf]; ext i hi; interval_cases i <;> simp

theorem nop : Statement .nop :=
  row_intro "NOP" 0x00000000 0xFFFFFFFF _ (by decide)
    (show wordOf 0x00 0 0 &&& 0xFFFFFFFF = 0x00000000 by decide)

theorem cpuReset : Statement .cpuReset :=
  row_intro "CPU_RESET" 0x00000001 0xFFFFFFFF _ (by decide)
    (show wordOf 0x01 0 0 &&& 0xFFFFFFFF = 0x00000001 by decide)

theorem hasFeature (n : BitVec 8) : Statement (.hasFeature n) :=
  row_intro "HAS_FEATURE" 0x00000002 0xFFFF00FF _ (by decide) (wordOf_and_op_f1 _ _)

theorem curEl : Statement .curEl :=
  row_intro "CUR_EL" 0x00000003 0xFFFFFFFF _ (by decide)
    (show wordOf 0x03 0 0 &&& 0xFFFFFFFF = 0x00000003 by decide)

theorem isSecure : Statement .isSecure :=
  row_intro "IS_SECURE" 0x00000004 0xFFFFFFFF _ (by decide)
    (show wordOf 0x04 0 0 &&& 0xFFFFFFFF = 0x00000004 by decide)

theorem packMode : Statement .packMode :=
  row_intro "PACK_MODE" 0x00000005 0xFFFFFFFF _ (by decide)
    (show wordOf 0x05 0 0 &&& 0xFFFFFFFF = 0x00000005 by decide)

theorem gprRead (i : BitVec 8) : Statement (.gprRead i) :=
  row_intro "GPR_READ" 0x00000008 0xFFFF00FF _ (by decide) (wordOf_and_op_f1 _ _)

theorem gprWrite (i : BitVec 8) (v : DWord) : Statement (.gprWrite i v) :=
  row_intro "GPR_WRITE" 0x00000009 0xFFFF00FF _ (by decide) (wordOf_and_op_f1 _ _)

theorem psrRead : Statement .psrRead :=
  row_intro "PSR_READ" 0x0000000A 0xFFFFFFFF _ (by decide)
    (show wordOf 0x0A 0 0 &&& 0xFFFFFFFF = 0x0000000A by decide)

theorem psrWrite (t : BitVec 8) (v m : DWord) : Statement (.psrWrite t v m) :=
  row_intro "PSR_WRITE" 0x0000000B 0xFFFF00FF _ (by decide) (wordOf_and_op_f1 _ _)

theorem crDefine (d : Template) : Statement (.crDefine d) :=
  row_intro "CR_DEFINE" 0x00000010 0xFFFFFFFF _ (by decide)
    (show wordOf 0x10 0 0 &&& 0xFFFFFFFF = 0x00000010 by decide)

theorem crLookup (k : DWord) : Statement (.crLookup k) :=
  row_intro "CR_LOOKUP" 0x00000011 0xFFFFFFFF _ (by decide)
    (show wordOf 0x11 0 0 &&& 0xFFFFFFFF = 0x00000011 by decide)

theorem crRead (k : DWord) : Statement (.crRead k) :=
  row_intro "CR_READ" 0x00000012 0xFFFFFFFF _ (by decide)
    (show wordOf 0x12 0 0 &&& 0xFFFFFFFF = 0x00000012 by decide)

theorem crWrite (k v : DWord) : Statement (.crWrite k v) :=
  row_intro "CR_WRITE" 0x00000013 0xFFFFFFFF _ (by decide)
    (show wordOf 0x13 0 0 &&& 0xFFFFFFFF = 0x00000013 by decide)

theorem crResetAll : Statement .crResetAll :=
  row_intro "CR_RESET_ALL" 0x00000014 0xFFFFFFFF _ (by decide)
    (show wordOf 0x14 0 0 &&& 0xFFFFFFFF = 0x00000014 by decide)

theorem crRawRead (k : DWord) : Statement (.crRawRead k) :=
  row_intro "CR_RAW_READ" 0x00000015 0xFFFFFFFF _ (by decide)
    (show wordOf 0x15 0 0 &&& 0xFFFFFFFF = 0x00000015 by decide)

theorem crRawWrite (k v : DWord) : Statement (.crRawWrite k v) :=
  row_intro "CR_RAW_WRITE" 0x00000016 0xFFFFFFFF _ (by decide)
    (show wordOf 0x16 0 0 &&& 0xFFFFFFFF = 0x00000016 by decide)

theorem exportState : Statement .exportState :=
  row_intro "EXPORT_STATE" 0x00000017 0xFFFFFFFF _ (by decide)
    (show wordOf 0x17 0 0 &&& 0xFFFFFFFF = 0x00000017 by decide)

theorem importState (l : List (Word × DWord)) : Statement (.importState l) :=
  row_intro "IMPORT_STATE" 0x00000018 0xFFFFFFFF _ (by decide)
    (show wordOf 0x18 0 0 &&& 0xFFFFFFFF = 0x00000018 by decide)

theorem tlbiLocal : Statement .tlbiLocal :=
  row_intro "TLBI_LOCAL" 0x00000019 0xFFFFFFFF _ (by decide)
    (show wordOf 0x19 0 0 &&& 0xFFFFFFFF = 0x00000019 by decide)

theorem resolve (k : BitVec 8) (v : DWord) : Statement (.resolve k v) :=
  row_intro "RESOLVE" 0x00000020 0xFFFF00FF _ (by decide) (wordOf_and_op_f1 _ _)

theorem translate (k r : BitVec 8) (v : DWord) : Statement (.translate k r v) :=
  row_intro "TRANSLATE" 0x00000021 0xFF0000FF _ (by decide) (wordOf_and_op_f1_f2 _ _ _)

theorem secAttr (k q : BitVec 8) (v : DWord) : Statement (.secAttr k q v) :=
  row_intro "SEC_ATTR" 0x00000022 0xFF0000FF _ (by decide) (wordOf_and_op_f1_f2 _ _ _)

theorem recognize (k f : BitVec 8) (a b c : DWord) : Statement (.recognize k f a b c) :=
  row_intro "RECOGNIZE" 0x00000030 0xFF0000FF _ (by decide) (wordOf_and_op_f1_f2 _ _ _)

theorem takeException : Statement .takeException :=
  row_intro "TAKE_EXCEPTION" 0x00000031 0xFFFFFFFF _ (by decide)
    (show wordOf 0x31 0 0 &&& 0xFFFFFFFF = 0x00000031 by decide)

theorem excReturn (a b : DWord) : Statement (.excReturn a b) :=
  row_intro "EXC_RETURN" 0x00000032 0xFFFFFFFF _ (by decide)
    (show wordOf 0x32 0 0 &&& 0xFFFFFFFF = 0x00000032 by decide)

end Sys2Proof.Laws.Encoded
end

