-- ==== Sys2Proof/Tests/Slice0.lean ====
section
/-! SUPPORT. Tests of the model: the well-formedness smoke, words written out from the command format, the vectors of
spec/95_test_vectors.md and the worked examples of the rules, and one witness for every statement with hypotheses. -/

namespace Sys2Proof.Tests

open Sys2Proof Sys2Proof.Machine

-- The tests are many small evaluations: one after the other they take less memory than all at once.
set_option Elab.async false

/-! ## Helpers -/

/-- Default parameters with the closure of a feature list (R7, R142). -/
def feats (l : List Feature) : Params := Params.withFeatures (closeFeatures (featureSet l))

/-- A state with the given features, an empty registry and every register 0 (spec/10_state.md). -/
def base (l : List Feature) : State :=
  { State.reset with params := feats l, reg := [], aarch64 := false, a64 := A64Regs.zero, regions := Regions.zero (feats l) }

/-- A 32-bit state with a status word. -/
def at32 (l : List Feature) (cpsr : Word) : State := { base l with a32 := { A32Regs.zero with cpsr := cpsr } }

/-- A 64-bit state with a status word. -/
def at64 (l : List Feature) (pstate : Word) : State :=
  { base l with aarch64 := true, a64 := { A64Regs.zero with pstate := pstate } }

/-- A state with an exception of event `index` pending for level `t`. -/
def pendingTo (s : State) (index : BitVec 8) (t : BitVec 2) : State :=
  { s with exc := { ExcState.zero with phase := .pending, index := index, targetEl := t } }

/-- The state of R460 with the MEM port's answers given. -/
def micro (l : List Feature) (script : List Answer) : State :=
  { base l with
    a32 := { A32Regs.zero with r := #v[1, 2, 3, 4, 0, 0, 0, 0, 0, 0, 0, 0, 0xC, 0x20001000, 0xFFFFFFFF, 0x08000100] }
    m := { MRegs.zero with xpsr := 0x61000000 }
    msys := { MSysRegs.zero with vtor := ⟨0, 0x08000000⟩, ccr := ⟨0, 0x200⟩ }
    bus := { Bus.empty with script := script } }

/-- The state of a run where exception `n` of the microcontroller profile is pending. -/
def microPending (l : List Feature) (n : BitVec 9) (script : List Answer) : State :=
  { micro l script with exc := { ExcState.zero with phase := .pending, index := 39, mNumber := n } }

/-- The MEM port answers 0 to eight accesses. -/
def eightOks : List Answer := [.ok 0, .ok 0, .ok 0, .ok 0, .ok 0, .ok 0, .ok 0, .ok 0]

/-- The next state of an outcome, if it is one. -/
def nextOf (o : Out) : Option State :=
  match o with
  | .next t => some t
  | _ => none

/-- The response a step gives. -/
def rspOf (o : Out) : Option Response := (nextOf o).bind fun t => t.ports.rsp

/-- The state a step gives (the starting one where there is none). -/
def after (i : Instr) (s : State) : State := (nextOf (exec i s)).getD s

theorem next_of_some {o : Out} (h : (nextOf o).isSome = true) : ∃ t, o = .next t := by
  unfold nextOf at h; split at h
  · exact ⟨_, rfl⟩
  · exact absurd h (by decide)

/-- The invariant as a check, for concrete states. -/
def invCheck (s : State) : Bool :=
  s.bus.mem.wf &&
  [true, false].all (fun k =>
    decide ((s.regions.rbar.get k).length = s.params.mpuNregion) && decide ((s.regions.rsr.get k).length = s.params.mpuNregion) &&
    decide ((s.regions.racr.get k).length = s.params.mpuNregion) && decide ((s.regions.rlar.get k).length = s.params.mpuNregion) &&
    decide (s.m.mainSp.get k &&& 3 = 0) && decide (s.m.processSp.get k &&& 3 = 0) && decide (s.msys.vtor.get k &&& 0x7F = 0) &&
    decide (s.msys.cfsr.get k &&& 0x0000FF00 = 0)) &&
  [Lvl.l1, .l2, .l3].all (fun l => decide (hi32 (s.sys.sctlr.get l) = 0) && decide (hi32 (s.sys.esr.get l) = 0)) &&
  decide (s.regions.sauRbar.length = s.params.sauNregion) && decide (s.regions.sauRlar.length = s.params.sauNregion) &&
  decide (s.a32.cpsr &&& ~~~ cpsrBits = 0) && decide (s.a64.pstate &&& ~~~ pstateBits = 0) &&
  decide (s.m.xpsr &&& ~~~ xpsrBits = 0) && decide (vget s.a32.r 13 &&& 3 = 0) && decide (s.msys.aircr &&& ~~~ 0x6000 = 0) &&
  (!s.locked || has s.params .m) && decide (s.exc.phase ≠ .taking) && decide (s.exc.phase ≠ .returning) &&
  decide (s.params.hookIds = []) && s.reg.all (entryOk s.params) && decide (KeysAscend s.reg) &&
  (!has s.params .m || has s.params .v8 ||
    (s.regions.rbar.s.all (fun w => decide (w &&& 0x1F = 0)) && s.regions.rbar.ns.all (fun w => decide (w &&& 0x1F = 0)))) &&
  s.regions.sauRbar.all (fun w => decide (w &&& 0x1F = 0)) && s.regions.sauRlar.all (fun w => decide (w &&& 0x1C = 0)) &&
  (!s.aarch64 || has s.params .aarch64) && (!s.m.secure || has s.params .mSecurity)

theorem inv_of_check {s : State} (h : invCheck s = true) : Inv s := by
  simp only [invCheck, List.all_cons, List.all_nil, Bool.and_true, Bool.and_eq_true, decide_eq_true_eq, List.all_eq_true,
    Bool.or_eq_true, Bool.not_eq_true'] at h
  obtain ⟨⟨⟨⟨⟨h, hb⟩, hu⟩, hl⟩, hw⟩, hs⟩ := h
  obtain ⟨⟨⟨⟨⟨⟨⟨⟨⟨⟨⟨⟨⟨⟨⟨h1, h2, h3⟩, h4, h5, h6⟩, h7⟩, h8⟩, h9⟩, h10⟩, h11⟩, h12⟩, h13⟩, h14⟩, h15⟩, h16⟩, h17⟩, h18⟩, h19⟩ := h
  obtain ⟨⟨⟨⟨⟨⟨⟨a1, a2⟩, a3⟩, a4⟩, a5⟩, a6⟩, a7⟩, a8⟩ := h2
  obtain ⟨⟨⟨⟨⟨⟨⟨b1, b2⟩, b3⟩, b4⟩, b5⟩, b6⟩, b7⟩, b8⟩ := h3
  exact {
    mem := h1
    tables := ⟨fun k => by cases k <;> assumption, fun k => by cases k <;> assumption, fun k => by cases k <;> assumption,
      fun k => by cases k <;> assumption, h7, h8,
      fun hm hv k => by
        rcases hb with (h | h) | h
        · simp_all
        · simp_all
        · cases k
          exacts [h.2, h.1], hu, hl⟩
    cpsr := h9, pstate := h10, xpsr := h11
    slots := ⟨fun k => by cases k <;> assumption, fun k => by cases k <;> assumption⟩
    sp := fun _ => h12
    reserved := ⟨fun l => by cases l <;> simp_all, fun l => by cases l <;> simp_all, fun k => by cases k <;> assumption,
      fun k => by cases k <;> assumption, h13⟩
    lock := fun hl => by rcases h14 with h | h <;> simp_all
    width := fun ha => by rcases hw with h | h <;> simp_all
    secure := fun ha => by rcases hs with h | h <;> simp_all
    taking := h15, returning := h16, hookIds := h17, registry := h18, ascending := h19 }

/-! ## Well-formedness: one ill-formed term per check -/

theorem test_wf_gpr_read_33 : (Instr.gprRead 33).wellFormed = false := by decide
theorem test_wf_gpr_write_33 : (Instr.gprWrite 33 0).wellFormed = false := by decide
theorem test_wf_psr_write_type_3 : (Instr.psrWrite 3 0 0).wellFormed = false := by decide
theorem test_wf_define_flags : (Instr.crDefine { Template.zero with typ := 0x200, secure := 3 }).wellFormed = false := by decide
theorem test_wf_define_no_bank : (Instr.crDefine Template.zero).wellFormed = false := by decide
theorem test_wf_resolve_kind_3 : (Instr.resolve 3 0).wellFormed = false := by decide
theorem test_wf_translate_kind_3 : (Instr.translate 3 0 0).wellFormed = false := by decide
theorem test_wf_translate_regime_17 : (Instr.translate 0 17 0).wellFormed = false := by decide
theorem test_wf_sec_attr_asker_2 : (Instr.secAttr 0 2 0).wellFormed = false := by decide
theorem test_wf_sec_attr_kind_3 : (Instr.secAttr 3 0 0).wellFormed = false := by decide
theorem test_wf_sec_attr_address : (Instr.secAttr 0 0 0x100000000).wellFormed = false := by decide
theorem test_wf_recognize_kind_15 : (Instr.recognize 15 0 0 0 0).wellFormed = false := by decide
theorem test_wf_recognize_kind_43 : (Instr.recognize 43 0 0 0 0).wellFormed = false := by decide
theorem test_wf_recognize_flags_16 : (Instr.recognize 1 16 0 0 0).wellFormed = false := by decide

/-! ## Decoding: one word per operation, `op` in bits 7:0, `f1` in 15:8, `f2` in 23:16 (R110, R113) -/

/-- A command from its word and operands. -/
def cmd (w : Word) (a b c : DWord) : Command := { Command.ofWord w with a := a, b := b, c := c }

theorem test_decode_nop : decode (.ofWord 0x00000000) = .ok .nop := rfl
theorem test_decode_cpu_reset : decode (.ofWord 0x00000001) = .ok .cpuReset := rfl
theorem test_decode_has_feature : decode (.ofWord 0x00000802) = .ok (.hasFeature 8) := rfl
theorem test_decode_cur_el : decode (.ofWord 0x00000003) = .ok .curEl := rfl
theorem test_decode_is_secure : decode (.ofWord 0x00000004) = .ok .isSecure := rfl
theorem test_decode_pack_mode : decode (.ofWord 0x00000005) = .ok .packMode := rfl
theorem test_decode_gpr_read : decode (.ofWord 0x00001F08) = .ok (.gprRead 31) := rfl
theorem test_decode_gpr_write : decode (cmd 0x00000D09 0x20001003 0 0) = .ok (.gprWrite 13 0x20001003) := rfl
theorem test_decode_psr_read : decode (.ofWord 0x0000000A) = .ok .psrRead := rfl
theorem test_decode_psr_write : decode (cmd 0x0000010B 0x12 0x1F 0) = .ok (.psrWrite 1 0x12 0x1F) := rfl
theorem test_decode_cr_define : decode { Command.ofWord 0x00000010 with desc := { Template.zero with cp := 15 } } =
    .ok (.crDefine { Template.zero with cp := 15 }) := rfl
theorem test_decode_cr_lookup : decode (cmd 0x00000011 0x1013C080 0 0) = .ok (.crLookup 0x1013C080) := rfl
theorem test_decode_cr_read : decode (cmd 0x00000012 0x1013C080 0 0) = .ok (.crRead 0x1013C080) := rfl
theorem test_decode_cr_write : decode (cmd 0x00000013 0x1013C080 1 0) = .ok (.crWrite 0x1013C080 1) := rfl
theorem test_decode_cr_reset_all : decode (.ofWord 0x00000014) = .ok .crResetAll := rfl
theorem test_decode_cr_raw_read : decode (cmd 0x00000015 0x40000D90 0 0) = .ok (.crRawRead 0x40000D90) := rfl
theorem test_decode_cr_raw_write : decode (cmd 0x00000016 0x40000D90 5 0) = .ok (.crRawWrite 0x40000D90 5) := rfl
theorem test_decode_export : decode (.ofWord 0x00000017) = .ok .exportState := rfl
theorem test_decode_import : decode { Command.ofWord 0x00000018 with list := [(0x1013C080, 5)] } =
    .ok (.importState [(0x1013C080, 5)]) := rfl
theorem test_decode_tlbi : decode (.ofWord 0x00000019) = .ok .tlbiLocal := rfl
theorem test_decode_resolve : decode (cmd 0x00000220 0x40201234 0 0) = .ok (.resolve 2 0x40201234) := rfl
theorem test_decode_translate : decode (cmd 0x00090121 0x20000FE0 0 0) = .ok (.translate 1 9 0x20000FE0) := rfl
theorem test_decode_sec_attr : decode (cmd 0x00010222 0x10000040 0 0) = .ok (.secAttr 2 1 0x10000040) := rfl
theorem test_decode_recognize : decode (cmd 0x00052530 1 2 3) = .ok (.recognize 0x25 5 1 2 3) := rfl
theorem test_decode_take : decode (.ofWord 0x00000031) = .ok .takeException := rfl
theorem test_decode_return : decode (cmd 0x00000032 0xFFFFFFF9 3 0) = .ok (.excReturn 0xFFFFFFF9 3) := rfl

theorem test_decode_reserved_op : decode (.ofWord 0x00000033) = .error .reservedOp := rfl
theorem test_decode_reserved_field : decode (.ofWord 0x01000008) = .error .reservedField := rfl
theorem test_decode_unused_f1 : decode (.ofWord 0x00000131) = .error .unusedField := rfl
theorem test_decode_unused_f2 : decode (.ofWord 0x00010008) = .error .unusedField := rfl
theorem test_table_word : decodeTableWord 32 0x0000000B = some (.psrWrite 0 0 0) := rfl

/-! ## The operations, on the vectors of spec/95_test_vectors.md and the rules' examples -/

/-- Features of the 64-bit instances of the vectors. -/
def f64 : List Feature := [.aarch64]

/-- Supervisor mode after reset of a {`F_V7`} instance (R502). -/
def v7 : State := at32 [.v7] 0x1D3

/-- Level 1 of an {`F_AARCH64`} instance after reset (R502). -/
def el1 : State := at64 f64 0x3C5

/-- Replace the registry. -/
def withReg (s : State) (ds : List Template) : State :=
  { s with reg := match defineAll s.params [] ds with | .ok r => r | .error _ => [] }

/-- The template of SCTLR_EL1 in the 64-bit naming (R41): `SYS64(3,0,1,0,0)`. -/
def sctlrEl1 : Template := storeInv (stored (b64 "SCTLR_EL1" 3 0 1 0 0 pl1RW) (.sctlr .l1))

/-- `el1` with SCTLR_EL1 defined. -/
def el1Reg : State := withReg el1 [sctlrEl1]

/-- {`F_M`, `F_V7`} with MPU_TYPE defined (R58). -/
def mReg : State := withReg (base [.m, .v7]) [constant (bMsys (feats [.m, .v7]) "MPU_TYPE" 0xD90) 0x1000]

/-- How many entries the built-in registry of an instance holds; 0 if it is refused. -/
def registrySize (l : List Feature) : Nat :=
  match builtinRegistry (feats l) with
  | .ok reg => reg.length
  | .error _ => 0

-- R58, R60 to R62: the registers of the microcontroller profile without the security extension, counted in the rules.
theorem test_micro_registry_size : registrySize [.m] = 19 := by decide
-- R181: the built-in registers of each profile are accepted.
theorem test_micro_secure_registry_accepted : registrySize [.mSecurity] ≠ 0 := by decide
theorem test_general_registry_accepted : registrySize [.v7] ≠ 0 := by decide

-- T1.1
theorem test_nop : rspOf (exec .nop v7) = some ⟨.ok, 0, 0, []⟩ := by decide
-- T1.2 to T1.4
theorem test_has_feature_closure : rspOf (exec (.hasFeature 8) el1) = some ⟨.ok, 1, 0, []⟩ := by decide
theorem test_has_feature_range : rspOf (exec (.hasFeature 64) el1) = some ⟨.illegalCmd, 0, 0, []⟩ := by decide
-- T1.6, T1.7
theorem test_cur_el : rspOf (exec .curEl v7) = some ⟨.ok, 1, 0, []⟩ := by decide
theorem test_is_secure : rspOf (exec .isSecure v7) = some ⟨.ok, 0, 0, []⟩ := by decide
-- T1.8, T1.9
theorem test_pack_mode_el3 : rspOf (exec .packMode (at64 [.aarch64, .el2, .el3] 0x3CD)) = some ⟨.ok, 0x0F, 0, []⟩ := by decide
theorem test_pack_mode_el1 : rspOf (exec .packMode el1) = some ⟨.ok, 0x29, 0, []⟩ := by decide
-- T1.15, T1.16
theorem test_gpr_read : rspOf (exec (.gprRead 0) v7) = some ⟨.ok, 0, 0, []⟩ := by decide
theorem test_gpr_read_range : rspOf (exec (.gprRead 16) v7) = some ⟨.illegalCmd, 0, 0, []⟩ := by decide
-- T1.17
theorem test_gpr_write_sp : rspOf (exec (.gprRead 13) (after (.gprWrite 13 0x20001003) (base [.m, .v7]))) =
    some ⟨.ok, 0x20001000, 0, []⟩ := by decide
-- T1.14
theorem test_psr_read : rspOf (exec .psrRead v7) = some ⟨.ok, 0x1D3, 0, []⟩ := by decide
-- T1.18
theorem test_psr_write_switches_bank :
    let s := after (.psrWrite 1 0x12 0x1F) (after (.gprWrite 13 0x1000) v7)
    s.a32.cpsr = 0x1D2 ∧ vget s.a32.r 13 = 0 ∧ vget s.a32.bankR13 1 = 0x1000 := by decide +kernel
-- T1.19 (c)
theorem test_psr_write_illegal_mode :
    (after (.psrWrite 1 0x16 0x1F) (at32 [.v8] 0x1D3)).a32.cpsr = 0x1001D3 := by decide +kernel
-- T2.1, T2.2
theorem test_cr_lookup : rspOf (exec (.crLookup 0x1013C080) el1Reg) = some ⟨.ok, 0x00FC, 0, []⟩ := by decide +kernel
theorem test_cr_lookup_absent : rspOf (exec (.crLookup 0x1013FFFF) el1Reg) = some ⟨.absent, 0, 0, []⟩ := by decide +kernel
-- T2.3, T2.4
theorem test_cr_read : rspOf (exec (.crRead 0x1013C080) el1Reg) = some ⟨.ok, 0, 0, []⟩ := by decide +kernel
theorem test_cr_read_level0 : rspOf (exec (.crRead 0x1013C080) { el1Reg with a64 := { A64Regs.zero with pstate := 0 } }) =
    some ⟨.accessFault, 2, 0, []⟩ := by decide +kernel
-- T2.5
theorem test_cr_write : (after (.crWrite 0x1013C080 1) el1Reg).sys.sctlr.l1 = 1 ∧
    (after (.crWrite 0x1013C080 1) el1Reg).ports.tlbinv = 1 := by decide +kernel
-- T2.6
theorem test_cr_reset_all : (after .crResetAll (after (.crWrite 0x1013C080 1) el1Reg)).sys.sctlr.l1 = 0 := by decide +kernel
-- T2.7
theorem test_cr_raw_read : rspOf (exec (.crRawRead 0x40000D90) mReg) = some ⟨.ok, 0x1000, 0, []⟩ := by decide +kernel
theorem test_cr_raw_write_constant : rspOf (exec (.crRawRead 0x40000D90) (after (.crRawWrite 0x40000D90 5) mReg)) =
    some ⟨.ok, 0x1000, 0, []⟩ := by decide +kernel
-- T2.8
theorem test_export : rspOf (exec .exportState (after (.crRawWrite 0x1013C080 5) el1Reg)) =
    some ⟨.ok, 1, 0, [(0x1013C080, 5)]⟩ := by decide +kernel
theorem test_import_reports : rspOf (exec (.importState [(0x1013FFFF, 1), (0x1013C080, 5)]) el1Reg) =
    some ⟨.failures, 1, 0, [(0x1013FFFF, 1)]⟩ := by decide +kernel
theorem test_import_mismatch : rspOf (exec (.importState [(0x40000D90, 5)]) mReg) =
    some ⟨.failures, 1, 0, [(0x40000D90, 2)]⟩ := by decide +kernel
-- T2.9
theorem test_cr_define_override :
    rspOf (exec (.crDefine { sctlrEl1 with typ := 8 }) { el1Reg with constructing := true }) = some ⟨.ok, 1, 0, []⟩ := by
  decide +kernel
theorem test_cr_define_after_construction : rspOf (exec (.crDefine sctlrEl1) el1Reg) = some ⟨.illegalCmd, 0, 0, []⟩ := by
  decide +kernel
-- T2.11
theorem test_tlbi : (after .tlbiLocal v7).ports = ⟨some ⟨.ok, 0, 0, []⟩, 1, []⟩ := by decide

/-- The state of R270. -/
def short (script : List Answer) : State :=
  { v7 with
    sys := { SysRegs.zero with sctlr := ⟨0x00800001, 0, 0⟩, ttbr0 := ⟨0x4000, 0, 0⟩, dacr := ⟨0, 1⟩ }
    bus := { Bus.empty with script := script } }

-- T3.2, T3.4
theorem test_translate_section : rspOf (exec (.translate 0 1 0x00100234) (short [.ok 0x40000C02])) =
    some ⟨.ok, 0x40000234, 0x3FD47, []⟩ := by decide +kernel
theorem test_translate_invalid : rspOf (exec (.translate 0 1 0x00100234) (short [.ok 0])) =
    some ⟨.fault, 0x0023, 0, []⟩ := by decide +kernel

/-- The state of R328. -/
def long : State :=
  { el1 with
    sys := { SysRegs.zero with sctlr := ⟨1, 0, 0⟩, tcr := ⟨25, 0, 0⟩, ttbr0 := ⟨0x80000, 0, 0⟩, mair := ⟨0xFF, 0, 0⟩ }
    bus := { Bus.empty with script := [.ok 0x81003, .ok 0xC00741] } }

-- R328
theorem test_resolve_long : rspOf (exec (.resolve 0 0x40201234) long) = some ⟨.ok, 0xC01234, 0xFFD53, []⟩ := by decide +kernel
theorem test_resolve_long_fetch : rspOf (exec (.resolve 2 0x40201234) long) = some ⟨.fault, 0x8042, 0, []⟩ := by decide +kernel

/-- The state of R360 (b). -/
def attributed : State :=
  { base [.mSecurity] with
    regions := { Regions.zero (feats [.mSecurity]) with
      sauCtrl := 1, sauRbar := 0x10000000 :: List.replicate 7 0, sauRlar := 0x1000FFE3 :: List.replicate 7 0 } }

-- R352, R353, R360
theorem test_sec_attr_region : rspOf (exec (.secAttr 0 1 0x1000FFFF) attributed) = some ⟨.ok, 6, 0, []⟩ := by decide +kernel
theorem test_sec_attr_none : rspOf (exec (.secAttr 0 1 0x10010000) attributed) = some ⟨.ok, 0, 0, []⟩ := by decide +kernel

/-- The state of R412. -/
def r412 : State :=
  { at32 [.v7] 0x10 with
    a32 := { A32Regs.zero with cpsr := 0x10, r := #v[0, 0, 0, 0, 0, 0, 0, 0, 0, 0, 0, 0, 0, 0x2000, 0x1111, 0x8000] } }

-- R412, R460
theorem test_recognize_irq : rspOf (exec (.recognize 5 0 0 0 0) r412) = some ⟨.ok, 1, 0, []⟩ := by decide +kernel
theorem test_recognize_controller : rspOf (exec (.recognize 39 0 0 0 15) (micro [.m, .v7] [])) = some ⟨.ok, 15, 0, []⟩ := by
  decide +kernel
-- R412
theorem test_take_irq : rspOf (exec .takeException (after (.recognize 5 0 0 0 0) r412)) = some ⟨.ok, 0x18, 0x192, []⟩ := by
  decide +kernel
-- R460
theorem test_take_micro : rspOf (exec .takeException (microPending [.m, .v7] 15 (eightOks ++ [.ok 0x08000201]))) =
    some ⟨.ok, 15, 0, []⟩ := by decide +kernel
-- R412
theorem test_return_irq :
    let s := after (.excReturn 0x8000 0) (after .takeException (after (.recognize 5 0 0 0 0) r412))
    s.a32.cpsr = 0x10 ∧ vget s.a32.r 13 = 0x2000 ∧ vget s.a32.bankR14 4 = 0x8004 := by decide +kernel

/-- The state of R414. -/
def r414 : State :=
  { at64 [.aarch64, .el2] 0x3C5 with
    a32 := { A32Regs.zero with bankSpsr := #v[0, 0x800003C9, 0, 0, 0, 0, 0, 0] }
    a64 := { A64Regs.zero with pstate := 0x3C5, elrEl := ⟨0x1000, 0, 0⟩ } }

-- R414
theorem test_return_illegal : rspOf (exec (.excReturn 0 0) r414) = some ⟨.ok, 0x1000, 0x801003C5, []⟩ := by decide +kernel

-- T8.6: `INIT_VTOR` 0x08000000, the vector words loaded, the reset pulse.
theorem test_cpu_reset_micro :
    rspOf (exec .cpuReset { base [.m, .v7] with bus := { Bus.empty with script := [.ok 0x20001000, .ok 0x08000101] } }) =
    some ⟨.ok, 0x08000100, 0x01000000, []⟩ := by decide +kernel
-- T8.5
theorem test_cpu_reset_thumb :
    rspOf (exec .cpuReset { base [.v7] with params := { feats [.v7] with resetPc := 0x8001 } }) =
    some ⟨.ok, 0x8000, 0x1F3, []⟩ := by decide +kernel

/-! ## Witnesses: for each statement with hypotheses, a state and operands that meet them all -/

/-- A state that has the invariant, on the general profile. -/
def good : State := { v7 with ports := { rsp := none, tlbinv := 0, cmds := [.ofWord 0] } }

theorem good_inv : Inv good := inv_of_check (by decide +kernel)

theorem answered_of_some {o : Out} (h : (rspOf o).isSome = true) : ∃ t r, o = .next t ∧ t.ports.rsp = some r := by
  unfold rspOf nextOf at h
  split at h
  · exact ⟨_, _, rfl, (Option.isSome_iff_exists.mp h).choose_spec⟩
  · exact absurd h (by decide)

theorem ok_of_isOk {x : Except FaultRec α} (h : x.isOk = true) : ∃ a, x = .ok a := by
  match x, h with
  | .ok a, _ => exact ⟨a, rfl⟩

/-- The key of the entry that an access resolves to (R196). -/
def resolvedKey (s : State) (a : Word) : Option Word :=
  match resolveBank s a with
  | .entry e => some e.key
  | _ => none

/-- A 32-bit instance with levels 2 and 3, in Non-secure Supervisor mode, `SCR` as R48 defines it. -/
def guest : State :=
  withReg { at32 [.v7, .el2, .el3] 0x1D3 with sys := { SysRegs.zero with scr := 1 } } (builtinsR48 (feats [.v7, .el2, .el3]))

theorem guest_levels : LevelInv guest ∧ LevelInv (pendingTo guest 8 2) := by
  refine ⟨⟨⟨?_, ?_, ?_, ?_, ?_⟩, ?_⟩, ⟨⟨?_, ?_, ?_, ?_, ?_⟩, ?_⟩⟩ <;> decide +kernel

theorem witness_CommandLegalIffRowMatches :
    (∃ i, decode (.ofWord 0x00FFFF30) = .ok i) ∧ (∃ r ∈ opRows, r.matchesWord 0x00FFFF30 = true) ∧
    (∀ r ∈ opRows, r.matchesWord 0x01000000 = false) := by
  refine ⟨⟨_, rfl⟩, ?_, ?_⟩ <;> decide

theorem witness_StepTakesOneCommand :
    (base []).ports.cmds = [] ∧ good.ports.cmds = [.ofWord 0] ∧ decode (.ofWord 0) = .ok .nop ∧
    decode (.ofWord 0x06) = .error .reservedOp := ⟨rfl, rfl, rfl, rfl⟩

theorem witness_IllFormedOperandsIllegal :
    (Instr.gprRead 33).wellFormed = false ∧ good.locked = false ∧ good.constructing = false := by decide

/-- A 32-bit instance with levels 2 and 3 in Secure Supervisor mode. -/
def secureSvc : State := at32 [.v7, .el2, .el3] 0x1D3

/-- A 64-bit instance with levels 2 and 3, in Secure state at level 1 (`SCR.RW` = 1). -/
def secureEl1 : State := { at64 [.aarch64, .el2, .el3] 0x3C5 with sys := { SysRegs.zero with scr := 0x400 } }

theorem witness_IllFormedOperandsIllegal_state :
    (v7.locked = false ∧ v7.exc.phase ≠ .pending) ∧
    (∀ s ∈ [pendingTo (at64 [.aarch64, .el2] 0x3C9) 2 1, pendingTo secureSvc 8 2],
      s.locked = false ∧ s.has .m = false ∧ s.exc.phase = .pending ∧ s.exc.targetEl.toNat < curEl s) ∧
    curEl (at32 [.v7] 0x1D0) = 0 ∧ modeOf? ((at32 [.v7] 0x1DF).a32.cpsr.setWidth 5) = some .sys ∧
    el1.aarch64 = true ∧ el1.has .m = false ∧
    modeOf? ((at32 [.v7, .el2] 0x1DA).a32.cpsr.setWidth 5) = some .hyp ∧
    (base [.m]).m.exception = 0 ∧ (0xFEFFFFF9 : DWord) >>> 24 ≠ 0xFF ∧ (0x1FFFFFFF9 : DWord) >>> 24 ≠ 0xFF ∧
    (regimeOf 1 = some (.e10Ns false) ∧ regimeA64 v7 (.e10Ns false) = false ∧ 2 ^ 32 ≤ (0x100000000 : DWord).toNat) ∧
    regimeA64 v7 (currentRegime v7) = false ∧ v7.has .mSecurity = false := by decide +kernel

theorem witness_IllFormedOperandsIllegal_features :
    ([8, 10, 14, 15, 32].map (kindLacking v7) = [true, true, false, true, true]) ∧
    ([14, 31, 32, 42, 43].map (kindLacking (base [.m])) = [true, true, false, false, true]) ∧
    ([0, 1, 2, 3, 6, 9].map (regimeLacking v7) = [false, false, true, true, true, true]) ∧
    (regimeLacking secureSvc 5 = true ∧ regimeLacking secureSvc 4 = false ∧ regimeLacking secureEl1 5 = false) ∧
    ([8, 9, 11, 13, 16, 17].map (regimeLacking (base [.m])) = [true, false, true, false, true, true]) ∧
    regimeLacking (base [.mSecurity]) 16 = false := by decide +kernel

theorem witness_EveryCommandAnswered : good.constructing = false := rfl

theorem witness_LockupAbsorbing :
    { base [.m] with locked := true }.locked = true ∧ Instr.packMode ≠ .cpuReset ∧ isPureQuery .packMode = false ∧
    isPureQuery .nop = true := by decide

theorem witness_StepKeepsInvariant : Inv good ∧ ∃ t, step good = .next t :=
  ⟨good_inv, next_of_some (by decide +kernel)⟩

theorem witness_OperationsKeepLevels :
    (∀ s ∈ [guest, pendingTo guest 8 2], Inv s ∧ LevelInv s ∧ (∀ e ∈ s.reg, keepsLevels e = true) ∧ s.reg ≠ []) ∧
    (levelOp (pendingTo guest 8 2) .takeException = true ∧ ∃ t, exec .takeException (pendingTo guest 8 2) = .next t) ∧
    (levelOp guest (.psrWrite 1 0x13 0x1F) = true ∧ ∃ t, exec (.psrWrite 1 0x13 0x1F) guest = .next t) ∧
    (levelOp guest .crResetAll = true ∧ ∃ t, exec .crResetAll guest = .next t) ∧
    (Inv (pendingTo secureEl1 8 2) ∧ LevelInv (pendingTo secureEl1 8 2) ∧ entersSecureHyp (pendingTo secureEl1 8 2) = true ∧
      ∃ t, exec .takeException (pendingTo secureEl1 8 2) = .next t) := by
  refine ⟨?_, ⟨by decide +kernel, next_of_some (by decide +kernel)⟩, ⟨by decide +kernel, next_of_some (by decide +kernel)⟩,
    ⟨by decide +kernel, next_of_some (by decide +kernel)⟩, inv_of_check (by decide +kernel),
    ⟨⟨by decide +kernel, by decide +kernel, by decide +kernel, by decide +kernel, by decide +kernel⟩, by decide +kernel⟩,
    by decide +kernel, next_of_some (by decide +kernel)⟩
  intro s hs
  simp only [List.mem_cons, List.not_mem_nil, or_false] at hs
  rcases hs with rfl | rfl
  · exact ⟨inv_of_check (by decide +kernel), guest_levels.1, by decide +kernel, by decide +kernel⟩
  · exact ⟨inv_of_check (by decide +kernel), guest_levels.2, by decide +kernel, by decide +kernel⟩

theorem witness_RegistryImmutable :
    good.constructing = false ∧ good.locked = false ∧ ∃ t, exec .crResetAll good = .next t :=
  ⟨rfl, rfl, next_of_some (by decide +kernel)⟩

theorem witness_OwnedStateFrame :
    (∃ t, exec (.crRawWrite 0 1) good = .next t) ∧ Inv good ∧ (∀ e ∈ good.reg, isMachineField e.field = false) ∧
    isExceptionOp (.crRawWrite 0 1) = false ∧ usesMemPort (good.has .m) (.crRawWrite 0 1) = false ∧
    usesMemPort (good.has .m) .takeException = false ∧ (∀ e ∈ good.reg, isVectorField e.field = false) ∧
    Instr.crRawWrite 0 1 ≠ .cpuReset :=
  ⟨next_of_some (by decide +kernel), good_inv, by decide +kernel⟩

theorem witness_QueriesChangeOnlyResponse : onlyLooks .exportState = true ∧ ∃ t, exec .exportState good = .next t :=
  ⟨rfl, next_of_some (by decide +kernel)⟩

theorem witness_FeatureClosure : closeParams (Params.withFeatures 0x8) = .error .featureConflict ∧
    ∃ q, closeParams (Params.withFeatures 0x104) = .ok q := ⟨rfl, _, rfl⟩

theorem witness_PackModeFields : v7.locked = false := rfl

theorem witness_RegisterBankAccess :
    v7.locked = false ∧ (v7.has .m = true ∨ v7.aarch64 = false) ∧ (base [.m]).locked = false ∧ (base [.m]).has .m = true ∧
    el1.locked = false ∧ el1.has .m = false ∧ el1.aarch64 = true ∧
    rspOf (exec (.gprRead 15) v7) = some ⟨.ok, 0, 0, []⟩ ∧ rspOf (exec (.gprWrite 16 1) v7) = some ⟨.illegalCmd, 0, 0, []⟩ ∧
    rspOf (exec (.gprRead 32) el1) = some ⟨.ok, 0, 0, []⟩ ∧ rspOf (exec (.gprRead 33) el1) = some ⟨.illegalCmd, 0, 0, []⟩ := by
  decide +kernel

theorem witness_RegisterBankAccess_status : v7.locked = false ∧ el1.locked = false ∧ (base [.m]).locked = false ∧ Inv el1 :=
  ⟨rfl, rfl, rfl, inv_of_check (by decide +kernel)⟩

theorem witness_PsrWriteMergesStatus :
    (base [.m]).locked = false ∧ (base [.m]).has .m = true ∧ (2 : BitVec 8).toNat ≤ 2 ∧ el1.locked = false ∧
    el1.has .m = false ∧ el1.aarch64 = true ∧ (at64 f64 0).aarch64 = true ∧ curEl (at64 f64 0) = 0 ∧
    (∀ s ∈ [v7, at32 [.v8] 0x1D3, at32 [.v7] 0x10], s.locked = false ∧ s.has .m = false ∧ s.aarch64 = false) ∧
    (v7.a32.cpsr ^^^ 0x1C0) &&& 0x1C0 &&& 0x1F = 0 ∧
    ((at32 [.v7] 0x10).a32.cpsr ^^^ 0x13) &&& 0x1F &&& 0x1F ≠ 0 ∧ (at32 [.v7] 0x10).a32.cpsr &&& 0x1F = 0b10000 ∧
    (∀ s ∈ [v7, at32 [.v8] 0x1D3], (s.a32.cpsr ^^^ 0x16) &&& 0x1F &&& 0x1F ≠ 0 ∧ s.a32.cpsr &&& 0x1F ≠ 0b10000 ∧
      refusedMode s 0x16 true = true ∧ refusedMode s 0x16 false = true ∧ refusedMode s 0 false = true) := by decide +kernel

theorem witness_PsrWriteSwitchesBank :
    let s := at32 [.v8] 0x1D3
    s.locked = false ∧ s.has .m = false ∧ s.aarch64 = false ∧ modeOf? (s.a32.cpsr.setWidth 5) = some .svc ∧
    Mode.svc ≠ .usr ∧
    (∀ m ∈ [Mode.fiq, .usr, .sys, .abt], modeOf? m.num = some m ∧
      (s.a32.cpsr ^^^ m.num.setWidth 32) &&& 0xFFFFFFFF &&& 0x1F ≠ 0 ∧ refusedMode s m.num true = false ∧
      refusedMode s m.num false = false) ∧
    ((s.a32.cpsr ^^^ 0x11) &&& 0x02 &&& 0x1F ≠ 0 ∧ Mode.fiq.bank ≠ Mode.svc.bank ∧ Mode.fiq.bank14 ≠ Mode.svc.bank14) ∧
    (let h := { at32 [.v7, .el2, .el3] 0x1D6 with sys := { SysRegs.zero with scr := 0 } }
     modeOf? (h.a32.cpsr.setWidth 5) = some .mon ∧ refusedMode h Mode.svc.num true = false) := by decide +kernel

theorem witness_LookupAndTlbiAnswer :
    el1Reg.locked = false ∧ (lookup el1Reg 0x1013C080).isSome = true ∧ lookup el1Reg 0x1013FFFF = none := by decide +kernel

theorem witness_CrDefineInsertsEntries :
    let s := { el1 with constructing := true }
    let r := { el1Reg with constructing := true }
    s.locked = false ∧ s.constructing = true ∧ templateLegal s.params sctlrEl1 ∧
    (∀ e, isEntryOf sctlrEl1 e → ∀ old, lookup s e.key = some old → e.typ.getLsbD 3 = true ∨ old.typ.getLsbD 3 = true) ∧
    (∃ e, isEntryOf sctlrEl1 e ∧ ∃ old, lookup r e.key = some old ∧ e.typ.getLsbD 3 = false ∧ old.typ.getLsbD 3 = false) ∧
    ¬ templateLegal s.params Template.zero := by
  refine ⟨rfl, rfl, ?_, ?_, ?_, ?_⟩
  · unfold templateLegal
    refine ⟨by decide +kernel, by decide, ?_, rfl, by decide, ?_, by decide +kernel, by decide +kernel, by decide,
      by decide, by decide, by decide, by decide, by decide, by decide, by decide⟩
    · refine fun _ => ⟨by decide, fun o ho => ?_⟩
      obtain rfl : o = 0 := ho
      decide
    · intro h hm id he
      subst he
      simp [sctlrEl1, storeInv, stored, b64, Template.zero] at hm
  · intro e _ old h
    cases h
  · refine ⟨entryAt sctlrEl1 0x1013C080 (.sctlr .l1) 0, ?_, entryAt sctlrEl1 0x1013C080 (.sctlr .l1) 0, ?_⟩
    · exact ⟨0, 0, 0, rfl, ⟨rfl, rfl⟩, .inl ⟨.inl rfl, by decide +kernel⟩⟩
    · decide +kernel
  · exact fun h => absurd h.2.2.2.2.1 (by decide)

/-- A microcontroller state with the security extension in a security state, `SAU_CTRL` and `VTOR` defined (R59, R61). -/
def banked (secure : Bool) : State :=
  withReg { base [.mSecurity] with m := { MRegs.zero with secure := secure } }
    ((builtinsR61 (feats [.mSecurity])).take 2 ++ (builtinsR59 (feats [.mSecurity])).take 1)

theorem witness_CrReadAnswersEntry :
    el1Reg.locked = false ∧ resolveBank el1Reg 0x1013FFFF = .absent ∧
    (∃ e, resolveBank el1Reg 0x1013C080 = .entry e ∧ refusal el1Reg e true = none) ∧
    (let s := { el1Reg with a64 := { A64Regs.zero with pstate := 0 } }
     s.locked = false ∧ ∃ e, resolveBank s 0x1013C080 = .entry e ∧ refusal s e true = some 2) ∧
    (banked false).locked = false ∧ resolveBank (banked false) 0x48000DD0 = .const 0 ∧
    (let s := withReg (base [.mSecurity]) ((builtinsR61 (feats [.mSecurity])).take 1)
     s.locked = false ∧ resolveBank s 0x48000D08 = .trap) := by
  refine ⟨rfl, by decide +kernel, ⟨entryAt sctlrEl1 0x1013C080 (.sctlr .l1) 0, by decide +kernel⟩,
    ⟨rfl, entryAt sctlrEl1 0x1013C080 (.sctlr .l1) 0, by decide +kernel⟩, by decide +kernel⟩

theorem witness_CrWriteEffect :
    el1Reg.locked = false ∧ resolveBank el1Reg 0x1013FFFF = .absent ∧
    (∃ e, resolveBank el1Reg 0x1013C080 = .entry e ∧ refusal el1Reg e false = none ∧ e.writefn = .storeInv) ∧
    (banked false).locked = false ∧ resolveBank (banked false) 0x48000DD0 = .const 0 ∧
    (let s := withReg (base [.mSecurity]) ((builtinsR61 (feats [.mSecurity])).take 1)
     s.locked = false ∧ resolveBank s 0x48000D08 = .trap) := by
  refine ⟨rfl, by decide +kernel, ⟨entryAt sctlrEl1 0x1013C080 (.sctlr .l1) 0, by decide +kernel⟩, by decide +kernel⟩

/-- An entry at TTBR0_EL1's key with a write hook. -/
def hooked (h : Hook) (typ : BitVec 16) : Entry := { entryAt (b64 "TTBR0_EL1" 3 0 2 0 0 pl1RW) 0x1013C100 (.ttbr0 .l1) typ with writefn := h }

theorem witness_CrWriteEffect_hooks :
    ∀ h ∈ [Hook.none, .storeInv, .inv, .w1c, .nzcv, .daif, .spSel, .hcr, .regionView, .ignoreOutOfRange, .mSpecial,
      .currentEl, .secureOnly],
    let s := { el1 with reg := [hooked h 0] }
    s.locked = false ∧ resolveBank s 0x1013C100 = .entry (hooked h 0) ∧ refusal s (hooked h 0) false = none ∧
    (hooked h 0).typ.getLsbD 7 = false ∧ (hooked h 0).typ.getLsbD 1 = false ∧ privileged s = true := by decide +kernel

theorem witness_CrWriteEffect_refused :
    (let s := { at64 f64 0 with reg := [hooked .none 0] }
     s.locked = false ∧ resolveBank s 0x1013C100 = .entry (hooked .none 0) ∧ refusal s (hooked .none 0) false = some 2) ∧
    (let e := { hooked .none 0 with accessfn := .daifAccess, access := 0xFF }
     let s := { at64 f64 0 with reg := [e] }
     resolveBank s 0x1013C100 = .entry e ∧ refusal s e false = some 1) ∧
    (let e := { hooked .none 0 with accessfn := .secureOnly }
     let s := { at64 [.aarch64, .el3] 0x3C5 with reg := [e], sys := { SysRegs.zero with scr := 0x401 } }
     resolveBank s 0x1013C100 = .entry e ∧ refusal s e false = some 4) ∧
    (let e := { hooked .none 0 with accessfn := .spEl0Access }
     let s := { at64 f64 0x3C4 with reg := [e] }
     resolveBank s 0x1013C100 = .entry e ∧ refusal s e false = some 2) ∧
    (hooked .none 0x80).typ.getLsbD 7 = true ∧ (hooked .none 0x02).typ.getLsbD 1 = true := by decide +kernel

/-- A 32-bit instance with level 3 in Supervisor mode, in the security state of `SCR.NS`, `SCTLR` defined in both banks. -/
def twoBanks (ns : Bool) : State :=
  withReg { at32 [.v7, .el3] 0x1D3 with sys := { SysRegs.zero with scr := if ns then 1 else 0 } }
    (builtinsR41 (feats [.v7, .el3]))

theorem witness_BankIsolation :
    (isSecure el1Reg = false ∧ isCp32Key 0x1013C080 = false ∧ isMKey 0x1013C080 = false ∧
      resolvedKey el1Reg 0x1013C080 = some 0x1013C080) ∧
    (isCp32Key 0x000F0800 = true ∧ isCp32Key 0x200F0800 = true ∧
      isSecure (twoBanks true) = false ∧ resolvedKey (twoBanks true) 0x000F0800 = some 0x200F0800 ∧
      isSecure (twoBanks false) = true ∧ resolvedKey (twoBanks false) 0x200F0800 = some 0x000F0800) ∧
    (isMKey 0x40000D08 = true ∧ isMKey 0x48000D08 = true ∧
      isSecure (banked false) = false ∧ resolvedKey (banked false) 0x48000D08 = some 0x40000D08 ∧
      isSecure (banked true) = true ∧ resolvedKey (banked true) 0x48000D08 = some 0x48000D08 ∧
      resolvedKey (banked true) 0x40000D08 = some 0x40000D08) := by decide +kernel

theorem witness_BankIsolation_absent :
    (∀ s ∈ [el1Reg, twoBanks true, twoBanks false, banked false, banked true], Inv s) ∧
    (∃ e ∈ (twoBanks true).reg, e.key = 0x200F0800) ∧ (∃ e ∈ (banked false).reg, e.key = 0x40000D08) ∧
    (∀ e ∈ (banked false).reg, e.key ≠ 0x40000DD0) ∧
    (∃ e ∈ (banked false).reg, e.key = 0x48000DD0 ∧ e.secure ≠ 3 ∧ e.absent = some (.const 0)) ∧
    (∀ e ∈ el1Reg.reg, e.key ≠ 0x1013FFFF) := by
  refine ⟨?_, by decide +kernel⟩
  intro s hs
  simp only [List.mem_cons, List.not_mem_nil, or_false] at hs
  rcases hs with rfl | rfl | rfl | rfl | rfl <;> exact inv_of_check (by decide +kernel)

theorem witness_StorageReadsBack :
    (Inv good ∧ ∀ f ∈ [FieldId.gpr 15, .ttbr0 .l1, .vHi 31, .phase, .cpsr, .catalog 0], f ≠ .none ∧ fieldOk good.params f = true) ∧
    (Inv (micro [.m, .v7] []) ∧ ∀ f ∈ [FieldId.gpr 13, .msp false true, .mpuRnr false, .aircr, .mpuRbarAt false 15],
      f ≠ .none ∧ fieldOk (micro [.m, .v7] []).params f = true) :=
  ⟨⟨good_inv, by decide +kernel⟩, inv_of_check (by decide +kernel), by decide +kernel⟩

theorem test_storage_reads_back :
    fieldGet (fieldSet (micro [.m, .v7] []) (.gpr 13) 0x20001003) (.gpr 13) = 0x20001000 ∧
    (fieldSet good .phase 1).exc.phase = .pending ∧ (fieldSet good .phase 2).exc.phase = .none := by decide +kernel

theorem witness_CrResetAllEffect :
    Inv good ∧ good.locked = false ∧ (∀ e ∈ good.reg, e.field ≠ .exclAddr ∧ isMachineField e.field = false) ∧
    (∃ e, el1Reg.reg = [e] ∧ Inv el1Reg ∧ plainReset e = true ∧ e.field ≠ .phase) ∧ el1Reg.locked = false ∧
    (∃ e, mReg.reg = [e] ∧ e.typ.getLsbD 1 = true) ∧ mReg.locked = false := by
  refine ⟨good_inv, rfl, by decide +kernel, ⟨entryAt sctlrEl1 0x1013C080 (.sctlr .l1) 0, by decide +kernel,
    inv_of_check (by decide +kernel), by decide +kernel⟩, rfl, ⟨mReg.reg.headI, by decide +kernel⟩, rfl⟩

theorem witness_CrResetAllEffect_banks :
    Inv (twoBanks true) ∧ (twoBanks true).locked = false ∧
    (∃ e ∈ (twoBanks true).reg, plainReset e = true ∧ e.field = .sctlr .l1 ∧
      ∀ e' ∈ (twoBanks true).reg, e' ≠ e → resetsStorage e' = true → disturbs e'.field e.field = false) ∧
    (∃ e ∈ (twoBanks true).reg, resetsStorage e = true ∧ e.field = .sctlr .l3) :=
  ⟨inv_of_check (by decide +kernel), by decide +kernel⟩

theorem witness_RawAccessIsStorage :
    el1Reg.locked = false ∧ lookup el1Reg 0 = none ∧
    lookup el1Reg 0x1013C080 = some (entryAt sctlrEl1 0x1013C080 (.sctlr .l1) 0) ∧
    (∀ e ∈ [hooked .none 0x20, hooked .none 0x01, hooked .none 0x02, hooked .none 0x80, hooked .none 0,
        { hooked .regionView 0 with field := .none, readfn := .regionView },
        { hooked .none 0 with rawReadfn := .mSpecial, rawWritefn := .hcr }],
      lookup { el1 with reg := [e] } 0x1013C100 = some e) := by decide +kernel

theorem el1Reg_inv : Inv el1Reg := inv_of_check (by decide +kernel)

theorem witness_ExportListsEveryEntry : el1Reg.locked = false ∧ Inv el1Reg ∧ el1Reg.reg ≠ [] :=
  ⟨rfl, el1Reg_inv, by decide +kernel⟩

theorem witness_ImportAttemptsEveryPair :
    el1Reg.locked = false ∧ lookup el1Reg 0x1013FFFF = none ∧ (lookup el1Reg 0x1013C080).isSome = true := by decide +kernel

/-- R218: a value that does not read back, then an unknown key, then a value that does: every pair is attempted. -/
theorem test_import_goes_on :
    let s := after (.importState [(0x1013C080, 0x100000001), (0x1013FFFF, 0), (0x1013C080, 5)]) el1Reg
    s.ports.rsp = some ⟨.failures, 2, 0, [(0x1013C080, 2), (0x1013FFFF, 1)]⟩ ∧ s.sys.sctlr.l1 = 5 := by decide +kernel

/-- R44, R111: `VTCR_EL2` is a 32-bit register, so bits 63:32 written through its 64-bit encoding are no change. -/
theorem test_store_inv_32_bits :
    let s : State := { withReg (at64 [.aarch64, .el2] 0x3C9) (builtinsR44 (feats [.aarch64, .el2])) with
      sys := { SysRegs.zero with vtcr := 0x59 } }
    (after (.crWrite 0x1013E10A 0x100000059) s).ports.tlbinv = 0 ∧
    (after (.crWrite 0x1013E10A 0x10000005A) s).sys.vtcr = 0x5A := by decide +kernel

/-- R185 check 4: a `WIDE64` view names a 64-bit field (R42), never a 32-bit one, be it one that the 64-bit encoding shows
(R44, R48, R52, R53). -/
theorem test_wide64_needs_64_bits :
    let p := feats [.aarch64, .el2, .el3]
    checkTemplate p (stored (bWide "W" 6 2 pl2RW) .vttbr) = true ∧
    ∀ f ∈ [FieldId.scr, .vtcr, .cpacr, .cptr2, .cptr3, .mdscr, .mdcr],
      checkTemplate p (stored (bWide "W" 6 2 pl2RW) f) = false ∧
      checkTemplate p (stored (b64 "E" 3 6 15 15 0 pl3RW) f) = true := by decide +kernel

/-- R183: `cp` cannot be a wildcard, in a template of the microcontroller profile either. -/
theorem test_cp_any_refused :
    checkCoords { Template.zero with state := .mprofile } = true ∧
    checkCoords { Template.zero with state := .mprofile, cp := 0xFF } = false := by decide

/-- R26, R30, R502: before the first reset and after it the 32-bit status word names a mode, and `AARCH64` is 0 where there is no
64-bit state. -/
theorem test_unbuilt_mode :
    ((State.unbuilt (feats [.m, .v7])).toOption.map (·.aarch64), State.reset.a32.cpsr) = (some false, 0x1D3) := by
  decide +kernel

/-- The older protection unit's registers (R58). -/
def older : State := withReg (base [.m, .v7]) (builtinsR58 (feats [.m, .v7]))

theorem witness_ExportImportRoundTrip :
    (Inv el1Reg ∧ el1Reg.locked = false ∧ (∀ e ∈ el1Reg.reg, exported e = true → plainRaw e = true ∨ plainView e = true) ∧
      ∃ t r, exec .exportState el1Reg = .next t ∧ t.ports.rsp = some r) ∧
    (Inv older ∧ older.locked = false ∧ (∀ e ∈ older.reg, exported e = true → plainRaw e = true ∨ plainView e = true) ∧
      (∃ e ∈ older.reg, exported e = true ∧ plainView e = true) ∧
      ∃ t r, exec .exportState older = .next t ∧ t.ports.rsp = some r) :=
  ⟨⟨el1Reg_inv, rfl, by decide +kernel, answered_of_some (by decide +kernel)⟩,
    inv_of_check (by decide +kernel), by decide +kernel, by decide +kernel, by decide +kernel,
    answered_of_some (by decide +kernel)⟩

theorem witness_PhysWriteReadsBack : ∀ n ∈ [1, 2, 4, 8],
    (({ Bus.empty with script := [.ok 0] } : Bus).physWrite 0xFFFFFFFFFFFFFFFF n 1 true true).1 = true ∧
    (({ Bus.empty with script := [.ok 0] } : Bus).physWrite 0xFFFFFFFFFFFFFFFF n 1 true true).2.script = [] := by decide +kernel

/-- A 64-bit instance with level 2 whose stage 1 is off by `HCR.DC` (R236). -/
def defaultCached : State := { at64 [.aarch64, .el2] 0x3C5 with sys := { SysRegs.zero with hcr := 0x80001000, sctlr := ⟨1, 0, 0⟩ } }

theorem witness_DisabledTranslationIsIdentity :
    (v7.locked = false ∧ accessOf 2 = some .fetch ∧ regimeOf 1 = some (.e10Ns false) ∧ regimeExists v7 (.e10Ns false) = true ∧
      (0xFFFFFFFF : DWord).toNat < 2 ^ 32 ∧ v7.has .m = false ∧ v7.has .pmsa = false ∧ untranslated v7 (.e10Ns false) ∧
      v7.has .el2 = false) ∧
    (defaultCached.locked = false ∧ regimeOf 8 = some (.s1Ns false) ∧ regimeExists defaultCached (.s1Ns false) = true ∧
      regimeA64 defaultCached (.s1Ns false) = true ∧ untranslated defaultCached (.s1Ns false) ∧ regimeOf 6 = some .stage2 ∧
      regimeExists (at64 [.aarch64, .el2] 0x3C5) .stage2 = true ∧ untranslated (at64 [.aarch64, .el2] 0x3C5) .stage2 ∧
      ∀ u, Regime.stage2 ≠ .e10Ns u) ∧
    (regimeOf 9 = some (.m false false false) ∧ regimeExists (base [.m, .v7]) (.m false false false) = true ∧
      unitOff (base [.m, .v7]) (.m false false false) ∧ (base [.m, .v7]).has .m = true ∧
      (base [.m, .v7]).has .mSecurity = false) ∧
    (regimeExists (at32 [.v7, .pmsa] 0x1D3) (.e10Ns false) = true ∧ unitOff (at32 [.v7, .pmsa] 0x1D3) (.e10Ns false) ∧
      (at32 [.v7, .pmsa] 0x1D3).has .pmsa = true) := by
  unfold untranslated unitOff
  decide +kernel

theorem witness_TranslateChangesOnlyPort :
    v7.locked = false ∧ (2 : BitVec 8).toNat ≤ 2 ∧ regimeOf 1 = some (.e10Ns false) ∧
    regimeExists v7 (.e10Ns false) = true ∧ (0xFFFFFFFF : DWord).toNat < 2 ^ 32 := by decide +kernel

theorem witness_ResolveUsesCurrentRegime :
    v7.locked = false ∧ regimeExists v7 (currentRegime v7) = true ∧ (base [.mSecurity]).locked = false ∧
    regimeExists (base [.mSecurity]) (currentRegime (base [.mSecurity])) = true := by decide +kernel

theorem witness_TranslationGrantsAccess :
    ∃ t, exec (.translate 1 0 0xFFFFFFFF) v7 = .next t ∧ v7.locked = false ∧
      t.ports.rsp = some ⟨.ok, 0xFFFFFFFF, 0x3FCC7, []⟩ := by
  obtain ⟨t, h⟩ := next_of_some (o := exec (.translate 1 0 0xFFFFFFFF) v7) (by decide +kernel)
  refine ⟨t, h, rfl, ?_⟩
  have : rspOf (exec (.translate 1 0 0xFFFFFFFF) v7) = some ⟨.ok, 0xFFFFFFFF, 0x3FCC7, []⟩ := by decide +kernel
  rw [h] at this
  exact this

theorem witness_TranslationNeverRaisesSecurity :
    regimeSecure (.e10Ns true) = false ∧ (translateOn (short [.ok 0x40000C02]) (.e10Ns false) 0x00100234 .load
      { Bus.empty with script := [.ok 0x40000C02] }).1.isOk = true := by decide +kernel

/-- The state of vector T4.4: both stages. -/
def nested : State :=
  { at64 [.aarch64, .el2] 0x3C5 with
    sys := { SysRegs.zero with
      sctlr := ⟨1, 0, 0⟩, tcr := ⟨25, 0, 0⟩, ttbr0 := ⟨0x80000, 0, 0⟩, mair := ⟨0xFF, 0, 0⟩, hcr := 0x80000001,
      vtcr := 0x20059, vttbr := 0x90000 } }

/-- What the MEM port answers in vector T4.4: each stage-1 load follows a stage-2 walk of one load. -/
def nestedAnswers : List Answer := [.ok 0x77D, .ok 0x81003, .ok 0x77D, .ok 0xC00741, .ok 0x77D]

theorem witness_NestedTranslationCombines :
    nested.has .m = false ∧ nested.has .pmsa = false ∧ stage2Enabled nested = true ∧
    ∃ x b', translateOn nested (.e10Ns false) 0x40201234 .load { Bus.empty with script := nestedAnswers } = (.ok x, b') ∧
      x.prot = 1 := by
  refine ⟨by decide +kernel, by decide +kernel, by decide +kernel, ?_⟩
  have h : (match translateOn nested (.e10Ns false) 0x40201234 .load { Bus.empty with script := nestedAnswers } with
      | (.ok x, _) => decide (x.prot = 1) | _ => false) = true := by decide +kernel
  revert h
  generalize translateOn nested (.e10Ns false) 0x40201234 .load { Bus.empty with script := nestedAnswers } = o
  intro h
  match o, h with
  | (.ok x, b'), h => exact ⟨x, b', rfl, by simpa using h⟩

/-- The same instance with the level-3 table of stage 2 empty from the first descriptor on, and with the last page out. -/
def nestedFaults : List (List Answer) :=
  [[.ok 0], [.ok 0x77D, .ok 0], [.ok 0x77D, .ok 0x81003, .ok 0x77D, .ok 0xC00741, .ok 0]]

theorem witness_NestedTranslationCombines_faults :
    (∀ l ∈ nestedFaults,
      (translateOn nested (.e10Ns false) 0x40201234 .load { Bus.empty with script := l }).1.isOk = false) ∧
    (∀ l ∈ nestedFaults.take 2,
      (translateOn nested (.s1Ns false) 0x40201234 .load { Bus.empty with script := l }).1.isOk = false) ∧
    firstDescriptor nested (.s1Ns false) 0x40201234 = some 0x80008 ∧
    (translateOn nested .stage2 0x80008 .load { Bus.empty with script := [.ok 0] }).1.isOk = false := by decide +kernel

/-- `short` on the generation before the extended variant, with level 1 in the legacy format (R253). -/
def legacy (script : List Answer) : State :=
  { at32 [.v6] 0x1D3 with
    sys := { SysRegs.zero with sctlr := ⟨1, 0, 0⟩, ttbr0 := ⟨0x4000, 0, 0⟩, dacr := ⟨0, 1⟩ }
    bus := { Bus.empty with script := script } }

theorem witness_ShortWalkAnswers :
    (∀ s ∈ [short [.err], short [.ok 0x40000C02], short [.ok 0x8001, .err], short [.ok 0x8001, .ok 0], legacy [.ok 0x40000C02],
        legacy [.ok 0x8001, .ok 0x40000032], { short [] with sys := { (short []).sys with tcr := ⟨0x10, 0, 0⟩ } }],
      s.locked = false ∧ regimeExists s (.e10Ns false) = true ∧ s.has .m = false ∧ s.has .pmsa = false ∧
      noStage2 s (.e10Ns false) ∧ ¬ untranslated s (.e10Ns false) ∧ usesLongFormat s (.e10Ns false) = false) ∧
    accessOf 0 = some .load ∧ regimeOf 1 = some (.e10Ns false) ∧ (0x00100234 : DWord).toNat < 2 ^ 32 ∧
    tableAddr { short [] with sys := { (short []).sys with tcr := ⟨0x10, 0, 0⟩ } } (.e10Ns false) 0x00100234 = none ∧
    tableAddr (short []) (.e10Ns false) 0x00100234 = some 0x4004 ∧ tableAddr (legacy []) (.e10Ns false) 0x00100234 = some 0x4004 ∧
    (shortStep (short []) (.e10Ns false) 0x00100234 .load 0x40000C02).isLeft = true ∧
    (shortStep (short []) (.e10Ns false) 0x00100234 .load 0).isLeft = true ∧
    (shortStep (short []) (.e10Ns false) 0x00100234 .load 0x8001).isRight = true ∧
    (shortStep (legacy []) (.e10Ns false) 0x00100234 .load 0x40000C02).isLeft = true ∧
    (shortStep (legacy []) (.e10Ns false) 0x00100234 .load 0x8001).isRight = true := by
  unfold noStage2 untranslated
  decide +kernel

-- R253 to R255: a small page of the legacy format through a coarse table.
theorem test_translate_legacy_page : rspOf (exec (.translate 0 1 0x00100234) (legacy [.ok 0x8001, .ok 0x40000032])) =
    some ⟨.ok, 0x40000234, 0x3FCC7, []⟩ := by decide +kernel

/-- The error of a result that is one. -/
def errorOf {ε α : Type} (x : Except ε α) : Option ε :=
  match x with
  | .error e => some e
  | .ok _ => none

/-- `long` with another translation control and base. -/
def longWith (tcr ttbr : DWord) : State :=
  { long with sys := { long.sys with tcr := ⟨tcr, 0, 0⟩, ttbr0 := ⟨ttbr, 0, 0⟩ } }

/-- Stage 2 of a 32-bit instance with a start level its input size does not allow (R285, D20). -/
def badStart : State := { at32 [.v7, .el2, .lpae] 0x1D3 with sys := { SysRegs.zero with hcr := 1, vtcr := 0xC0 } }

theorem witness_LongWalkAnswers :
    (∀ s ∈ [long, longWith 0x80 0x80000, longWith 25 0x800000000000],
      s.locked = false ∧ regimeExists s (.e10Ns false) = true ∧ regimeA64 s (.e10Ns false) = true ∧ s.has .m = false ∧
      s.has .pmsa = false ∧ noStage2 s (.e10Ns false) ∧ ¬ untranslated s (.e10Ns false) ∧
      usesLongFormat s (.e10Ns false) = true) ∧
    accessOf 0 = some .load ∧ regimeOf 1 = some (.e10Ns false) ∧
    errorOf (longStart (longWith 0x80 0x80000) (.e10Ns false) 0x40201234) = some 0 ∧
    (longStart long (.e10Ns false) 0x40201234).toOption = some (0x80000, 39, 9, 1) ∧ longOut long (.e10Ns false) = 32 ∧
    (longStart (longWith 25 0x800000000000) (.e10Ns false) 0x40201234).toOption = some (0x800000000000, 39, 9, 1) ∧
    (longFrom long (.e10Ns false) .load 0x40201234 9 32 2 0x80000 0xFFF 0x10 long.bus.script).isSome = true := by
  unfold noStage2 untranslated
  refine ⟨?_, ?_⟩ <;> decide +kernel

theorem witness_LongWalkAnswers_stage2 :
    badStart.locked = false ∧ regimeOf 6 = some .stage2 ∧ regimeExists badStart .stage2 = true ∧
      (0xFFFFFFFF : DWord).toNat < 2 ^ 32 ∧ noStage2 badStart .stage2 ∧ ¬ untranslated badStart .stage2 ∧
      usesLongFormat badStart .stage2 = true ∧ errorOf (longStart badStart .stage2 0xFFFFFFFF) = some 0 := by
  unfold noStage2 untranslated
  decide +kernel

-- D20, U8: a bad start level of stage 2 is a level-0 translation fault.
theorem test_translate_bad_start : rspOf (exec (.translate 0 6 0xFFFFFFFF) badStart) =
    some ⟨.fault, 0x9003, 0xFFFFFFFF, []⟩ := by decide +kernel

/-- The newer protection unit with regions 0 and 1 as in R360 (a), without the security extension. -/
def newer : State :=
  { base [.m, .v8] with
    regions := { Regions.zero (feats [.m, .v8]) with
      mpuCtrl := ⟨0, 1⟩
      rbar := ⟨List.replicate 16 0, 0x20000002 :: 0x20008002 :: List.replicate 14 0⟩
      rlar := ⟨List.replicate 16 0, 0x2000FFE1 :: 0x2000FFE1 :: List.replicate 14 0⟩ } }

/-- The regions of `newer` that hold an address. -/
def newerHits (a : Word) : List Nat :=
  (List.range newer.params.mpuNregion).filter fun n =>
    (tget newer.regions.rlar.ns n).getLsbD 0 && decide (tget newer.regions.rbar.ns n &&& ~~~ 0x1F ≤ a) &&
    decide (a ≤ tget newer.regions.rlar.ns n ||| 0x1F)

theorem witness_NewerUnitMatches :
    newer.locked = false ∧ accessOf 0 = some .load ∧ regimeOf 9 = some (.m false false false) ∧
    regimeExists newer (.m false false false) = true ∧ newer.has .m = true ∧ newer.has .mSecurity = false ∧
    newer.has .v8 = true ∧ ¬ unitOff newer (.m false false false) ∧ (0xE0000000 : DWord) >>> 20 = 0xE00 ∧
    (0xE0100000 : DWord) >>> 20 ≠ 0xE00 ∧ 2 ≤ (newerHits 0x20008000).length ∧ newerHits 0x20007FFF = [0] ∧
    newerHits 0x20010000 = [] ∧ newerHits 0xE0100000 = [] ∧ ¬ background newer (.m false false false) ∧
    (let s := { newer with regions := { newer.regions with mpuCtrl := ⟨0, 5⟩ } }
     regimeOf 10 = some (.m false true false) ∧ background s (.m false true false) ∧ ¬ unitOff s (.m false true false)) := by
  unfold unitOff background
  decide +kernel

/-- The older protection unit: a region of 32 KB with its first sub-region off, and a smaller one above it (R336 to R339). -/
def oldUnit : State :=
  { base [.m, .v7] with
    regions := { Regions.zero (feats [.m, .v7]) with
      mpuCtrl := ⟨0, 1⟩
      rbar := ⟨List.replicate 16 0, 0x20000000 :: 0x20002000 :: List.replicate 14 0⟩
      rsr := ⟨List.replicate 16 0, 0x011D :: 0x0017 :: List.replicate 14 0⟩
      racr := ⟨List.replicate 16 0, 0x300 :: 0x600 :: List.replicate 14 0⟩ } }

theorem witness_OlderUnitMatches :
    oldUnit.locked = false ∧ accessOf 1 = some .store ∧ regimeOf 9 = some (.m false false false) ∧
    regimeExists oldUnit (.m false false false) = true ∧ oldUnit.has .m = true ∧ oldUnit.has .mSecurity = false ∧
    oldUnit.has .v8 = false ∧ ¬ unitOff oldUnit (.m false false false) ∧ (0xE00FFFFF : DWord) >>> 20 = 0xE00 ∧
    olderHits oldUnit 0x20000FFF = [] ∧ olderHits oldUnit 0x20001000 = [0] ∧ olderHits oldUnit 0x20002FFF = [0, 1] ∧
    olderHits oldUnit 0x20007FFF = [0] ∧ olderHits oldUnit 0x20008000 = [] ∧ ¬ background oldUnit (.m false false false) ∧
    (let s := { oldUnit with regions := { oldUnit.regions with mpuCtrl := ⟨0, 5⟩ } }
     regimeOf 10 = some (.m false true false) ∧ background s (.m false true false) ∧ ¬ unitOff s (.m false true false)) := by
  unfold unitOff background
  decide +kernel

-- R337: the higher-numbered region decides, and it does not permit the store.
theorem test_translate_older_priority :
    rspOf (exec (.translate 1 9 0x20001000) oldUnit) = some ⟨.ok, 0x20001000, 0x3FC57, []⟩ ∧
    rspOf (exec (.translate 1 9 0x20002FFF) oldUnit) = some ⟨.fault, 0x22, 0, []⟩ := by decide +kernel

theorem witness_SecAttrClassifies :
    attributed.locked = false ∧ accessOf 2 = some .fetch ∧ (1 : BitVec 8).toNat ≤ 1 ∧
    (0xF0000000 : DWord).toNat < 2 ^ 32 ∧ attributed.has .mSecurity = true ∧ attributed.params.idau = [] ∧
    (0xF0000000 : Word) >>> 28 = 0xF ∧ sauExempt 0xE0000000 .fetch = true ∧ sauExempt 0x1000FFFF .load = false ∧
    attributed.regions.sauCtrl.getLsbD 0 = true := by decide +kernel

-- R355, R358: an external range exempts, and one that is Secure and callable raises a Non-secure region.
theorem test_sec_attr_external :
    let s (exempt : Bool) : State := { attributed with params := { attributed.params with
      idau := [{ base := 0x10000000, limit := 0x1000FFFF, exempt := exempt, ns := false, nsc := true }] } }
    rspOf (exec (.secAttr 0 0 0x10000040) (s true)) = some ⟨.ok, 1, 0, []⟩ ∧
    rspOf (exec (.secAttr 0 1 0x10000040) (s true)) = some ⟨.ok, 0, 0, []⟩ ∧
    rspOf (exec (.secAttr 0 0 0x10000040) (s false)) = some ⟨.ok, 6, 0, []⟩ := by decide +kernel

/-- `attributed` with a Non-secure region beside the callable one, and in the Secure bank of the unit one region. -/
def partitioned : State :=
  { attributed with
    regions := { attributed.regions with
      sauRbar := 0x10000000 :: 0x20000000 :: List.replicate 6 0, sauRlar := 0x1000FFE3 :: 0x2000FFE1 :: List.replicate 6 0
      mpuCtrl := ⟨1, 0⟩
      rbar := ⟨0x10000002 :: List.replicate 15 0, List.replicate 16 0⟩
      rlar := ⟨0x2000FFE1 :: List.replicate 15 0, List.replicate 16 0⟩ } }

theorem witness_SecureUnitTranslates :
    partitioned.locked = false ∧ accessOf 0 = some .load ∧ accessOf 2 = some .fetch ∧ regimeOf 9 = some (.m false false false) ∧
    regimeOf 11 = some (.m true false false) ∧ partitioned.has .m = true ∧ partitioned.has .mSecurity = true ∧
    partitioned.has .v8 = true ∧ (0x20000040 : DWord).toNat < 2 ^ 32 := by decide +kernel

-- R330, R357: a Non-secure fetch of callable code, a Non-secure access of Secure memory, a Secure access of Non-secure
-- memory, whose tag is lowered, and one of Secure memory.
theorem test_translate_partitioned :
    rspOf (exec (.translate 2 9 0x10000040) partitioned) = some ⟨.fault, 0x0C, 0, []⟩ ∧
    rspOf (exec (.translate 0 9 0x30000000) partitioned) = some ⟨.fault, 0x0D, 0, []⟩ ∧
    rspOf (exec (.translate 0 11 0x20000040) partitioned) = some ⟨.ok, 0x20000040, 0x3FC57, []⟩ ∧
    rspOf (exec (.translate 0 11 0x10010000) partitioned) = some ⟨.ok, 0x10010000, 0x3FC5F, []⟩ := by decide +kernel

theorem witness_RecognizeSyncPends :
    v7.locked = false ∧ v7.has .m = false ∧ (15 : BitVec 8).toNat < 16 ∧ eventOf 2 = some .svc ∧
    eventExists v7 .svc = true ∧ v7.exc.phase ≠ .pending ∧ (pendingTo v7 2 1).exc.phase = .pending ∧
    isAbort .svc = false ∧ v7.has .el2 = false ∧ field (2 : BitVec 8) 0 2 = 2 ∧ curEl v7 = 1 ∧ redirected v7 1 = false ∧
    (secureEl1.locked = false ∧ secureEl1.has .m = false ∧ eventOf 8 = some .hvc ∧ eventExists secureEl1 .hvc = true ∧
      secureEl1.exc.phase ≠ .pending ∧ syncTarget secureEl1 .hvc 0 = 2 ∧ isSecure secureEl1 = true) ∧
    (eventOf 4 = some .dataAbort ∧ eventExists v7 .dataAbort = true ∧ isAbort .dataAbort = true ∧
      recordRefused v7 0x23 = false ∧ statusCode false 0x23 = some 5 ∧ recordRefused v7 0x1F = true ∧
      recordRefused v7 0x25 = false ∧ statusCode true 0x25 = none) := by decide +kernel

/-- A 32-bit instance with levels 2 and 3 in Secure User mode, an HVC pending. -/
def secureUsr : State := pendingTo (at32 [.v7, .el2, .el3] 0xD0) 8 2

-- R373, R382: their steps take an HVC of Secure state to level 2: by R394 at the vector of a lower 64-bit level, by R391 at
-- 0x14 in Hypervisor mode with A, I and F set. R411: the return restores level and security state.
theorem test_hvc_secure :
    rspOf (exec (.recognize 8 0 0 0x5A000000 0) secureEl1) = some ⟨.ok, 2, 0x5A000000, []⟩ ∧
    rspOf (exec .takeException (pendingTo secureEl1 8 2)) = some ⟨.ok, 0x400, 0x3C9, []⟩ ∧
    rspOf (exec .takeException secureUsr) = some ⟨.ok, 0x14, 0x1DA, []⟩ ∧
    (let v := after (.excReturn 0 0) (after .takeException (pendingTo secureEl1 8 2))
     v.a64.pstate = 0x3C5 ∧ isSecure v = true) ∧
    (after (.excReturn 0 0) (after .takeException secureUsr)).a32.cpsr = 0xD0 := by decide +kernel

theorem witness_RecognizeSyncPends_trapped :
    let s := { at64 [.aarch64, .el2] 0x3C0 with sys := { SysRegs.zero with hcr := 0x88000000 } }
    s.locked = false ∧ s.has .m = false ∧ s.exc.phase ≠ .pending ∧ eventOf 2 = some .svc ∧ eventExists s .svc = true ∧
    redirected s (syncTarget s .svc 0) = true ∧ (0x1C000000 : Word) >>> 26 = 7 ∧
    rspOf (exec (.recognize 2 0 0 0x1C000000 0) s) = some ⟨.ok, 2, 0x02000000, []⟩ := by decide +kernel

theorem witness_RecognizeInterruptMasking : ∀ k ∈ [(5 : BitVec 8), 6, 14, 11, 12],
    (at32 [.v7, .el2] 0x10).locked = false ∧ (at32 [.v7, .el2] 0x10).has .m = false ∧ (0 : BitVec 8).toNat < 16 ∧
    ((eventOf k).map fun e => eventExists (at32 [.v7, .el2] 0x10) e) = some true ∧
    (at32 [.v7, .el2] 0x10).exc.phase ≠ .pending := by decide +kernel

/-- The state of R413, the supervisor call pending. -/
def r413 : State :=
  { pendingTo (at64 f64 0x60000000) 2 1 with
    a64 := { A64Regs.zero with pstate := 0x60000000, pc := 0x400004, spEl := #v[0, 0x9000, 0, 0] }
    sys := { SysRegs.zero with vbar := ⟨0x80000, 0, 0⟩ } }

/-- Secure Supervisor mode after `SCR.RW` has been set: level 1 is a 64-bit level, the live bank is that of `BANK_SPSR[1]`. -/
def staleBank : State :=
  pendingTo { at32 [.aarch64, .el3] 0x600001D3 with
    a32 := { A32Regs.zero with cpsr := 0x600001D3, spsr := 0x10 }, sys := { SysRegs.zero with scr := 0x400 } } 2 1

-- R473, R476: the bank of the target level holds the status word present, not the older one of the live mode.
theorem test_take_64_saves_status : vget (after .takeException staleBank).a32.bankSpsr 1 = 0x600001D3 := by decide +kernel

theorem witness_TakeTo64Entry_live_bank :
    staleBank.locked = false ∧ staleBank.has .m = false ∧ staleBank.exc.phase = .pending ∧
    eventOf staleBank.exc.index = some .svc ∧ 1 = staleBank.exc.targetEl.toNat ∧ curEl staleBank = 1 ∧
    elIsA64 staleBank 1 = true ∧ staleBank.aarch64 = false ∧
    modeOf? (staleBank.a32.cpsr.setWidth 5) = some .svc := by decide +kernel

theorem witness_TakeTo64Entry :
    r413.locked = false ∧ r413.has .m = false ∧ r413.exc.phase = .pending ∧ eventOf r413.exc.index = some .svc ∧
    1 = r413.exc.targetEl.toNat ∧ curEl r413 ≤ 1 ∧ elIsA64 r413 1 = true ∧ r413.aarch64 = true ∧
    (let s := pendingTo { at32 [.aarch64, .el3] 0x1D3 with sys := { SysRegs.zero with scr := 0x401 } } 10 3
     s.aarch64 = false ∧ curEl s < 3 ∧ elIsA64 s 3 = true ∧ eventOf s.exc.index = some .smc ∧
     modeOf? (s.a32.cpsr.setWidth 5) = some .svc) := by decide +kernel

/-- Level 0 in the 64-bit state under a 32-bit level 1 (`SCR.RW` = 0), an undefined instruction pending. -/
def above32 (t : BitVec 2) : State :=
  pendingTo { at64 [.aarch64, .el2, .el3] 0x80000000 with
    a64 := { A64Regs.zero with pstate := 0x80000000, pc := 0x123456780, x := vset (vset A64Regs.zero.x 19 0x5000) 31 0x7000 }
    sys := { SysRegs.zero with scr := 1 } } 1 t

/-- R473, R24, R163: such an entry saves `PSTATE` and `PC64`, maps the registers and leaves the 64-bit state. -/
theorem test_take_32_from_64 :
    (let u := after .takeException (above32 1)
     u.aarch64 = false ∧ u.a32.spsr = 0x80000000 ∧ vget u.a32.r 14 = 0x23456784 ∧ vget u.a32.bankR13 1 = 0x5000 ∧
     vget u.a64.spEl 0 = 0x7000 ∧ vget u.a32.r 15 = 4 ∧ u.a32.cpsr = 0x8000009B) ∧
    (after .takeException (above32 2)).a64.elrEl.get .l2 = 0x123456780 := by decide +kernel

theorem witness_TakeTo32Entry_from64 :
    (let s := above32 1
     s.locked = false ∧ s.has .m = false ∧ s.aarch64 = true ∧ s.exc.phase = .pending ∧ eventOf s.exc.index = some .udef ∧
     s.exc.targetEl.toNat = 1 ∧ curEl s = 0 ∧ elIsA64 s 1 = false ∧ (handler32 false .udef).isSome = true) ∧
    (let s := above32 2
     s.exc.targetEl.toNat = 2 ∧ curEl s = 0 ∧ elIsA64 s 2 = false ∧ (handlerHyp .udef).isSome = true) := by decide +kernel

theorem witness_TakeTo32Entry :
    (let s := pendingTo r412 5 1
     s.locked = false ∧ s.has .m = false ∧ s.aarch64 = false ∧ s.exc.phase = .pending ∧ eventOf s.exc.index = some .irq ∧
     s.exc.targetEl.toNat = 1 ∧ curEl s ≤ 1 ∧ elIsA64 s 1 = false ∧ modeOf? (s.a32.cpsr.setWidth 5) = some .usr ∧
     s.a32.cpsr &&& 0x00C00000 = 0 ∧ (handler32 (s.a32.cpsr.getLsbD 5) .irq).isSome = true) ∧
    (let s := pendingTo (at32 [.v7, .el2] 0x1D3) 8 2
     s.exc.targetEl.toNat = 2 ∧ eventOf s.exc.index = some .hvc ∧ curEl s ≤ 2 ∧ elIsA64 s 2 = false ∧
     modeOf? (s.a32.cpsr.setWidth 5) = some .svc ∧ (handlerHyp .hvc).isSome = true) := by decide +kernel

theorem witness_ReturnNeverRaisesLevel :
    r414.has .m = false ∧ (r414.aarch64 = true → r414.has .aarch64 = true) ∧ (curEl r414 = 2 → secureBelowEl3 r414 = false) ∧
    ∃ u, exec (.excReturn 0 0) r414 = .next u :=
  ⟨by decide +kernel, by decide +kernel, by decide +kernel, next_of_some (by decide +kernel)⟩

/-- `r414` with another saved status word. -/
def returning (w : Word) : State :=
  { r414 with a32 := { A32Regs.zero with bankSpsr := #v[0, w.setWidth 64, 0, 0, 0, 0, 0, 0] } }

theorem witness_ExcReturnFrom64 :
    r414.locked = false ∧ r414.has .m = false ∧ r414.aarch64 = true ∧ r414.exc.phase ≠ .pending ∧ 1 ≤ curEl r414 ∧
    (∀ el, ¬ legalReturn64 r414 (curEl r414) 0x800003C9 el) ∧ legalReturn64 (returning 0) 1 0 0 ∧
    legalReturn64 (returning 0x10) 1 0x10 0 := by
  refine ⟨by decide +kernel, by decide +kernel, by decide +kernel, by decide +kernel, by decide +kernel, ?_, ?_, ?_⟩
  · rintro el ⟨h, hc, -⟩
    rw [if_neg (by decide +kernel)] at h
    have h1 := h.2.2
    rw [show field (0x800003C9 : Word) 2 2 = 2 by decide +kernel] at h1
    rw [show curEl r414 = 1 by decide +kernel] at hc
    omega
  · exact ⟨by decide +kernel, by decide, by decide, by decide, by decide⟩
  · refine ⟨?_, by decide, by decide, by decide, by decide⟩
    rw [if_pos (by decide +kernel)]
    exact ⟨.usr, by decide +kernel, by decide, by decide⟩

theorem witness_ExcReturnFrom32 :
    (let s := { at32 [.v8] 0x1D3 with a32 := { A32Regs.zero with cpsr := 0x1D3, spsr := 0x1DA } }
     s.locked = false ∧ s.has .m = false ∧ s.aarch64 = false ∧ s.exc.phase ≠ .pending ∧
     modeOf? (s.a32.cpsr.setWidth 5) = some .svc ∧ modeOf? (0x1A : BitVec 5) = some .hyp ∧
     refusedMode s Mode.hyp.num false = true ∧ refusedMode s Mode.usr.num false = false ∧
     modeOf? (0x00 : BitVec 5) = none) ∧
    (let s := { at32 [.v7, .el3] 0x1D3 with
       a32 := { A32Regs.zero with cpsr := 0x1D3, spsr := 0x10 }, sys := { SysRegs.zero with scr := 1 } }
     isSecure s = false ∧ openMask s 0x10 0xFF1FFFFF &&& 0x140 = 0 ∧
     (after (.excReturn 0x8000 0) s).a32.cpsr = 0x150) ∧
    (let s := at32 [.v7, .el2] 0x1DA
     modeOf? (s.a32.cpsr.setWidth 5) = some .hyp ∧ s.locked = false ∧ s.exc.phase ≠ .pending) := by decide +kernel

theorem witness_TakeReturnRoundTrip64 :
    r413.locked = false ∧ r413.has .m = false ∧ r413.aarch64 = true ∧ r413.exc.phase = .pending ∧
    eventOf r413.exc.index = some .svc ∧ 1 = r413.exc.targetEl.toNat ∧ curEl r413 ≤ 1 ∧ elIsA64 r413 1 = true ∧
    r413.a64.pstate &&& 0x0FCFFC32 = 0 ∧ ¬ (r413.a64.pstate &&& 0xF = 1) ∧ curEl r413 = 0 := by decide +kernel

theorem witness_TakeReturnRoundTrip32 :
    (∀ s ∈ [pendingTo r412 5 1, pendingTo (at32 [.v7, .el2] 0x1DA) 8 2, secureUsr, pendingTo secureSvc 10 3],
      s.locked = false ∧ s.has .m = false ∧ s.aarch64 = false ∧ s.exc.phase = .pending ∧ (eventOf s.exc.index).isSome = true ∧
      1 ≤ s.exc.targetEl.toNat ∧ curEl s ≤ s.exc.targetEl.toNat ∧ (modeOf? (s.a32.cpsr.setWidth 5)).isSome = true ∧
      s.a32.cpsr &&& 0x00C00000 = 0 ∧ vget s.a32.r 15 &&& (if s.a32.cpsr.getLsbD 5 then 1 else 3) = 0 ∧
      elIsA64 s s.exc.targetEl.toNat = false) ∧
    (handler32 false .irq = some (.irq, 0x18, 0x180, 4) ∧ monitored (pendingTo r412 5 1) .irq 1 = false) ∧
    (modeOf? ((at32 [.v7, .el2] 0x1DA).a32.cpsr.setWidth 5) = some .hyp ∧ (handlerHyp .hvc).isSome = true) ∧
    (handler32 false .smc = some (.mon, 0x08, 0x1C0, 0) ∧ monitored (pendingTo secureSvc 10 3) .smc 3 = true) ∧
    (let s := pendingTo { at32 [.aarch64, .el3] 0x1D3 with sys := { SysRegs.zero with scr := 0x1 } } 10 3
     s.aarch64 = false ∧ elIsA64 s 3 = true ∧ curEl s = 1 ∧ elIsA64 s 1 = false ∧ s.has .el2 = false) := by decide +kernel

theorem witness_MicroRecognizeClassifies :
    Inv (micro [.m, .v7] []) ∧ (micro [.m, .v7] []).locked = false ∧ (micro [.m, .v7] []).has .m = true ∧
    (15 : BitVec 8).toNat < 16 ∧ (micro [.m, .v7] []).exc.phase ≠ .pending ∧ microRow 42 = some (6, 0x00100000) ∧
    (microPending [.m, .v7] 15 []).exc.phase = .pending ∧
    mNegPri (micro [.m, .v7] []) = false ∧ mNegPri { micro [.m, .v7] [] with m := { MRegs.zero with exception := 3 } } = true ∧
    ([0x7, 0xA, 0x1, 0x8, 0x9].map (recordRefused (micro [.m, .v7] [])) = [false, false, false, false, false]) ∧
    ([0xB, 0xC, 0xD].map (recordRefused (base [.mSecurity])) = [false, false, false]) ∧
    recordRefused (micro [.m, .v7] []) 0x1F = true ∧ field (511 : DWord) 0 9 = 511 ∧ field (1 : DWord) 0 9 < 2 := by
  refine ⟨inv_of_check (by decide +kernel), ?_⟩
  decide +kernel

-- R440: a parity error of a data access is a BusFault that sets PRECISERR, or IMPRECISERR where it is asynchronous.
theorem test_recognize_parity :
    (presentedFault (micro [.m, .v7] []) 0x800000000 0).map (fun f => f.kind) = some .syncParity ∧
    cfsrGet (after (.recognize 37 0 0 0x800000000 0) (micro [.m, .v7] [])) false = 0x200 ∧
    (presentedFault (micro [.m, .v7] []) 0x900000000 0).map (fun f => f.kind) = some .asyncParity ∧
    cfsrGet (after (.recognize 37 0 0 0x900000000 0) (micro [.m, .v7] [])) false = 0x400 := by decide +kernel

-- R471: `NSC_EXEC` presented with a data abort selects SecureFault.
theorem test_recognize_nsc_exec :
    let t := after (.recognize 37 0 0x10 0xC00000000 0) (base [.mSecurity])
    t.ports.rsp = some ⟨.ok, 7, 1, []⟩ ∧ t.msys.sfsr = 0x01 ∧ t.msys.sfar = 0 ∧ t.exc.fr = 0xC := by decide +kernel

theorem witness_MicroExceptionOutcomes :
    (let s := microPending [.m, .v7] 15 []
     s.has .m = true ∧ s.locked = false ∧ s.exc.phase = .pending ∧ s.exc.mNumber ≠ 0) ∧
    (let s := { micro [.m, .v7] [] with m := { MRegs.zero with exception := 15 } }
     s.has .m = true ∧ s.locked = false ∧ s.exc.phase ≠ .pending ∧ s.m.exception ≠ 0 ∧
     (0xFFFFFFF9 : DWord) >>> 24 = 0xFF) := by decide +kernel

theorem witness_MicroTakeEntersHandler :
    let s := microPending [.m, .v7] 15 (eightOks ++ .ok 0x08000201 :: [])
    Inv s ∧ plainMicro s = true ∧ s.locked = false ∧ s.exc.phase = .pending ∧ s.exc.mDerived = false ∧
    s.exc.mSecure = false ∧ 2 ≤ s.exc.mNumber.toNat ∧ eightOks.length = 8 ∧ (∀ x ∈ eightOks, x ≠ .err) ∧
    s.bus.script = eightOks ++ .ok 0x08000201 :: [] :=
  ⟨inv_of_check (by decide +kernel), by decide +kernel⟩

/-- The older protection unit enabled with no region and no background. -/
def walled (s : State) : State := { s with regions := { s.regions with mpuCtrl := ⟨0, 3⟩ }, m := { s.m with control := ⟨0, 1⟩ } }

/-- The older protection unit on with one region, of 32 bytes from `base` (R339: everyone may store), and a frame pointer
16 bytes into it. -/
def strip (base : Word) (n : BitVec 9) (script : List Answer) : State :=
  { microPending [.m, .v7] n script with
    a32 := { A32Regs.zero with r := vset A32Regs.zero.r 13 (base + 0x30) }
    regions := { Regions.zero (feats [.m, .v7]) with
      mpuCtrl := ⟨0, 1⟩
      rbar := ⟨List.replicate 16 0, base :: List.replicate 15 0⟩
      rsr := ⟨List.replicate 16 0, 0x9 :: List.replicate 15 0⟩
      racr := ⟨List.replicate 16 0, 0x300 :: List.replicate 15 0⟩ } }

/-- Word `i` of the frame is granted (R436). -/
def grantsWord (s : State) (i : Nat) : Bool :=
  (translateMpu s (currentRegime s) ((frameAddrs (framePointer s)).getD i 0) .store).isOk

theorem error_of_isOk {x : Except FaultRec XOk} (h : x.isOk = false) : ∃ f, x = .error f := by
  match x, h with
  | .error f, _ => exact ⟨f, rfl⟩

theorem witness_MicroStackFailureDerives_premises :
    ∀ s ∈ [walled (microPending [.m, .v7] 15 []), microPending [.m, .v7] 4 [.err], microPending [.m, .v7] 4 (eightOks.take 7 ++ [.err])],
      Inv s ∧ s.has .m = true ∧ s.has .mSecurity = false ∧ s.m.secure = false ∧ s.locked = false ∧ s.exc.phase = .pending ∧
      s.exc.mDerived = false ∧ s.exc.mSecure = false ∧ 4 ≤ s.exc.mNumber.toNat := by
  intro s hs
  simp only [List.mem_cons, List.not_mem_nil, or_false] at hs
  rcases hs with rfl | rfl | rfl <;> exact ⟨inv_of_check (by decide +kernel), by decide +kernel⟩

theorem witness_MicroStackFailureDerives :
    (let s := walled (microPending [.m, .v7] 15 [])
     ∃ f, translateMpu s (currentRegime s) ((frameAddrs (framePointer s)).getD 0 0) .store = .error f) ∧
    (let s := microPending [.m, .v7] 4 [.err]
     (∃ x, translateMpu s (currentRegime s) ((frameAddrs (framePointer s)).getD 0 0) .store = .ok x) ∧
     s.bus.script = [] ++ .err :: []) ∧
    (let s := microPending [.m, .v7] 4 (eightOks.take 7 ++ [.err])
     (∀ i < 8, ∃ x, translateMpu s (currentRegime s) ((frameAddrs (framePointer s)).getD i 0) .store = .ok x) ∧
     (eightOks.take 7).length = 7 ∧ (∀ x ∈ eightOks.take 7, x ≠ .err) ∧ s.bus.script = eightOks.take 7 ++ .err :: []) ∧
    (microPending [.m, .v7] 4 [.ok 0]).bus.script = [.ok 0] := by
  have h0 : grantsWord (walled (microPending [.m, .v7] 15 [])) 0 = false := by decide +kernel
  have h1 : grantsWord (microPending [.m, .v7] 4 [.err]) 0 = true := by decide +kernel
  have h2 : ∀ i < 8, grantsWord (microPending [.m, .v7] 4 (eightOks.take 7 ++ [.err])) i = true := by decide +kernel
  exact ⟨error_of_isOk h0, ⟨ok_of_isOk h1, rfl⟩, ⟨fun i hi => ok_of_isOk (h2 i hi), by decide +kernel⟩, rfl⟩

theorem witness_MicroStackFailureDerives_partial :
    let s := strip 0x20000FE0 4 (eightOks.take 4)
    Inv s ∧ s.exc.phase = .pending ∧ s.exc.mDerived = false ∧ 4 ≤ s.exc.mNumber.toNat ∧
    (∃ k < 8, 0 < k ∧ (∀ i < k, grantsWord s i = true) ∧ grantsWord s k = false) := by
  refine ⟨inv_of_check (by decide +kernel), ?_⟩
  decide +kernel

theorem witness_MicroReturnRestores :
    let s := { micro [.m, .v7] (eightOks.take 7 ++ [.ok 0x61000000]) with
      m := { MRegs.zero with exception := 15, xpsr := 0x61000000 } }
    Inv s ∧ plainMicro s = true ∧ s.locked = false ∧ s.exc.phase ≠ .pending ∧ s.m.exception ≠ 0 ∧
    (0xFFFFFFF9 : DWord) >>> 24 = 0xFF ∧ (3 : DWord).getLsbD 0 = true ∧ s.has .v8 = false ∧
    (0xFFFFFFF9 : DWord) &&& 0xF = 0x9 ∧ (3 : DWord).getLsbD 1 = true ∧
    s.bus.script = [.ok 0, .ok 0, .ok 0, .ok 0, .ok 0, .ok 0, .ok 0, .ok 0x61000000] ++ [] ∧
    (0x61000000 : DWord) &&& 0x1FF = 0 ∧ (0xFFFFFFF9 : DWord).getLsbD 3 = true :=
  ⟨inv_of_check (by decide +kernel), by decide +kernel⟩

/-- An instance with the security extension, the whole address space Non-secure (R353), an exception pending. -/
def secured (secure handlerSecure : Bool) (script : List Answer) : State :=
  { base [.mSecurity] with
    a32 := { A32Regs.zero with r := vset A32Regs.zero.r 13 0x20001000 }
    m := { MRegs.zero with secure := secure }
    regions := { Regions.zero (feats [.mSecurity]) with sauCtrl := 2 }
    exc := { ExcState.zero with phase := .pending, index := 39, mNumber := 15, mSecure := handlerSecure }
    bus := { Bus.empty with script := script } }

/-- The MEM port answers 0 to the seventeen accesses of both frames. -/
def seventeenOks : List Answer := List.replicate 17 (.ok 0)

theorem witness_MicroSecureFrames_premises :
    ∀ s ∈ [secured true false (seventeenOks ++ .ok 0x201 :: []), secured false true (eightOks ++ .ok 0x201 :: []),
        { secured true true [.ok 0] with exc := ExcState.zero, m := { MRegs.zero with secure := true, exception := 15 } },
        { secured false true (.ok 0xFEFA125B :: seventeenOks) with
          exc := ExcState.zero, m := { MRegs.zero with exception := 15, mainSp := ⟨0x20001000, 0⟩ } }],
      Inv s ∧ s.has .m = true ∧ s.has .mSecurity = true ∧ s.has .v8 = true ∧ s.locked = false ∧ s.params.idau = [] ∧
      s.regions.sauCtrl = 2 ∧ s.regions.mpuCtrl.s.getLsbD 0 = false ∧ s.regions.mpuCtrl.ns.getLsbD 0 = false := by
  intro s hs
  simp only [List.mem_cons, List.not_mem_nil, or_false] at hs
  rcases hs with rfl | rfl | rfl | rfl <;> exact ⟨inv_of_check (by decide +kernel), by decide +kernel⟩

theorem witness_MicroSecureFrames :
    (∀ s ∈ [secured true false [], secured false true [], secured false false [], secured true true []],
      s.exc.phase = .pending ∧ s.exc.mDerived = false ∧ 2 ≤ s.exc.mNumber.toNat ∧ vget s.a32.r 13 = 0x20001000 ∧
      s.msys.vtor = ⟨0, 0⟩ ∧ s.exc.mNumber = 15) ∧
    seventeenOks.length = 17 ∧ eightOks.length = 8 ∧ (∀ x ∈ seventeenOks ++ eightOks, x ≠ .err) ∧
    (let s := { secured false true (.ok 0xFEFA125B :: seventeenOks) with
        exc := ExcState.zero, m := { MRegs.zero with exception := 15, mainSp := ⟨0x20001000, 0⟩ } }
     s.exc.phase ≠ .pending ∧ s.m.exception ≠ 0 ∧ (0xFFFFFFF8 : DWord) >>> 24 = 0xFF ∧ (1 : DWord).getLsbD 0 = true ∧
     (0xFFFFFFF8 : DWord) &&& 0x42 = 0x40 ∧ (0xFFFFFFF8 : DWord) &&& 0x21 ≠ 0x21 ∧ (0xFFFFFFF8 : DWord) &&& 0x21 = 0x20 ∧
     (slotValue s true false).toNat + 0x48 ≤ 0xE0000000 ∧ (0 : Word) &&& 0x1FF = 0 ∧ (0xFFFFFFF8 : DWord).getLsbD 3 = true ∧
     rspOf (exec (.excReturn 0xFFFFFFF8 1) s) = some ⟨.ok, 0, 0, []⟩) ∧
    (let s := { secured true true [.ok 0] with exc := ExcState.zero, m := { MRegs.zero with secure := true, exception := 15 } }
     s.exc.phase ≠ .pending ∧ s.m.exception ≠ 0 ∧ (0xFFFFFFD9 : DWord) &&& 0x42 = 0x40 ∧ (0xFFFFFFD9 : DWord) &&& 0x21 ≠ 0x21 ∧
     (0 : Word) ≠ 0xFEFA125B ∧ rspOf (exec (.excReturn 0xFFFFFFD9 1) s) = some ⟨.ok, 0, 0x607, []⟩) := by decide +kernel

-- R437, R438: from Secure state to a Non-secure handler seventeen words are stored and the registers are scrubbed.
theorem test_take_scrubs :
    let s := secured true false (seventeenOks ++ .ok 0x201 :: [])
    let t := after .takeException { s with a32 := { s.a32 with r := vset (vset s.a32.r 4 7) 0 9 } }
    t.bus.reqs.length = 18 ∧ vget t.a32.r 4 = 0 ∧ vget t.a32.r 0 = 0 ∧ vget t.a32.r 14 = 0xFFFFFFF8 := by decide +kernel

theorem witness_CpuResetLeaves :
    Inv good ∧ good.constructing = false ∧
    (∀ e ∈ good.reg, (∀ i, e.field ≠ .gpr i) ∧ (∀ i, e.field ≠ .xreg i) ∧ e.field ≠ .exclAddr ∧
      isMachineField e.field = false) ∧ good.has .m = false ∧
    (let s := micro [.m, .v7] [.ok 0x20001000, .ok 0x08000101]
     Inv s ∧ s.constructing = false ∧ s.has .m = true ∧ s.reg = [] ∧
     s.bus.script = .ok 0x20001000 :: .ok 0x08000101 :: []) ∧
    (micro [.m, .v7] [.err, .ok 0]).bus.script = .err :: .ok 0 :: [] ∧
    (micro [.m, .v7] [.ok 0, .err]).bus.script = .ok 0 :: .err :: [] := by
  refine ⟨good_inv, rfl, ?_, by decide +kernel, ⟨inv_of_check (by decide +kernel), by decide +kernel⟩, rfl, rfl⟩
  intro e he
  cases he

/-- An instance under construction whose two registers share one storage with two reset values. -/
def clashing (v : DWord) : State :=
  { el1 with constructing := true, reg := [{ entryAt sctlrEl1 0x1013C080 (.sctlr .l1) 0 with resetvalue := v },
    entryAt sctlrEl1 0x1013C081 (.sctlr .l1) 0] }

theorem witness_CpuResetLeaves_first :
    ((clashing 1).constructing = true ∧ (selfChecked (clashing 1)).2 = false) ∧
    (Inv (clashing 0) ∧ (clashing 0).constructing = true ∧ (selfChecked (clashing 0)).2 = true ∧
      (selfChecked (clashing 0)).1 = registryReset (clashing 0) ∧ (∀ e ∈ (clashing 0).reg, e.typ.getLsbD 6 = false) ∧
      ∃ t, exec .cpuReset (clashing 0) = .next t) := by
  refine ⟨by decide +kernel, inv_of_check (by decide +kernel), rfl, by decide +kernel, by decide +kernel, by decide +kernel,
    next_of_some (by decide +kernel)⟩

-- R181, R206: the first reset ends construction, or is a construction failure.
theorem test_first_reset :
    (match exec .cpuReset (clashing 1) with
     | .refused r => decide (r = .fatal .inconsistentReset)
     | _ => false) = true ∧
    (after .cpuReset (clashing 0)).constructing = false := ⟨by decide +kernel, by decide +kernel⟩

-- R503, R506: the second vector load fails.
theorem test_cpu_reset_second_load : rspOf (exec .cpuReset (micro [.m, .v7] [.ok 0x20001000, .err])) =
    some ⟨.locked, 0, 0, []⟩ := by decide +kernel

/-- An entry in storage of the catalog's own. -/
def ownStorage : Entry :=
  { entryAt (b64 "OWN_EL1" 3 0 11 0 0 pl1RW) 0x1013C580 (.catalog 7) 0 with resetvalue := 5 }

theorem witness_ResetIdempotent :
    (∀ s ∈ [good, { el1 with reg := [ownStorage] }],
      Inv s ∧ s.has .m = false ∧ s.constructing = false ∧ (∀ e ∈ s.reg, e.typ.getLsbD 6 = false) ∧
      ∃ t, exec .cpuReset s = .next t) ∧
    (∀ y ∈ [Answer.ok 0x08000101, .err],
      let s := micro [.m, .v7] (.ok 0x20001000 :: y :: .ok 0x20001000 :: y :: [])
      Inv s ∧ s.has .m = true ∧ s.constructing = false ∧ s.reg = [] ∧ ∃ t, exec .cpuReset s = .next t) := by
  refine ⟨?_, ?_⟩
  · intro s hs
    simp only [List.mem_cons, List.not_mem_nil, or_false] at hs
    rcases hs with rfl | rfl <;>
      exact ⟨inv_of_check (by decide +kernel), by decide +kernel, by decide +kernel, by decide +kernel,
        next_of_some (by decide +kernel)⟩
  · intro y hy
    simp only [List.mem_cons, List.not_mem_nil, or_false] at hy
    rcases hy with rfl | rfl <;>
      exact ⟨inv_of_check (by decide +kernel), by decide +kernel, rfl, rfl, next_of_some (by decide +kernel)⟩

end Sys2Proof.Tests
end

section
/-! The mode descriptor of `PACK_MODE`: the bits of the packed word, and each field in terms of its registers
(R128, R147, R150 to R154). -/

namespace Sys2Proof.Machine

/-! ## Bits and two-bit fields -/

theorem getLsbD_flag64_shiftLeft (b : Bool) {k : Nat} (hk : k < 64) (i : Nat) :
    (flag64 b <<< k).getLsbD i = (decide (i = k) && b) := by
  cases b
  · simp [flag64]
  · by_cases h : i = k
    · subst h; simp [flag64, hk]
    · simp [flag64, h]; omega

theorem testBit_of_lt_four {n i : Nat} (hn : n < 4) (hi : 2 ≤ i) : n.testBit i = false :=
  Nat.testBit_lt_two_pow (hn.trans_le (Nat.pow_le_pow_right (n := 2) (by decide) hi))

theorem getLsbD_ofNat_shiftLeft {n k : Nat} (hn : n < 4) (hk : k + 2 ≤ 64) (i : Nat) :
    (BitVec.ofNat 64 n <<< k).getLsbD i = (decide (k ≤ i) && n.testBit (i - k)) := by
  rw [BitVec.getLsbD_shiftLeft, BitVec.getLsbD_ofNat]
  by_cases hi : i < 64
  · simp only [hi, show i - k < 64 by omega, ← decide_not, Nat.not_lt, decide_true, Bool.true_and]
  · simp [hi, testBit_of_lt_four hn (show 2 ≤ i - k by omega)]

/-- A two-bit field is the number with its two bits. -/
theorem field_two_eq {w : Nat} {v : BitVec w} {lo n : Nat} (hn : n < 4) (h0 : v.getLsbD lo = n.testBit 0)
    (h1 : v.getLsbD (lo + 1) = n.testBit 1) : field v lo 2 = n := by
  refine Nat.eq_of_testBit_eq fun i => ?_
  rw [field, BitVec.testBit_toNat, BitVec.getLsbD_extractLsb']
  match i with
  | 0 => simpa using h0
  | 1 => simpa using h1
  | i + 2 => simp [testBit_of_lt_four hn]

/-- A two-bit field as the word shifted down and masked, the way R152 reads `CPACR`. -/
theorem field_two_eq_iff (v : Word) (lo : Nat) {n : Nat} (hn : n < 4) :
    field v lo 2 = n ↔ (v >>> lo) &&& 3 = BitVec.ofNat 32 n := by
  have hmask : ((v >>> lo) &&& 3).toNat = field v lo 2 := by
    rw [BitVec.toNat_and, BitVec.toNat_ushiftRight, field, BitVec.extractLsb'_toNat]
    exact Nat.and_two_pow_sub_one_eq_mod _ 2
  rw [← hmask, ← BitVec.toNat_inj, BitVec.toNat_ofNat, Nat.mod_eq_of_lt (by omega)]

/-! ## The parts of the descriptor, each from the registers its rule names -/

theorem elField_lt (w : Word) : elField w < 4 := BitVec.isLt _

theorem curEl_lt (s : State) : curEl s < 4 := by
  have hfield := elField_lt s.a64.pstate
  unfold curEl
  split_ifs <;> omega

theorem fpEl_lt (s : State) : fpEl s < 4 := by
  simp only [fpEl]
  split_ifs <;> decide

/-- R147 off the microcontroller profile as one condition: the highest level, or `SCR` bit 10 and, where level 2 controls
the level, `HCR` bit 31. -/
def levelRuns64 (s : State) (l : Nat) : Bool :=
  s.has .aarch64 && (decide (l = if s.has .el3 then 3 else if s.has .el2 then 2 else 1) ||
    ((!s.has .el3 || s.sys.scr.getLsbD 10) &&
     (decide (l = 2) || !s.has .el2 || (s.has .el3 && !s.sys.scr.getLsbD 0) || s.sys.hcr.getLsbD 31)))

theorem highestEl_of_not_m {s : State} (hm : s.has .m = false) :
    highestEl s.params = if s.has .el3 then 3 else if s.has .el2 then 2 else 1 := by
  unfold highestEl
  rw [if_neg (by simpa [State.has] using hm)]
  rfl

theorem elIsA64_eq_levelRuns64 {s : State} (hm : s.has .m = false) (l : Nat) : elIsA64 s l = levelRuns64 s l := by
  have hscr : (if s.has .el3 then bit s.sys.scr 10 else true) = (!s.has .el3 || s.sys.scr.getLsbD 10) := by
    cases s.has .el3 <;> rfl
  have hbelow : (s.has .el3 && !s.sys.scr.getLsbD 0) = secureBelowEl3 s := rfl
  rw [elIsA64, levelRuns64, highestEl_of_not_m hm, hscr, hbelow]
  cases s.has .aarch64
  · rfl
  by_cases hhigh : l = if s.has .el3 then 3 else if s.has .el2 then 2 else 1
  · rw [if_pos hhigh, decide_eq_true hhigh]; rfl
  rw [if_neg hhigh, decide_eq_false hhigh]
  by_cases h2 : l = 2
  · simp [h2]
  · cases s.has .el2 <;> cases secureBelowEl3 s <;> simp [h2, bit]

/-- R150: the byte order by level in the 64-bit state, from `CPSR.E` in the 32-bit state. -/
theorem beData_eq (s : State) :
    beData s = if s.has .m then false
      else if s.aarch64 then
        (match curEl s with
         | 0 => s.sys.sctlr.l1.getLsbD 24
         | 1 => s.sys.sctlr.l1.getLsbD 25
         | 2 => s.sys.sctlr.l2.getLsbD 25
         | _ => s.sys.sctlr.l3.getLsbD 25)
      else s.a32.cpsr.getLsbD 9 := by
  have hlt := curEl_lt s
  unfold beData
  generalize curEl s = el at hlt ⊢
  match el, hlt with
  | 0, _ | 1, _ | 2, _ | 3, _ => rfl

/-- R152: the level floating-point instructions trap to, its conditions as propositions. -/
theorem fpEl_eq (s : State) :
    fpEl s =
      let fpen := (s.sys.cpacr >>> 20) &&& 3
      let pl1 := if isSecure s = true ∧ s.has .el3 = true ∧ levelRuns64 s 3 = false then 3 else 1
      if s.has .m = true ∨ s.has .v6 = false then 0
      else if (fpen = 0 ∨ fpen = 2) ∧ (curEl s = 0 ∨ curEl s = 1 ∨ (curEl s = 3 ∧ pl1 = 3)) then pl1
      else if fpen = 1 ∧ curEl s = 0 then pl1
      else if s.has .el2 = true ∧ curEl s ≤ 2 ∧ ¬ (s.has .el3 = true ∧ s.sys.scr.getLsbD 0 = false) ∧
          s.sys.cptr2.getLsbD 10 = true then 2
      else if s.has .el3 = true ∧ s.sys.cptr3.getLsbD 10 = true then 3
      else 0 := by
  cases hm : s.has .m
  · have hfpen (n : Nat) (hn : n < 4) := field_two_eq_iff s.sys.cpacr 20 hn
    simp [fpEl, hm, elIsA64_eq_levelRuns64 hm, hfpen, secureBelowEl3, bit, and_assoc, or_assoc, -not_and, not_and_or]
  · simp [fpEl, hm]

/-- R153's debug level off the microcontroller profile, its conditions as propositions. -/
def debugLevel (s : State) : Nat :=
  if s.has .el2 = true ∧ isSecure s = false ∧ (s.sys.hcr.getLsbD 27 = true ∨ s.sys.mdcr.getLsbD 8 = true) then 2
  else if s.has .el3 = true ∧ levelRuns64 s 3 = false ∧ isSecure s = true then 3
  else 1

theorem debugTargetEl_eq_debugLevel {s : State} (hm : s.has .m = false) : debugTargetEl s = debugLevel s := by
  simp [debugTargetEl, debugLevel, elIsA64_eq_levelRuns64 hm, bit, and_assoc]

/-- R153: single-step is active below the debug level, and at it where `MDSCR` bit 13 and `PSTATE.D` let it. -/
theorem ssActive_eq (s : State) :
    ssActive s = (!s.has .m && s.sys.mdscr.getLsbD 0 && levelRuns64 s (debugLevel s) &&
      (decide (curEl s < debugLevel s) ||
        (decide (curEl s = debugLevel s) && s.sys.mdscr.getLsbD 13 && !s.a64.pstate.getLsbD 9))) := by
  cases hm : s.has .m
  · simp only [ssActive, hm, debugTargetEl_eq_debugLevel hm, elIsA64_eq_levelRuns64 hm, bit]
  · simp [ssActive, hm]

/-- R33: the live `SS` bit, which the microcontroller profile lacks. -/
theorem liveSs_eq (s : State) :
    liveSs s = (!s.has .m && if s.aarch64 then s.a64.pstate.getLsbD 21 else s.a32.cpsr.getLsbD 21) := by
  cases hm : s.has .m
  · cases h64 : s.aarch64 <;> simp [liveSs, liveStatus, hm, h64, bit, ssPos]
  · simp [liveSs, hm]

/-! ## The packed word -/

theorem getLsbD_packMode (s : State) (i : Nat) :
    (packMode s).getLsbD i =
      ((curEl s).testBit i || (decide (i = 2) && isSecure s) || (decide (i = 3) && s.aarch64) ||
       (decide (i = 4) && beData s) || (decide (5 ≤ i) && (fpEl s).testBit (i - 5)) ||
       (decide (i = 7) && ssActive s) || (decide (i = 8) && liveSs s)) := by
  have hel := getLsbD_ofNat_shiftLeft (curEl_lt s) (k := 0) (by decide) i
  rw [BitVec.shiftLeft_zero, decide_eq_true (Nat.zero_le i), Bool.true_and, Nat.sub_zero] at hel
  simp only [packMode, BitVec.getLsbD_or, hel, getLsbD_ofNat_shiftLeft (fpEl_lt s) (k := 5) (by decide),
    getLsbD_flag64_shiftLeft _ (k := 2) (by decide), getLsbD_flag64_shiftLeft _ (k := 3) (by decide),
    getLsbD_flag64_shiftLeft _ (k := 4) (by decide), getLsbD_flag64_shiftLeft _ (k := 7) (by decide),
    getLsbD_flag64_shiftLeft _ (k := 8) (by decide)]

theorem packMode_level (s : State) : field (packMode s) 0 2 = curEl s :=
  field_two_eq (curEl_lt s) (by rw [getLsbD_packMode]; simp) (by rw [getLsbD_packMode]; simp)

theorem packMode_fpLevel (s : State) : field (packMode s) 5 2 = fpEl s := by
  have hel (i : Nat) := testBit_of_lt_four (i := i) (curEl_lt s)
  exact field_two_eq (fpEl_lt s) (by rw [getLsbD_packMode, hel _ (by decide)]; simp)
    (by rw [getLsbD_packMode, hel _ (by decide)]; simp)

/-- The five one-bit fields: neither two-bit field reaches into them. -/
theorem packMode_flags (s : State) :
    (packMode s).getLsbD 2 = isSecure s ∧ (packMode s).getLsbD 3 = s.aarch64 ∧ (packMode s).getLsbD 4 = beData s ∧
    (packMode s).getLsbD 7 = ssActive s ∧ (packMode s).getLsbD 8 = liveSs s := by
  have hel (i : Nat) := testBit_of_lt_four (i := i) (curEl_lt s)
  have hfp (i : Nat) := testBit_of_lt_four (i := i) (fpEl_lt s)
  simp only [getLsbD_packMode]
  simp [hel, hfp]

theorem packMode_lt (s : State) : (packMode s).toNat < 512 := by
  refine Nat.lt_pow_two_of_testBit (n := 9) _ fun i hi => ?_
  rw [BitVec.testBit_toNat, getLsbD_packMode, testBit_of_lt_four (curEl_lt s) (by omega),
    testBit_of_lt_four (fpEl_lt s) (show 2 ≤ i - 5 by omega)]
  simp; omega

theorem exec_packMode_of_not_locked {s : State} (h : s.locked = false) :
    exec .packMode s = .next (respond s .ok (packMode s) 0) := by
  have hexec : exec .packMode s = done (unlessLocked s (ok s (packMode s) 0)) := rfl
  rw [hexec, unlessLocked, h]
  rfl

/-- Settles O18: the fields of the packed word do not overlap (`getLsbD_packMode`), and each is the value its rule computes
from the registers. -/
theorem packModeFields : Obligations.PackModeFields := by
  intro s hlocked
  obtain ⟨hsecure, hwidth, horder, hstep, hss⟩ := packMode_flags s
  exact ⟨packMode s, exec_packMode_of_not_locked hlocked, packMode_level s, hsecure, hwidth,
    horder.trans (beData_eq s), (packMode_fpLevel s).trans (fpEl_eq s), hstep.trans (ssActive_eq s),
    hss.trans (liveSs_eq s), packMode_lt s⟩

end Sys2Proof.Machine
end

section
/-! The banking rule of a control-register access: the classes of keys (R116, R117), the registry as a table (R38), the
bank that answers (R196) and what answers where that bank has no entry (R197). -/

namespace Sys2Proof.Machine

/-! ## The classes of keys -/

theorem keyClass_eq_iff {k : Word} {c : Nat} (hc : c < 16) : keyClass k = c ↔ k >>> 28 = BitVec.ofNat 32 c := by
  have hk := k.isLt
  rw [keyClass, field, BitVec.extractLsb'_toNat, ← BitVec.toNat_inj, BitVec.toNat_ushiftRight, BitVec.toNat_ofNat,
    Nat.shiftRight_eq_div_pow]
  omega

theorem isCp32Key_iff {k : Word} : isCp32Key k = true ↔ k >>> 28 = 0 ∨ k >>> 28 = 2 := by
  rw [isCp32Key, Bool.or_eq_true, decide_eq_true_iff, decide_eq_true_iff]
  exact or_congr (keyClass_eq_iff (by decide)) (keyClass_eq_iff (by decide))

theorem isMKey_iff {k : Word} : isMKey k = true ↔ k >>> 28 = 4 ∨ k >>> 28 = 5 := by
  rw [isMKey, Bool.or_eq_true, decide_eq_true_iff, decide_eq_true_iff]
  exact or_congr (keyClass_eq_iff (by decide)) (keyClass_eq_iff (by decide))

theorem not_isCp32Key_of_isMKey {k : Word} (h : isMKey k = true) : isCp32Key k = false := by
  rw [Bool.eq_false_iff, Ne, isCp32Key_iff]
  rcases isMKey_iff.mp h with h | h <;> rw [h] <;> decide

/-! ## The key an access resolves to -/

theorem bankKey_cp32 {s : State} {a : Word} (h : isCp32Key a = true) :
    bankKey s a = if isSecure s then a &&& ~~~ 0x20000000 else a ||| 0x20000000 := by
  simp [bankKey, h]

theorem bankKey_micro {s : State} {a : Word} (h : isMKey a = true) :
    bankKey s a = if isSecure s then a else a &&& ~~~ 0x08000000 := by
  simp [bankKey, h, not_isCp32Key_of_isMKey h]

theorem bankKey_unbanked {s : State} {a : Word} (hc : isCp32Key a = false) (hm : isMKey a = false) :
    bankKey s a = a := by
  simp [bankKey, hc, hm]

/-- The bank bit of a 32-bit key is bit 29, the one in which the two values of its class differ. -/
theorem isCp32Key_bankKey {s : State} {a : Word} (h : isCp32Key a = true) : isCp32Key (bankKey s a) = true := by
  rw [bankKey_cp32 h, isCp32Key_iff]
  split
  · rw [BitVec.ushiftRight_and_distrib]
    rcases isCp32Key_iff.mp h with h | h <;> rw [h] <;> decide
  · rw [BitVec.ushiftRight_or_distrib]
    rcases isCp32Key_iff.mp h with h | h <;> rw [h] <;> decide

/-- The bank bit of a microcontroller key is bit 27, below its class. -/
theorem isMKey_bankKey {s : State} {a : Word} (h : isMKey a = true) : isMKey (bankKey s a) = true := by
  rw [bankKey_micro h]
  split
  · exact h
  · rw [isMKey_iff, BitVec.ushiftRight_and_distrib]
    rcases isMKey_iff.mp h with h | h <;> rw [h] <;> decide

/-- The banked key, with the classes of keys told by their top four bits. -/
theorem bankKey_eq (s : State) (a : Word) :
    bankKey s a =
      if a >>> 28 = 0 ∨ a >>> 28 = 2 then (if isSecure s then a &&& 0xDFFFFFFF else a ||| 0x20000000)
      else if (a >>> 28 = 4 ∨ a >>> 28 = 5) ∧ isSecure s = false then a &&& 0xF7FFFFFF else a := by
  simp only [← isCp32Key_iff, ← isMKey_iff]
  cases hc : isCp32Key a
  · cases hm : isMKey a
    · simp [bankKey_unbanked hc hm]
    · cases hs : isSecure s <;> simp [bankKey_micro hm, hs]
  · simp [bankKey_cp32 hc]

/-- The key of the other bank. -/
theorem flipBank_bankKey_eq (s : State) (a : Word) :
    flipBank (bankKey s a) =
      if a >>> 28 = 0 ∨ a >>> 28 = 2 then bankKey s a ^^^ 0x20000000
      else if a >>> 28 = 4 ∨ a >>> 28 = 5 then bankKey s a ^^^ 0x08000000 else bankKey s a := by
  simp only [← isCp32Key_iff, ← isMKey_iff]
  cases hc : isCp32Key a
  · cases hm : isMKey a
    · simp [bankKey_unbanked hc hm, flipBank, hc, hm]
    · have hm' := isMKey_bankKey (s := s) hm
      simp [flipBank, hm', not_isCp32Key_of_isMKey hm']
  · simp [flipBank, isCp32Key_bankKey hc]

/-! ## The registry as a table -/

theorem lookup_key {s : State} {k : Word} {e : Entry} (h : lookup s k = some e) : e.key = k :=
  BitVec.eq_of_toNat_eq (findKey_key h)

theorem lookup_eq_none {s : State} {k : Word} (h : ∀ e ∈ s.reg, e.key ≠ k) : lookup s k = none :=
  Option.eq_none_iff_forall_ne_some.mpr fun e he => h e (lookup_mem he) (lookup_key he)

/-- No two entries of an ascending registry have one key, so the search stops at the entry itself. -/
theorem findKey_of_mem {es : List Entry} {e : Entry} (ha : KeysAscend es) (he : e ∈ es) :
    findKey es e.key.toNat = some e := by
  induction es with
  | nil => cases he
  | cons x xs ih =>
    obtain ⟨hlt, hxs⟩ := List.pairwise_cons.mp ha
    unfold findKey
    cases he with
    | head => simp
    | tail _ he =>
      have hne : Nat.beq x.key.toNat e.key.toNat = false :=
        Bool.eq_false_iff.mpr (mt Nat.eq_of_beq_eq_true (hlt e he).ne)
      rw [hne]
      exact ih hxs he

theorem Inv.lookup_of_mem {s : State} (h : Inv s) {e : Entry} (he : e ∈ s.reg) : lookup s e.key = some e :=
  findKey_of_mem h.ascending he

/-! ## What answers an access -/

theorem resolveBank_of_lookup {s : State} {a : Word} {e : Entry} (h : lookup s (bankKey s a) = some e) :
    resolveBank s a = .entry e := by
  simp [resolveBank, h]

/-! With no entry in the resolved bank, the entry of the other bank answers (R197). -/

theorem resolveBank_of_flip_const {s : State} {a : Word} {e : Entry} {v : DWord} (h : lookup s (bankKey s a) = none)
    (hf : lookup s (flipBank (bankKey s a)) = some e) (hsec : e.secure ≠ 3) (hv : e.absent = some (.const v)) :
    resolveBank s a = .const v := by
  simp only [resolveBank, h, hf, if_pos hsec, hv]

theorem resolveBank_of_flip_trap {s : State} {a : Word} {e : Entry} (h : lookup s (bankKey s a) = none)
    (hf : lookup s (flipBank (bankKey s a)) = some e) (hsec : e.secure ≠ 3) (ht : e.absent = some .trap) :
    resolveBank s a = .trap := by
  simp only [resolveBank, h, hf, if_pos hsec, ht]

theorem resolveBank_of_flip_both {s : State} {a : Word} {e : Entry} (h : lookup s (bankKey s a) = none)
    (hf : lookup s (flipBank (bankKey s a)) = some e) (hsec : e.secure = 3) : resolveBank s a = .absent := by
  simp [resolveBank, h, hf, hsec]

theorem resolveBank_absent {s : State} {a : Word} (h : lookup s (bankKey s a) = none)
    (hf : lookup s (flipBank (bankKey s a)) = none) : resolveBank s a = .absent := by
  simp [resolveBank, h, hf]

/-- Only the entry at the banked key is ever resolved: the other bank's entry never answers as an entry. -/
theorem resolveBank_key {s : State} {a : Word} {e : Entry} (h : resolveBank s a = .entry e) : e.key = bankKey s a := by
  unfold resolveBank at h
  dsimp only at h
  split at h
  · next hl => cases h; exact lookup_key hl
  · split at h
    · split at h
      · split at h <;> cases h
      · cases h
    · cases h

/-- Settles O28: an entry is resolved at the banked key alone (`resolveBank_key`); keys do not repeat, so the entry at that
key is the one, and with none there the key with the bank bit flipped decides (the `resolveBank_of_flip` lemmas). -/
theorem bankIsolation : Obligations.BankIsolation := by
  intro s a
  refine ⟨fun e he => ?_, fun hinv => ?_⟩
  · rw [resolveBank_key he]
    refine ⟨resolveBank_mem he, fun hs => ⟨fun hc => ?_, fun hm => ?_⟩, fun hs => ⟨fun hc => ?_, fun hm => ?_⟩,
      bankKey_unbanked⟩
    · simp [bankKey_cp32 hc, hs]
    · simp [bankKey_micro hm, hs]
    · simp [bankKey_cp32 hc, hs]
    · simp [bankKey_micro hm, hs]
  · dsimp only
    rw [← bankKey_eq, ← flipBank_bankKey_eq]
    refine ⟨fun e he hk => resolveBank_of_lookup (hk ▸ hinv.lookup_of_mem he), fun hnone => ?_⟩
    have hl := lookup_eq_none hnone
    have hflip {e : Entry} (he : e ∈ s.reg) (hk : e.key = flipBank (bankKey s a)) :
        lookup s (flipBank (bankKey s a)) = some e := hk ▸ hinv.lookup_of_mem he
    exact ⟨fun e he hk hsec =>
        ⟨fun v => resolveBank_of_flip_const hl (hflip he hk) hsec, resolveBank_of_flip_trap hl (hflip he hk) hsec⟩,
      fun e he hk => resolveBank_of_flip_both hl (hflip he hk),
      fun hno => resolveBank_absent hl (lookup_eq_none hno)⟩

end Sys2Proof.Machine
end

section
/-! Two-stage translation (R242, R319, R324 to R327): which faults a walk can end in and where they come from, the first
descriptor a walk loads in terms of the control registers, and the combination of the attributes of the two stages. -/

namespace Sys2Proof.Machine

/-! ## Fields and masks of addresses -/

theorem field_lt {w : Nat} (v : BitVec w) (lo len : Nat) : field v lo len < 2 ^ len := BitVec.isLt _

theorem field_zero_three (v : DWord) : field v 0 3 = (v &&& 7).toNat := by
  rw [field, BitVec.extractLsb'_toNat, BitVec.toNat_and]
  exact (Nat.and_two_pow_sub_one_eq_mod _ 3).symm

theorem lo32_eq (v : DWord) : lo32 v = v.setWidth 32 := (BitVec.setWidth_eq_extractLsb' (by decide)).symm

theorem getLsbD_lowMask (n i : Nat) : (lowMask n).getLsbD i = (decide (i < 64) && decide (i < n)) := by
  rw [lowMask, BitVec.getLsbD_ofNat, Nat.testBit_two_pow_sub_one]

theorem toNat_and_lowMask_48 (v : DWord) : (v &&& lowMask 48).toNat = v.toNat % 2 ^ 48 := by
  rw [BitVec.toNat_and]
  exact Nat.and_two_pow_sub_one_eq_mod _ 48

theorem and_not_lowMask_eq (v : DWord) (n : Nat) : v &&& ~~~ lowMask n = BitVec.ofNat 64 (v.toNat / 2 ^ n * 2 ^ n) := by
  refine BitVec.eq_of_getLsbD_eq fun i hi => ?_
  rw [← Nat.shiftRight_eq_div_pow, ← Nat.shiftLeft_eq, BitVec.getLsbD_and, BitVec.getLsbD_not, getLsbD_lowMask,
    BitVec.getLsbD_ofNat, Nat.testBit_shiftLeft, Nat.testBit_shiftRight, BitVec.testBit_toNat]
  by_cases h : n ≤ i
  · simp [hi, h, Nat.not_lt.mpr h, Nat.add_sub_cancel' h]
  · simp [hi, h, Nat.not_le.mp h]

theorem ushiftRight_ne_zero_iff (v : DWord) (n : Nat) : v >>> n ≠ 0 ↔ 2 ^ n ≤ v.toNat := by
  have hpos := Nat.two_pow_pos n
  rw [Ne, ← BitVec.toNat_inj, BitVec.toNat_ushiftRight, Nat.shiftRight_eq_div_pow]
  exact Nat.div_ne_zero_iff.trans (by omega)

/-! ## Where a stage-1 walk of the long format starts (R280 to R286, R296) -/

theorem ite_error_eq_ok_iff {ε α : Type} {p : Prop} [Decidable p] {e : ε} {a b : α} :
    (if p then .error e else .ok a : Except ε α) = .ok b ↔ ¬ p ∧ a = b := by
  split_ifs with h <;> simp [h]

theorem clampSize_eq (v : Nat) : clampSize v = max 16 (min 39 v) := by
  unfold clampSize
  split_ifs <;> omega

theorem topBits_eq {z : LongSizes} {tsz : Nat} (va : DWord) (htb : z.tb ≤ tsz) (hsz : tsz ≤ z.addrsize) :
    topBits z tsz va = va.toNat % 2 ^ (z.addrsize - z.tb) / 2 ^ (z.addrsize - tsz) := by
  rw [topBits, show z.addrsize - z.tb = (z.addrsize - tsz) + (tsz - z.tb) by omega, pow_add, Nat.mod_mul_right_div_self]

theorem selectBase_eq {z : LongSizes} (va : DWord) (ht0 : z.tb ≤ z.t0sz ∧ z.t0sz ≤ z.addrsize)
    (ht1 : z.tb ≤ z.t1sz ∧ z.t1sz ≤ z.addrsize) :
    selectBase z va =
      let top (n : Nat) : Nat := va.toNat % 2 ^ (z.addrsize - z.tb) / 2 ^ (z.addrsize - n)
      if z.t0sz ≠ 0 ∧ top z.t0sz = 0 then some false
      else if z.ttbr1 = true ∧ z.t1sz ≠ 0 ∧ top z.t1sz = 2 ^ (z.t1sz - z.tb) - 1 then some true
      else if z.t0sz = 0 then some false
      else if z.ttbr1 = true ∧ z.t1sz = 0 then some true
      else none := by
  simp only [selectBase, topBits_eq va ht0.1 ht0.2, topBits_eq va ht1.1 ht1.2, Bool.and_eq_true, decide_eq_true_eq,
    and_assoc]

theorem strideOf_eq (a64 sel : Bool) (tg : Nat) :
    strideOf a64 sel tg =
      if a64 = false then 9
      else if sel = true then (if tg = 1 then 11 else if tg = 3 then 13 else 9)
      else if tg = 1 then 13 else if tg = 2 then 11 else 9 := by
  match a64, sel, tg with
  | false, _, _ => rfl
  | true, true, 0 | true, true, 1 | true, true, 2 | true, true, 3 => rfl
  | true, false, 0 | true, false, 1 | true, false, 2 => rfl
  | true, true, n + 4 => rfl
  | true, false, n + 3 => rfl

theorem strideOf_bounds (a64 sel : Bool) (tg : Nat) : 0 < strideOf a64 sel tg ∧ strideOf a64 sel tg ≤ 13 := by
  rw [strideOf_eq]
  split_ifs <;> omega

/-- The regions of a stage-1 regime, both widths as one (R280, R281). -/
def stage1Sizes (s : State) (r : Regime) (va : DWord) : LongSizes :=
  let tcr := regimeTcr s r
  let rel := controllingLevel s r
  let a64 := regimeA64 s r
  { addrsize := if a64 then 64 else 32
    t0sz := if a64 then max 16 (min 39 (field tcr 0 6)) else field tcr 0 3
    t1sz := if a64 then max 16 (min 39 (field tcr 16 6)) else field tcr 16 3
    ttbr1 := decide (rel = 1) || (decide (rel = 3) && !a64)
    tb :=
      if a64 = true ∧ (if rel = 1 then (if bit va 55 then bit tcr 38 else bit tcr 37) else bit tcr 20) = true then 8
      else 0 }

theorem longSizes_of_ne_stage2 {s : State} {r : Regime} (hr : r ≠ .stage2) (va : DWord) :
    longSizes s r va = some (stage1Sizes s r va) := by
  cases h64 : regimeA64 s r <;> simp [longSizes, stage1Sizes, topByteIgnored, h64, hr, clampSize_eq]

/-- Either region size covers the top byte where that is ignored and leaves 25 bits of the address or more. -/
theorem stage1Sizes_bounds (s : State) (r : Regime) (va : DWord) :
    let z := stage1Sizes s r va
    (z.tb ≤ z.t0sz ∧ z.t0sz + 25 ≤ z.addrsize) ∧ (z.tb ≤ z.t1sz ∧ z.t1sz + 25 ≤ z.addrsize) := by
  have ht0 := field_lt (regimeTcr s r) 0 3
  have ht1 := field_lt (regimeTcr s r) 16 3
  cases h64 : regimeA64 s r
  · simp only [stage1Sizes, h64, Bool.false_eq_true, false_and, if_false]
    omega
  · simp only [stage1Sizes, h64, if_true]
    split_ifs <;> omega

/-- The input size of a region, the upper one for `hi` (R282). -/
def regionSize (s : State) (r : Regime) (va : DWord) (hi : Bool) : Nat :=
  (stage1Sizes s r va).addrsize - if hi then (stage1Sizes s r va).t1sz else (stage1Sizes s r va).t0sz

/-- The stride of a region (R283). -/
def regionStride (s : State) (r : Regime) (hi : Bool) : Nat :=
  strideOf (regimeA64 s r) hi (if hi then field (regimeTcr s r) 30 2 else field (regimeTcr s r) 14 2)

/-- The walk of a region is switched off (R282). -/
def regionOff (s : State) (r : Regime) (hi : Bool) : Bool :=
  let tcr := regimeTcr s r
  let rel := controllingLevel s r
  if hi then bit tcr 23 else if decide (rel = 1) || (decide (rel = 3) && !regimeA64 s r) then bit tcr 7 else false

/-- A region has more bits than the last table resolves, so its walk starts at level 3 or before. -/
theorem regionStart_le (s : State) (r : Regime) (va : DWord) (hi : Bool) :
    4 - (regionSize s r va hi - 4) / regionStride s r hi ≤ 3 := by
  have hsize : 25 ≤ regionSize s r va hi := by
    obtain ⟨⟨-, h0⟩, -, h1⟩ := stage1Sizes_bounds s r va
    cases hi
    · exact Nat.le_sub_of_add_le' h0
    · exact Nat.le_sub_of_add_le' h1
  obtain ⟨hpos, hle⟩ : 0 < regionStride s r hi ∧ regionStride s r hi ≤ 13 := strideOf_bounds _ _ _
  have hdiv : 0 < (regionSize s r va hi - 4) / regionStride s r hi := Nat.div_pos (by omega) hpos
  omega

/-- Where a stage-1 walk starts, in the model's own words: the region the address lies in and its base register. -/
theorem longStart_of_ne_stage2 {s : State} {r : Regime} (hr : r ≠ .stage2) (va : DWord) :
    longStart s r va =
      let l0 := if regimeA64 s r then 0 else 1
      match selectBase (stage1Sizes s r va) va with
      | none => .error l0
      | some hi =>
        if regionOff s r hi then .error l0
        else .ok (if hi then regimeTtbr1 s r else regimeTtbr0 s r, regionSize s r va hi, regionStride s r hi,
          4 - (regionSize s r va hi - 4) / regionStride s r hi) := by
  obtain ⟨⟨htb0, hsz0⟩, htb1, hsz1⟩ := stage1Sizes_bounds s r va
  rw [selectBase_eq va ⟨htb0, by omega⟩ ⟨htb1, by omega⟩]
  simp only [longStart, hr, stage1Sizes, regionOff, regionSize, regionStride, bit, ← strideOf_eq, decide_false,
    Bool.not_false, Bool.true_and, Bool.false_eq_true, true_and, false_and, and_false, if_true, if_false,
    Bool.or_eq_true, Bool.and_eq_true, Bool.not_eq_true', decide_eq_true_eq] <;>
  rfl

/-- The parameters of a stage-1 walk that starts as `longStart` says. -/
def stage1Walk (s : State) (r : Regime) (ttbr : DWord) (size stride level : Nat) : LongWalk :=
  { s2 := false, a64 := regimeA64 s r, level := level, stride := stride, inputsize := size, outputsize := longOut s r,
    ttbr := ttbr }

theorem outputSize_eq_longOut (s : State) (r : Regime) : outputSize s r = longOut s r := by
  have hpick : (if controllingLevel s r = 1 then field (regimeTcr s r) 32 3 else field (regimeTcr s r) 16 3) =
      field (regimeTcr s r) (if controllingLevel s r = 1 then 32 else 16) 3 := by split_ifs <;> rfl
  have hlt := field_lt (regimeTcr s r) (if controllingLevel s r = 1 then 32 else 16) 3
  unfold outputSize longOut
  dsimp only
  rw [hpick]
  generalize field (regimeTcr s r) (if controllingLevel s r = 1 then 32 else 16) 3 = n at hlt ⊢
  cases regimeA64 s r
  · rfl
  · match n, hlt with
    | 0, _ | 1, _ | 2, _ | 3, _ | 4, _ | 5, _ | 6, _ | 7, _ => rfl

theorem longSetup_of_longStart {s : State} {r : Regime} {va ttbr : DWord} {size stride level : Nat} (hr : r ≠ .stage2)
    (h : longStart s r va = .ok (ttbr, size, stride, level)) :
    longSetup s r va = .ok (stage1Walk s r ttbr size stride level) ∧ level ≤ 3 := by
  simp only [longStart_of_ne_stage2 hr] at h
  split at h
  · cases h
  · next hi hsel =>
    obtain ⟨hon, hstart⟩ := ite_error_eq_ok_iff.mp h
    cases hstart
    refine ⟨?_, regionStart_le s r va hi⟩
    unfold longSetup
    simp only [longSizes_of_ne_stage2 hr, hsel, hr, decide_false, Bool.false_eq_true, if_false, outputSize_eq_longOut]
    exact if_neg hon

theorem LongWalk.base_eq (w : LongWalk) :
    w.base = BitVec.ofNat 64
      (w.ttbr.toNat % 2 ^ 48 / 2 ^ (w.inputsize - w.shift w.level) * 2 ^ (w.inputsize - w.shift w.level)) := by
  rw [LongWalk.base, LongWalk.firstMask, and_not_lowMask_eq, toNat_and_lowMask_48]

theorem LongWalk.toNat_base (w : LongWalk) :
    w.base.toNat =
      w.ttbr.toNat % 2 ^ 48 / 2 ^ (w.inputsize - w.shift w.level) * 2 ^ (w.inputsize - w.shift w.level) := by
  rw [LongWalk.base_eq, BitVec.toNat_ofNat]
  have hle := Nat.div_mul_le_self (w.ttbr.toNat % 2 ^ 48) (2 ^ (w.inputsize - w.shift w.level))
  exact Nat.mod_eq_of_lt (by omega)

theorem LongWalk.tooBig_eq_false_iff (w : LongWalk) (pa : DWord) :
    w.tooBig pa = false ↔ ¬ (w.outputsize < 48 ∧ 2 ^ w.outputsize ≤ pa.toNat) := by
  rw [LongWalk.tooBig, ← Bool.not_eq_true, Bool.and_eq_true, decide_eq_true_eq, decide_eq_true_eq,
    ushiftRight_ne_zero_iff]

/-- The address of the first descriptor (R298). -/
def LongWalk.firstAddr (w : LongWalk) (va : DWord) : DWord :=
  (w.base ||| ((va >>> w.shift w.level) &&& w.firstMask)) &&& ~~~ 7

/-! ## A fault of the first load ends a walk -/

theorem walkLong_of_firstLoad_fault {s : State} {ld : Loader} {r : Regime} {va : DWord} {k : Access} {b b' : Bus}
    {f : FaultRec} {w : LongWalk} (hw : longSetup s r va = .ok w) (hs2 : w.s2 = false) (hlevel : w.level ≤ 3)
    (hfits : w.tooBig w.base = false) (hld : ∀ sec, ld b w.level (w.firstAddr va) sec = (.error f, b')) :
    walkLong s ld r va k b = (.error f, b') := by
  have hloop (tattr : BitVec 5) :
      longLoop w ld va (3 - w.level) w.base tattr w.firstMask b = (.error f, b') := by
    unfold LongWalk.firstAddr at hld
    unfold longLoop
    simp only [Nat.sub_sub_self hlevel, hld, LongWalk.loadFault, hs2, Bool.false_eq_true, if_false]
  simp [walkLong, hw, hfits, hloop]

theorem walkShortExtended_of_firstLoad_fault {s : State} {ld : Loader} {r : Regime} {va a : Word} {k : Access}
    {b b' : Bus} {f : FaultRec} (ha : firstLevelAddr s r va = some a)
    (hld : ld b 1 (zext a) (regimeSecure r) = (.error f, b')) : walkShortExtended s ld r va k b = (.error f, b') := by
  simp [walkShortExtended, ha, hld]

theorem walkShortLegacy_of_firstLoad_fault {s : State} {ld : Loader} {r : Regime} {va a : Word} {k : Access}
    {b b' : Bus} {f : FaultRec} (ha : firstLevelAddr s r va = some a)
    (hld : ld b 1 (zext a) (regimeSecure r) = (.error f, b')) : walkShortLegacy s ld r va k b = (.error f, b') := by
  simp [walkShortLegacy, ha, hld]

/-! ## The faults a walk can end in -/

/-- One of the loads of `ld` fails with the record `g` and leaves the port as `b'`. -/
def Loader.Fails (ld : Loader) (g : FaultRec) (b' : Bus) : Prop := ∃ b level pa sec, ld b level pa sec = (.error g, b')

/-- A record that a short-format walk makes itself. -/
def FaultRec.IsShort (f : FaultRec) : Prop := ∃ kind level domain, f = shortFault kind level domain

/-- A record that a long-format walk makes itself. -/
def FaultRec.IsLong (f : FaultRec) (s2 : Bool) (va : DWord) : Prop := ∃ kind level, f = longFault s2 kind level va

theorem longLoop_fault {w : LongWalk} {ld : Loader} {va : DWord} {f : FaultRec} {b' : Bus} {fuel : Nat} {table : DWord}
    {tattr : BitVec 5} {mask : DWord} {b : Bus} (h : longLoop w ld va fuel table tattr mask b = (.error f, b')) :
    f.IsLong w.s2 va ∨ ∃ g, ld.Fails g b' ∧ f = w.loadFault g va := by
  fun_induction longLoop w ld va fuel table tattr mask b with
  | case1 _ _ _ _ _ _ _ _ g _ hld => cases h; exact .inr ⟨g, ⟨_, _, _, _, hld⟩, rfl⟩
  | case2 => cases h; exact .inl ⟨_, _, rfl⟩
  | case3 => cases h; exact .inl ⟨_, _, rfl⟩
  | case4 => cases h
  | case5 _ _ _ _ _ _ _ _ _ _ _ _ _ _ _ ih => exact ih h
  | case6 => cases h

theorem longSetup_fault {s : State} {r : Regime} {va : DWord} {f : FaultRec} (h : longSetup s r va = .error f) :
    f.IsLong (decide (r = .stage2)) va := by
  unfold longSetup at h
  dsimp only at h
  split at h
  · cases h; exact ⟨_, _, rfl⟩
  · split at h
    · cases h; exact ⟨_, _, rfl⟩
    · split_ifs at h <;> cases h <;> exact ⟨_, _, rfl⟩

theorem longSetup_s2 {s : State} {r : Regime} {va : DWord} {w : LongWalk} (h : longSetup s r va = .ok w) :
    w.s2 = decide (r = .stage2) := by
  unfold longSetup at h
  dsimp only at h
  split at h
  · cases h
  · split at h
    · cases h
    · split_ifs at h <;> cases h <;> rfl

theorem leafResult_fault {s : State} {r : Regime} {w : LongWalk} {va : DWord} {k : Access} {l : Leaf} {f : FaultRec}
    (h : leafResult s r w va k l = .error f) : f.IsLong w.s2 va := by
  unfold leafResult at h
  dsimp only at h
  split_ifs at h <;> cases h <;> exact ⟨_, _, rfl⟩

/-- The record of a failed load as the walk of a regime passes it on: stage 2 adds the address it translates (R124). -/
def passedOn (r : Regime) (g : FaultRec) (va : DWord) : FaultRec := if r = .stage2 then { g with ipa := va } else g

theorem walkLong_fault {s : State} {ld : Loader} {r : Regime} {va : DWord} {k : Access} {b b' : Bus} {f : FaultRec}
    (h : walkLong s ld r va k b = (.error f, b')) :
    f.IsLong (decide (r = .stage2)) va ∨ ∃ g, ld.Fails g b' ∧ f = passedOn r g va := by
  unfold walkLong at h
  split at h
  · next hsetup => cases h; exact .inl (longSetup_fault hsetup)
  · next w hsetup =>
    rw [← longSetup_s2 hsetup]
    split at h
    · cases h; exact .inl ⟨_, _, rfl⟩
    · split at h
      · next hloop =>
        cases h
        refine (longLoop_fault hloop).imp_right fun ⟨g, hfails, hg⟩ => ⟨g, hfails, ?_⟩
        rw [hg, LongWalk.loadFault, passedOn, longSetup_s2 hsetup]
        simp only [decide_eq_true_eq]
      · obtain ⟨hleaf, -⟩ := Prod.mk.inj h
        exact .inl (leafResult_fault hleaf)

theorem legacyFinish_fault {s : State} {r : Regime} {k : Access} {level domain dp ap size : Nat} {phys : Word}
    {f : FaultRec} (h : legacyFinish s r k level domain dp ap phys size = .error f) : f.IsShort := by
  unfold legacyFinish at h
  dsimp only at h
  split_ifs at h <;> cases h <;> exact ⟨_, _, _, rfl⟩

theorem legacySecond_fault {s : State} {r : Regime} {va d2 : Word} {k : Access} {domain dp : Nat} {fine : Bool}
    {f : FaultRec} (h : legacySecond s r va k domain dp fine d2 = .error f) : f.IsShort := by
  unfold legacySecond at h
  split at h
  · cases h; exact ⟨_, _, _, rfl⟩
  · exact legacyFinish_fault h
  · exact legacyFinish_fault h
  · split_ifs at h
    · exact legacyFinish_fault h
    · exact legacyFinish_fault h
    · cases h; exact ⟨_, _, _, rfl⟩

theorem extendedFinish_fault {s : State} {r : Regime} {k : Access} {level domain dp ap size : Nat} {xn pxn ns : Bool}
    {phys : DWord} {f : FaultRec} (h : extendedFinish s r k level domain dp ap xn pxn ns phys size = .error f) :
    f.IsShort := by
  unfold extendedFinish at h
  dsimp only at h
  split_ifs at h <;> cases h <;> exact ⟨_, _, _, rfl⟩

theorem extendedSecond_fault {s : State} {r : Regime} {va d2 : Word} {k : Access} {domain dp : Nat} {pxn ns : Bool}
    {f : FaultRec} (h : extendedSecond s r va k domain dp pxn ns d2 = .error f) : f.IsShort := by
  unfold extendedSecond at h
  dsimp only at h
  split at h
  · cases h; exact ⟨_, _, _, rfl⟩
  · exact extendedFinish_fault h
  · exact extendedFinish_fault h

theorem walkShortLegacy_fault {s : State} {ld : Loader} {r : Regime} {va : Word} {k : Access} {b b' : Bus}
    {f : FaultRec} (h : walkShortLegacy s ld r va k b = (.error f, b')) : f.IsShort ∨ ld.Fails f b' := by
  unfold walkShortLegacy at h
  split at h
  · cases h; exact .inl ⟨_, _, _, rfl⟩
  · split at h
    · next hld => cases h; exact .inr ⟨_, _, _, _, hld⟩
    · dsimp only at h
      split at h
      · cases h; exact .inl ⟨_, _, _, rfl⟩
      · split at h
        · cases h; exact .inl ⟨_, _, _, rfl⟩
        · split at h
          · exact .inl (legacyFinish_fault (Prod.mk.inj h).1)
          · split at h
            · next hld => cases h; exact .inr ⟨_, _, _, _, hld⟩
            · exact .inl (legacySecond_fault (Prod.mk.inj h).1)

theorem walkShortExtended_fault {s : State} {ld : Loader} {r : Regime} {va : Word} {k : Access} {b b' : Bus}
    {f : FaultRec} (h : walkShortExtended s ld r va k b = (.error f, b')) : f.IsShort ∨ ld.Fails f b' := by
  unfold walkShortExtended at h
  split at h
  · cases h; exact .inl ⟨_, _, _, rfl⟩
  · split at h
    · next hld => cases h; exact .inr ⟨_, _, _, _, hld⟩
    · next d _ _ =>
      dsimp only at h
      generalize (if (decide (field (lo32 d) 0 2 ≠ 1) && bit (lo32 d) 18) = true then 0 else field (lo32 d) 5 4) =
        domain at h
      split at h
      · cases h; exact .inl ⟨_, _, _, rfl⟩
      · split at h
        · cases h; exact .inl ⟨_, _, _, rfl⟩
        · split at h
          · exact .inl (extendedFinish_fault (Prod.mk.inj h).1)
          · split at h
            · next hld => cases h; exact .inr ⟨_, _, _, _, hld⟩
            · exact .inl (extendedSecond_fault (Prod.mk.inj h).1)

/-! ## The faults of stage 2, of a nested load and of stage 1 -/

theorem physLoad_fault {s : State} {r : Regime} {n level : Nat} {long sec : Bool} {pa : DWord} {b b' : Bus}
    {f : FaultRec} (h : physLoad s r n long b level pa sec = (.error f, b')) :
    f.stage2 = decide (r = .stage2) ∧ f.s1ptw = false ∧ f.formatLong = long := by
  unfold physLoad at h
  split at h <;> cases h
  exact ⟨rfl, rfl, rfl⟩

/-- A stage-2 fault is in the long format (R325). -/
theorem walkStage2_formatLong {s : State} {ipa : DWord} {k : Access} {b b' : Bus} {f : FaultRec}
    (h : walkStage2 s ipa k b = (.error f, b')) : f.formatLong = true := by
  rcases walkLong_fault h with ⟨kind, level, rfl⟩ | ⟨g, ⟨b₁, level, pa, sec, hld⟩, rfl⟩
  · rfl
  · exact (physLoad_fault hld).2.2

/-- A fault of stage 1 that is its own. -/
def FaultRec.OfStage1 (f : FaultRec) : Prop := f.stage2 = false ∧ f.s1ptw = false

/-- A fault of stage 2 met on the address of a stage-1 descriptor (R242). -/
def FaultRec.OfTableWalk (s : State) (f : FaultRec) (b' : Bus) : Prop :=
  ∃ b₁ f₂, walkStage2 s f.ipa .load b₁ = (.error f₂, b') ∧ f = { f₂ with stage2 := true, s1ptw := true, ipa := f.ipa }

theorem nestedLoad_of_stage2_fault {s : State} {pa : DWord} {b b' : Bus} {f : FaultRec}
    (h : walkStage2 s pa .load b = (.error f, b')) (r : Regime) (n level : Nat) (long sec : Bool) :
    nestedLoad s r n long b level pa sec = (.error { f with stage2 := true, s1ptw := true, ipa := pa }, b') := by
  simp [nestedLoad, h]

theorem nestedLoad_fault {s : State} {r : Regime} {n : Nat} {long : Bool} {b' : Bus} {f : FaultRec} (hr : r ≠ .stage2)
    (h : (nestedLoad s r n long).Fails f b') : f.OfStage1 ∨ f.OfTableWalk s b' := by
  obtain ⟨b, level, pa, sec, h⟩ := h
  unfold nestedLoad at h
  split at h
  · next f₂ b₂ hwalk => cases h; exact .inr ⟨b, f₂, hwalk, rfl⟩
  · obtain ⟨hstage2, hs1ptw, -⟩ := physLoad_fault h
    exact .inl ⟨hstage2.trans (decide_eq_false hr), hs1ptw⟩

theorem loaderOf_s1Ns {s : State} (he : stage2Enabled s = true) (user : Bool) (n : Nat) (long : Bool) :
    loaderOf s (.s1Ns user) n long = nestedLoad s (.s1Ns user) n long := if_pos he

/-- Stage 1 of the Non-secure level-0/1 regime: its own faults, and those of stage 2 on its descriptors. -/
theorem translateStage_s1Ns_fault {s : State} (he : stage2Enabled s = true) {user : Bool} {va : DWord} {k : Access}
    {b b' : Bus} {f : FaultRec} (h : translateStage s (.s1Ns user) va k b = (.error f, b')) :
    f.OfStage1 ∨ f.OfTableWalk s b' := by
  have hr : Regime.s1Ns user ≠ .stage2 := Regime.noConfusion
  have hshort (hf : f.IsShort ∨ (loaderOf s (.s1Ns user) 4 false).Fails f b') : f.OfStage1 ∨ f.OfTableWalk s b' := by
    rcases hf with ⟨_, _, _, rfl⟩ | hfails
    · exact .inl ⟨rfl, rfl⟩
    · exact nestedLoad_fault hr (loaderOf_s1Ns he user 4 false ▸ hfails)
  unfold translateStage at h
  split_ifs at h
  · cases h
  · rcases walkLong_fault h with ⟨_, _, rfl⟩ | ⟨g, hfails, hg⟩
    · exact .inl ⟨decide_eq_false hr, rfl⟩
    · rw [passedOn, if_neg hr] at hg
      subst hg
      exact nestedLoad_fault hr (loaderOf_s1Ns he user 8 true ▸ hfails)
  · exact hshort (walkShortExtended_fault h)
  · exact hshort (walkShortLegacy_fault h)

/-! ## The first descriptor of stage 1 -/

theorem firstLevelAddr_eq_tableAddr (s : State) (r : Regime) (va : Word) :
    firstLevelAddr s r va = tableAddr s r va := by
  simp [firstLevelAddr, tableAddr, field_zero_three, lo32_eq, bit]

theorem has_el2_of_stage2Enabled {s : State} (he : stage2Enabled s = true) : s.has .el2 = true :=
  (Bool.and_eq_true_iff.mp he).1

theorem regimeDisabled_s1Ns {s : State} (h2 : s.has .el2 = true) (user : Bool) :
    regimeDisabled s (.s1Ns user) =
      (s.sys.hcr.getLsbD 27 || s.sys.hcr.getLsbD 12 || !s.sys.sctlr.l1.getLsbD 0) := by
  have hsctlr : regimeSctlr s (.s1Ns user) = s.sys.sctlr.l1 := rfl
  simp only [regimeDisabled, regimeSecure, controllingLevel, h2, hsctlr, bit, reduceCtorEq, if_false]
  cases s.sys.hcr.getLsbD 27 <;> cases s.sys.hcr.getLsbD 12 <;> rfl

theorem firstDescriptor_regime_enabled {s : State} (h2 : s.has .el2 = true) {user : Bool} {va a : DWord}
    (h : firstDescriptor s (.s1Ns user) va = some a) : regimeDisabled s (.s1Ns user) = false := by
  unfold firstDescriptor at h
  split at h
  · cases h
  · next hoff =>
    rw [regimeDisabled_s1Ns h2]
    have hsctlr : regimeSctlr s (.s1Ns user) = s.sys.sctlr.l1 := rfl
    simpa [hsctlr, and_assoc] using hoff

theorem firstDescriptor_long {s : State} {r : Regime} {va a : DWord} (hr : r ≠ .stage2)
    (hlong : usesLongFormat s r = true) (h : firstDescriptor s r va = some a) :
    ∃ w : LongWalk, longSetup s r va = .ok w ∧ w.s2 = false ∧ w.level ≤ 3 ∧ w.tooBig w.base = false ∧
      w.firstAddr va = a := by
  unfold firstDescriptor at h
  rw [hlong] at h
  split at h
  · cases h
  · rw [if_pos rfl] at h
    split at h
    · cases h
    · next ttbr size stride level hstart =>
      obtain ⟨hsetup, hlevel⟩ := longSetup_of_longStart hr hstart
      dsimp only at h
      split at h
      · cases h
      · next hfits =>
        refine ⟨stage1Walk s r ttbr size stride level, hsetup, rfl, hlevel, ?_, ?_⟩
        · rw [LongWalk.tooBig_eq_false_iff, LongWalk.toNat_base]
          exact hfits
        · cases h
          rw [LongWalk.firstAddr, LongWalk.base_eq]
          rfl

theorem firstDescriptor_short {s : State} {r : Regime} {va a : DWord} (hlong : usesLongFormat s r = false)
    (h : firstDescriptor s r va = some a) : ∃ a' : Word, firstLevelAddr s r (lo32 va) = some a' ∧ zext a' = a := by
  unfold firstDescriptor at h
  rw [hlong] at h
  split at h
  · cases h
  · rw [if_neg Bool.false_ne_true, Option.map_eq_some_iff] at h
    rw [lo32_eq, firstLevelAddr_eq_tableAddr]
    exact h

/-- A fault of stage 2 on the first descriptor of stage 1 ends the translation, whatever the format and the access. -/
theorem translateStage_of_firstDescriptor_fault {s : State} (he : stage2Enabled s = true) {user : Bool} {va a : DWord}
    {b b' : Bus} {f : FaultRec} (ha : firstDescriptor s (.s1Ns user) va = some a)
    (h : walkStage2 s a .load b = (.error f, b')) (k : Access) :
    translateStage s (.s1Ns user) va k b = (.error { f with stage2 := true, s1ptw := true, ipa := a }, b') := by
  have hload := nestedLoad_of_stage2_fault h (.s1Ns user)
  unfold translateStage
  rw [firstDescriptor_regime_enabled (has_el2_of_stage2Enabled he) ha, if_neg Bool.false_ne_true, loaderOf_s1Ns he,
    loaderOf_s1Ns he]
  cases hlong : usesLongFormat s (.s1Ns user)
  · obtain ⟨a', hfirst, rfl⟩ := firstDescriptor_short hlong ha
    rw [if_neg Bool.false_ne_true]
    split
    · exact walkShortExtended_of_firstLoad_fault hfirst (hload _ _ _ _)
    · exact walkShortLegacy_of_firstLoad_fault hfirst (hload _ _ _ _)
  · obtain ⟨w, hsetup, hs2, hlevel, hfits, rfl⟩ := firstDescriptor_long Regime.noConfusion hlong ha
    exact walkLong_of_firstLoad_fault hsetup hs2 hlevel hfits fun sec => hload _ _ _ sec

/-! ## The attributes of the two stages combined (R319) -/

theorem attrNibble_toNat (a b : BitVec 4) :
    (attrNibble a b).toNat =
      if a.toNat = 4 ∨ b.toNat = 4 then 4 else if a.toNat / 4 = 0 ∨ a.toNat / 4 = 2 then a.toNat
      else if b.toNat / 4 = 2 then 8 + a.toNat % 4 else a.toNat := by
  revert a b
  decide

theorem attrNibble_fields (a b : Byte) (i : Nat) :
    (attrNibble (a.extractLsb' i 4) (b.extractLsb' i 4)).toNat =
      if field a i 4 = 4 ∨ field b i 4 = 4 then 4 else if field a i 4 / 4 = 0 ∨ field a i 4 / 4 = 2 then field a i 4
      else if field b i 4 / 4 = 2 then 8 + field a i 4 % 4 else field a i 4 := attrNibble_toNat _ _

theorem append_eq_ofNat (a b : BitVec 4) : (a ++ b : BitVec 8) = BitVec.ofNat 8 (16 * a.toNat + b.toNat) := by
  refine BitVec.eq_of_toNat_eq ?_
  have ha := a.isLt
  have hb := b.isLt
  rw [BitVec.toNat_append, ← Nat.shiftLeft_add_eq_or_of_lt hb, Nat.shiftLeft_eq, BitVec.toNat_ofNat]
  omega

theorem field_high_eq_zero_iff (w : Byte) : field w 4 4 = 0 ↔ w >>> 4 = 0 := by
  have hw := w.isLt
  rw [field, BitVec.extractLsb'_toNat, ← BitVec.toNat_inj, BitVec.toNat_ushiftRight, Nat.shiftRight_eq_div_pow]
  change _ ↔ _ = 0
  omega

theorem combineAttrs_eq_bothStages (a1 a2 : Byte) (h1 h2 : BitVec 2) :
    combineAttrs a1 h1 a2 h2 = bothStages (a1, h1) (a2, h2) := by
  have ht1 : field a1 2 2 ≤ 3 := Nat.le_of_lt_succ (field_lt a1 2 2)
  have ht2 : field a2 2 2 ≤ 3 := Nat.le_of_lt_succ (field_lt a2 2 2)
  simp only [combineAttrs, bothStages, ← field_high_eq_zero_iff]
  by_cases hd1 : field a1 4 4 = 0 <;> by_cases hd2 : field a2 4 4 = 0
  · simp [hd1, hd2, Nat.mul_comm]
  · simp [hd1, hd2, Nat.mul_comm, ht1]
  · simp [hd1, hd2, Nat.mul_comm, ht2]
  · simp only [hd1, hd2, append_eq_ofNat, attrNibble_fields, decide_false, Bool.or_self, Bool.false_eq_true, if_false]
    exact Prod.ext rfl (ite_or _ _ _ _).symm

/-- R326: the attributes stage 1 brings to the combination, from the bits that disable it. -/
theorem stage1Attrs_s1Ns {s : State} (h2 : s.has .el2 = true) (user : Bool) (k : Access) (x : XOk) :
    stage1Attrs s (.s1Ns user) k x =
      if s.sys.hcr.getLsbD 12 = true then (0xFF, 0)
      else if s.sys.hcr.getLsbD 27 = true ∨ s.sys.sctlr.l1.getLsbD 0 = false then
        (if k = .fetch then (0x44, 2) else (0x00, 2))
      else (x.attrs, x.sh) := by
  rw [stage1Attrs, regimeDisabled_s1Ns h2, bit]
  cases s.sys.hcr.getLsbD 12 <;> simp

/-! ## The nested regime and its stages -/

section
variable {s : State} (hm : s.has .m = false) (hp : s.has .pmsa = false) (he : stage2Enabled s = true)
include hm hp

theorem translateOn_s1Ns (user : Bool) (va : DWord) (k : Access) (b : Bus) :
    translateOn s (.s1Ns user) va k b = translateStage s (.s1Ns user) va k b := by
  simp [translateOn, hm, hp]

include he

theorem translateOn_e10Ns (user : Bool) (va : DWord) (k : Access) (b : Bus) :
    translateOn s (.e10Ns user) va k b = translateNested s user va k b := by
  simp [translateOn, hm, hp, has_el2_of_stage2Enabled he]

theorem translateOn_stage2 (ipa : DWord) (k : Access) (b : Bus) :
    translateOn s .stage2 ipa k b = walkStage2 s ipa k b := by
  have hon : regimeDisabled s .stage2 = false := by
    have hbits := (Bool.and_eq_true_iff.mp he).2
    rw [regimeDisabled, if_pos rfl, ← Bool.not_or, hbits]
    rfl
  simp only [translateOn, hm, hp, Bool.or_self, Bool.false_eq_true, if_false, translateStage, hon]
  rfl

end

theorem translateNested_of_stage1_fault {s : State} {user : Bool} {va : DWord} {k : Access} {b b' : Bus} {f : FaultRec}
    (h : translateStage s (.s1Ns user) va k b = (.error f, b')) : translateNested s user va k b = (.error f, b') := by
  simp [translateNested, h]

/-- What a success of the nested regime says of its stages. -/
theorem translateNested_ok {s : State} (he : stage2Enabled s = true) {user : Bool} {va : DWord} {k : Access}
    {b b' : Bus} {x : XOk} (h : translateNested s user va k b = (.ok x, b')) :
    ∃ x₁ b₁ x₂, translateStage s (.s1Ns user) va k b = (.ok x₁, b₁) ∧ walkStage2 s x₁.phys k b₁ = (.ok x₂, b') ∧
      x = combineStages s (.s1Ns user) k x₁ x₂ := by
  unfold translateNested at h
  split at h
  · cases h
  · next x₁ b₁ h₁ =>
    rw [he, if_neg (by decide)] at h
    split at h
    · cases h
    · next x₂ b₂ h₂ => cases h; exact ⟨x₁, b₁, x₂, h₁, h₂, rfl⟩

/-- Which stage a fault of the nested regime comes from. -/
theorem translateNested_fault {s : State} {user : Bool} {va : DWord} {k : Access} {b b' : Bus}
    {f : FaultRec} (h : translateNested s user va k b = (.error f, b')) :
    translateStage s (.s1Ns user) va k b = (.error f, b') ∨
    ∃ x₁ b₁ f₂, translateStage s (.s1Ns user) va k b = (.ok x₁, b₁) ∧ walkStage2 s x₁.phys k b₁ = (.error f₂, b') ∧
      f = { f₂ with stage2 := true, s1ptw := false, ipa := x₁.phys } := by
  unfold translateNested at h
  split at h
  · next h₁ => cases h; exact .inl h₁
  · next x₁ b₁ h₁ =>
    split at h
    · cases h
    · split at h
      · next f₂ b₂ h₂ => cases h; exact .inr ⟨x₁, b₁, f₂, h₁, h₂, rfl⟩
      · cases h

/-- Settles O42: the nested regime is stage 1, then stage 2 on its output (`translateNested_ok` and
`translateNested_fault`); a fault of stage 1 is its own or one of stage 2 on a descriptor (`translateStage_s1Ns_fault`),
and the first descriptor is the one the registers give (`translateStage_of_firstDescriptor_fault`). -/
theorem nestedTranslationCombines : Obligations.NestedTranslationCombines := by
  intro s user va k b b' hm hp he
  have hs1 := translateOn_s1Ns hm hp user va k b
  have he10 := translateOn_e10Ns hm hp he user va k b
  have hs2 := translateOn_stage2 hm hp he
  simp only [hs1, he10, hs2]
  refine ⟨fun x h => ?_, fun f h => ?_, fun f h => ⟨translateNested_of_stage1_fault h, ?_⟩, fun a ha f₂ h => ?_⟩
  · obtain ⟨x₁, b₁, x₂, h₁, h₂, rfl⟩ := translateNested_ok he h
    refine ⟨x₁, b₁, x₂, h₁, h₂, rfl, rfl, rfl, rfl, ?_⟩
    rw [← stage1Attrs_s1Ns (has_el2_of_stage2Enabled he) user k x₁]
    exact combineAttrs_eq_bothStages _ _ _ _
  · refine (translateNested_fault h).imp_right fun ⟨x₁, b₁, f₂, h₁, h₂, hf⟩ => ?_
    exact ⟨x₁, b₁, f₂, h₁, h₂, walkStage2_formatLong h₂, hf⟩
  · refine (translateStage_s1Ns_fault he h).imp_right fun ⟨b₁, f₂, h₂, hf⟩ => ?_
    exact ⟨b₁, f₂, h₂, walkStage2_formatLong h₂, hf⟩
  · exact translateNested_of_stage1_fault (translateStage_of_firstDescriptor_fault he ha h k)

end Sys2Proof.Machine
end
